-- ==== Sys2Proof/Word.lean ====
section
/-! DEFINITION. The word types of the KA24's ports, link frames and receipt array. -/

namespace Sys2Proof

/-- One byte of a frame or of the receipt array. -/
abbrev Byte := BitVec 8

/-- A 2-byte field. -/
abbrev Word16 := BitVec 16

/-- A 4-byte field: watts, receipt numbers, meter registers, the calendar (R183). -/
abbrev Word32 := BitVec 32

/-- One 8-byte word of the receipt array (R153). -/
abbrev Word64 := BitVec 64

end Sys2Proof
end

