-- ==== Sys2Proof/Config.lean ====
section
/-! DEFINITION. The values the manual leaves open. Each is a constant without a body, so no proof can rest on
what it is. -/

namespace Sys2Proof

/-- The byte STATUS returns as "next node to consider" while the round state is IDLE (R98 gives the number only
with RUNNING). Free value: log entry 14. -/
opaque Config.idleNextNode : Byte

/-- The 32-bit number that stands where the next receipt number would pass 4,294,967,295 (R157 calls it a 32-bit
value and does not say what follows the greatest). Free value: log entry 13. -/
opaque Config.numberPastTop : Nat → Word32

/-- The erase time of a sector in ms, "a property of the array that is at most 1,200 ms" (R171). Free value: log entry
24. -/
opaque Config.eraseTime : Fin 16 → Fin 1201

/-- How many words the start-up scan reads in a millisecond, by the time base (R173 bounds the whole scan only). Free
value: log entry 46. -/
opaque Config.scanRate : Nat → Nat

end Sys2Proof
end

