-- ==== Sys2Proof/Syntax.lean ====
section
/-! DEFINITION. The commands of the KA24: one constructor of `Instr` for each row of spec/opcode_table.json. A port
command carries the port it arrived on and its operands as R183 sizes them; an event carries what comes with it from
outside (a measured stretch, received bytes, what the array took). -/

namespace Sys2Proof

/-- The two command ports (R179). -/
inductive Port where
  | s  -- port S, the site processor
  | c  -- port C, the charge processor
deriving DecidableEq, Repr

/-- A charge point, numbered 0 to 23 (Conventions, Identifiers). -/
abbrev Point := Fin 24

/-- The result of a read's check code (R166). -/
inductive Integrity where
  | clean
  | corrected
  | damaged
deriving DecidableEq, Repr

/-- The character errors of R110, checks 2 to 4. -/
inductive CharacterError where
  | overrun
  | parity
  | framing
deriving DecidableEq, Repr

/-- What a check code shows when its word, or its mark byte, is read (R153, R166): no error; one bit in error, a bit of
the data or, with none named, of the code itself; two bits in error. -/
inductive CheckCode where
  | clean
  | corrected (bit : Option (Fin 64))
  | damaged
deriving DecidableEq, Repr

/-- What the front end measured since the last event that carried a stretch: its length in ms and the energy taken
through the connection point in it, in W·ms (R2). That the two parts of the running average are whole numbers of ms and
of W·ms is the model's choice (log entry 45). -/
structure Stretch where
  ms : Nat
  energy : Int
deriving DecidableEq, Repr

/-- The five marks of a slot, in the order of their offsets 120 to 124 (R156). -/
inductive Mark where
  | opened
  | closed
  | collected
  | bad
  | superseded
deriving DecidableEq, Repr

/-- What the array took of a program of a word or of a mark byte: the bits that reached it, before correction, and what
its check code then shows (R153, R166; log entry 10). Of a mark byte only the low 8 bits are meant. -/
structure ArrayResult where
  value : Word64
  code : CheckCode
deriving DecidableEq, Repr

/-- What a program left in one word of the slot. -/
structure WordResult where
  word : Fin 16
  left : ArrayResult
deriving DecidableEq, Repr

/-- What a program left in one mark byte. -/
structure MarkResult where
  mark : Mark
  left : ArrayResult
deriving DecidableEq, Repr

/-- How the array took a program attempt. A word or mark that is not named was written as asked and reads CLEAN
(log entry 10). -/
structure ProgramOutcome where
  words : List WordResult
  marks : List MarkResult
deriving DecidableEq, Repr

/-- How the array took the attempts at the header program that ends an erase, in their order; an attempt that is not
listed was taken as asked (R172). -/
structure HeaderOutcome where
  attempts : List ArrayResult
deriving DecidableEq, Repr

/-- A place of the array with a check code of its own: a word, numbered slot index × 16 + word for the slots' words and
32,768 + sector for the headers, or one byte of a slot's mark word (R153). -/
inductive ArrayPlace where
  | word (number : Nat)
  | markByte (slot : Nat) (byte : Fin 8)
deriving DecidableEq, Repr

/-- What an interrupted program or erase left at one place of the array (R153, R174). -/
structure Residue where
  place : ArrayPlace
  left : ArrayResult
deriving DecidableEq, Repr

/-- The programs the start-up scan itself makes (R175). -/
inductive ScanTarget where
  | header (sector : Fin 16)
  | superseded (slot : Fin 2048)
  | gap (slot : Fin 2048)
deriving DecidableEq, Repr

/-- How the array took the attempts at a program of the scan, in their order; an attempt that is not listed was taken as
asked (R175). -/
structure ScanResult where
  target : ScanTarget
  attempts : List ArrayResult
deriving DecidableEq, Repr

/-- One band of a LOAD TARIFF frame (R183). -/
structure BandOperand where
  standard : Word16
  solar : Word16
  permission : Byte
deriving DecidableEq, Repr

/-- One switch-point place of a LOAD TARIFF frame (R183). -/
structure PlaceOperand where
  minute : Word16
  band : Byte
deriving DecidableEq, Repr

/-- The operand of LOAD TARIFF, a whole edition as the frame carries it: 54 bytes (R137, R183). -/
structure TariffOperand where
  edition : Word16
  bands : Vector BandOperand 4
  count : Byte
  places : Vector PlaceOperand 8
  sessionFee : Word16
  idleFee : Word16
  idleGrace : Byte
  idleCap : Word16
deriving DecidableEq, Repr

/-- The operands of SET LIMITS (R6). -/
structure LimitsOperand where
  lImp : Word32
  lRed : Word32
  lExp : Word32
  margin : Word32
  lFb : Word32
  tLive : Word16
deriving DecidableEq, Repr

/-- The operands of SET POLICY (R189). -/
structure PolicyOperand where
  mode : Byte
  tFair : Word16
  tRun : Word16
  tDwell : Word16
  tClear : Byte
  tGrace : Byte
  bSafe : Word32
deriving DecidableEq, Repr

/-- The commands and events of the table, in its order. -/
inductive Instr where
  | deviceReset (left : List Residue)
  | frontEndValidity (lossOfReference converterFault : Bool) (stretch : Stretch)
  | periodClose (stretch : Stretch)
  | finalWaitExpiry (point : Point)
  | limreqNChange (low : Bool)
  | limitLineEdge
  | secondTick
  | leaseLapse
  | newReading
  | recomputeRequest
  | allocation
  | dwellEnd
  | reductionAcknowledgement (point : Point)
  | reductionRequest (point : Point)
  | frameSend
  | zeroFrame
  | replyReceived (bytes : List Byte)
  | replyTimeout
  | replySilence
  | linkCharacterError (error : CharacterError)
  | sessionReport (point : Point)
  | programStart
  | openingProgram (outcome : ProgramOutcome)
  | closingProgram (outcome : ProgramOutcome)
  | relocation (outcome : ProgramOutcome)
  | collectProgram (outcome : ProgramOutcome)
  | orphanClosing (outcome : ProgramOutcome)
  | eraseSuspend
  | eraseComplete (outcome : HeaderOutcome)
  | startupScan (results : List ScanResult)
  | shortFrame (port : Port)
  | unknownCommand (port : Port) (code : Byte)
  | status (port : Port)
  | readBalance (port : Port)
  | readSession (port : Port) (point : Byte)
  | readNode (port : Port) (node : Byte)
  | readReceipt (port : Port) (number : Word32)
  | readTime (port : Port)
  | takeNotice (port : Port)
  | endNotice (port : Port)
  | setNoticeMask (port : Port) (enables : Word16) (threshold : Byte)
  | sendMail (port : Port) (message : BitVec 256)
  | readMail (port : Port)
  | releaseTrip (port : Port)
  | portReset (port : Port)
  | setSite (port : Port) (tBal vNom : Word16) (rate tReply : Byte)
  | setLimits (port : Port) (limits : LimitsOperand)
  | renewLimit (port : Port)
  | setBattery (port : Port) (discharge charge : Word32) (socLo socHi : Word16)
  | setCanopy (port : Port) (rating failsafe : Word32)
  | configurePoint (port : Port) (point kind : Byte) (maximum minimum failsafe : Word32)
  | removePoint (port : Port) (node : Byte)
  | holdPoint (port : Port) (point setting : Byte)
  | setPolicy (port : Port) (policy : PolicyOperand)
  | setTime (port : Port) (calendar : Word32)
  | setRetention (port : Port) (retention : Word16)
  | loadTariff (port : Port) (tariff : TariffOperand)
  | openSession (port : Port) (point : Byte) (customer : Word32) (cls : Byte)
  | closeSession (port : Port) (point : Byte)
  | pauseSession (port : Port) (point setting : Byte)
  | setClass (port : Port) (point cls : Byte)
  | readNextReceipt (port : Port)
  | collectReceipt (port : Port) (number : Word32)
  | readNextOrphan (port : Port)
  | closeOrphan (port : Port) (number register : Word32)
  | lengthFieldAbove16
deriving DecidableEq, Repr

end Sys2Proof
end

