-- ==== Sys2Proof/Decode.lean ====
section
/-! DEFINITION. Reading a port frame (R179 to R183) and writing one; little-endian fields and the CRC of the field link
(R104). `decodeTableWord` answers none: no row of the table has bits (log entry 39). -/

namespace Sys2Proof

/-- `k` bytes of `n`, least significant first (Conventions, Numbers and notation). -/
def leBytes : Nat → Nat → List Byte
  | 0, _ => []
  | k + 1, n => BitVec.ofNat 8 n :: leBytes k (n / 256)

/-- `k` bytes of a signed number in two's complement, least significant first. -/
def leBytesInt (k : Nat) (i : Int) : List Byte :=
  leBytes k (i % (256 ^ k : Nat)).toNat

/-- The number a list of bytes carries, least significant first. -/
def leNat : List Byte → Nat
  | [] => 0
  | b :: bs => b.toNat + 256 * leNat bs

/-- The field of `k` bytes at offset `i`. -/
def fieldAt (bytes : List Byte) (i k : Nat) : Nat :=
  leNat ((bytes.drop i).take k)

/-- The byte at offset `i`. -/
def byteAt (bytes : List Byte) (i : Nat) : Byte :=
  BitVec.ofNat 8 (fieldAt bytes i 1)

/-- The 2-byte field at offset `i`. -/
def wordAt (bytes : List Byte) (i : Nat) : Word16 :=
  BitVec.ofNat 16 (fieldAt bytes i 2)

/-- The 4-byte field at offset `i`. -/
def longAt (bytes : List Byte) (i : Nat) : Word32 :=
  BitVec.ofNat 32 (fieldAt bytes i 4)

/-- One bit through the CRC register: polynomial x^16 + x^12 + x^5 + 1 (R104). -/
def crcBit (crc : Word16) : Word16 :=
  if crc.msb then (crc <<< 1) ^^^ 0x1021#16 else crc <<< 1

/-- One byte through the CRC register, most significant bit first (R104). -/
def crcByte (crc : Word16) (b : Byte) : Word16 :=
  crcBit (crcBit (crcBit (crcBit (crcBit (crcBit (crcBit (crcBit (crc ^^^ (b.zeroExtend 16 <<< 8)))))))))

/-- The CRC-16 of R104: initial register 0xFFFF, no final inversion. -/
def crc16 (bytes : List Byte) : Word16 :=
  bytes.foldl crcByte 0xFFFF#16

/-- Which ports may issue a command (R183). -/
inductive Issuers where
  | both
  | siteOnly
  | chargeOnly
deriving DecidableEq, Repr

/-- One row of R183's table: who may issue the command, and its operand and result lengths in bytes. -/
structure CommandRow where
  issuers : Issuers
  operands : Nat
  result : Nat
deriving DecidableEq, Repr

/-- The command table of R183, by code. -/
def commandRow (code : Nat) : Option CommandRow :=
  match code with
  | 0x01 => some ⟨.both, 0, 182⟩
  | 0x02 => some ⟨.both, 0, 70⟩
  | 0x03 => some ⟨.both, 1, 124⟩
  | 0x04 => some ⟨.both, 1, 57⟩
  | 0x05 => some ⟨.both, 4, 133⟩
  | 0x06 => some ⟨.both, 0, 7⟩
  | 0x07 => some ⟨.both, 0, 5⟩
  | 0x08 => some ⟨.both, 0, 1⟩
  | 0x09 => some ⟨.both, 3, 0⟩
  | 0x0A => some ⟨.both, 32, 0⟩
  | 0x0B => some ⟨.both, 0, 32⟩
  | 0x0C => some ⟨.both, 0, 0⟩
  | 0x0D => some ⟨.both, 0, 0⟩
  | 0x20 => some ⟨.siteOnly, 6, 0⟩
  | 0x21 => some ⟨.siteOnly, 22, 0⟩
  | 0x22 => some ⟨.siteOnly, 0, 0⟩
  | 0x23 => some ⟨.siteOnly, 12, 0⟩
  | 0x24 => some ⟨.siteOnly, 8, 0⟩
  | 0x25 => some ⟨.siteOnly, 14, 0⟩
  | 0x26 => some ⟨.siteOnly, 1, 0⟩
  | 0x27 => some ⟨.siteOnly, 2, 0⟩
  | 0x28 => some ⟨.siteOnly, 13, 0⟩
  | 0x29 => some ⟨.siteOnly, 4, 0⟩
  | 0x2A => some ⟨.siteOnly, 2, 0⟩
  | 0x40 => some ⟨.chargeOnly, 54, 0⟩
  | 0x41 => some ⟨.chargeOnly, 6, 4⟩
  | 0x42 => some ⟨.chargeOnly, 1, 4⟩
  | 0x43 => some ⟨.chargeOnly, 2, 0⟩
  | 0x44 => some ⟨.chargeOnly, 2, 0⟩
  | 0x45 => some ⟨.chargeOnly, 0, 133⟩
  | 0x46 => some ⟨.chargeOnly, 4, 0⟩
  | 0x47 => some ⟨.chargeOnly, 0, 41⟩
  | 0x48 => some ⟨.chargeOnly, 8, 0⟩
  | _ => none

/-- Whether a command of these issuers may come on the port (R183). -/
def Issuers.allows : Issuers → Port → Bool
  | .both, _ => true
  | .siteOnly, p => p == .s
  | .chargeOnly, p => p == .c

/-- The bands of a LOAD TARIFF frame, 5 bytes each from offset 2 (R183). -/
def decodeBand (bytes : List Byte) (b : Nat) : BandOperand :=
  { standard := wordAt bytes (2 + 5 * b), solar := wordAt bytes (4 + 5 * b), permission := byteAt bytes (6 + 5 * b) }

/-- The switch-point places of a LOAD TARIFF frame, 3 bytes each from offset 23 (R183). -/
def decodePlace (bytes : List Byte) (k : Nat) : PlaceOperand :=
  { minute := wordAt bytes (23 + 3 * k), band := byteAt bytes (25 + 3 * k) }

/-- A whole LOAD TARIFF operand: 2 + 20 + 1 + 24 + 2 + 2 + 1 + 2 bytes (R183). -/
def decodeTariff (bytes : List Byte) : TariffOperand :=
  { edition := wordAt bytes 0
    bands := #v[decodeBand bytes 0, decodeBand bytes 1, decodeBand bytes 2, decodeBand bytes 3]
    count := byteAt bytes 22
    places := #v[decodePlace bytes 0, decodePlace bytes 1, decodePlace bytes 2, decodePlace bytes 3,
      decodePlace bytes 4, decodePlace bytes 5, decodePlace bytes 6, decodePlace bytes 7]
    sessionFee := wordAt bytes 47
    idleFee := wordAt bytes 49
    idleGrace := byteAt bytes 51
    idleCap := wordAt bytes 52 }

/-- The command that a code and its whole operand phase spell (R183). -/
def decodeOperands (p : Port) (code : Nat) (b : List Byte) : Option Instr :=
  match code with
  | 0x01 => some (.status p)
  | 0x02 => some (.readBalance p)
  | 0x03 => some (.readSession p (byteAt b 0))
  | 0x04 => some (.readNode p (byteAt b 0))
  | 0x05 => some (.readReceipt p (longAt b 0))
  | 0x06 => some (.readTime p)
  | 0x07 => some (.takeNotice p)
  | 0x08 => some (.endNotice p)
  | 0x09 => some (.setNoticeMask p (wordAt b 0) (byteAt b 2))
  | 0x0A => some (.sendMail p (BitVec.ofNat 256 (fieldAt b 0 32)))
  | 0x0B => some (.readMail p)
  | 0x0C => some (.releaseTrip p)
  | 0x0D => some (.portReset p)
  | 0x20 => some (.setSite p (wordAt b 0) (wordAt b 2) (byteAt b 4) (byteAt b 5))
  | 0x21 => some (.setLimits p ⟨longAt b 0, longAt b 4, longAt b 8, longAt b 12, longAt b 16, wordAt b 20⟩)
  | 0x22 => some (.renewLimit p)
  | 0x23 => some (.setBattery p (longAt b 0) (longAt b 4) (wordAt b 8) (wordAt b 10))
  | 0x24 => some (.setCanopy p (longAt b 0) (longAt b 4))
  | 0x25 => some (.configurePoint p (byteAt b 0) (byteAt b 1) (longAt b 2) (longAt b 6) (longAt b 10))
  | 0x26 => some (.removePoint p (byteAt b 0))
  | 0x27 => some (.holdPoint p (byteAt b 0) (byteAt b 1))
  | 0x28 => some (.setPolicy p
      ⟨byteAt b 0, wordAt b 1, wordAt b 3, wordAt b 5, byteAt b 7, byteAt b 8, longAt b 9⟩)
  | 0x29 => some (.setTime p (longAt b 0))
  | 0x2A => some (.setRetention p (wordAt b 0))
  | 0x40 => some (.loadTariff p (decodeTariff b))
  | 0x41 => some (.openSession p (byteAt b 0) (longAt b 1) (byteAt b 5))
  | 0x42 => some (.closeSession p (byteAt b 0))
  | 0x43 => some (.pauseSession p (byteAt b 0) (byteAt b 1))
  | 0x44 => some (.setClass p (byteAt b 0) (byteAt b 1))
  | 0x45 => some (.readNextReceipt p)
  | 0x46 => some (.collectReceipt p (longAt b 0))
  | 0x47 => some (.readNextOrphan p)
  | 0x48 => some (.closeOrphan p (longAt b 0) (longAt b 4))
  | _ => none

/-- The command that a frame spells on a port: its whole bytes, and the clock edges of a byte cut short at its end. A
frame whose select goes high inside the command byte or the operand phase is a short frame, a select pulse without a
clock edge no frame (R180); a byte that names no command has no operand phase (R182); what follows the operand phase, a
partial byte included, is ignored (R179, R180). -/
def decodeFrame (p : Port) (bytes : List Byte) (bits : Fin 8) : Option Instr :=
  match bytes with
  | [] => if bits = 0 then none else some (.shortFrame p)
  | code :: rest =>
    match commandRow code.toNat with
    | none => some (.unknownCommand p code)
    | some row =>
      if rest.length < row.operands then some (.shortFrame p)
      else decodeOperands p code.toNat (rest.take row.operands)

/-- One band as LOAD TARIFF carries it. -/
def encodeBand (b : BandOperand) : List Byte :=
  leBytes 2 b.standard.toNat ++ leBytes 2 b.solar.toNat ++ leBytes 1 b.permission.toNat

/-- One switch-point place as LOAD TARIFF carries it. -/
def encodePlace (x : PlaceOperand) : List Byte :=
  leBytes 2 x.minute.toNat ++ leBytes 1 x.band.toNat

/-- The 54 operand bytes of LOAD TARIFF (R183). -/
def encodeTariff (t : TariffOperand) : List Byte :=
  leBytes 2 t.edition.toNat ++
    (encodeBand t.bands[0] ++ encodeBand t.bands[1] ++ encodeBand t.bands[2] ++ encodeBand t.bands[3]) ++
    leBytes 1 t.count.toNat ++
    (encodePlace t.places[0] ++ encodePlace t.places[1] ++ encodePlace t.places[2] ++ encodePlace t.places[3] ++
      encodePlace t.places[4] ++ encodePlace t.places[5] ++ encodePlace t.places[6] ++ encodePlace t.places[7]) ++
    leBytes 2 t.sessionFee.toNat ++ leBytes 2 t.idleFee.toNat ++ leBytes 1 t.idleGrace.toNat ++
    leBytes 2 t.idleCap.toNat

/-- The command byte and operand bytes of a port command, with its port; none for an event that no frame carries
(R183). -/
def encodeFrame : Instr → Option (Port × List Byte)
  | .unknownCommand p code => some (p, [code])
  | .status p => some (p, [0x01#8])
  | .readBalance p => some (p, [0x02#8])
  | .readSession p point => some (p, 0x03#8 :: leBytes 1 point.toNat)
  | .readNode p node => some (p, 0x04#8 :: leBytes 1 node.toNat)
  | .readReceipt p number => some (p, 0x05#8 :: leBytes 4 number.toNat)
  | .readTime p => some (p, [0x06#8])
  | .takeNotice p => some (p, [0x07#8])
  | .endNotice p => some (p, [0x08#8])
  | .setNoticeMask p enables threshold => some (p, 0x09#8 :: (leBytes 2 enables.toNat ++ leBytes 1 threshold.toNat))
  | .sendMail p message => some (p, 0x0A#8 :: leBytes 32 message.toNat)
  | .readMail p => some (p, [0x0B#8])
  | .releaseTrip p => some (p, [0x0C#8])
  | .portReset p => some (p, [0x0D#8])
  | .setSite p tBal vNom rate tReply =>
    some (p, 0x20#8 :: (leBytes 2 tBal.toNat ++ leBytes 2 vNom.toNat ++ leBytes 1 rate.toNat ++ leBytes 1 tReply.toNat))
  | .setLimits p l =>
    some (p, 0x21#8 :: (leBytes 4 l.lImp.toNat ++ leBytes 4 l.lRed.toNat ++ leBytes 4 l.lExp.toNat ++
      leBytes 4 l.margin.toNat ++ leBytes 4 l.lFb.toNat ++ leBytes 2 l.tLive.toNat))
  | .renewLimit p => some (p, [0x22#8])
  | .setBattery p discharge charge socLo socHi =>
    some (p, 0x23#8 :: (leBytes 4 discharge.toNat ++ leBytes 4 charge.toNat ++ leBytes 2 socLo.toNat ++
      leBytes 2 socHi.toNat))
  | .setCanopy p rating failsafe => some (p, 0x24#8 :: (leBytes 4 rating.toNat ++ leBytes 4 failsafe.toNat))
  | .configurePoint p point kind maximum minimum failsafe =>
    some (p, 0x25#8 :: (leBytes 1 point.toNat ++ leBytes 1 kind.toNat ++ leBytes 4 maximum.toNat ++
      leBytes 4 minimum.toNat ++ leBytes 4 failsafe.toNat))
  | .removePoint p node => some (p, 0x26#8 :: leBytes 1 node.toNat)
  | .holdPoint p point setting => some (p, 0x27#8 :: (leBytes 1 point.toNat ++ leBytes 1 setting.toNat))
  | .setPolicy p q =>
    some (p, 0x28#8 :: (leBytes 1 q.mode.toNat ++ leBytes 2 q.tFair.toNat ++ leBytes 2 q.tRun.toNat ++
      leBytes 2 q.tDwell.toNat ++ leBytes 1 q.tClear.toNat ++ leBytes 1 q.tGrace.toNat ++ leBytes 4 q.bSafe.toNat))
  | .setTime p calendar => some (p, 0x29#8 :: leBytes 4 calendar.toNat)
  | .setRetention p retention => some (p, 0x2A#8 :: leBytes 2 retention.toNat)
  | .loadTariff p t => some (p, 0x40#8 :: encodeTariff t)
  | .openSession p point customer cls =>
    some (p, 0x41#8 :: (leBytes 1 point.toNat ++ leBytes 4 customer.toNat ++ leBytes 1 cls.toNat))
  | .closeSession p point => some (p, 0x42#8 :: leBytes 1 point.toNat)
  | .pauseSession p point setting => some (p, 0x43#8 :: (leBytes 1 point.toNat ++ leBytes 1 setting.toNat))
  | .setClass p point cls => some (p, 0x44#8 :: (leBytes 1 point.toNat ++ leBytes 1 cls.toNat))
  | .readNextReceipt p => some (p, [0x45#8])
  | .collectReceipt p number => some (p, 0x46#8 :: leBytes 4 number.toNat)
  | .readNextOrphan p => some (p, [0x47#8])
  | .closeOrphan p number register => some (p, 0x48#8 :: (leBytes 4 number.toNat ++ leBytes 4 register.toNat))
  | .deviceReset _ => none
  | .frontEndValidity _ _ _ => none
  | .periodClose _ => none
  | .finalWaitExpiry _ => none
  | .limreqNChange _ => none
  | .limitLineEdge => none
  | .secondTick => none
  | .leaseLapse => none
  | .newReading => none
  | .recomputeRequest => none
  | .allocation => none
  | .dwellEnd => none
  | .reductionAcknowledgement _ => none
  | .reductionRequest _ => none
  | .frameSend => none
  | .zeroFrame => none
  | .replyReceived _ => none
  | .replyTimeout => none
  | .replySilence => none
  | .linkCharacterError _ => none
  | .sessionReport _ => none
  | .programStart => none
  | .openingProgram _ => none
  | .closingProgram _ => none
  | .relocation _ => none
  | .collectProgram _ => none
  | .orphanClosing _ => none
  | .eraseSuspend => none
  | .eraseComplete _ => none
  | .startupScan _ => none
  | .shortFrame _ => none
  | .lengthFieldAbove16 => none

/-- The command that a word spells by the table's bits: the table gives no row any bits (log entry 39). -/
def decodeTableWord (_nbits _w : Nat) : Option Instr := none

end Sys2Proof
end

