-- ==== Sys2Proof/Machine/State.lean ====
section
/-! DEFINITION. The state of the KA24, unit by unit (INVENTORY.md, State), and its value after device reset. Powers and
counts are numbers; fields the manual calls modular (registers, the calendar, sequences, set numbers) are bit vectors. -/

namespace Sys2Proof.Machine

open Sys2Proof

/-! ## Names of the manual -/

/-- Quality of a reading (R3). -/
inductive Quality where
  | good
  | saturated
  | missing
deriving DecidableEq, Repr

/-- Judgement of a reading (R15). -/
inductive Judgement where
  | unjudged
  | clean
  | excess
  | missing
deriving DecidableEq, Repr

/-- State of the limit request line (R8). -/
inductive Line where
  | released
  | asserted
deriving DecidableEq, Repr

/-- Lease state (R11). -/
inductive Lease where
  | off
  | live
  | lapsed
deriving DecidableEq, Repr

/-- Escalation state (R18). -/
inductive Escalation where
  | unconfigured
  | normal
  | curtail
  | shed
  | tripped
deriving DecidableEq, Repr

/-- Staging state of the grant set in force (R90). -/
inductive Staging where
  | reducing
  | dwelling
  | released
deriving DecidableEq, Repr

/-- Staging mark of an entry (R88). -/
inductive EntryMark where
  | reduction
  | unchanged
  | raised
  | offline
deriving DecidableEq, Repr

/-- Sharing mode (R96). -/
inductive Mode where
  | shared
  | priority
deriving DecidableEq, Repr

/-- Kind of a node (R98); `notConfigured` is the manual's NONE. -/
inductive NodeKind where
  | notConfigured
  | ac1
  | ac3
  | dc
  | canopy
  | battery
deriving DecidableEq, Repr

/-- State of a node (R98). -/
inductive NodeState where
  | absent
  | joining
  | online
  | lost
deriving DecidableEq, Repr

/-- Bit rate of the field link (R103). -/
inductive BitRate where
  | b57600
  | b115200
  | b230400
deriving DecidableEq, Repr

/-- State of a session record (R54). -/
inductive SessionState where
  | free
  | opening
  | waiting
  | charging
  | stopped
  | done
  | closing
deriving DecidableEq, Repr

/-- Class of a session (R54). -/
inductive SessionClass where
  | standard
  | priority
deriving DecidableEq, Repr

/-- The slot a session's edition stands in (R54, R136). -/
inductive TariffSlot where
  | current
  | previous
deriving DecidableEq, Repr

/-- Reason of a close (R54, R156). -/
inductive EndReason where
  | customer
  | unplugged
  | storeFault
  | powerLoss
deriving DecidableEq, Repr

/-- State of the receipt log (R173). -/
inductive LogState where
  | starting
  | ready
  | fault
deriving DecidableEq, Repr

/-- State of a sector (R155). -/
inductive SectorState where
  | free
  | active
  | full
  | erasing
  | eraseSuspended
deriving DecidableEq, Repr

/-- State of a receipt slot (R154). -/
inductive SlotState where
  | erased
  | reserved
  | opened
  | closed
  | collected
  | bad
  | superseded
deriving DecidableEq, Repr

/-- Notice kinds (section 10.4), lowest rank first. -/
inductive NoticeKind where
  | mail
  | nodeJoined
  | spaceLow
  | orphansFound
  | sessionDone
  | sessionOpened
  | openFailed
  | sessionClosed
  | measureMissing
  | nodeLost
  | limitLine
  | leaseLapsed
  | storeFault
  | escalation
  | tripped
deriving DecidableEq, Repr

/-- Status of a reply (R181). -/
inductive Status where
  | ok
  | accepted
  | busy
  | refused
  | wrongPort
  | unknown
deriving DecidableEq, Repr

/-- Reason of a BUSY or REFUSED reply (R181). -/
inductive Reason where
  | starting
  | notReady
  | noTime
  | noTariff
  | noSpace
  | storeFault
  | tripped
  | inUse
  | badValue
  | badSchedule
  | state
  | full
  | empty
  | notFound
  | already
deriving DecidableEq, Repr

/-! ## The units -/

/-- The settings of SET SITE that several units read (R188). -/
structure Site where
  tBal : Nat
  vNom : Nat
deriving DecidableEq, Repr

/-- A reading (R3). -/
structure Reading where
  period : Word32
  pGrid : Int
  quality : Quality
deriving DecidableEq, Repr

/-- The connection meter (R1 to R3) with the judgement stored beside its reading (R15). -/
structure Cmu where
  periodLength : Nat
  periodTimer : Nat
  energy : Int
  validTime : Nat
  lossOfReference : Bool
  converterFault : Bool
  periodNumber : Word32
  reading : Reading
  readingExists : Bool
  judgement : Judgement
deriving DecidableEq, Repr

/-- The limit supervisor (R5 to R14, R18, R19). -/
structure Lsu where
  lImp : Nat
  lRed : Nat
  lExp : Nat
  margin : Nat
  lFb : Nat
  tLive : Nat
  limitsValid : Bool
  line : Line
  limreqLow : Bool
  debounce : Nat
  lEff : Nat
  lease : Lease
  leaseCount : Nat
  checkLimit : Nat
  esc : Escalation
  cleanCount : Nat
  graceCount : Nat
  latchS : Bool
  latchC : Bool
  trip : Bool
  tClear : Nat
  tGrace : Nat
deriving DecidableEq, Repr

/-- The balance record (R33). -/
structure BalanceRecord where
  period : Word32
  recomputed : Bool
  n : Int
  a : Int
  d : Nat
  b : Nat
  qo : Int
  cap : Nat
  pvW : Nat
  batW : Nat
  c : Nat
  esc : Escalation
  missing : Nat
deriving DecidableEq, Repr

/-- The balance unit (R33). -/
structure Bau where
  record : BalanceRecord
  missingCount : Nat
  pBdMax : Nat
  pBcMax : Nat
  socLo : Nat
  socHi : Nat
  pPvRat : Nat
  bSafe : Nat
deriving DecidableEq, Repr

/-- One entry of a grant set (R88). `leftOnline` says that the node has left ONLINE since the set was formed: such an
entry is no longer released (R95, R115; log entry 17). -/
structure GrantEntry where
  target : Nat
  power : Nat
  mark : EntryMark
  leftOnline : Bool
deriving DecidableEq, Repr

/-- The grant set in force (R88). -/
structure GrantSet where
  number : Word16
  budget : Nat
  entries : Vector GrantEntry 24
deriving DecidableEq, Repr

/-- A point's value to send, the target power handed with it, and its pending-reduction mark (R89). -/
structure SendValue where
  value : Nat
  power : Nat
  pendingReduction : Bool
deriving DecidableEq, Repr

/-- The allocator (R76, R88 to R96). -/
structure Alu where
  queue : List Point
  set : GrantSet
  points : Vector SendValue 24
  staging : Staging
  lastAck : Option Nat
  dwellLength : Nat
  dwellOver : Bool
  k : Nat
  mode : Mode
  tFair : Nat
  tRun : Nat
  tDwell : Nat
deriving DecidableEq, Repr

/-- The latest report fields of a node, by kind (R98, R104). -/
inductive Report where
  | chargePoint (register : Word32) (power request : Nat) (plugged : Bool) (fault : Byte)
  | canopy (power available : Nat) (fault : Byte)
  | battery (power : Int) (soc : Nat) (fault : Byte)
deriving DecidableEq, Repr

/-- One entry of the node table (R98). The sent value is signed because node 25's order is. -/
structure Node where
  kind : NodeKind
  state : NodeState
  maximum : Nat
  minimum : Nat
  failsafe : Nat
  sentValue : Int
  sentPower : Nat
  sentFailsafe : Nat
  sequence : Byte
  lastEcho : Option Byte
  report : Option Report
  misses : Nat
  frameErrors : Nat
  replyCount : Word32
deriving DecidableEq, Repr

/-- Link settings (R103). -/
structure LinkSettings where
  rate : BitRate
  tReply : Nat
deriving DecidableEq, Repr

/-- The exchange in progress: its node, whether the node has been removed since the frame (R102), and whether its kind
has changed since the frame (R117). -/
structure Exchange where
  node : Fin 26
  removed : Bool
  kindChanged : Bool
deriving DecidableEq, Repr

/-- One bit of a character on the field link (R103). -/
inductive LinkBit where
  | start
  | data (bit : Bool)
  | parity (bit : Bool)
  | stop
deriving DecidableEq, Repr

/-- The field link controller (R98, R103). -/
structure Flc where
  nodes : Vector Node 26
  inForce : LinkSettings
  held : LinkSettings
  running : Bool
  nextNode : Nat
  startPending : Bool
  overruns : Nat
  broadcastPending : Bool
  exchange : Option Exchange
  replyTimer : Nat
  line : List LinkBit
deriving DecidableEq, Repr

/-- The twelve accumulators of a session, in mWh, by band (R120). -/
structure Accounts where
  pv : Vector Nat 4
  bat : Vector Nat 4
  grid : Vector Nat 4
deriving DecidableEq, Repr

/-- End reason and close time, from the start of closing (R54). -/
structure Ending where
  reason : EndReason
  closeTime : Word32
deriving DecidableEq, Repr

/-- Meter end and amounts, from the end of the final-meter wait (R54, R71). -/
structure Priced where
  meterEnd : Word32
  energy : Nat
  idle : Nat
  total : Nat
deriving DecidableEq, Repr

/-- One session record (R54, R120). -/
structure Session where
  state : SessionState
  number : Nat
  slot : Nat
  customer : Word32
  cls : SessionClass
  edition : Word16
  tariffSlot : TariffSlot
  pause : Bool
  hold : Bool
  openTime : Word32
  meterStart : Word32
  lastMeter : Word32
  lastReport : Option Nat
  accounts : Accounts
  disputed : Nat
  idleSeconds : Nat
  zeroRequests : Nat
  meterSuspect : Bool
  nodeLostSeen : Bool
  tripSeen : Bool
  waitCount : Nat
  grantAge : Nat
  grant : Nat
  pendingClose : Option EndReason
  ending : Option Ending
  finalWait : Option Nat
  priced : Option Priced
deriving DecidableEq, Repr

/-- The session unit: the session table and the millisecond time base (R54, R120). -/
structure Ssu where
  sessions : Vector Session 24
  timeBase : Nat
deriving DecidableEq, Repr

/-- One band of an edition (R137). -/
structure Band where
  standard : Nat
  solar : Nat
  gridCharge : Bool
deriving DecidableEq, Repr

/-- One switch point of a schedule (R137). -/
structure SwitchPoint where
  minute : Nat
  band : Fin 4
deriving DecidableEq, Repr

/-- A tariff edition (R137). -/
structure Edition where
  number : Word16
  bands : Vector Band 4
  schedule : List SwitchPoint
  sessionFee : Nat
  idleFee : Nat
  idleGrace : Nat
  idleCap : Nat
deriving DecidableEq, Repr

/-- A slot that holds an edition, with its reference count (R136). -/
structure HeldEdition where
  edition : Edition
  refs : Nat
deriving DecidableEq, Repr

/-- The tariff unit (R136, R144). -/
structure Tfu where
  current : Option HeldEdition
  previous : Option HeldEdition
  calendar : Word32
  calendarValid : Bool
  secondTimer : Nat
deriving DecidableEq, Repr

/-- The opening part of a receipt (R57, R156). -/
structure OpeningPart where
  number : Nat
  point : Nat
  cls : SessionClass
  edition : Word16
  customer : Word32
  openTime : Word32
  meterStart : Word32
  fallbackPrice : Nat
  sessionFee : Nat
deriving DecidableEq, Repr

/-- The closing part of a receipt (R71, R156). -/
structure ClosingPart where
  closeTime : Word32
  meterEnd : Word32
  reason : EndReason
  meterSuspect : Bool
  nodeLostSeen : Bool
  tripSeen : Bool
  disputed : Nat
  accounts : Accounts
  idleSeconds : Nat
  energy : Nat
  idle : Nat
  total : Nat
deriving DecidableEq, Repr

/-- Kind of a program request, with its point and the record to write (R159). -/
inductive ProgramKind where
  | opening (point : Point) (part : OpeningPart)
  | closing (point : Point) (part : ClosingPart)
  | collect
  | orphanClosing (point : Nat) (part : ClosingPart)
deriving DecidableEq, Repr

/-- A request of the program queue (R159). -/
structure ProgramRequest where
  kind : ProgramKind
  number : Nat
  slot : Nat
  attempts : Nat
deriving DecidableEq, Repr

/-- The erase in progress or suspended (R171): its progress, the progress since it started or last resumed, the erase time
of its sector, and whether a request joined with less than 20 ms remaining, so that it completes first. -/
structure Erase where
  sector : Fin 16
  progress : Nat
  sinceResume : Nat
  time : Nat
  completesFirst : Bool
deriving DecidableEq, Repr

/-- The receipt log (R153 to R178). `cells` and `codes` are the non-volatile array: stored bytes that are not 0xFF, and, by
the address where their word or mark byte begins, check codes that are not CLEAN. `slotStates` lists the slots that are
not ERASED. `scanPosition` says how many words of its order the start-up scan has read (log entry 46). -/
structure Rlg where
  cells : List Host.Cell
  codes : List (Nat × CheckCode)
  slotStates : List (Nat × SlotState)
  sectors : Vector SectorState 16
  fill : Option Nat
  lastActive : Fin 16
  index : List (Nat × Nat)
  nextNumber : Nat
  queue : List ProgramRequest
  programming : Bool
  erase : Option Erase
  secCount : Nat
  dedCount : Nat
  logState : LogState
  rRet : Nat
  heldRet : Option Nat
  spaceLow : Bool
  orphans : List Nat
  scanPosition : Nat
deriving DecidableEq, Repr

/-- A port's notice state and the level of its alert line (R190, R192). -/
structure Notices where
  enables : Word16
  threshold : Nat
  pending : Word16
  inService : Word16
  details : Vector Word32 16
  alert : Bool
deriving DecidableEq, Repr

/-- The two mailboxes; a full box holds its message (R196). -/
structure Mail where
  sToC : Option (BitVec 256)
  cToS : Option (BitVec 256)
deriving DecidableEq, Repr

/-- The frame-error counts of the two ports (R180). -/
structure FrameErrors where
  s : Nat
  c : Nat
deriving DecidableEq, Repr

/-- A reply: status byte, qualifier byte, result bytes (R181). -/
structure Reply where
  status : Byte
  qualifier : Byte
  result : List Byte
deriving DecidableEq, Repr

/-- The reply of the last frame on each port (log entry 31). -/
structure Replies where
  s : Option Reply
  c : Option Reply
deriving DecidableEq, Repr

/-- What one unit has handed another and the other has not yet taken (log entry 6). -/
inductive Request where
  | newReading (reading : Reading)
  | recompute
  | budget (b : Nat) (fromReading : Bool)
  | reduction (point : Point)
  | reportToAllocator (point : Point) (echo : Byte) (report : Report)
  | reportToSession (point : Point) (echo : Byte) (report : Report)
deriving DecidableEq, Repr

/-- The state of the part. `pending` is the queue of commands that wait, `requests` the requests between units. -/
structure State where
  site : Site
  cmu : Cmu
  lsu : Lsu
  bau : Bau
  alu : Alu
  flc : Flc
  ssu : Ssu
  tfu : Tfu
  rlg : Rlg
  noticesS : Notices
  noticesC : Notices
  mail : Mail
  frameErrors : FrameErrors
  replies : Replies
  requests : List Request
  pending : List Instr
deriving DecidableEq, Repr

/-- Why the model stops with a fault. -/
inductive Fault where
  /-- DEVICE_RESET with a residue at a place the array does not have (R153: 16 sectors of 128 slots of 16 words, the mark
  words byte by byte, and 16 headers). Safe: the part has no such place, so no run of the hardware is lost (log entry
  33). -/
  | noSuchArrayWord
deriving DecidableEq, Repr

/-- Why the model refuses a command. -/
inductive Refusal where
  /-- A command the model has no meaning for; raised by an arm of `exec` only. Safe: the model stops. No arm uses it
  now. -/
  | notModelled (mnemonic : String)
deriving DecidableEq, Repr

/-! ## Device reset -/

/-- A FREE record: every field absent (R54). -/
def Session.free : Session :=
  { state := .free, number := 0, slot := 0, customer := 0, cls := .standard, edition := 0, tariffSlot := .current,
    pause := false, hold := false, openTime := 0, meterStart := 0, lastMeter := 0, lastReport := none,
    accounts := ⟨Vector.replicate 4 0, Vector.replicate 4 0, Vector.replicate 4 0⟩, disputed := 0, idleSeconds := 0,
    zeroRequests := 0, meterSuspect := false, nodeLostSeen := false, tripSeen := false, waitCount := 0, grantAge := 0,
    grant := 0, pendingClose := none, ending := none, finalWait := none, priced := none }

/-- A node entry after device reset, of the given kind (R98). -/
def Node.reset (kind : NodeKind) : Node :=
  { kind, state := .absent, maximum := 0, minimum := 0, failsafe := 0, sentValue := 0, sentPower := 0,
    sentFailsafe := 0, sequence := 0, lastEcho := none, report := none, misses := 0, frameErrors := 0, replyCount := 0 }

/-- A port's notice state after device reset (R190). -/
def Notices.reset : Notices :=
  { enables := 0xFFFE, threshold := 0, pending := 0, inService := 0, details := Vector.replicate 16 0, alert := false }

/-- The receipt log after device reset over the array's contents: volatile state cleared, the scan still to run
(R154, R157, R159, R166, R173, R176, R178). -/
def Rlg.reset (cells : List Host.Cell) (codes : List (Nat × CheckCode)) : Rlg :=
  { cells, codes, slotStates := [], sectors := Vector.replicate 16 .free, fill := none, lastActive := 0, index := [],
    nextNumber := 0, queue := [], programming := false, erase := none, secCount := 0, dedCount := 0,
    logState := .starting, rRet := 0, heldRet := none, spaceLow := false, orphans := [], scanPosition := 0 }

/-- The part right after device reset, as a new part: every field at the value its chapter gives (INVENTORY.md lists
each with its rule), the array erased (log entry 3), the contact open (log entry 2) and the front end without a report
(log entry 1). -/
def State.reset : State :=
  { site := { tBal := 1000, vNom := 230 }
    cmu :=
      { periodLength := 1000, periodTimer := 0, energy := 0, validTime := 0, lossOfReference := false,
        converterFault := false, periodNumber := 0, reading := { period := 0, pGrid := 0, quality := .missing },
        readingExists := false, judgement := .unjudged }
    lsu :=
      { lImp := 0, lRed := 0, lExp := 0, margin := 0, lFb := 0, tLive := 0, limitsValid := false, line := .released,
        limreqLow := false, debounce := 0, lEff := 0, lease := .off, leaseCount := 0, checkLimit := 0,
        esc := .unconfigured, cleanCount := 0, graceCount := 0, latchS := false, latchC := false, trip := false,
        tClear := 30, tGrace := 3 }
    bau :=
      { record :=
          { period := 0, recomputed := false, n := 0, a := 0, d := 0, b := 0, qo := 0, cap := 0, pvW := 0, batW := 0,
            c := 0, esc := .unconfigured, missing := 0 }
        missingCount := 0, pBdMax := 0, pBcMax := 0, socLo := 0, socHi := 0, pPvRat := 0, bSafe := 0 }
    alu :=
      { queue := []
        set := { number := 0, budget := 0, entries := Vector.replicate 24 ⟨0, 0, .offline, false⟩ }
        points := Vector.replicate 24 ⟨0, 0, false⟩
        staging := .released, lastAck := none, dwellLength := 0, dwellOver := false, k := 0
        mode := .shared, tFair := 300, tRun := 600, tDwell := 2000 }
    flc :=
      { nodes := ((Vector.replicate 26 (Node.reset .notConfigured)).set 24 (Node.reset .canopy)).set 25
          (Node.reset .battery)
        inForce := ⟨.b115200, 10⟩, held := ⟨.b115200, 10⟩, running := false, nextNode := 0, startPending := false
        overruns := 0, broadcastPending := false, exchange := none, replyTimer := 0, line := [] }
    ssu := { sessions := Vector.replicate 24 Session.free, timeBase := 0 }
    tfu := { current := none, previous := none, calendar := 0, calendarValid := false, secondTimer := 0 }
    rlg := Rlg.reset [] []
    noticesS := Notices.reset
    noticesC := Notices.reset
    mail := ⟨none, none⟩
    frameErrors := ⟨0, 0⟩
    replies := ⟨none, none⟩
    requests := []
    pending := [] }

end Sys2Proof.Machine
end

