-- ==== Sys2Proof/Machine/Ops.lean ====
section
/-! DEFINITION. The operations every unit shares: replacing one unit of the state, the node and session tables, the
waiting queue's append and removal (R76), requests between units (log entry 6), saturating counts, and the sparse maps
that hold the receipt array. -/

namespace Sys2Proof.Machine

open Sys2Proof

/-! ## One unit at a time -/

/-- `s` with its field `site` replaced. -/
def State.withSite (s : State) (x : Site) : State := { s with site := x }

/-- `s` with its field `cmu` replaced. -/
def State.withCmu (s : State) (x : Cmu) : State := { s with cmu := x }

/-- `s` with its field `lsu` replaced. -/
def State.withLsu (s : State) (x : Lsu) : State := { s with lsu := x }

/-- `s` with its field `bau` replaced. -/
def State.withBau (s : State) (x : Bau) : State := { s with bau := x }

/-- `s` with its field `alu` replaced. -/
def State.withAlu (s : State) (x : Alu) : State := { s with alu := x }

/-- `s` with its field `flc` replaced. -/
def State.withFlc (s : State) (x : Flc) : State := { s with flc := x }

/-- `s` with its field `ssu` replaced. -/
def State.withSsu (s : State) (x : Ssu) : State := { s with ssu := x }

/-- `s` with its field `tfu` replaced. -/
def State.withTfu (s : State) (x : Tfu) : State := { s with tfu := x }

/-- `s` with its field `rlg` replaced. -/
def State.withRlg (s : State) (x : Rlg) : State := { s with rlg := x }

/-- `s` with its field `noticesS` replaced. -/
def State.withNoticesS (s : State) (x : Notices) : State := { s with noticesS := x }

/-- `s` with its field `noticesC` replaced. -/
def State.withNoticesC (s : State) (x : Notices) : State := { s with noticesC := x }

/-- `s` with its field `mail` replaced. -/
def State.withMail (s : State) (x : Mail) : State := { s with mail := x }

/-- `s` with its field `frameErrors` replaced. -/
def State.withFrameErrors (s : State) (x : FrameErrors) : State := { s with frameErrors := x }

/-- `s` with its field `replies` replaced. -/
def State.withReplies (s : State) (x : Replies) : State := { s with replies := x }

/-- `s` with its field `requests` replaced. -/
def State.withRequests (s : State) (x : List Request) : State := { s with requests := x }

/-- `s` with its field `pending` replaced. -/
def State.withPending (s : State) (x : List Instr) : State := { s with pending := x }

/-! ## Counts -/

/-- `n + k`, held at `top` (the manual's "saturating"). -/
def satAdd (top n k : Nat) : Nat := min top (n + k)

/-- The greatest value of a 32-bit field. -/
def top32 : Nat := 4294967295

/-! ## Sparse maps -/

/-- What a sparse map holds at a key; an unlisted key holds the default. -/
def sparseGet {β : Type} (dflt : β) : List (Nat × β) → Nat → β
  | [], _ => dflt
  | (k, v) :: m, a => if k = a then v else sparseGet dflt m a

/-- The entry placed before the first greater key. -/
def sparseInsert {β : Type} (k : Nat) (v : β) : List (Nat × β) → List (Nat × β)
  | [] => [(k, v)]
  | (k', v') :: m => if k < k' then (k, v) :: (k', v') :: m else (k', v') :: sparseInsert k v m

/-- The map with a key's value replaced; the default is never listed. -/
def sparseSet {β : Type} [DecidableEq β] (dflt : β) (m : List (Nat × β)) (k : Nat) (v : β) : List (Nat × β) :=
  if v = dflt then m.filter (fun e => e.1 != k) else sparseInsert k v (m.filter (fun e => e.1 != k))

/-- The canonical form: keys strictly rising, no default listed. -/
def sparseWf {β : Type} [DecidableEq β] (dflt : β) (m : List (Nat × β)) : Bool :=
  decide ((m.map Prod.fst).Pairwise (· < ·)) && m.all (fun e => e.2 != dflt)

/-! ## Tables -/

/-- The node of a charge point: the same number (Conventions, Identifiers). -/
def pointNode (p : Point) : Fin 26 := ⟨p.val, by omega⟩

/-- The canopy inverter's node. -/
def canopyNode : Fin 26 := 24

/-- The battery converter's node. -/
def batteryNode : Fin 26 := 25

/-- The node table entry (R98). -/
def State.node (s : State) (n : Fin 26) : Node := s.flc.nodes[n]

/-- The node table with one entry replaced. -/
def State.withNode (s : State) (n : Fin 26) (x : Node) : State :=
  s.withFlc { s.flc with nodes := s.flc.nodes.set n x }

/-- The session record of a point (R54). -/
def State.session (s : State) (p : Point) : Session := s.ssu.sessions[p]

/-- The session table with one record replaced. -/
def State.withSession (s : State) (p : Point) (x : Session) : State :=
  s.withSsu { s.ssu with sessions := s.ssu.sessions.set p x }

/-- Every point, in ascending order. -/
def allPoints : List Point := List.ofFn id

/-- The time base, in ms since the release of device reset (R120). -/
def State.now (s : State) : Nat := s.ssu.timeBase

/-- A point's latest charge-point report, if it has one. -/
def Node.request (n : Node) : Nat :=
  match n.report with
  | some (.chargePoint _ _ request _ _) => request
  | _ => 0

/-- The register of a node's latest charge-point report; 0 where there is none, which no ONLINE node shows
(log entry 28). -/
def Node.register (n : Node) : Word32 :=
  match n.report with
  | some (.chargePoint register _ _ _ _) => register
  | _ => 0

/-- A charge-point, canopy or battery power as last reported. -/
def Node.reportedPower (n : Node) : Int :=
  match n.report with
  | some (.chargePoint _ power _ _ _) => power
  | some (.canopy power _ _) => power
  | some (.battery power _ _) => power
  | none => 0

/-- The battery's last reported state of charge, above 1000 taken as 1000 (R37). -/
def Node.soc (n : Node) : Nat :=
  match n.report with
  | some (.battery _ soc _) => min soc 1000
  | _ => 0

/-- The latest REPORT of a node with its echo, if both are present (R98). -/
def Node.latestReport (n : Node) : Option (Byte × Report) :=
  match n.lastEcho, n.report with
  | some echo, some report => some (echo, report)
  | _, _ => none

/-- The last echo equals the set-point sequence (R108). -/
def Node.echoed (n : Node) : Bool := n.lastEcho == some n.sequence

/-! ## The waiting queue -/

/-- The point appended at the tail (R76). -/
def State.appendQueue (p : Point) (s : State) : State :=
  s.withAlu { s.alu with queue := s.alu.queue ++ [p] }

/-- The point removed from wherever it stands (R76). -/
def State.removeQueue (p : Point) (s : State) : State :=
  s.withAlu { s.alu with queue := s.alu.queue.filter (fun q => q != p) }

/-! ## Requests between units -/

/-- A request handed to another unit. -/
def State.send (r : Request) (s : State) : State :=
  s.withRequests (s.requests ++ [r])

/-- The first such request taken off the list, if one waits. -/
def State.takeRequest (r : Request) (s : State) : State :=
  s.withRequests (s.requests.erase r)

/-- A recompute request to the balance unit, sent only when a reading exists (R16). -/
def State.sendRecompute (s : State) : State :=
  if s.cmu.readingExists then s.send .recompute else s

end Sys2Proof.Machine
end

