-- ==== Sys2Proof/Machine/Operands.lean ====
section
/-! DEFINITION. Operands of the port commands: clamps (Conventions, Replies), codes (R183, R184), and the numbers that
carry a set point in watts (Conventions, Currents and set points; R78, R86, R87). -/

namespace Sys2Proof.Machine

open Sys2Proof

/-! ## Clamps -/

/-- `x` brought into `lo` to `hi`. -/
def clampTo (lo hi x : Nat) : Nat := max lo (min hi x)

/-- T_bal as SET SITE stores it: 250 to 2,000 ms, rounded down to a multiple of 50 (R1). -/
def clampBalancePeriod (x : Nat) : Nat :=
  if x < 250 then 250 else if 2000 < x then 2000 else x / 50 * 50

/-! ## Codes -/

/-- A point operand: numbers above 23 name no point. -/
def pointOperand (b : Byte) : Option Point :=
  if h : b.toNat < 24 then some ⟨b.toNat, h⟩ else none

/-- A node operand: numbers above 25 name no node. -/
def nodeOperand (b : Byte) : Option (Fin 26) :=
  if h : b.toNat < 26 then some ⟨b.toNat, h⟩ else none

/-- Settings of on and off are 1 and 0 (R183). -/
def settingOperand (b : Byte) : Option Bool :=
  if b = 0 then some false else if b = 1 then some true else none

/-- Class codes are 0 STANDARD and 1 PRIORITY (R183). -/
def classOperand (b : Byte) : Option SessionClass :=
  if b = 0 then some .standard else if b = 1 then some .priority else none

/-- Kind codes of a charge point: 1 AC1, 2 AC3, 3 DC (R104). -/
def kindOperand (b : Byte) : Option NodeKind :=
  if b = 1 then some .ac1 else if b = 2 then some .ac3 else if b = 3 then some .dc else none

/-- Mode codes: 0 SHARED, 1 PRIORITY (R189). -/
def modeOperand (b : Byte) : Option Mode :=
  if b = 0 then some .shared else if b = 1 then some .priority else none

/-- Bit-rate codes: 1, 2 and 3 for 57,600, 115,200 and 230,400 baud (R188). -/
def rateOperand (b : Byte) : Option BitRate :=
  if b = 1 then some .b57600 else if b = 2 then some .b115200 else if b = 3 then some .b230400 else none

/-- Grid-charge permission values: 0 not permitted, 1 permitted (R138). -/
def permissionOperand (b : Byte) : Option Bool := settingOperand b

/-! ## Codes of replies and frames (R184) -/

def Quality.code : Quality → Nat
  | .good => 0
  | .saturated => 1
  | .missing => 2

def Judgement.code : Judgement → Nat
  | .unjudged => 0
  | .clean => 1
  | .excess => 2
  | .missing => 3

def Line.code : Line → Nat
  | .released => 0
  | .asserted => 1

def Lease.code : Lease → Nat
  | .off => 0
  | .live => 1
  | .lapsed => 2

def Escalation.code : Escalation → Nat
  | .unconfigured => 0
  | .normal => 1
  | .curtail => 2
  | .shed => 3
  | .tripped => 4

def Staging.code : Staging → Nat
  | .reducing => 0
  | .dwelling => 1
  | .released => 2

def NodeKind.code : NodeKind → Nat
  | .notConfigured => 0
  | .ac1 => 1
  | .ac3 => 2
  | .dc => 3
  | .canopy => 4
  | .battery => 5

def NodeState.code : NodeState → Nat
  | .absent => 0
  | .joining => 1
  | .online => 2
  | .lost => 3

def SessionState.code : SessionState → Nat
  | .free => 0
  | .opening => 1
  | .waiting => 2
  | .charging => 3
  | .stopped => 4
  | .done => 5
  | .closing => 6

def SessionClass.code : SessionClass → Nat
  | .standard => 0
  | .priority => 1

def TariffSlot.code : TariffSlot → Nat
  | .current => 0
  | .previous => 1

def EndReason.code : EndReason → Nat
  | .customer => 1
  | .unplugged => 2
  | .storeFault => 3
  | .powerLoss => 4

def LogState.code : LogState → Nat
  | .starting => 0
  | .ready => 1
  | .fault => 2

def SectorState.code : SectorState → Nat
  | .free => 0
  | .active => 1
  | .full => 2
  | .erasing => 3
  | .eraseSuspended => 4

def SlotState.code : SlotState → Nat
  | .erased => 0
  | .reserved => 1
  | .opened => 2
  | .closed => 3
  | .collected => 4
  | .bad => 5
  | .superseded => 6

def Mode.code : Mode → Nat
  | .shared => 0
  | .priority => 1

def BitRate.code : BitRate → Nat
  | .b57600 => 1
  | .b115200 => 2
  | .b230400 => 3

def integrityCode : Integrity → Nat
  | .clean => 0
  | .corrected => 1
  | .damaged => 2

/-- Status codes (R181). -/
def Status.code : Status → Nat
  | .ok => 1
  | .accepted => 2
  | .busy => 3
  | .refused => 4
  | .wrongPort => 5
  | .unknown => 6

/-- Reason codes (R181). -/
def Reason.code : Reason → Nat
  | .starting => 0x01
  | .notReady => 0x02
  | .noTime => 0x03
  | .noTariff => 0x04
  | .noSpace => 0x05
  | .storeFault => 0x06
  | .tripped => 0x07
  | .inUse => 0x09
  | .badValue => 0x0A
  | .badSchedule => 0x0B
  | .state => 0x0C
  | .full => 0x0D
  | .empty => 0x0E
  | .notFound => 0x0F
  | .already => 0x10

/-- A mark or flag reads 1 when set (R184). -/
def flagCode (b : Bool) : Nat := if b then 1 else 0

/-! ## Set-point power -/

/-- ceil(a / b) (Conventions). -/
def ceilDiv (a b : Nat) : Nat := (a + b - 1) / b

/-- Number of phases of an AC kind; 0 for every other kind. -/
def NodeKind.phases : NodeKind → Nat
  | .ac1 => 1
  | .ac3 => 3
  | _ => 0

/-- Set-point power: floor(I × ph × V_nom / 10) for an AC point, 100 × u for a DC point. -/
def setPointPower (kind : NodeKind) (vNom value : Nat) : Nat :=
  match kind with
  | .ac1 => value * 1 * vNom / 10
  | .ac3 => value * 3 * vNom / 10
  | .dc => 100 * value
  | _ => 0

/-- The rating of a charge point (R78). -/
def Node.rating (n : Node) (vNom : Nat) : Nat :=
  match n.kind with
  | .dc => 100 * (n.maximum / 100)
  | kind => setPointPower kind vNom n.maximum

/-- The minimum m_i of a charge point (R78). -/
def Node.minPower (n : Node) (vNom : Nat) : Nat :=
  match n.kind with
  | .dc => min (100 * ceilDiv n.minimum 100) (n.rating vNom)
  | kind => setPointPower kind vNom (min n.minimum n.maximum)

/-- The effective ceiling c′_i of a charge point (R78). -/
def Node.ceiling (n : Node) (vNom : Nat) : Nat :=
  max (min (n.rating vNom) n.request) (n.minPower vNom)

/-- The failsafe F_i of a lost charge point, from the failsafe last sent to it (R36, R98). -/
def Node.failsafePower (n : Node) (vNom : Nat) : Nat :=
  match n.kind with
  | .dc => n.sentFailsafe
  | kind => setPointPower kind vNom n.sentFailsafe

/-- The target of a grant: the largest whole set point not above the maximum whose power is not above the grant
(R86, R87). An AC current `I` has floor(I × ph × V / 10) ≤ g exactly when I × ph × V ≤ 10 g + 9. -/
def Node.targetOf (n : Node) (vNom grant : Nat) : Nat :=
  if grant = 0 then 0
  else
    match n.kind with
    | .dc => grant / 100
    | kind => min n.maximum ((10 * grant + 9) / (kind.phases * vNom))

end Sys2Proof.Machine
end

