-- ==== Sys2Proof/Machine/Flags.lean ====
section
/-! DEFINITION. What the ports show: replies (R181), notices and the alert lines (R190 to R195). -/

namespace Sys2Proof.Machine

open Sys2Proof

/-! ## Replies -/

/-- The reply a port shifts out after the turnaround. -/
def State.reply (p : Port) (r : Reply) (s : State) : State :=
  match p with
  | .s => s.withReplies { s.replies with s := some r }
  | .c => s.withReplies { s.replies with c := some r }

/-- The qualifier of OK and ACCEPTED: bit 0 CLAMPED (R181). -/
def flagsByte (clamped : Bool) : Byte := if clamped then 1 else 0

/-- OK with a result. -/
def State.ok (p : Port) (clamped : Bool) (result : List Byte) (s : State) : State :=
  s.reply p ⟨0x01, flagsByte clamped, result⟩

/-- ACCEPTED with a result. -/
def State.accepted (p : Port) (result : List Byte) (s : State) : State :=
  s.reply p ⟨0x02, 0, result⟩

/-- BUSY or REFUSED with its reason; no result follows (R181). -/
def State.turnDown (p : Port) (status : Status) (reason : Reason) (s : State) : State :=
  s.reply p ⟨BitVec.ofNat 8 status.code, BitVec.ofNat 8 reason.code, []⟩

/-- WRONG_PORT (R182). -/
def State.wrongPort (p : Port) (s : State) : State :=
  s.reply p ⟨0x05, 0, []⟩

/-- UNKNOWN (R182). -/
def State.unknown (p : Port) (s : State) : State :=
  s.reply p ⟨0x06, 0, []⟩

/-- A port S command on port C is answered WRONG_PORT before any check of its own (R182). -/
def State.onSite (p : Port) (f : State → State) (s : State) : State :=
  match p with
  | .s => f s
  | .c => s.wrongPort .c

/-- A port C command on port S is answered WRONG_PORT before any check of its own (R182). -/
def State.onCharge (p : Port) (f : State → State) (s : State) : State :=
  match p with
  | .c => f s
  | .s => s.wrongPort .s

/-! ## Notices -/

/-- The rank of a kind, which is also its code (section 10.4). -/
def NoticeKind.rank : NoticeKind → Fin 16
  | .mail => 1
  | .nodeJoined => 2
  | .spaceLow => 3
  | .orphansFound => 4
  | .sessionDone => 5
  | .sessionOpened => 6
  | .openFailed => 7
  | .sessionClosed => 8
  | .measureMissing => 9
  | .nodeLost => 10
  | .limitLine => 11
  | .leaseLapsed => 12
  | .storeFault => 13
  | .escalation => 14
  | .tripped => 15

/-- The greatest rank 1 to `k` whose bit the mask holds, 0 for none. -/
def topRankUpTo (mask : Word16) : Nat → Nat
  | 0 => 0
  | k + 1 => if mask.getLsbD (k + 1) then k + 1 else topRankUpTo mask k

/-- The greatest rank in a set of kinds, 0 for the empty set. -/
def topRank (mask : Word16) : Nat := topRankUpTo mask 15

/-- The bit of a rank in a set of kinds. -/
def rankBit (r : Nat) : Word16 := (1#16) <<< r

/-- A set of numbers 0 to 25 as a mask: bit n set for number n (R193). -/
def numberMask (ns : List Nat) : Word32 :=
  ns.foldl (fun m n => m ||| ((1#32) <<< n)) 0

/-- The highest-ranked enabled pending kind, 0 for none (R193). -/
def Notices.next (n : Notices) : Nat := topRank (n.pending &&& n.enables)

/-- R192: an enabled pending kind ranks above both the threshold and the top of the in-service stack. -/
def Notices.alerting (n : Notices) : Bool :=
  decide (max n.threshold (topRank n.inService) < n.next)

/-- The alert line follows its condition at once (R192). -/
def Notices.settle (n : Notices) : Notices := { n with alert := n.alerting }

/-- A raise: the kind becomes pending and its numbers join the detail set (R191). -/
def Notices.raise (n : Notices) (r : Fin 16) (numbers : List Nat) : Notices :=
  Notices.settle
    { n with
      pending := n.pending ||| rankBit r
      details := n.details.set r (n.details[r] ||| numberMask numbers) }

/-- The detail set of a rank. -/
def Notices.detail (n : Notices) (r : Nat) : Word32 :=
  if h : r < 16 then n.details[r] else 0

/-- The kind of a rank moves from the pending set into service and its detail set empties (R193). -/
def Notices.takeRank (n : Notices) (r : Nat) : Notices :=
  Notices.settle
    { n with
      pending := n.pending &&& ~~~ rankBit r
      inService := n.inService ||| rankBit r
      details := if h : r < 16 then n.details.set r 0 else n.details }

/-- The top of the in-service stack removed (R194). -/
def Notices.endTop (n : Notices) : Notices :=
  Notices.settle { n with inService := n.inService &&& ~~~ rankBit (topRank n.inService) }

/-- The enable set and threshold written; bit 0 is ignored (R195). -/
def Notices.mask (n : Notices) (enables : Word16) (threshold : Nat) : Notices :=
  Notices.settle { n with enables := enables &&& 0xFFFE, threshold }

/-- A port's notice state. -/
def State.notices (s : State) : Port → Notices
  | .s => s.noticesS
  | .c => s.noticesC

/-- A port's notice state replaced. -/
def State.withNotices (s : State) (p : Port) (n : Notices) : State :=
  match p with
  | .s => s.withNoticesS n
  | .c => s.withNoticesC n

/-- A kind raised on one port. -/
def State.raise (p : Port) (k : NoticeKind) (numbers : List Nat) (s : State) : State :=
  s.withNotices p ((s.notices p).raise k.rank numbers)

/-- A kind raised on both ports: two independent changes (R191). -/
def State.raiseBoth (k : NoticeKind) (numbers : List Nat) (s : State) : State :=
  (s.raise .s k numbers).raise .c k numbers

end Sys2Proof.Machine
end

