-- ==== Sys2Proof/Machine/Staging.lean ====
section
/-! DEFINITION. Values to send, pending reductions, the dwell and the release of raises (R89 to R96), with the meanings
of DWELL_END, REDUCTION_ACKNOWLEDGEMENT and REDUCTION_REQUEST. -/

namespace Sys2Proof.Machine

open Sys2Proof

/-- The node table with every charge point's entry rewritten; nodes 24 and 25 stay. -/
def Flc.mapPoints (f : Point → Node → Node) (x : Flc) : Flc :=
  { x with nodes := Vector.ofFn (fun n => if h : n.val < 24 then f ⟨n.val, h⟩ x.nodes[n] else x.nodes[n]) }

/-- The point's node is ONLINE. -/
def State.online (s : State) (p : Point) : Bool := (s.node (pointNode p)).state == .online

/-- A point's allocator fields when it is handed a value and its power: a change replaces both, and a fall on an ONLINE
node sets the pending-reduction mark (R89). -/
def SendValue.hand (x : SendValue) (online : Bool) (value power : Nat) : SendValue :=
  if value = x.value then x
  else { value, power, pendingReduction := x.pendingReduction || (decide (value < x.value) && online) }

/-- Every point handed a value with its power; each change increments the node's set-point sequence (R89, R108). -/
def State.handValues (want : Point → Nat × Nat) (s : State) : State :=
  (s.withAlu
    { s.alu with
      points := Vector.ofFn (fun p => s.alu.points[p].hand (s.online p) (want p).1 (want p).2) }).withFlc
    (s.flc.mapPoints (fun p n => if (want p).1 = s.alu.points[p].value then n else { n with sequence := n.sequence + 1 }))

/-- One point handed a value with its power. -/
def State.handValue (p : Point) (value power : Nat) (s : State) : State :=
  s.handValues (fun q => if q = p then (value, power) else (s.alu.points[q].value, s.alu.points[q].power))

/-- Some point holds a pending-reduction mark. -/
def Alu.anyPending (a : Alu) : Bool := a.points.toList.any (·.pendingReduction)

/-- T_dwell has passed since the last reduction acknowledgement, or none has been taken (R90). -/
def State.dwellPassed (s : State) : Bool :=
  match s.alu.lastAck with
  | none => true
  | some t => s.alu.dwellOver || decide (t + s.alu.dwellLength ≤ s.now)

/-- What the release hands a point: the target of a RAISE entry whose node has stayed ONLINE, else the value it holds (R91;
log entry 17). -/
def State.releasedValues (s : State) (p : Point) : Nat × Nat :=
  if s.alu.set.entries[p].mark = .raised ∧ s.alu.set.entries[p].leftOnline = false
  then (s.alu.set.entries[p].target, s.alu.set.entries[p].power)
  else (s.alu.points[p].value, s.alu.points[p].power)

/-- The release: the withheld raises are handed out, and K takes the set's budget (R91; log entries 17 and 34). -/
def State.releaseRaises (s : State) : State :=
  let t := s.handValues s.releasedValues
  t.withAlu { t.alu with staging := .released, k := s.alu.set.budget }

/-- The staging test (R90). A set whose raises have been released is not released again. -/
def State.stagingTest (s : State) : State :=
  if s.alu.staging = .released then s
  else if s.alu.anyPending then s.withAlu { s.alu with staging := .reducing }
  else if s.dwellPassed then s.releaseRaises
  else s.withAlu { s.alu with staging := .dwelling }

/-- The staging state after a mark may have been set outside the four events of R90. -/
def Alu.restage (a : Alu) : Alu :=
  if a.staging ≠ .released ∧ a.anyPending = true then { a with staging := .reducing } else a

/-- A point whose node has left ONLINE: value to send 0, mark cleared without a dwell (R95). -/
def State.dropPoint (p : Point) (s : State) : State :=
  let t := s.handValue p 0 0
  t.withAlu
    { t.alu with
      points := t.alu.points.set p { t.alu.points[p] with pendingReduction := false }
      set := { t.alu.set with
        entries := t.alu.set.entries.set p { t.alu.set.entries[p] with leftOnline := true } } }

/-- A point's node has left ONLINE; the staging test is made again (R95). -/
def State.leaveOnline (p : Point) (s : State) : State := (s.dropPoint p).stagingTest

/-- A REPORT with the echo acknowledges the point's pending reduction: the echo equals the sequence while the sent value
equals the value to send (R89). -/
def State.acknowledges (s : State) (p : Point) (echo : Byte) : Bool :=
  s.alu.points[p].pendingReduction && echo == (s.node (pointNode p)).sequence &&
    decide ((s.node (pointNode p)).sentValue = s.alu.points[p].value)

/-- A reduction acknowledgement: the mark clears, a dwell of the T_dwell in force starts, the test is made (R89,
R90). -/
def State.acknowledge (p : Point) (s : State) : State :=
  (s.withAlu
    { s.alu with
      points := s.alu.points.set p { s.alu.points[p] with pendingReduction := false }
      lastAck := some s.now
      dwellLength := s.alu.tDwell
      dwellOver := false }).stagingTest

/-- The entry of a point whose reduction to 0 the session unit asks for (R92). -/
def State.reducedEntry (s : State) (p : Point) : GrantEntry :=
  { s.alu.set.entries[p] with
    target := 0
    power := 0
    mark := if s.online p = true ∧ 0 < (s.node (pointNode p)).sentValue then .reduction else .unchanged }

/-- The staging of a point's reduction to 0 without a new set (R92). -/
def State.stageReduction (p : Point) (s : State) : State :=
  let t := s.handValue p 0 0
  t.withAlu
    (Alu.restage { t.alu with set := { t.alu.set with entries := t.alu.set.entries.set p (s.reducedEntry p) } })

/-- The entries of the set in force after an ALL-ZERO request, marked against the sent values before it (R94). -/
def State.zeroedEntries (s : State) : Vector GrantEntry 24 :=
  Vector.ofFn (fun p =>
    { s.alu.set.entries[p] with
      target := 0
      power := 0
      mark := if 0 < (s.node (pointNode p)).sentValue then .reduction else .unchanged })

/-- An ALL-ZERO broadcast request: sent values and sent powers of every enrolled charge point become 0, values to send
become 0, the withheld raises are discarded, and a ZERO frame is marked pending (R25, R94, R116; log entry 18). -/
def State.allZeroRequest (s : State) : State :=
  let t := s.handValues (fun _ => (0, 0))
  (t.withAlu (Alu.restage { t.alu with set := { t.alu.set with entries := s.zeroedEntries } })).withFlc
    { t.flc.mapPoints (fun _ n =>
        if n.state = .absent then n else { n with sentValue := 0, sentPower := 0 }) with
      broadcastPending := true }

/-- DWELL_END: T_dwell has passed since the last reduction acknowledgement; the staging test is made (R90). -/
def execDwellEnd (s : State) : Host.Outcome State Fault Refusal :=
  .next (s.withAlu { s.alu with dwellOver := true }).stagingTest

/-- The REPORT of a request to the allocator about a point, with its echo. -/
def Request.allocatorReport (p : Point) : Request → Option (Byte × Report)
  | .reportToAllocator q echo report => if q = p then some (echo, report) else none
  | .newReading _ => none
  | .recompute => none
  | .budget _ _ => none
  | .reduction _ => none
  | .reportToSession _ _ _ => none

/-- The REPORT the allocator takes: the first one of the point handed to it, else the latest of the node table (R112; log
entry 6). -/
def State.allocatorReport (s : State) (p : Point) : Option (Byte × Report) :=
  match s.requests.findSome? (Request.allocatorReport p) with
  | some x => some x
  | none => (s.node (pointNode p)).latestReport

/-- REDUCTION_ACKNOWLEDGEMENT: the allocator takes a charge point's REPORT for the acknowledgement test (R89, R112). -/
def execReductionAcknowledgement (point : Point) (s : State) : Host.Outcome State Fault Refusal :=
  .next (match s.allocatorReport point with
    | some x =>
      let t := s.takeRequest (.reportToAllocator point x.1 x.2)
      if t.acknowledges point x.1 then t.acknowledge point else t
    | none => s)

/-- REDUCTION_REQUEST: the session unit's request to stage a point's reduction to 0 (R92). -/
def execReductionRequest (point : Point) (s : State) : Host.Outcome State Fault Refusal :=
  .next ((s.takeRequest (.reduction point)).stageReduction point)

end Sys2Proof.Machine
end

