-- ==== Sys2Proof/Machine/Tariff.lean ====
section
/-! DEFINITION. The tariff unit (Chapter 8): editions, bands, the calendar, amounts, and the meanings of LOAD TARIFF,
SET TIME and READ TIME. -/

namespace Sys2Proof.Machine

open Sys2Proof

/-! ## Calendar and bands -/

/-- The minute of day of a calendar value (R144). -/
def minuteOfDay (calendar : Word32) : Nat := calendar.toNat % 86400 / 60

/-- The band a schedule gives at a minute: that of the last switch point not after it, else that of the last switch
point (R142). Schedules are never empty (R138); the empty list reads as band 0 (log entry 28). -/
def bandAt (schedule : List SwitchPoint) (minute : Nat) : Fin 4 :=
  match (schedule.filter (fun p => p.minute ≤ minute)).getLast? with
  | some p => p.band
  | none =>
    match schedule.getLast? with
    | some p => p.band
    | none => 0

/-- The band in force under an edition at the present minute; none while the calendar is not valid (R142). -/
def Tfu.bandInForce (t : Tfu) (e : Edition) : Option (Fin 4) :=
  if t.calendarValid then some (bandAt e.schedule (minuteOfDay t.calendar)) else none

/-- The slot's contents. -/
def Tfu.slot (t : Tfu) : TariffSlot → Option HeldEdition
  | .current => t.current
  | .previous => t.previous

/-- The slot's contents replaced. -/
def Tfu.withSlot (t : Tfu) (k : TariffSlot) (h : Option HeldEdition) : Tfu :=
  match k with
  | .current => { t with current := h }
  | .previous => { t with previous := h }

/-- The edition a session is priced by: the one of its number in the slot its record names (R147). -/
def Tfu.editionOf (t : Tfu) (x : Session) : Option Edition :=
  match t.slot x.tariffSlot with
  | some h => if h.edition.number = x.edition then some h.edition else none
  | none => none

/-- The band of a delta: the band in force in the session's own edition (R127). Every open session has an edition and a
valid calendar (R140, R146); without them the band reads 0 (log entry 28). -/
def Tfu.deltaBand (t : Tfu) (x : Session) : Fin 4 :=
  match t.editionOf x with
  | some e => (t.bandInForce e).getD 0
  | none => 0

/-- G_ok: the grid-charge permission of the band in force in CURRENT (R39). -/
def Tfu.gridOk (t : Tfu) : Bool :=
  match t.current with
  | some h =>
    match t.bandInForce h.edition with
    | some b => h.edition.bands[b].gridCharge
    | none => false
  | none => false

/-- One added to a slot's reference count (R140). -/
def Tfu.addRef (t : Tfu) (k : TariffSlot) : Tfu :=
  t.withSlot k ((t.slot k).map (fun h => { h with refs := h.refs + 1 }))

/-- One taken from a slot's reference count (R140). -/
def Tfu.dropRef (t : Tfu) (k : TariffSlot) : Tfu :=
  t.withSlot k ((t.slot k).map (fun h => { h with refs := h.refs - 1 }))

/-! ## Amounts -/

/-- Micro-cents to cents, to the nearest with a half rounded up (R148). -/
def roundCents (product : Nat) : Nat := (product + 500000) / 1000000

/-- The energy product of one band (R148). -/
def bandProduct (e : Edition) (a : Accounts) (b : Fin 4) : Nat :=
  a.pv[b] * e.bands[b].solar + (a.bat[b] + a.grid[b]) * e.bands[b].standard

/-- The energy amount, in cents (R148). -/
def energyAmount (e : Edition) (a : Accounts) : Nat :=
  roundCents (bandProduct e a 0 + bandProduct e a 1 + bandProduct e a 2 + bandProduct e a 3)

/-- Billable idle minutes (R149). -/
def billableMinutes (e : Edition) (idleSeconds : Nat) : Nat :=
  if 60 * e.idleGrace < idleSeconds then ceilDiv (idleSeconds - 60 * e.idleGrace) 60 else 0

/-- The idle amount, in cents (R149). -/
def idleAmount (e : Edition) (idleSeconds : Nat) : Nat :=
  let product := billableMinutes e idleSeconds * e.idleFee
  if e.idleCap = 0 then min product top32 else min product e.idleCap

/-- The total: session fee, energy amount and idle amount, saturating (R150). -/
def totalAmount (fee energy idle : Nat) : Nat := min (fee + energy + idle) top32

/-- The three amounts of a session with its meter end (R71, R147). Without an edition, which R140 rules out, they read 0
(log entry 28). -/
def Tfu.price (t : Tfu) (x : Session) : Priced :=
  match t.editionOf x with
  | some e =>
    let energy := energyAmount e x.accounts
    let idle := idleAmount e x.idleSeconds
    { meterEnd := x.lastMeter, energy, idle, total := totalAmount e.sessionFee energy idle }
  | none => { meterEnd := x.lastMeter, energy := 0, idle := 0, total := 0 }

/-- The energy amount of an orphan, saturated (R151). -/
def orphanEnergyAmount (meterStart register : Word32) (fallbackPrice : Nat) : Nat :=
  min (roundCents (1000 * (register - meterStart).toNat * fallbackPrice)) top32

/-! ## Loading an edition -/

/-- The counted switch points of the operand (R137). -/
def countedPlaces (t : TariffOperand) : List PlaceOperand :=
  t.places.toList.take t.count.toNat

/-- Check 1 of R138: the edition number is not 0 and stands in no slot. -/
def numberCheck (u : Tfu) (t : TariffOperand) : Bool :=
  t.edition != 0 && (u.current.all (fun h => h.edition.number != t.edition)) &&
    (u.previous.all (fun h => h.edition.number != t.edition))

/-- Check 2 of R138: each permission is 0 or 1. -/
def permissionCheck (t : TariffOperand) : Bool :=
  t.bands.toList.all (fun b => (permissionOperand b.permission).isSome)

/-- Check 3 of R138: 1 to 8 switch points, minutes 0 to 1439 strictly ascending, bands 0 to 3. -/
def scheduleCheck (t : TariffOperand) : Bool :=
  decide (1 ≤ t.count.toNat) && decide (t.count.toNat ≤ 8) &&
    (countedPlaces t).all (fun x => decide (x.minute.toNat ≤ 1439) && decide (x.band.toNat ≤ 3)) &&
    decide (((countedPlaces t).map (fun x => x.minute.toNat)).Pairwise (· < ·))

/-- Check 4 of R138: PREVIOUS is empty or unreferenced. -/
def previousUnused (u : Tfu) : Bool := u.previous.all (fun h => h.refs == 0)

/-- A band as stored: its solar price clamped to its standard price (R138). -/
def storeBand (b : BandOperand) : Band :=
  { standard := b.standard.toNat, solar := min b.solar.toNat b.standard.toNat
    gridCharge := (permissionOperand b.permission).getD false }

/-- A switch point as stored. -/
def storePlace (x : PlaceOperand) : SwitchPoint :=
  { minute := x.minute.toNat, band := Fin.ofNat 4 x.band.toNat }

/-- The edition as stored, after the clamps of R138. -/
def storeEdition (t : TariffOperand) : Edition :=
  { number := t.edition, bands := t.bands.map storeBand, schedule := (countedPlaces t).map storePlace
    sessionFee := t.sessionFee.toNat, idleFee := t.idleFee.toNat, idleGrace := min t.idleGrace.toNat 240
    idleCap := t.idleCap.toNat }

/-- A clamp of R138 changed a value. -/
def tariffClamped (t : TariffOperand) : Bool :=
  t.bands.toList.any (fun b => decide (b.standard.toNat < b.solar.toNat)) || decide (240 < t.idleGrace.toNat)

/-- A record after a load: CURRENT becomes PREVIOUS, the edition number stays (R139). -/
def Session.afterLoad (x : Session) : Session :=
  if x.state = .free then x else { x with tariffSlot := .previous }

/-- The changes of an accepted LOAD TARIFF, as one change (R139). -/
def State.placeEdition (e : Edition) (s : State) : State :=
  (s.withTfu { s.tfu with current := some ⟨e, 0⟩, previous := s.tfu.current }).withSsu
    { s.ssu with sessions := s.ssu.sessions.map Session.afterLoad }

/-- LOAD TARIFF on port C (R138, R139). -/
def loadTariffOp (t : TariffOperand) (s : State) : State :=
  if !numberCheck s.tfu t then s.turnDown .c .refused .badValue
  else if !permissionCheck t then s.turnDown .c .refused .badValue
  else if !scheduleCheck t then s.turnDown .c .refused .badSchedule
  else if !previousUnused s.tfu then s.turnDown .c .refused .inUse
  else (s.placeEdition (storeEdition t)).ok .c (tariffClamped t) []

/-- LOAD_TARIFF (R138 to R141). -/
def execLoadTariff (port : Port) (tariff : TariffOperand) (s : State) : Host.Outcome State Fault Refusal :=
  .next (s.onCharge port (loadTariffOp tariff))

/-! ## The calendar -/

/-- SET_TIME: the calendar takes the operand and becomes valid (R145). -/
def execSetTime (port : Port) (calendar : Word32) (s : State) : Host.Outcome State Fault Refusal :=
  .next (s.onSite port (fun u =>
    (u.withTfu { u.tfu with calendar, calendarValid := true }).ok .s false []))

/-- READ_TIME: calendar, valid mark and minute of day (R186). -/
def execReadTime (port : Port) (s : State) : Host.Outcome State Fault Refusal :=
  .next (s.ok port false
    (leBytes 4 s.tfu.calendar.toNat ++ leBytes 1 (flagCode s.tfu.calendarValid) ++
      leBytes 2 (minuteOfDay s.tfu.calendar)))

end Sys2Proof.Machine
end

