-- ==== Sys2Proof/Machine/Sessions.lean ====
section
/-! DEFINITION. What happens to a session record (Chapter 4): entering WAITING, DONE and STOPPED, starting a close, the
end of the final-meter wait, and the outcomes of the receipt log's programs. -/

namespace Sys2Proof.Machine

open Sys2Proof

/-- The session enters WAITING: wait count and zero-request count 0, appended at the queue tail (R62, R66, R76). -/
def State.enterWaiting (p : Point) (s : State) : State :=
  (s.withSession p { s.session p with state := .waiting, waitCount := 0, zeroRequests := 0 }).appendQueue p

/-- The session leaves WAITING or CHARGING for a state without power: out of the queue, or grant 0 with a request to
stage the reduction (R62, R66, R69). The record's own new state is written by the caller. -/
def State.withdraw (p : Point) (s : State) : State :=
  match (s.session p).state with
  | .waiting => s.removeQueue p
  | .charging => s.send (.reduction p)
  | _ => s

/-- Entry into DONE (R62). -/
def State.enterDone (p : Point) (s : State) : State :=
  ((s.withdraw p).withSession p { s.session p with state := .done, zeroRequests := 3, grant := 0 }).raise .c
    .sessionDone [p.val]

/-- The stop rule after an accepted PAUSE SESSION or HOLD POINT (R66). -/
def State.applyStop (p : Point) (s : State) : State :=
  let x := s.session p
  if x.pause || x.hold then
    match x.state with
    | .waiting => (s.withdraw p).withSession p { x with state := .stopped, grant := 0 }
    | .charging => (s.withdraw p).withSession p { x with state := .stopped, grant := 0 }
    | .done => (s.withdraw p).withSession p { x with state := .stopped, grant := 0 }
    | _ => s
  else if x.state = .stopped then s.enterWaiting p else s

/-- The start of a close, as one change (R69). -/
def State.startClose (p : Point) (reason : EndReason) (s : State) : State :=
  (s.withdraw p).withSession p
    { s.session p with
      state := .closing
      grant := 0
      pendingClose := none
      ending := some ⟨reason, s.tfu.calendar⟩
      finalWait := some 0 }

/-- States from which a close may start at once (R67, R68, R69). -/
def SessionState.closable : SessionState → Bool
  | .waiting => true
  | .charging => true
  | .stopped => true
  | .done => true
  | .free => false
  | .opening => false
  | .closing => false

/-- One session at the receipt log's entry into FAULT (R69). -/
def State.faultClose (s : State) (p : Point) : State :=
  if (s.session p).state.closable then s.startClose p .storeFault
  else if (s.session p).state = .opening ∧ (s.session p).pendingClose = none then
    s.withSession p { s.session p with pendingClose := some .storeFault }
  else s

/-- Every session at the receipt log's entry into FAULT (R69). -/
def State.faultCloseAll (s : State) : State := allPoints.foldl State.faultClose s

/-- The closing part of a priced session (R71). -/
def Session.closingPart (x : Session) : ClosingPart :=
  let e := x.ending.getD ⟨.customer, 0⟩
  let m := x.priced.getD ⟨x.lastMeter, 0, 0, 0⟩
  { closeTime := e.closeTime, meterEnd := m.meterEnd, reason := e.reason, meterSuspect := x.meterSuspect
    nodeLostSeen := x.nodeLostSeen, tripSeen := x.tripSeen, disputed := x.disputed, accounts := x.accounts
    idleSeconds := x.idleSeconds, energy := m.energy, idle := m.idle, total := m.total }

/-- A sector is ERASING and its erase runs: no program is carried out (R159, R165). -/
def Rlg.erasing (r : Rlg) : Bool :=
  match r.erase with
  | some e => r.sectors[e.sector] == .erasing && r.logState != .fault
  | none => false

/-- A request joins while the erase runs: with less than 20 ms of the erase time remaining the erase completes before the
request is served (R171). -/
def Erase.requestJoins (e : Erase) : Erase :=
  { e with completesFirst := e.completesFirst || decide (e.time - e.progress < 20) }

/-- A request appended to the program queue (R159, R171). -/
def State.enqueue (q : ProgramRequest) (s : State) : State :=
  s.withRlg { s.rlg with
    queue := s.rlg.queue ++ [q]
    erase := if s.rlg.erasing then s.rlg.erase.map Erase.requestJoins else s.rlg.erase }

/-- The end of the final-meter wait: the last meter is the meter end, the amounts are formed, the closing program is
queued (R70, R71). -/
def State.endFinalWait (p : Point) (s : State) : State :=
  let x := s.session p
  let y : Session := { x with finalWait := none, priced := some (s.tfu.price x) }
  (s.withSession p y).enqueue { kind := .closing p y.closingPart, number := x.number, slot := x.slot, attempts := 0 }

/-- The wait still runs: the record is CLOSING and its final-wait count is present (R54, R70; log entry 20). -/
def Session.waitRuns (x : Session) : Bool := x.state == .closing && x.finalWait.isSome

/-- One session at a period close: the count goes up by one and the wait ends at 5 (R70). -/
def State.finalWaitTick (s : State) (p : Point) : State :=
  let x := s.session p
  match x.state, x.finalWait with
  | .closing, some k =>
    if k + 1 < 5 then s.withSession p { x with finalWait := some (k + 1) }
    else (s.withSession p { x with finalWait := some 5 }).endFinalWait p
  | _, _ => s

/-- Every running final-meter wait at a period close (R70). -/
def State.finalWaitTicks (s : State) : State := allPoints.foldl State.finalWaitTick s

/-- The record returns to FREE and its tariff reference is given up (R59, R71). -/
def State.freeSession (p : Point) (s : State) : State :=
  (s.withTfu (s.tfu.dropRef (s.session p).tariffSlot)).withSession p Session.free

/-- The opening program has completed (R58). -/
def State.openingCompleted (p : Point) (s : State) : State :=
  match (s.session p).pendingClose with
  | none => (s.enterWaiting p).raise .c .sessionOpened [p.val]
  | some reason => (s.startClose p reason).raise .c .sessionOpened [p.val]

/-- The opening has failed for the third time (R59). -/
def State.openingFailed (p : Point) (s : State) : State :=
  (s.freeSession p).raise .c .openFailed [p.val]

/-- The closing program has completed (R71). -/
def State.closingCompleted (p : Point) (s : State) : State :=
  (s.freeSession p).raise .c .sessionClosed [p.val]

end Sys2Proof.Machine
end

