-- ==== Sys2Proof/Machine/Limits.lean ====
section
/-! DEFINITION. The limit supervisor (Chapters 1 and 2): limits, line, lease, L_eff and check limit, the escalation
machine and the release, with the meanings of SET_LIMITS, RENEW_LIMIT, LIMREQ_N_CHANGE, LIMIT_LINE_EDGE, SECOND_TICK,
LEASE_LAPSE and RELEASE_TRIP. -/

namespace Sys2Proof.Machine

open Sys2Proof

/-! ## The effective limit -/

/-- The base limit (R10). -/
def Lsu.base (l : Lsu) : Nat :=
  match l.line with
  | .asserted => l.lRed
  | .released => l.lImp

/-- L_eff as R10 forms it. -/
def Lsu.effective (l : Lsu) : Nat :=
  match l.lease with
  | .lapsed => min l.base l.lFb
  | .off => l.base
  | .live => l.base

/-- L_eff recomputed; a change raises the check limit of the running period to it (R10, R14). -/
def Lsu.republish (l : Lsu) : Lsu :=
  if l.effective = l.lEff then l
  else { l with lEff := l.effective, checkLimit := max l.checkLimit l.effective }

/-- M_eff, the margin in force (R10). -/
def Lsu.marginInForce (l : Lsu) : Nat :=
  match l.esc with
  | .curtail => 2 * l.margin
  | .unconfigured => l.margin
  | .normal => l.margin
  | .shed => l.margin
  | .tripped => l.margin

/-- L_eff recomputed, with a recompute request if it changed and a reading exists (R12, R13, R16). -/
def State.republishAndAsk (s : State) : State :=
  let t := s.withLsu s.lsu.republish
  if t.lsu.lEff = s.lsu.lEff then t else t.sendRecompute

/-! ## The lease -/

/-- The restart of the lease at an accepted SET LIMITS (R11). -/
def Lsu.restartLease (l : Lsu) : Lsu :=
  if l.limitsValid = true ∧ 0 < l.tLive then { l with lease := .live, leaseCount := l.tLive }
  else { l with lease := .off, leaseCount := 0 }

/-- The lapse of the lease (R12). -/
def State.lapse (s : State) : State :=
  ((s.withLsu { s.lsu with lease := .lapsed, leaseCount := 0 }).raise .s .leaseLapsed []).republishAndAsk

/-- The lease at a second tick: a LIVE count goes down by one and lapses at 0 (R11, R12). A count of 1 that T_live 1 has
just reloaded lapses too, where R13 says of a renewal before the tick that no lapse occurs (log entry 44). -/
def State.leaseTick (s : State) : State :=
  match s.lsu.lease with
  | .live =>
    if s.lsu.leaseCount ≤ 1 then s.lapse else s.withLsu { s.lsu with leaseCount := s.lsu.leaseCount - 1 }
  | .off => s
  | .lapsed => s

/-- RENEW LIMIT on port S (R13). -/
def renewLimitOp (s : State) : State :=
  if s.lsu.limitsValid = false then s.turnDown .s .refused .state
  else
    match s.lsu.lease with
    | .live => (s.withLsu { s.lsu with leaseCount := s.lsu.tLive }).ok .s false []
    | .lapsed => ((s.withLsu { s.lsu with lease := .live, leaseCount := s.lsu.tLive }).republishAndAsk).ok .s false []
    | .off => s.ok .s false []

/-- RENEW_LIMIT (R13). -/
def execRenewLimit (port : Port) (s : State) : Host.Outcome State Fault Refusal :=
  .next (s.onSite port renewLimitOp)

/-- LEASE_LAPSE: the lease count reaches 0 in LIVE (R12). In OFF and LAPSED there is no count to run out (log entry
7). -/
def execLeaseLapse (s : State) : Host.Outcome State Fault Refusal :=
  .next (match s.lsu.lease with
    | .live => s.lapse
    | .off => s
    | .lapsed => s)

/-- A session's idle seconds at a second tick (R63). -/
def Session.idleTick (x : Session) : Session :=
  match x.state with
  | .done => { x with idleSeconds := satAdd top32 x.idleSeconds 1 }
  | .free => x
  | .opening => x
  | .waiting => x
  | .charging => x
  | .stopped => x
  | .closing => x

/-- SECOND_TICK: calendar, lease count and idle seconds (R144, R11, R12, R63). -/
def execSecondTick (s : State) : Host.Outcome State Fault Refusal :=
  let t := s.withTfu { s.tfu with calendar := s.tfu.calendar + 1, secondTimer := 0 }
  .next (t.withSsu { t.ssu with sessions := t.ssu.sessions.map Session.idleTick }).leaseTick

/-! ## The limit request line -/

/-- LIMREQ_N_CHANGE: the contact's level; a change starts or restarts the 20 ms debounce (R8). -/
def execLimreqNChange (low : Bool) (s : State) : Host.Outcome State Fault Refusal :=
  .next (if low = s.lsu.limreqLow then s else s.withLsu { s.lsu with limreqLow := low, debounce := 0 })

/-- The line state a level of LIMREQ_N stands for (R8). -/
def lineOf (low : Bool) : Line := if low then .asserted else .released

/-- An edge: L_eff, LIMIT_LINE on port S, a recompute request when a reading exists (R9). -/
def State.lineEdge (s : State) : State :=
  let t := s.withLsu (Lsu.republish { s.lsu with line := lineOf s.lsu.limreqLow, debounce := 0 })
  (t.raise .s .limitLine []).sendRecompute

/-- LIMIT_LINE_EDGE: the debounce runs out while LIMREQ_N holds the level of the opposite line state (R8, R9). -/
def execLimitLineEdge (s : State) : Host.Outcome State Fault Refusal :=
  .next (if lineOf s.lsu.limreqLow = s.lsu.line then s else s.lineEdge)

/-! ## The escalation machine -/

/-- A change of escalation state: the trip line follows it, both counts become 0, ESCALATION is raised on both ports
(R27, R31). -/
def State.escalate (e : Escalation) (s : State) : State :=
  (s.withLsu
    { s.lsu with
      esc := e
      trip := e == .tripped
      cleanCount := 0
      graceCount := 0 }).raiseBoth .escalation []

/-- Entry into SHED (R23). -/
def State.enterShed (s : State) : State := (s.escalate .shed).allZeroRequest

/-- A session that is not FREE takes TRIP_SEEN (R74). -/
def Session.seeTrip (x : Session) : Session := if x.state = .free then x else { x with tripSeen := true }

/-- Entry into TRIPPED (R26). -/
def State.enterTripped (s : State) : State :=
  let t := (s.escalate .tripped).raiseBoth .tripped []
  let u := (t.withLsu { t.lsu with latchS := false, latchC := false }).allZeroRequest
  u.withSsu { u.ssu with sessions := u.ssu.sessions.map Session.seeTrip }

/-- The completion of a release (R29). -/
def State.completeRelease (s : State) : State :=
  let t := s.escalate .curtail
  t.withLsu { t.lsu with latchS := false, latchC := false }

/-- A clean reading taken toward leaving CURTAIL or SHED (R22, R24). -/
def State.countClean (next : Escalation) (s : State) : State :=
  if s.lsu.tClear ≤ s.lsu.cleanCount + 1 then s.escalate next
  else s.withLsu { s.lsu with cleanCount := satAdd 255 s.lsu.cleanCount 1 }

/-- A judgement in CURTAIL (R22). -/
def State.judgeCurtail (j : Judgement) (s : State) : State :=
  match j with
  | .excess => s.enterShed
  | .clean => s.countClean .normal
  | .missing => s
  | .unjudged => s

/-- A judgement in SHED (R24). -/
def State.judgeShed (j : Judgement) (s : State) : State :=
  if s.lsu.graceCount < s.lsu.tGrace then s.withLsu { s.lsu with graceCount := s.lsu.graceCount + 1 }
  else
    match j with
    | .excess => s.enterTripped
    | .clean => s.countClean .curtail
    | .missing => s
    | .unjudged => s

/-- A judgement in TRIPPED (R30, R29). -/
def State.judgeTripped (j : Judgement) (s : State) : State :=
  match j with
  | .excess => s.withLsu { s.lsu with latchS := false, latchC := false }
  | .clean => if s.lsu.latchS && s.lsu.latchC then s.completeRelease else s
  | .missing => s
  | .unjudged => s

/-- The escalation machine takes the judgement of a reading (R20 to R24, R30). -/
def State.applyJudgement (j : Judgement) (s : State) : State :=
  if j = .unjudged then s
  else
    match s.lsu.esc with
    | .unconfigured => s
    | .normal => if j = .excess then s.escalate .curtail else s
    | .curtail => s.judgeCurtail j
    | .shed => s.judgeShed j
    | .tripped => s.judgeTripped j

/-! ## The limit set -/

/-- The limit set after the clamps of R6. -/
structure ClampedLimits where
  lImp : Nat
  lRed : Nat
  lExp : Nat
  margin : Nat
  lFb : Nat
  tLive : Nat
deriving DecidableEq, Repr

/-- The greatest limit (R5). -/
def limitMax : Nat := 4000000

/-- The clamps of R6, in their order. -/
def clampLimits (x : LimitsOperand) : ClampedLimits :=
  let lImp := min x.lImp.toNat limitMax
  { lImp
    lRed := min (min x.lRed.toNat limitMax) lImp
    lExp := min x.lExp.toNat limitMax
    margin := min x.margin.toNat 200000
    lFb := min (min x.lFb.toNat limitMax) lImp
    tLive := min x.tLive.toNat 3600 }

/-- Some clamp of R6 changed a value. -/
def limitsClamped (x : LimitsOperand) : Bool :=
  clampLimits x != ⟨x.lImp.toNat, x.lRed.toNat, x.lExp.toNat, x.margin.toNat, x.lFb.toNat, x.tLive.toNat⟩

/-- The limit set replaced and the lease restarted (R7, R11). -/
def Lsu.withLimits (l : Lsu) (c : ClampedLimits) : Lsu :=
  Lsu.restartLease
    { l with
      lImp := c.lImp, lRed := c.lRed, lExp := c.lExp, margin := c.margin, lFb := c.lFb, tLive := c.tLive
      limitsValid := decide (0 < c.lImp) }

/-- The move of the escalation state at an accepted SET LIMITS (R21). -/
def State.configure (lImp : Nat) (s : State) : State :=
  if 0 < lImp then (if s.lsu.esc = .unconfigured then s.escalate .normal else s)
  else if s.lsu.esc = .unconfigured then s.withLsu { s.lsu with cleanCount := 0, graceCount := 0 }
  else s.escalate .unconfigured

/-- SET LIMITS on port S (R6, R7). -/
def setLimitsOp (limits : LimitsOperand) (s : State) : State :=
  let c := clampLimits limits
  if c.lImp = 0 ∧ s.lsu.esc = .tripped then s.turnDown .s .refused .state
  else
    let t := (s.withLsu (s.lsu.withLimits c)).configure c.lImp
    ((t.withLsu t.lsu.republish).sendRecompute).ok .s (limitsClamped limits) []

/-- SET_LIMITS (R6, R7). -/
def execSetLimits (port : Port) (limits : LimitsOperand) (s : State) : Host.Outcome State Fault Refusal :=
  .next (s.onSite port (setLimitsOp limits))

/-! ## Release -/

/-- The release latch of a port set (R28). -/
def Lsu.setLatch (l : Lsu) : Port → Lsu
  | .s => { l with latchS := true }
  | .c => { l with latchC := true }

/-- RELEASE TRIP (R28, R29). Outside TRIPPED both latches are clear (Safety.lean, `EscalationInv`) and stay so. -/
def releaseTripOp (port : Port) (s : State) : State :=
  if s.lsu.esc = .tripped then
    let t := s.withLsu (s.lsu.setLatch port)
    if t.lsu.latchS && t.lsu.latchC && s.cmu.judgement == .clean then (t.completeRelease.sendRecompute).ok port false []
    else t.accepted port []
  else s.turnDown port .refused .state

/-- RELEASE_TRIP (R28, R29). -/
def execReleaseTrip (port : Port) (s : State) : Host.Outcome State Fault Refusal :=
  .next (releaseTripOp port s)

end Sys2Proof.Machine
end

