-- ==== Sys2Proof/Machine/Balance.lean ====
section
/-! DEFINITION. The balance unit (Chapter 3): inputs, the computation, missing readings, the orders in force, with the
meanings of NEW_READING and RECOMPUTE_REQUEST. -/

namespace Sys2Proof.Machine

open Sys2Proof

/-! ## Inputs -/

/-- The greatest power a charger counts with (R36). -/
def chargerTop : Nat := 150000

/-- What an ONLINE charge point contributes to C (R36). -/
def Node.drawn (n : Node) : Nat :=
  match n.report with
  | some (.chargePoint _ power _ _ _) => min power chargerTop
  | _ => 0

/-- A LOST point with a session (R36). -/
def State.lostWithSession (s : State) (p : Point) : Bool :=
  (s.node (pointNode p)).state == .lost && (s.session p).state != .free

/-- What a point contributes to R_lost: its failsafe F_i (R36). -/
def State.lostPower (s : State) (p : Point) : Nat :=
  if s.lostWithSession p then (s.node (pointNode p)).failsafePower s.site.vNom else 0

/-- What a point contributes to C (R36). -/
def State.chargerPower (s : State) (p : Point) : Nat :=
  if s.online p then (s.node (pointNode p)).drawn else s.lostPower p

/-- The sum of a quantity over the points. -/
def sumPoints (f : Point → Nat) : Nat := (allPoints.map f).sum

/-- C (R36). -/
def State.chargerSum (s : State) : Nat := sumPoints s.chargerPower

/-- R_lost (R36). -/
def State.lostSum (s : State) : Nat := sumPoints s.lostPower

/-- An integer brought into `lo` to `hi`. -/
def clampInt (lo hi x : Int) : Int := max lo (min hi x)

/-- The battery node is ONLINE. -/
def State.batteryOnline (s : State) : Bool := (s.node batteryNode).state == .online

/-- The canopy node is ONLINE. -/
def State.canopyOnline (s : State) : Bool := (s.node canopyNode).state == .online

/-- Q (R37). -/
def State.batteryPower (s : State) : Int :=
  if s.batteryOnline then clampInt (-2000000) 2000000 (s.node batteryNode).reportedPower else 0

/-- P_pv (R37). -/
def State.canopyPower (s : State) : Nat :=
  if s.canopyOnline then (clampInt 0 2000000 (s.node canopyNode).reportedPower).toNat else 0

/-- Bd (R37). -/
def State.availableDischarge (s : State) : Nat :=
  if s.batteryOnline && decide (s.bau.socLo < (s.node batteryNode).soc) then s.bau.pBdMax else 0

/-- Bc (R37). -/
def State.availableCharge (s : State) : Nat :=
  if s.batteryOnline && decide ((s.node batteryNode).soc < s.bau.socHi) then s.bau.pBcMax else 0

/-- States in which a session may be eligible (R38). -/
def SessionState.wantsPower : SessionState → Bool
  | .waiting => true
  | .charging => true
  | .free => false
  | .opening => false
  | .stopped => false
  | .done => false
  | .closing => false

/-- The session of a point is eligible (R38). -/
def State.eligible (s : State) (p : Point) : Bool :=
  (s.session p).state.wantsPower && s.online p && (s.node (pointNode p)).request != 0

/-- The effective ceiling of a point (R78). -/
def State.ceiling (s : State) (p : Point) : Nat := (s.node (pointNode p)).ceiling s.site.vNom

/-- D (R38). -/
def State.demand (s : State) : Nat := sumPoints (fun p => if s.eligible p then s.ceiling p else 0)

/-! ## The computation -/

/-- Budget and battery order (R43, R44). -/
structure Orders where
  b : Nat
  qo : Int
deriving DecidableEq, Repr

/-- Surplus: B is D, and the battery charges (R43). -/
def surplusOrders (a n : Int) (d bc : Nat) (gridOk : Bool) : Orders :=
  let room := min (a - d) bc
  let charge := if gridOk then room else min room (max 0 (-n - d))
  { b := d, qo := -charge }

/-- Shortfall: the battery discharges, B is what is left (R44). -/
def shortfallOrders (a : Int) (d bd : Nat) : Orders :=
  let discharge := min (bd : Int) (d - a)
  { b := (max 0 (a + discharge)).toNat, qo := discharge }

/-- The override by escalation state (R45). -/
def overrideOrders (e : Escalation) (bd : Nat) (o : Orders) : Orders :=
  match e with
  | .normal => o
  | .curtail => o
  | .shed => ⟨0, bd⟩
  | .tripped => ⟨0, bd⟩
  | .unconfigured => ⟨0, 0⟩

/-- N (R42). -/
def State.restOfSite (s : State) (r : Reading) : Int := r.pGrid - s.chargerSum + s.batteryPower

/-- A (R42). -/
def State.headroom (s : State) (r : Reading) : Int :=
  (s.lsu.lEff : Int) - s.lsu.marginInForce - s.restOfSite r - s.lostSum

/-- The orders of a measured reading (R43 to R45). -/
def State.measuredOrders (s : State) (r : Reading) : Orders :=
  overrideOrders s.lsu.esc s.availableDischarge
    (if (s.demand : Int) ≤ s.headroom r then
      surplusOrders (s.headroom r) (s.restOfSite r) s.demand s.availableCharge s.tfu.gridOk
    else shortfallOrders (s.headroom r) s.demand s.availableDischarge)

/-- The canopy cap for a projected import G′ (R46). -/
def State.capFor (s : State) (g : Int) : Nat :=
  if s.lsu.limitsValid = true ∧ g < -(s.lsu.lExp : Int) then
    min s.bau.pPvRat (max 0 ((s.canopyPower : Int) - (-(s.lsu.lExp : Int) - g))).toNat
  else s.bau.pPvRat

/-- pv_w (R47). -/
def State.pvWeight (s : State) : Nat := min s.canopyPower s.chargerSum

/-- bat_w (R47). -/
def State.batWeight (s : State) : Nat := min (max s.batteryPower 0).toNat (s.chargerSum - s.pvWeight)

/-- The record of a GOOD or SATURATED reading (section 3.3). -/
def State.measuredRecord (s : State) (r : Reading) (recomputed : Bool) : BalanceRecord :=
  let o := s.measuredOrders r
  { period := r.period, recomputed, n := s.restOfSite r, a := s.headroom r, d := s.demand, b := o.b, qo := o.qo
    cap := s.capFor (s.restOfSite r + o.b - o.qo), pvW := s.pvWeight, batW := s.batWeight, c := s.chargerSum
    esc := s.lsu.esc, missing := s.bau.missingCount }

/-- The override of a record that was not computed in full: in SHED and TRIPPED the budget is 0, in UNCONFIGURED the
budget and the order are 0 and the cap is the rating (R49, R50). -/
def State.overrideHeld (s : State) (x : BalanceRecord) : BalanceRecord :=
  match s.lsu.esc with
  | .normal => x
  | .curtail => x
  | .shed => { x with b := 0 }
  | .tripped => { x with b := 0 }
  | .unconfigured => { x with b := 0, qo := 0, cap := s.bau.pPvRat }

/-- The held record (R49). -/
def State.heldRecord (s : State) (r : Reading) (recomputed : Bool) : BalanceRecord :=
  s.overrideHeld
    { s.bau.record with
      period := r.period
      recomputed
      d := s.demand
      b := min s.bau.record.b s.demand
      cap := min s.bau.record.cap s.bau.pPvRat
      esc := s.lsu.esc
      missing := s.bau.missingCount }

/-- The degraded record (R50). -/
def State.degradedRecord (s : State) (r : Reading) (recomputed : Bool) : BalanceRecord :=
  s.overrideHeld
    { s.bau.record with
      period := r.period
      recomputed
      d := s.demand
      b := min (min s.bau.record.b s.bau.bSafe) s.demand
      qo := 0
      cap := min s.bau.record.cap s.bau.pPvRat
      pvW := s.pvWeight
      batW := s.batWeight
      c := s.chargerSum
      esc := s.lsu.esc
      missing := s.bau.missingCount }

/-- The record of a reading (R34, R49 to R51). A recompute on a MISSING reading that no new reading has counted yet
finds the count 0 and gives a held record (log entry 9). -/
def State.newRecord (s : State) (r : Reading) (recomputed : Bool) : BalanceRecord :=
  match r.quality with
  | .good => s.measuredRecord r recomputed
  | .saturated => s.measuredRecord r recomputed
  | .missing => if s.bau.missingCount < 3 then s.heldRecord r recomputed else s.degradedRecord r recomputed

/-- A new record in place of the old one, handed to the allocator as a budget arrival (R34, R35). -/
def State.computeRecord (r : Reading) (recomputed : Bool) (s : State) : State :=
  let x := s.newRecord r recomputed
  (s.withBau { s.bau with record := x }).send (.budget x.b (!recomputed))

/-- The missing count at a new reading, with MEASURE_MISSING (R48). -/
def State.countMissing (r : Reading) (s : State) : State :=
  match r.quality with
  | .missing =>
    (s.withBau { s.bau with missingCount := satAdd 255 s.bau.missingCount 1 }).raise .s .measureMissing []
  | .good => s.withBau { s.bau with missingCount := 0 }
  | .saturated => s.withBau { s.bau with missingCount := 0 }

/-- The reading of a request, if it is a new reading. -/
def Request.reading : Request → Option Reading
  | .newReading r => some r
  | .recompute => none
  | .budget _ _ => none
  | .reduction _ => none
  | .reportToAllocator _ _ _ => none
  | .reportToSession _ _ _ => none

/-- The reading the balance unit takes: the first one handed to it, else the reading record (log entry 6). -/
def State.readingToTake (s : State) : Option Reading :=
  match s.requests.findSome? Request.reading with
  | some r => some r
  | none => if s.cmu.readingExists then some s.cmu.reading else none

/-- NEW_READING: the balance unit takes a judged reading (R34, R48). -/
def execNewReading (s : State) : Host.Outcome State Fault Refusal :=
  .next (match s.readingToTake with
    | some r => ((s.takeRequest (.newReading r)).countMissing r).computeRecord r false
    | none => s)

/-- RECOMPUTE_REQUEST: the balance unit answers a recompute request from the reading record (R16, R34, R51). -/
def execRecomputeRequest (s : State) : Host.Outcome State Fault Refusal :=
  .next (if s.cmu.readingExists then (s.takeRequest .recompute).computeRecord s.cmu.reading true else s)

/-! ## Orders in force -/

/-- The battery order in force (R52). -/
def State.batteryOrder (s : State) : Int :=
  if !s.batteryOnline then 0
  else if 0 < s.bau.record.qo then
    (if (s.node batteryNode).soc ≤ s.bau.socLo then 0 else min s.bau.record.qo s.bau.pBdMax)
  else if s.bau.record.qo < 0 then
    (if s.bau.socHi ≤ (s.node batteryNode).soc then 0 else -(min (-s.bau.record.qo) s.bau.pBcMax))
  else 0

/-- The canopy cap in force (R53). -/
def State.canopyCap (s : State) : Nat := min s.bau.record.cap s.bau.pPvRat

end Sys2Proof.Machine
end

