-- ==== Sys2Proof/Machine/Allocation.lean ====
section
/-! DEFINITION. The allocator (Chapter 5): admission list, fairness swap, admission, sharing, rounding and the formation
of a grant set, with the meanings of ALLOCATION and SET_POLICY. -/

namespace Sys2Proof.Machine

open Sys2Proof

/-! ## The admission list -/

/-- The minimum m_i of a point (R78). -/
def State.minPower (s : State) (p : Point) : Nat := (s.node (pointNode p)).minPower s.site.vNom

/-- An eligible session of a class and state (R79). -/
def State.takesPart (s : State) (cls : SessionClass) (st : SessionState) (p : Point) : Bool :=
  s.eligible p && (s.session p).cls == cls && (s.session p).state == st

/-- Ascending receipt number (R79). -/
def State.numberOrder (s : State) (p q : Point) : Bool := decide ((s.session p).number ≤ (s.session q).number)

/-- Descending grant age, the lower receipt number first among equals (R79). -/
def State.ageOrder (s : State) (p q : Point) : Bool :=
  decide ((s.session q).grantAge < (s.session p).grantAge) ||
    ((s.session p).grantAge == (s.session q).grantAge && s.numberOrder p q)

/-- Group 1: PRIORITY sessions; in CURTAIL the CHARGING ones only (R79, R83). -/
def State.group1 (s : State) : List Point :=
  (allPoints.filter (fun p => s.takesPart .priority .charging p ||
    (s.takesPart .priority .waiting p && s.lsu.esc != .curtail))).insertionSort (fun p q => s.numberOrder p q)

/-- Group 2: STANDARD CHARGING sessions (R79). -/
def State.group2 (s : State) : List Point :=
  (allPoints.filter (s.takesPart .standard .charging)).insertionSort (fun p q => s.ageOrder p q)

/-- Group 3: STANDARD WAITING sessions in queue order; none in CURTAIL (R79, R83). -/
def State.group3 (s : State) : List Point :=
  if s.lsu.esc = .curtail then [] else s.alu.queue.filter (s.takesPart .standard .waiting)

/-- The waiter and the runner of the fairness swap, when it is made (R80). -/
def State.swap (s : State) : Option (Point × Point) :=
  match s.group3, s.group2 with
  | w :: _, r :: _ =>
    if s.lsu.esc = .normal ∧ s.alu.tFair ≤ (s.session w).waitCount ∧ s.alu.tRun ≤ (s.session r).grantAge
    then some (w, r) else none
  | _, _ => none

/-- The admission list before CURTAIL leaves sessions out: groups 1, 2, 3, or after a swap the waiter first in group 2
and the runner last in group 3 (R79, R80). -/
def State.candidates (s : State) : List Point :=
  match s.swap with
  | some (w, r) => s.group1 ++ (w :: s.group2.tail) ++ (s.group3.tail ++ [r])
  | none => s.group1 ++ s.group2 ++ s.group3

/-- In CURTAIL a CHARGING session whose present grant is below its minimum is left out (R83). -/
def State.leftOut (s : State) (p : Point) : Bool :=
  s.lsu.esc == .curtail && decide ((s.session p).grant < s.minPower p)

/-- The admission list (R79, R80, R83). -/
def State.admissionList (s : State) : List Point := s.candidates.filter (fun p => !s.leftOut p)

/-! ## Admission -/

/-- The sessions admitted: the walk adds minimums to the running sum and stops at the first that does not fit (R81). -/
def admitWalk (m : Point → Nat) (b : Nat) : Nat → List Point → List Point
  | _, [] => []
  | sum, p :: ps => if sum + m p ≤ b then p :: admitWalk m b (sum + m p) ps else []

/-- The sessions an allocation against `b` admits (R81). -/
def State.admitted (s : State) (b : Nat) : List Point := admitWalk s.minPower b 0 s.admissionList

/-! ## Sharing -/

/-- The ceiling used in sharing (R78, R83). -/
def State.shareCeiling (s : State) (p : Point) : Nat :=
  if s.lsu.esc = .curtail then min (s.ceiling p) (s.session p).grant else s.ceiling p

/-- A session's share at a level: clamp(w × λ, m, c) (R84). -/
def shareAt (m c w level : Nat) : Nat := clampTo m c (w * level)

/-- What a group of sessions would take together at a level. -/
def State.shareSum (s : State) (w : Point → Nat) (ps : List Point) (level : Nat) : Nat :=
  (ps.map (fun p => shareAt (s.minPower p) (s.shareCeiling p) (w p) level)).sum

/-- The largest level below `start + 2 ^ k` that fits, found bit by bit: what fits falls as the level grows. -/
def searchLevel (fits : Nat → Bool) : Nat → Nat → Nat
  | 0, start => start
  | k + 1, start => if fits (start + 2 ^ k) then searchLevel fits k (start + 2 ^ k) else searchLevel fits k start

/-- The largest level whose shares sum to at most `b`, when the ceilings do not fit (R84). At the greatest ceiling every
share is at its ceiling, so no level above it need be tried. -/
def State.level (s : State) (w : Point → Nat) (ps : List Point) (b : Nat) : Nat :=
  searchLevel (fun x => decide (s.shareSum w ps x ≤ b)) (Nat.log2 ((ps.map s.shareCeiling).foldl max 0) + 1) 0

/-- The grant of a session of a group shared against `b` (R84). -/
def State.shareGrant (s : State) (w : Point → Nat) (ps : List Point) (b : Nat) (p : Point) : Nat :=
  if (ps.map s.shareCeiling).sum ≤ b then s.shareCeiling p
  else shareAt (s.minPower p) (s.shareCeiling p) (w p) (s.level w ps b)

/-- The weight of a session in SHARED mode (R84). -/
def State.weight (s : State) (p : Point) : Nat :=
  match (s.session p).cls with
  | .priority => 2
  | .standard => 1

/-- The sessions of a list with a class. -/
def State.ofClass (s : State) (cls : SessionClass) (ps : List Point) : List Point :=
  ps.filter (fun p => (s.session p).cls == cls)

/-- The grant of an admitted PRIORITY session in PRIORITY mode: shared against B less the STANDARD minimums (R85). -/
def State.priorityGrant (s : State) (ps : List Point) (b : Nat) (p : Point) : Nat :=
  s.shareGrant (fun _ => 1) (s.ofClass .priority ps) (b - ((s.ofClass .standard ps).map s.minPower).sum) p

/-- The grant of an admitted STANDARD session in PRIORITY mode: shared against B less the PRIORITY grants (R85). -/
def State.standardGrant (s : State) (ps : List Point) (b : Nat) (p : Point) : Nat :=
  s.shareGrant (fun _ => 1) (s.ofClass .standard ps)
    (b - ((s.ofClass .priority ps).map (s.priorityGrant ps b)).sum) p

/-- The grant g_i of a point (R84, R85); 0 for a point that is not admitted. -/
def State.grantOf (s : State) (ps : List Point) (b : Nat) (p : Point) : Nat :=
  if ps.contains p then
    match s.alu.mode with
    | .shared => s.shareGrant s.weight ps b p
    | .priority =>
      match (s.session p).cls with
      | .priority => s.priorityGrant ps b p
      | .standard => s.standardGrant ps b p
  else 0

/-! ## Session states and counts -/

/-- A count that goes up by one at an allocation made on a record from a reading (R82). -/
def countOn (fromReading : Bool) (n : Nat) : Nat := if fromReading then satAdd 65535 n 1 else n

/-- A session record after the allocation: R81's outcomes, R82's counts, the grant (R79, R85). -/
def State.allocatedSession (s : State) (ps : List Point) (b : Nat) (fromReading : Bool) (p : Point) : Session :=
  let x := s.session p
  let runner := s.swap.any (fun w => w.2 == p)
  if ps.contains p then
    if x.state = .charging ∧ runner = false then
      { x with grantAge := countOn fromReading x.grantAge, grant := s.grantOf ps b p }
    else { x with state := .charging, grantAge := 0, waitCount := 0, grant := s.grantOf ps b p }
  else if x.state = .charging then
    if s.eligible p then { x with state := .waiting, grantAge := 0, waitCount := 0, grant := 0 }
    else { x with grant := 0 }
  else if x.state = .waiting then
    if s.eligible p then { x with waitCount := countOn fromReading x.waitCount, grant := 0 } else { x with grant := 0 }
  else x

/-- The queue after the allocation: the swap's runner at the tail, the admitted removed, then the CHARGING sessions not
admitted in their list order (R76, R80, R81; log entry 19). -/
def State.allocatedQueue (s : State) (ps : List Point) : List Point :=
  let runner := s.swap.toList.map (·.2)
  ((s.alu.queue ++ runner).filter (fun p => !ps.contains p)) ++
    s.candidates.filter (fun p =>
      (s.session p).state == .charging && !ps.contains p && !runner.contains p)

/-! ## The grant set -/

/-- The target of a point (R86, R87). -/
def State.target (s : State) (ps : List Point) (b : Nat) (p : Point) : Nat :=
  if s.online p then (s.node (pointNode p)).targetOf s.site.vNom (s.grantOf ps b p) else 0

/-- The set-point power of a value at a point (Conventions). -/
def State.powerOf (s : State) (p : Point) (value : Nat) : Nat :=
  setPointPower (s.node (pointNode p)).kind s.site.vNom value

/-- A point's entry of the new set (R88). -/
def State.newEntry (s : State) (ps : List Point) (b : Nat) (p : Point) : GrantEntry :=
  let target := s.target ps b p
  let sent := (s.node (pointNode p)).sentValue
  { target
    power := s.powerOf p target
    mark :=
      if !s.online p then .offline
      else if (target : Int) < sent then .reduction
      else if (target : Int) = sent then .unchanged
      else .raised
    leftOnline := false }

/-- The value to send an entry gives at formation, with its power (R89). -/
def State.entryValue (s : State) (e : GrantEntry) (p : Point) : Nat × Nat :=
  match e.mark with
  | .reduction => (e.target, e.power)
  | .unchanged => (e.target, e.power)
  | .raised =>
    ((s.node (pointNode p)).sentValue.toNat, s.powerOf p (s.node (pointNode p)).sentValue.toNat)
  | .offline => (0, 0)

/-- The new set in force, its values handed over, its staging begun (R88 to R90, R93). -/
def State.formSet (ps : List Point) (b : Nat) (s : State) : State :=
  let t := s.handValues (fun p => s.entryValue (s.newEntry ps b p) p)
  (t.withAlu
    { t.alu with
      set := { number := t.alu.set.number + 1, budget := b, entries := Vector.ofFn (s.newEntry ps b) }
      staging := .reducing }).stagingTest

/-- One allocation against a budget (R77). -/
def State.allocate (b : Nat) (fromReading : Bool) (s : State) : State :=
  let ps := s.admitted b
  let formed := s.formSet ps b
  let u := formed.withSsu { formed.ssu with sessions := Vector.ofFn (s.allocatedSession ps b fromReading) }
  u.withAlu { u.alu with queue := s.allocatedQueue ps }

/-- The budget of a request, if it is a budget arrival, and whether its record came from a reading. -/
def Request.budgetArrival : Request → Option (Nat × Bool)
  | .budget b fromReading => some (b, fromReading)
  | .newReading _ => none
  | .recompute => none
  | .reduction _ => none
  | .reportToAllocator _ _ _ => none
  | .reportToSession _ _ _ => none

/-- The budget the allocator takes: the first one handed to it, else the record in force (log entry 6). -/
def State.budgetToTake (s : State) : Nat × Bool :=
  (s.requests.findSome? Request.budgetArrival).getD (s.bau.record.b, !s.bau.record.recomputed)

/-- ALLOCATION: a budget arrival (R77 to R89). -/
def execAllocation (s : State) : Host.Outcome State Fault Refusal :=
  let x := s.budgetToTake
  .next ((s.takeRequest (.budget x.1 x.2)).allocate x.1 x.2)

/-! ## The policy -/

/-- The settings of SET POLICY after their clamps (R189, R96, R19, R41). -/
structure ClampedPolicy where
  tFair : Nat
  tRun : Nat
  tDwell : Nat
  tClear : Nat
  tGrace : Nat
  bSafe : Nat
deriving DecidableEq, Repr

/-- The clamps of SET POLICY (R189). -/
def clampPolicy (x : PolicyOperand) : ClampedPolicy :=
  { tFair := max x.tFair.toNat 1
    tRun := max x.tRun.toNat 1
    tDwell := min x.tDwell.toNat 10000
    tClear := clampTo 5 255 x.tClear.toNat
    tGrace := clampTo 1 30 x.tGrace.toNat
    bSafe := min x.bSafe.toNat limitMax }

/-- Some clamp of SET POLICY changed a value. -/
def policyClamped (x : PolicyOperand) : Bool :=
  clampPolicy x != ⟨x.tFair.toNat, x.tRun.toNat, x.tDwell.toNat, x.tClear.toNat, x.tGrace.toNat, x.bSafe.toNat⟩

/-- The policy in place, as one change (R189). -/
def State.withPolicy (mode : Mode) (c : ClampedPolicy) (s : State) : State :=
  ((s.withAlu { s.alu with mode, tFair := c.tFair, tRun := c.tRun, tDwell := c.tDwell }).withLsu
    { s.lsu with tClear := c.tClear, tGrace := c.tGrace }).withBau { s.bau with bSafe := c.bSafe }

/-- SET POLICY on port S (R189). -/
def setPolicyOp (policy : PolicyOperand) (s : State) : State :=
  match modeOperand policy.mode with
  | none => s.turnDown .s .refused .badValue
  | some mode => (s.withPolicy mode (clampPolicy policy)).ok .s (policyClamped policy) []

/-- SET_POLICY (R189, R96, R19, R41). -/
def execSetPolicy (port : Port) (policy : PolicyOperand) (s : State) : Host.Outcome State Fault Refusal :=
  .next (s.onSite port (setPolicyOp policy))

end Sys2Proof.Machine
end

