-- ==== Sys2Proof/Machine/Link.lean ====
section
/-! DEFINITION. The field link controller (Chapter 6): frames, the poll round, replies, misses and node states, with the
meanings of the link's events and of CONFIGURE_POINT, REMOVE_POINT, SET_SITE, SET_BATTERY and SET_CANOPY. -/

namespace Sys2Proof.Machine

open Sys2Proof

/-! ## Frames -/

/-- The start byte (R104). -/
def startByte : Byte := 0xC5

/-- A frame: start byte, address, kind, length, payload, CRC (R104). -/
def linkFrame (address : Nat) (kind : Byte) (payload : List Byte) : List Byte :=
  let body := BitVec.ofNat 8 address :: kind :: BitVec.ofNat 8 payload.length :: payload
  startByte :: body ++ leBytes 2 (crc16 body).toNat

/-- A CFG frame, initial value 0 (R104). -/
def cfgFrame (n : Fin 26) (sequence : Byte) (kind : NodeKind) (a b failsafe : Nat) : List Byte :=
  linkFrame n.val 0x11
    (leBytes 1 sequence.toNat ++ leBytes 1 kind.code ++ leBytes 4 a ++ leBytes 4 b ++ leBytes 4 failsafe ++ leBytes 4 0)

/-- A SET frame (R104). -/
def setFrame (n : Fin 26) (sequence : Byte) (value failsafe : Nat) : List Byte :=
  linkFrame n.val 0x12 (leBytes 1 sequence.toNat ++ leBytes 2 value ++ leBytes 4 failsafe)

/-- A CAP frame (R104). -/
def capFrame (n : Fin 26) (sequence : Byte) (cap failsafe : Nat) : List Byte :=
  linkFrame n.val 0x13 (leBytes 1 sequence.toNat ++ leBytes 4 cap ++ leBytes 4 failsafe)

/-- A BATT frame (R104). -/
def battFrame (n : Fin 26) (sequence : Byte) (order : Int) : List Byte :=
  linkFrame n.val 0x14 (leBytes 1 sequence.toNat ++ leBytesInt 4 order)

/-- The ZERO frame (R104, R116). -/
def zeroFrame : List Byte := linkFrame 0xFF 0x1F []

/-! ## Characters -/

/-- The even parity bit of a byte: set when an odd number of its bits is set (R103). -/
def evenParity (b : Byte) : Bool := (List.range 8).foldl (fun odd i => odd ^^ b.getLsbD i) false

/-- A byte as a character of the link: one start bit, eight data bits least significant first, one even parity bit, one stop
bit (R103). -/
def linkCharacter (b : Byte) : List LinkBit :=
  .start :: (List.range 8).map (fun i => .data (b.getLsbD i)) ++ [.parity (evenParity b), .stop]

/-- A frame as it goes out on LINK_TX, character by character (R103). -/
def linkBits (frame : List Byte) : List LinkBit := frame.flatMap linkCharacter

/-! ## The poll round -/

/-- The first node from `k` on that is not ABSENT. -/
def Flc.firstFrom (x : Flc) (k : Nat) : Option (Fin 26) :=
  (List.ofFn (id : Fin 26 → Fin 26)).find? (fun n => decide (k ≤ n.val) && x.nodes[n].state != .absent)

/-- A round starts: the held settings come into force and node 0 is the node to consider; ABSENT nodes are skipped as
they are reached (R103, R106; log entry 15). -/
def Flc.beginRound (x : Flc) : Flc :=
  match x.firstFrom 0 with
  | some n => { x with inForce := x.held, running := true, nextNode := n.val, startPending := false }
  | none => { x with inForce := x.held, running := false, nextNode := 0, startPending := false }

/-- The node to consider moves to the first node from its number on that is not ABSENT; past node 25 the round ends, and
a new one starts if its mark is set (R106). -/
def Flc.advance (x : Flc) : Flc :=
  if x.running then
    match x.firstFrom x.nextNode with
    | some n => { x with nextNode := n.val }
    | none => if x.startPending then x.beginRound else { x with running := false, nextNode := 0 }
  else x

/-- A period close at the link: a round starts, or the overrun is counted and a start marked pending (R106). -/
def Flc.periodClose (x : Flc) : Flc :=
  if x.running then { x with overruns := satAdd 65535 x.overruns 1, startPending := true } else x.beginRound

/-! ## Sending -/

/-- The sequence of node 24 or 25 when a frame of a value is formed: one more when the value differs from the sent value
(R108). -/
def Node.nextSequence (x : Node) (value : Int) : Byte :=
  if value = x.sentValue then x.sequence else x.sequence + 1

/-- The frame for a node and the entry after its forming (R107, R108); none for an ABSENT node. -/
def State.formFrame (n : Fin 26) (s : State) : Option (List Byte × Node) :=
  let x := s.node n
  match x.state, x.kind with
  | .absent, _ => none
  | .online, .canopy =>
    let sequence := x.nextSequence s.canopyCap
    some (capFrame n sequence s.canopyCap x.failsafe,
      { x with sequence, sentValue := s.canopyCap, sentFailsafe := x.failsafe })
  | .online, .battery =>
    let sequence := x.nextSequence s.batteryOrder
    some (battFrame n sequence s.batteryOrder, { x with sequence, sentValue := s.batteryOrder })
  | .online, _ =>
    let v := s.alu.points[n.val]?.getD ⟨0, 0, false⟩
    some (setFrame n x.sequence v.value x.failsafe,
      { x with sentValue := v.value, sentPower := v.power, sentFailsafe := x.failsafe })
  | _, .canopy =>
    let sequence := x.nextSequence 0
    some (cfgFrame n sequence .canopy s.bau.pPvRat 0 x.failsafe,
      { x with sequence, sentValue := 0, sentFailsafe := x.failsafe })
  | _, .battery =>
    let sequence := x.nextSequence 0
    some (cfgFrame n sequence .battery s.bau.pBdMax s.bau.pBcMax 0,
      { x with sequence, sentValue := 0, sentFailsafe := 0 })
  | _, kind =>
    some (cfgFrame n x.sequence kind x.maximum x.minimum x.failsafe,
      { x with sentValue := 0, sentPower := 0, sentFailsafe := x.failsafe })

/-- The node the round would poll now: a round runs, no exchange is in progress and no ZERO frame comes first (R106,
R116). -/
def Flc.toPoll (x : Flc) : Option (Fin 26) :=
  if x.running = true ∧ x.exchange = none ∧ x.broadcastPending = false then x.firstFrom x.nextNode else none

/-- The frame sent to a node: its entry updated, the exchange begun. The next node to consider is then the number after the
polled one, 26 after node 25 (log entry 15). -/
def State.sendFrame (n : Fin 26) (bytes : List Byte) (x : Node) (s : State) : State :=
  let t := s.withNode n x
  t.withFlc { t.flc with exchange := some ⟨n, false, false⟩, replyTimer := 0, line := linkBits bytes, nextNode := n.val + 1 }

/-- FRAME_SEND: the frame for the next node of the round is formed and sent (R107, R108). -/
def execFrameSend (s : State) : Host.Outcome State Fault Refusal :=
  .next (match s.flc.toPoll with
    | some n =>
      match s.formFrame n with
      | some f => s.sendFrame n f.1 f.2
      | none => s
    | none => s)

/-- ZERO_FRAME: with the broadcast pending mark set and no exchange in progress, the ZERO frame is sent (R116). -/
def execZeroFrame (s : State) : Host.Outcome State Fault Refusal :=
  .next (if s.flc.broadcastPending = true ∧ s.flc.exchange = none then
      s.withFlc { s.flc with broadcastPending := false, line := linkBits zeroFrame }
    else s)

/-! ## Replies -/

/-- A charge point of a node number. -/
def nodePoint (n : Fin 26) : Option Point := if h : n.val < 24 then some ⟨n.val, h⟩ else none

/-- The echo and the report fields of a REPORT payload that fits the node (R104, R110 check 7). -/
def parseReport (n : Fin 26) (b : List Byte) : Option (Byte × Report) :=
  if n.val < 24 then
    if b.length = 16 ∧ byteAt b 0 = 1 ∧ (byteAt b 14 = 0 ∨ byteAt b 14 = 1) then
      some (byteAt b 1,
        .chargePoint (longAt b 2) (fieldAt b 6 4) (fieldAt b 10 4) (byteAt b 14 == 1) (byteAt b 15))
    else none
  else if n = canopyNode then
    if b.length = 11 ∧ byteAt b 0 = 2 then
      some (byteAt b 1, .canopy (fieldAt b 2 4) (fieldAt b 6 4) (byteAt b 10))
    else none
  else if b.length = 9 ∧ byteAt b 0 = 3 then
    some (byteAt b 1, .battery (longAt b 2).toInt (fieldAt b 6 2) (byteAt b 8))
  else none

/-- How an exchange ended (R110): no reply; checks 2 to 7, which all count a miss and a frame error; a valid REPORT. -/
inductive ExchangeEnd where
  | noReply
  | error
  | valid (echo : Byte) (report : Report)
deriving DecidableEq, Repr

/-- The frame of a complete reply: its first 6 + length bytes. None while bytes are missing, which no end of an exchange
is (R109). -/
def replyFrame (bytes : List Byte) : Option (List Byte) :=
  if 6 ≤ bytes.length ∧ 6 + (byteAt bytes 3).toNat ≤ bytes.length then some (bytes.take (6 + (byteAt bytes 3).toNat))
  else none

/-- The CRC of a complete reply agrees (R104, R110 check 5). -/
def crcAgrees (f : List Byte) : Bool :=
  wordAt f (f.length - 2) == crc16 ((f.drop 1).take (f.length - 3))

/-- The outcome the received bytes give (R110): a first byte other than the start byte is a framing error, a length above
16 a wrong kind. None while the reply is not complete. -/
def classify (n : Fin 26) (kindChanged : Bool) (bytes : List Byte) : Option ExchangeEnd :=
  if bytes = [] then none
  else if byteAt bytes 0 ≠ startByte then some .error
  else if 4 ≤ bytes.length ∧ 16 < (byteAt bytes 3).toNat then some .error
  else
    match replyFrame bytes with
    | none => none
    | some f =>
      if crcAgrees f && byteAt f 1 == BitVec.ofNat 8 n.val && byteAt f 2 == 0x20 && !kindChanged then
        match parseReport n ((f.drop 4).take (f.length - 6)) with
        | some r => some (.valid r.1 r.2)
        | none => some .error
      else some .error

/-- The entry after a valid REPORT (R111). -/
def Node.reported (x : Node) (echo : Byte) (report : Report) : Node :=
  { x with
    report := some report, lastEcho := some echo, misses := 0, replyCount := x.replyCount + 1
    state := match x.state with
      | .joining => .online
      | .lost => .online
      | .online => .online
      | .absent => .absent }

/-- The entry after a miss (R110, R113). -/
def Node.missed (x : Node) (error : Bool) : Node :=
  { x with
    misses := satAdd 3 x.misses 1
    frameErrors := if error then satAdd 255 x.frameErrors 1 else x.frameErrors }

/-- A valid REPORT taken: the entry, NODE_JOINED, and of a charge point the REPORT handed on to allocator and session unit
(R111, R112). -/
def State.takeReport (n : Fin 26) (echo : Byte) (report : Report) (s : State) : State :=
  let x := s.node n
  let t := s.withNode n (x.reported echo report)
  let u := if x.state = .joining ∨ x.state = .lost then t.raise .s .nodeJoined [n.val] else t
  match nodePoint n with
  | some p => (u.send (.reportToAllocator p echo report)).send (.reportToSession p echo report)
  | none => u

/-- A point's session sees its node lost (R73). -/
def Session.seeLost (x : Session) : Session := if x.state = .free then x else { x with nodeLostSeen := true }

/-- A node declared LOST (R114). -/
def State.declareLost (n : Fin 26) (s : State) : State :=
  let t := (s.withNode n { s.node n with state := .lost }).raiseBoth .nodeLost [n.val]
  match nodePoint n with
  | some p =>
    let u := t.leaveOnline p
    u.withSession p (u.session p).seeLost
  | none => t

/-- A miss taken: the counts, and LOST at the third one of an ONLINE node (R113). -/
def State.takeMiss (n : Fin 26) (error : Bool) (s : State) : State :=
  let x := (s.node n).missed error
  let t := s.withNode n x
  if x.state = .online ∧ x.misses = 3 then t.declareLost n else t

/-- The exchange ends and the round goes on (R106). -/
def State.closeExchange (s : State) : State :=
  s.withFlc (Flc.advance { s.flc with exchange := none, replyTimer := 0 })

/-- The outcome of the exchange in progress taken in. A node removed meanwhile takes nothing: its reply is discarded and
changes no count (R102), and neither does an exchange with it that ends without a reply (log entry 52). -/
def State.endExchange (x : Exchange) (e : ExchangeEnd) (s : State) : State :=
  State.closeExchange
    (if x.removed then s
    else
      match e with
      | .noReply => s.takeMiss x.node false
      | .error => s.takeMiss x.node true
      | .valid echo report => s.takeReport x.node echo report)

/-- REPLY_RECEIVED: the bytes of a reply; the exchange ends when they complete it or when the first of them is no start
byte (R109, R110). Bytes while no reply is awaited are discarded. -/
def execReplyReceived (bytes : List Byte) (s : State) : Host.Outcome State Fault Refusal :=
  .next (match s.flc.exchange with
    | some x =>
      match classify x.node x.kindChanged bytes with
      | some e => s.endExchange x e
      | none => s
    | none => s)

/-- The exchange in progress ends without a complete reply. -/
def State.cutExchange (e : ExchangeEnd) (s : State) : State :=
  match s.flc.exchange with
  | some x => s.endExchange x e
  | none => s

/-- REPLY_TIMEOUT: T_reply runs out with no byte received (R109, R110 check 1). -/
def execReplyTimeout (s : State) : Host.Outcome State Fault Refusal :=
  .next (s.cutExchange .noReply)

/-- REPLY_SILENCE: a silence of more than two character times inside a reply (R109, R110 check 4). -/
def execReplySilence (s : State) : Host.Outcome State Fault Refusal :=
  .next (s.cutExchange .error)

/-- LINK_CHARACTER_ERROR: overrun, parity or framing error of a received character; each counts one miss and one frame
error (R110 checks 2 to 4). -/
def execLinkCharacterError (error : CharacterError) (s : State) : Host.Outcome State Fault Refusal :=
  .next (match error with
    | .overrun => s.cutExchange .error
    | .parity => s.cutExchange .error
    | .framing => s.cutExchange .error)

/-- LENGTH_FIELD_ABOVE_16: a reply's length field is above 16 (R109, R110 check 7). -/
def execLengthFieldAbove16 (s : State) : Host.Outcome State Fault Refusal :=
  .next (s.cutExchange .error)

/-! ## Enrolment and configuration -/

/-- The limits of CONFIGURE POINT after their clamps: maximum, minimum, failsafe (R99). -/
structure PointLimits where
  maximum : Nat
  minimum : Nat
  failsafe : Nat
deriving DecidableEq, Repr

/-- The clamps of R99, in their order. -/
def clampPoint (kind : NodeKind) (maximum minimum failsafe : Nat) : PointLimits :=
  let top := if kind = .dc then clampTo 1400 150000 maximum else clampTo 60 800 maximum
  { maximum := top
    minimum := if kind = .dc then clampTo 0 20000 minimum else clampTo 60 160 minimum
    failsafe := min failsafe top }

/-- The exchange in progress learns that its node's kind has changed (R117; log entry 16). -/
def Flc.markKindChanged (x : Flc) (n : Fin 26) : Flc :=
  { x with exchange := x.exchange.map (fun e => if e.node = n then { e with kindChanged := true } else e) }

/-- The exchange in progress learns that its node has been removed (R102). -/
def Flc.markRemoved (x : Flc) (n : Fin 26) : Flc :=
  { x with exchange := x.exchange.map (fun e => if e.node = n then { e with removed := true } else e) }

/-- An accepted CONFIGURE POINT (R100). -/
def State.configurePoint (p : Point) (kind : NodeKind) (l : PointLimits) (s : State) : State :=
  let x := s.node (pointNode p)
  let y := { x with kind, maximum := l.maximum, minimum := l.minimum, failsafe := l.failsafe }
  if x.state = .absent then s.withNode (pointNode p) { y with state := .joining }
  else if x.kind = kind then s.withNode (pointNode p) y
  else
    let t := s.withNode (pointNode p) { y with state := .joining, misses := 0, report := none, lastEcho := none }
    let u := t.withFlc (t.flc.markKindChanged (pointNode p))
    if x.state = .online then u.leaveOnline p else u

/-- CONFIGURE POINT on port S (R99, R100). -/
def configurePointOp (point kind : Byte) (maximum minimum failsafe : Word32) (s : State) : State :=
  match pointOperand point, kindOperand kind with
  | some p, some k =>
    let l := clampPoint k maximum.toNat minimum.toNat failsafe.toNat
    if (s.node (pointNode p)).kind ≠ k ∧ (s.session p).state ≠ .free then s.turnDown .s .busy .state
    else (s.configurePoint p k l).ok .s (l != ⟨maximum.toNat, minimum.toNat, failsafe.toNat⟩) []
  | _, _ => s.turnDown .s .refused .badValue

/-- CONFIGURE_POINT (R99, R100). -/
def execConfigurePoint (port : Port) (point kind : Byte) (maximum minimum failsafe : Word32) (s : State) :
    Host.Outcome State Fault Refusal :=
  .next (s.onSite port (configurePointOp point kind maximum minimum failsafe))

/-- The entry of a removed node: everything R102 clears; the sequence, and for nodes 24 and 25 kind and settings, stay. -/
def Node.removed (x : Node) (charger : Bool) : Node :=
  { x with
    state := .absent, report := none, lastEcho := none, misses := 0, frameErrors := 0, replyCount := 0
    kind := if charger then .notConfigured else x.kind
    maximum := if charger then 0 else x.maximum
    minimum := if charger then 0 else x.minimum
    failsafe := if charger then 0 else x.failsafe
    sentValue := 0, sentPower := 0, sentFailsafe := 0 }

/-- A charge point leaves ONLINE if it was ONLINE (R102, R95). -/
def State.leaveIfOnline (n : Fin 26) (s : State) : State :=
  match nodePoint n with
  | some p => if s.online p then s.leaveOnline p else s
  | none => s

/-- The removal of an enrolled node; the round moves on if it stood at the node (R102, R106). -/
def State.removeNode (n : Fin 26) (s : State) : State :=
  let t := s.leaveIfOnline n
  let u := t.withNode n ((t.node n).removed (nodePoint n).isSome)
  let x := u.flc.markRemoved n
  u.withFlc (if x.exchange = none then x.advance else x)

/-- The point of a node has a session (R102). -/
def State.nodeInUse (s : State) (n : Fin 26) : Bool := (nodePoint n).any (fun p => (s.session p).state != .free)

/-- REMOVE POINT on port S (R102). -/
def removePointOp (node : Byte) (s : State) : State :=
  match nodeOperand node with
  | none => s.turnDown .s .refused .badValue
  | some n =>
    if s.nodeInUse n then s.turnDown .s .busy .state
    else if (s.node n).state = .absent then s.ok .s false []
    else (s.removeNode n).ok .s false []

/-- REMOVE_POINT (R102). -/
def execRemovePoint (port : Port) (node : Byte) (s : State) : Host.Outcome State Fault Refusal :=
  .next (s.onSite port (removePointOp node))

/-- An ABSENT node becomes JOINING (R101). -/
def State.enrol (n : Fin 26) (s : State) : State :=
  if (s.node n).state = .absent then s.withNode n { s.node n with state := .joining } else s

/-! ## Settings of the site, the battery and the canopy -/

/-- SET SITE on port S (R188). -/
def setSiteOp (tBal vNom : Word16) (rate tReply : Byte) (s : State) : State :=
  match rateOperand rate with
  | none => s.turnDown .s .refused .badValue
  | some r =>
    let site : Site := ⟨clampBalancePeriod tBal.toNat, clampTo 200 260 vNom.toNat⟩
    let reply := clampTo 2 50 tReply.toNat
    ((s.withSite site).withFlc { s.flc with held := ⟨r, reply⟩ }).ok .s
      (site != ⟨tBal.toNat, vNom.toNat⟩ || reply != tReply.toNat) []

/-- SET_SITE (R188, R1, R103). -/
def execSetSite (port : Port) (tBal vNom : Word16) (rate tReply : Byte) (s : State) :
    Host.Outcome State Fault Refusal :=
  .next (s.onSite port (setSiteOp tBal vNom rate tReply))

/-- The greatest battery power (R40). -/
def batteryTop : Nat := 2000000

/-- SET BATTERY on port S (R40, R101). -/
def setBatteryOp (discharge charge : Word32) (socLo socHi : Word16) (s : State) : State :=
  let d := min discharge.toNat batteryTop
  let c := min charge.toNat batteryTop
  let lo := min socLo.toNat 1000
  let hi := min socHi.toNat 1000
  if hi ≤ lo then s.turnDown .s .refused .badValue
  else
    ((s.withBau { s.bau with pBdMax := d, pBcMax := c, socLo := lo, socHi := hi }).enrol batteryNode).ok .s
      (d != discharge.toNat || c != charge.toNat || lo != socLo.toNat || hi != socHi.toNat) []

/-- SET_BATTERY (R40, R101). -/
def execSetBattery (port : Port) (discharge charge : Word32) (socLo socHi : Word16) (s : State) :
    Host.Outcome State Fault Refusal :=
  .next (s.onSite port (setBatteryOp discharge charge socLo socHi))

/-- SET CANOPY on port S (R41, R101). -/
def setCanopyOp (rating failsafe : Word32) (s : State) : State :=
  let r := min rating.toNat 1000000
  let f := min failsafe.toNat r
  let t := (s.withBau { s.bau with pPvRat := r }).enrol canopyNode
  (t.withNode canopyNode { t.node canopyNode with failsafe := f }).ok .s
    (r != rating.toNat || f != failsafe.toNat) []

/-- SET_CANOPY (R41, R101). -/
def execSetCanopy (port : Port) (rating failsafe : Word32) (s : State) : Host.Outcome State Fault Refusal :=
  .next (s.onSite port (setCanopyOp rating failsafe))

end Sys2Proof.Machine
end

