-- ==== Sys2Proof/Machine/Array.lean ====
section
/-! DEFINITION. The receipt array (R153, R156): its bytes, its words with their check codes, and the bytes of the
opening and closing parts. Byte address slot index × 128 + offset; header of sector k at 262,144 + 8 k. -/

namespace Sys2Proof.Machine

open Sys2Proof

/-! ## Bytes and words -/

/-- The erased value (R153): what an unlisted address reads as. -/
def erasedByte : Byte := 0xFF

/-- The canonical form of the array's bytes: addresses strictly rising, no erased byte listed. -/
def Memory.wf (cells : List Host.Cell) : Bool := sparseWf erasedByte cells

/-- One byte as the array holds it, before correction (R153). -/
def Rlg.rawByte (r : Rlg) (a : Nat) : Byte := sparseGet erasedByte r.cells a

/-- `k` stored bytes from an address. -/
def Rlg.rawBytes (r : Rlg) (a : Nat) : Nat → List Byte
  | 0 => []
  | k + 1 => r.rawByte a :: r.rawBytes (a + 1) k

/-- One byte stored. -/
def Rlg.storeByte (r : Rlg) (a : Nat) (b : Byte) : Rlg :=
  { r with cells := sparseSet erasedByte r.cells a b }

/-- Bytes stored from an address. -/
def Rlg.storeBytes (r : Rlg) (a : Nat) : List Byte → Rlg
  | [] => r
  | b :: bs => (r.storeByte a b).storeBytes (a + 1) bs

/-- The byte address of a slot. -/
def slotAddress (slot : Nat) : Nat := 128 * slot

/-- The byte address of a sector's header. -/
def headerAddress (k : Fin 16) : Nat := 262144 + 8 * k.val

/-- The sector of a slot. -/
def slotSector (slot : Nat) : Fin 16 := Fin.ofNat 16 (slot / 128)

/-! ## Check codes -/

/-- The word is the mark word of a slot, whose check code is eight byte codes (R153). Word numbers: slot index × 16 + word,
32,768 + sector. -/
def isMarkWord (w : Nat) : Bool := decide (w < 32768) && w % 16 == 15

/-- The address where the check code of a byte begins: that of its word, of a mark byte its own (R153). -/
def codeAddress (a : Nat) : Nat := if isMarkWord (a / 8) then a else 8 * (a / 8)

/-- The check code that begins at an address. -/
def Rlg.codeAt (r : Rlg) (a : Nat) : CheckCode := sparseGet .clean r.codes a

/-- A check code set. -/
def Rlg.withCode (r : Rlg) (a : Nat) (c : CheckCode) : Rlg :=
  { r with codes := sparseSet .clean r.codes a c }

/-- The integrity result of a check code (R166). -/
def integrityOf : CheckCode → Integrity
  | .clean => .clean
  | .corrected _ => .corrected
  | .damaged => .damaged

/-- Of several results the status: DAMAGED, else CORRECTED, else CLEAN (R166). -/
def worst (xs : List Integrity) : Integrity :=
  if xs.contains .damaged then .damaged else if xs.contains .corrected then .corrected else .clean

/-- What a word's check code shows; of a mark word, the status of its eight byte codes (R153, R166; log entry 40). -/
def Rlg.code (r : Rlg) (w : Nat) : Integrity :=
  if isMarkWord w then worst ((List.range 8).map (fun i => integrityOf (r.codeAt (8 * w + i))))
  else integrityOf (r.codeAt (8 * w))

/-- The bit of a byte that a read corrects (R166). -/
def Rlg.correction (r : Rlg) (a : Nat) : Byte :=
  match r.codeAt (codeAddress a) with
  | .corrected (some bit) => if codeAddress a + bit.val / 8 = a then (1#8) <<< (bit.val % 8) else 0
  | .corrected none => 0
  | .clean => 0
  | .damaged => 0

/-- One byte as a read returns it, corrected (R153, R166). -/
def Rlg.readByte (r : Rlg) (a : Nat) : Byte := r.rawByte a ^^^ r.correction a

/-- `k` bytes read from an address. -/
def Rlg.readBytes (r : Rlg) (a : Nat) : Nat → List Byte
  | 0 => []
  | k + 1 => r.readByte a :: r.readBytes (a + 1) k

/-- A word as the array holds it, before correction. -/
def Rlg.rawWord (r : Rlg) (w : Nat) : Word64 := BitVec.ofNat 64 (leNat (r.rawBytes (8 * w) 8))

/-- A word stored with its check code. -/
def Rlg.storeWord (r : Rlg) (w : Nat) (x : ArrayResult) : Rlg :=
  (r.storeBytes (8 * w) (leBytes 8 x.value.toNat)).withCode (8 * w) x.code

/-- A mark byte stored with its check code. -/
def Rlg.storeMarkByte (r : Rlg) (a : Nat) (x : ArrayResult) : Rlg :=
  (r.storeByte a (x.value.truncate 8)).withCode a x.code

/-! ## Reads -/

/-- One read word counted: CORRECTED adds to the SEC count, DAMAGED to the DED count (R166). -/
def Rlg.countWord (r : Rlg) (w : Nat) : Rlg :=
  match r.code w with
  | .clean => r
  | .corrected => { r with secCount := satAdd 65535 r.secCount 1 }
  | .damaged => { r with dedCount := satAdd 65535 r.dedCount 1 }

/-- `k` words read and counted. -/
def Rlg.countWords (r : Rlg) (w : Nat) : Nat → Rlg
  | 0 => r
  | k + 1 => (r.countWord w).countWords (w + 1) k

/-- The integrity status of a read of `k` words (R166). -/
def Rlg.status (r : Rlg) (w k : Nat) : Integrity :=
  worst ((List.range k).map (fun i => r.code (w + i)))

/-- The value of a 4-byte field of a slot. -/
def Rlg.longField (r : Rlg) (slot offset : Nat) : Nat := leNat (r.readBytes (slotAddress slot + offset) 4)

/-- A word reads erased: every byte reads 0xFF, a bit in error corrected, and the word is not DAMAGED (R153, R166; log
entry 40). -/
def Rlg.wordErased (r : Rlg) (w : Nat) : Bool :=
  (r.readBytes (8 * w) 8).all (fun b => b == erasedByte) && r.code w != .damaged

/-- The closing words 4 to 14 of a slot read erased (R176, R177). -/
def Rlg.closingErased (r : Rlg) (slot : Nat) : Bool :=
  (List.range 11).all (fun i => r.wordErased (16 * slot + 4 + i))

/-- Offset of a mark in its slot (R156). -/
def markOffset : Mark → Nat
  | .opened => 120
  | .closed => 121
  | .collected => 122
  | .bad => 123
  | .superseded => 124

/-- A mark is set when at least one bit of its byte reads 0 (R153). -/
def Rlg.markSet (r : Rlg) (slot : Nat) (m : Mark) : Bool :=
  r.readByte (slotAddress slot + markOffset m) != erasedByte

/-! ## Programs -/

/-- One word programmed and verified. A program only turns bits from 1 to 0; the verify compares what the word then holds,
before correction, with the value written (R153). -/
def Rlg.programWord (r : Rlg) (w : Nat) (asked : Word64) (x : Option ArrayResult) : Rlg × Bool :=
  let y := x.getD ⟨asked, .clean⟩
  let held := r.rawWord w &&& y.value
  (r.storeWord w ⟨held, y.code⟩, held == asked)

/-- Words of a slot programmed and verified in turn, from word `first` on (R153). -/
def Rlg.programWords (slot : Nat) (results : List WordResult) : Nat → List Word64 → Rlg → Rlg × Bool
  | _, [], r => (r, true)
  | first, asked :: rest, r =>
    let x := r.programWord (16 * slot + first) asked ((results.find? (fun y => y.word.val == first)).map (·.left))
    let y := Rlg.programWords slot results (first + 1) rest x.1
    (y.1, x.2 && y.2)

/-- The words that a list of bytes fills, least significant byte first. -/
def wordsOf (k : Nat) (bytes : List Byte) : List Word64 :=
  (List.range k).map (fun i => BitVec.ofNat 64 (fieldAt bytes (8 * i) 8))

/-- A mark byte programmed with 0x00 and verified (R153). -/
def Rlg.programByte (r : Rlg) (a : Nat) (x : Option ArrayResult) : Rlg × Bool :=
  let y := x.getD ⟨0, .clean⟩
  let held := (r.rawByte a).zeroExtend 64 &&& y.value
  (r.storeMarkByte a ⟨held, y.code⟩, held == 0)

/-- One mark of a slot programmed and verified (R153). -/
def Rlg.programMark (r : Rlg) (slot : Nat) (m : Mark) (results : List MarkResult) : Rlg × Bool :=
  r.programByte (slotAddress slot + markOffset m) ((results.find? (fun y => y.mark == m)).map (·.left))

/-- A program tried again after a failed verify, `k` times in all (R172, R175). -/
def Rlg.programTries (program : Rlg → Option ArrayResult → Rlg × Bool) : Nat → List ArrayResult → Rlg → Rlg × Bool
  | 0, _, r => (r, false)
  | k + 1, xs, r =>
    let x := program r xs.head?
    if x.2 then x else Rlg.programTries program k xs.tail x.1

/-- The address lies in a sector or in its header. -/
def inSector (k : Fin 16) (a : Nat) : Bool :=
  (decide (16384 * k.val ≤ a) && decide (a < 16384 * (k.val + 1))) ||
    (decide (headerAddress k ≤ a) && decide (a < headerAddress k + 8))

/-- A whole sector erased, its header included (R153). -/
def Rlg.eraseSector (r : Rlg) (k : Fin 16) : Rlg :=
  { r with
    cells := r.cells.filter (fun e => !inSector k e.1)
    codes := r.codes.filter (fun e => !inSector k e.1) }

/-! ## Parts of a receipt -/

/-- The opening words 0 to 3, the number copy in word 3 (R156, R160). -/
def openingBytes (o : OpeningPart) : List Byte :=
  leBytes 4 o.number ++ leBytes 1 o.point ++ leBytes 1 o.cls.code ++ leBytes 2 o.edition.toNat ++
    leBytes 4 o.customer.toNat ++ leBytes 4 o.openTime.toNat ++
    leBytes 4 o.meterStart.toNat ++ leBytes 2 o.fallbackPrice ++ leBytes 2 o.sessionFee ++
    leBytes 4 o.number ++ leBytes 4 0

/-- The three flags: bit 0 METER_SUSPECT, bit 1 NODE_LOST_SEEN, bit 2 TRIP_SEEN (R55, R156). -/
def flagBits (meterSuspect nodeLostSeen tripSeen : Bool) : Nat :=
  flagCode meterSuspect + 2 * flagCode nodeLostSeen + 4 * flagCode tripSeen

/-- The accumulators of one band, E_pv, E_bat, E_grid (R156; log entry 21). -/
def bandBytes (a : Accounts) (b : Fin 4) : List Byte :=
  leBytes 4 a.pv[b] ++ leBytes 4 a.bat[b] ++ leBytes 4 a.grid[b]

/-- The twelve accumulators in the order of the slot (R156). -/
def accountBytes (a : Accounts) : List Byte :=
  bandBytes a 0 ++ bandBytes a 1 ++ bandBytes a 2 ++ bandBytes a 3

/-- The closing words 4 to 14 with the relocation mark, origin and number check (R156, R161, R162). -/
def closingBytes (c : ClosingPart) (number : Nat) (origin : Option Nat) : List Byte :=
  leBytes 4 c.closeTime.toNat ++ leBytes 4 c.meterEnd.toNat ++
    leBytes 1 c.reason.code ++ leBytes 1 (flagBits c.meterSuspect c.nodeLostSeen c.tripSeen) ++
    leBytes 1 (flagCode origin.isSome) ++ leBytes 1 0 ++ leBytes 4 c.disputed ++
    leBytes 4 c.idleSeconds ++ leBytes 4 c.energy ++
    leBytes 4 c.idle ++ leBytes 4 c.total ++
    accountBytes c.accounts ++
    leBytes 2 (origin.getD 0xFFFF) ++ leBytes 4 number ++ leBytes 2 0

end Sys2Proof.Machine
end

