-- ==== Sys2Proof/Machine/Log.lean ====
section
/-! DEFINITION. The receipt log's own operations (Chapter 9): ring and fill position, reservations, the number index,
the erase test, third failures, and the meanings of the program and erase events. -/

namespace Sys2Proof.Machine

open Sys2Proof

/-! ## Slots, sectors and numbers -/

/-- The state of a slot (R154). -/
def Rlg.slotState (r : Rlg) (slot : Nat) : SlotState := sparseGet .erased r.slotStates slot

/-- A slot's state set. -/
def Rlg.withSlotState (r : Rlg) (slot : Nat) (x : SlotState) : Rlg :=
  { r with slotStates := sparseSet .erased r.slotStates slot x }

/-- The slot the number index gives for a receipt number (R157). Of two slots that the scan found with one number it is the
lower one (log entry 53). -/
def Rlg.slotOf (r : Rlg) (number : Nat) : Option Nat := (r.index.find? (fun e => e.1 == number)).map (·.2)

/-- The number the index gives for a slot. -/
def Rlg.numberOf (r : Rlg) (slot : Nat) : Option Nat := (r.index.find? (fun e => e.2 == slot)).map (·.1)

/-- An entry set in the number index: it is added, or moved to the slot (R157). -/
def Rlg.setIndex (r : Rlg) (number slot : Nat) : Rlg :=
  { r with index := r.index.filter (fun e => e.1 != number) ++ [(number, slot)] }

/-- The number `k` after `n`; past the greatest 32-bit number it is a free value (log entry 13). -/
def numberAfter (n k : Nat) : Nat := if n + k < 4294967296 then n + k else (Config.numberPastTop (n + k)).toNat

/-- Slots in state ERASED in the ACTIVE sector at or after the fill position, plus 128 for each FREE sector (R155). -/
def Rlg.erasedCount (r : Rlg) : Nat :=
  (match r.fill with
    | some f => ((List.range (128 - f % 128)).filter (fun i => r.slotState (f + i) == .erased)).length
    | none => 0) +
  128 * (r.sectors.toList.filter (fun x => x == .free)).length

/-- The ring successor of a sector: sector 0 follows sector 15 (R153). -/
def nextSector (k : Fin 16) : Fin 16 := k + 1

/-- With no ACTIVE sector, the FREE ring successor of the one last ACTIVE becomes ACTIVE, with the fill position at its
slot 0 (R155). -/
def Rlg.activateSuccessor (r : Rlg) : Rlg :=
  if r.fill = none ∧ r.sectors[nextSector r.lastActive] = .free then
    { r with
      sectors := r.sectors.set (nextSector r.lastActive) .active
      lastActive := nextSector r.lastActive
      fill := some (128 * (nextSector r.lastActive).val) }
  else r

/-- A reservation takes the slot at the fill position (R155, R158). -/
def Rlg.reserve (r : Rlg) : Option (Nat × Rlg) :=
  match r.fill with
  | none => none
  | some f =>
    let t := r.withSlotState f .reserved
    if f % 128 = 127 then
      some (f, Rlg.activateSuccessor { t with sectors := t.sectors.set t.lastActive .full, fill := none })
    else some (f, { t with fill := some (f + 1) })

/-- A retry or relocation takes a slot whenever the erased count is above 0 (R158). -/
def Rlg.reserveAgain (r : Rlg) : Option (Nat × Rlg) :=
  if r.erasedCount = 0 then none else r.reserve

/-- The sectors in ring order, from the one after the sector last ACTIVE (R155; log entry 27). -/
def Rlg.ring (r : Rlg) : List (Fin 16) := (List.range 16).map (fun i => nextSector r.lastActive + Fin.ofNat 16 i)

/-- The oldest FULL sector (R155), which is the erase target (R170). -/
def Rlg.oldestFull (r : Rlg) : Option (Fin 16) := r.ring.find? (fun k => r.sectors[k] == .full)

/-- The number lies in the retention window: the last R_ret numbers assigned (R169). -/
def Rlg.retained (r : Rlg) (number : Nat) : Bool :=
  decide (r.nextNumber ≤ number + r.rRet) && decide (number < r.nextNumber)

/-- A slot that does not keep its sector from being erased (R170). -/
def Rlg.slotErasable (r : Rlg) (slot : Nat) : Bool :=
  match r.slotState slot with
  | .collected => (r.numberOf slot).all (fun n => !r.retained n)
  | .bad => true
  | .superseded => true
  | _ => false

/-- The sector is eligible for an erase (R170). -/
def Rlg.eligible (r : Rlg) (k : Fin 16) : Bool :=
  (List.range 128).all (fun i => r.slotErasable (128 * k.val + i))

/-- An erase is in progress or suspended and has not been stopped by FAULT (R165, R170; log entry 42). -/
def Rlg.eraseInProgress (r : Rlg) : Bool := r.erase.isSome && r.logState != .fault

/-- The target an erase would take now: log READY, no erase in progress, erased count below 256, target eligible
(R170). -/
def Rlg.eraseDue (r : Rlg) : Option (Fin 16) :=
  if r.logState = .ready ∧ r.erase = none ∧ r.erasedCount < 256 then
    match r.oldestFull with
    | some k => if r.eligible k then some k else none
    | none => none
  else none

/-- An erase starts: the target becomes ERASING with progress 0; its erase time is a free value (R171; log entry 24). -/
def Rlg.startErase (r : Rlg) (k : Fin 16) : Rlg :=
  { r with
    sectors := r.sectors.set k .erasing
    erase := some
      { sector := k, progress := 0, sinceResume := 0, time := (Config.eraseTime k).val, completesFirst := false } }

/-- Space is low at a test: the erased count is below 256 and no erase is in progress or about to start (R170). -/
def Rlg.spaceIsLow (r : Rlg) : Bool :=
  decide (r.erasedCount < 256) && !r.eraseInProgress && r.eraseDue.isNone

/-- The erase test (R170): an erase starts at once when the program queue is empty; the space-low mark follows its
condition and SPACE_LOW is raised when it goes from clear to set. -/
def State.eraseTest (s : State) : State :=
  let r := s.rlg
  let low := r.spaceIsLow
  let started := match r.eraseDue, r.queue with
    | some k, [] => r.startErase k
    | _, _ => r
  let t := s.withRlg { started with spaceLow := low }
  if low && !r.spaceLow then t.raiseBoth .spaceLow [] else t

/-- A suspended erase resumes: ERASING again, the next 20 ms counted from here (R171). In FAULT it does not (R165). -/
def Rlg.resumeErase (r : Rlg) : Rlg :=
  match r.erase with
  | some e =>
    if r.sectors[e.sector] = .eraseSuspended ∧ r.logState ≠ .fault then
      { r with sectors := r.sectors.set e.sector .erasing, erase := some { e with sinceResume := 0 } }
    else r
  | none => r

/-- The head request has ended. When the queue becomes empty, a suspended erase resumes and the erase test is made
(R159, R170, R171). -/
def State.endRequest (s : State) : State :=
  let t := s.withRlg { s.rlg with queue := s.rlg.queue.tail, programming := false }
  match t.rlg.queue with
  | [] => (t.withRlg t.rlg.resumeErase).eraseTest
  | _ => t

/-- The head request replaced by its next attempt. -/
def State.retryHead (q : ProgramRequest) (s : State) : State :=
  s.withRlg { s.rlg with queue := q :: s.rlg.queue.tail }

/-- A request is a COLLECT. -/
def ProgramRequest.isCollect (q : ProgramRequest) : Bool :=
  match q.kind with
  | .collect => true
  | _ => false

/-- A request is a port request: COLLECT or ORPHAN CLOSING (R159). -/
def ProgramRequest.isPort (q : ProgramRequest) : Bool :=
  match q.kind with
  | .collect => true
  | .orphanClosing _ _ => true
  | _ => false

/-- Number of port requests queued (R159). -/
def Rlg.portRequests (r : Rlg) : Nat := (r.queue.filter ProgramRequest.isPort).length

/-- A COLLECT for the number is queued: its slot is collect-pending (R163). -/
def Rlg.collectPending (r : Rlg) (number : Nat) : Bool :=
  r.queue.any (fun q => q.isCollect && q.number == number)

/-- An orphan closing for the number is queued (R176, R177). -/
def Rlg.orphanQueued (r : Rlg) (number : Nat) : Bool :=
  r.queue.any (fun q => q.isPort && !q.isCollect && q.number == number)

/-- The entry into FAULT: queued COLLECT requests are removed and the session unit closes or marks its sessions
(R164, R165, R69). -/
def State.enterFault (s : State) : State :=
  (s.withRlg { s.rlg with logState := .fault, queue := s.rlg.queue.filter (fun q => !q.isCollect) }).faultCloseAll

/-- A third failure, after its request has ended: FAULT and STORE_FAULT on both ports with the detail point (R164; log
entry 36). -/
def State.thirdFailure (detail : List Nat) (s : State) : State :=
  let t := s.raiseBoth .storeFault detail
  if s.rlg.logState = .fault then t else t.enterFault

/-- A third failure of the head request: the request ends, then R164, then what an empty queue brings. -/
def State.failHead (detail : List Nat) (s : State) : State :=
  let t := (s.withRlg { s.rlg with queue := s.rlg.queue.tail, programming := false }).thirdFailure detail
  match t.rlg.queue with
  | [] => (t.withRlg t.rlg.resumeErase).eraseTest
  | _ => t

/-- A slot becomes BAD: its bad mark is programmed without verify (R160, R162). -/
def State.markBad (slot : Nat) (results : List MarkResult) (s : State) : State :=
  (s.withRlg ((s.rlg.programMark slot .bad results).1.withSlotState slot .bad)).eraseTest

/-- A reservation with its erase test (R158, R170). -/
def State.reserveWith (s : State) (r : Option (Nat × Rlg)) : Option (Nat × State) :=
  r.map (fun x => (x.1, (s.withRlg x.2).eraseTest))

/-! ## Program attempts -/

/-- PROGRAM_START: with no erase in progress, the attempt of the head request begins (R159). -/
def execProgramStart (s : State) : Host.Outcome State Fault Refusal :=
  .next (if s.rlg.queue.isEmpty || s.rlg.erasing then s else s.withRlg { s.rlg with programming := true })

/-- An opening attempt ends badly: the slot is BAD; below three failures another slot is reserved and the session moves
to it, else the opening has failed (R160, R158). -/
def State.openingAttemptFailed (p : Point) (q : ProgramRequest) (marks : List MarkResult) (s : State) : State :=
  let t := s.markBad q.slot marks
  match if q.attempts + 1 < 3 then t.reserveWith t.rlg.reserveAgain else none with
  | some (slot, u) =>
    (u.withSession p { u.session p with slot }).retryHead { q with slot, attempts := q.attempts + 1 }
  | none => (t.openingFailed p).failHead [p.val]

/-- The opening program of a session's RESERVED slot: words 0 to 3, then the opened mark (R160). -/
def State.openingAttempt (p : Point) (part : OpeningPart) (q : ProgramRequest) (o : ProgramOutcome) (s : State) :
    State :=
  let w := Rlg.programWords q.slot o.words 0 (wordsOf 4 (openingBytes part)) s.rlg
  let m := if w.2 then w.1.programMark q.slot .opened o.marks else (w.1, false)
  if m.2 then
    ((s.withRlg ((m.1.withSlotState q.slot .opened).setIndex q.number q.slot)).openingCompleted p).endRequest
  else (s.withRlg m.1).openingAttemptFailed p q o.marks

/-- OPENING_PROGRAM: the opening attempt of the head request completes (R160, R58, R59). -/
def execOpeningProgram (outcome : ProgramOutcome) (s : State) : Host.Outcome State Fault Refusal :=
  .next (if s.rlg.erasing then s else
    match s.rlg.queue with
    | q :: _ =>
      match q.kind with
      | .opening p part => s.openingAttempt p part q outcome
      | _ => s
    | [] => s)

/-- A closing written in place: words 4 to 14, then the closed mark. The result says whether it verified (R161). -/
def State.closeInPlace (part : ClosingPart) (q : ProgramRequest) (o : ProgramOutcome) (s : State) : State × Bool :=
  let w := Rlg.programWords q.slot o.words 4 (wordsOf 11 (closingBytes part q.number none)) s.rlg
  let m := if w.2 then w.1.programMark q.slot .closed o.marks else (w.1, false)
  if m.2 then (s.withRlg (m.1.withSlotState q.slot .closed), true) else (s.withRlg m.1, false)

/-- CLOSING_PROGRAM: the in-place closing of the head request completes; on failure the next attempt is a relocation
(R161, R71). -/
def execClosingProgram (outcome : ProgramOutcome) (s : State) : Host.Outcome State Fault Refusal :=
  .next (if s.rlg.erasing then s else
    match s.rlg.queue with
    | q :: _ =>
      match q.kind, q.attempts with
      | .closing p part, 0 =>
        let t := s.closeInPlace part q outcome
        if t.2 then (t.1.closingCompleted p).endRequest
        else t.1.retryHead { q with attempts := 1 }
      | _, _ => s
    | [] => s)

/-- What a relocation attempt comes to. -/
inductive Relocated where
  | noSlot
  | failed
  | moved (slot : Nat)
deriving DecidableEq, Repr

/-- A relocation attempt: the whole record into the slot at the fill position, from the origin's opening words as read
and corrected (R162). -/
def State.relocate (part : ClosingPart) (q : ProgramRequest) (o : ProgramOutcome) (s : State) : State × Relocated :=
  match s.reserveWith s.rlg.reserveAgain with
  | none => (s, .noSlot)
  | some (slot, t) =>
    let origin := t.rlg.readBytes (slotAddress q.slot) 32
    let damaged := t.rlg.status (16 * q.slot) 4 == .damaged
    let r := t.rlg.countWords (16 * q.slot) 4
    let w := if damaged then (r, false)
      else Rlg.programWords slot o.words 0 (wordsOf 15 (origin ++ closingBytes part q.number (some q.slot))) r
    let m := if w.2 then w.1.programMark slot .opened o.marks else (w.1, false)
    let c := if w.2 then m.1.programMark slot .closed o.marks else (m.1, false)
    if m.2 && c.2 then
      let moved := ((c.1.withSlotState slot .closed).withSlotState q.slot .superseded).setIndex q.number slot
      (((t.withRlg (moved.programMark q.slot .superseded o.marks).1)).eraseTest, .moved slot)
    else ((t.withRlg c.1).markBad slot o.marks, .failed)

/-- RELOCATION: a relocation attempt of the head closing request completes (R162, R71, R72). -/
def execRelocation (outcome : ProgramOutcome) (s : State) : Host.Outcome State Fault Refusal :=
  .next (if s.rlg.erasing then s else
    match s.rlg.queue with
    | q :: _ =>
      match q.kind, q.attempts with
      | .closing p part, k + 1 =>
        match s.relocate part q outcome with
        | (t, .moved slot) =>
          ((t.withSession p { t.session p with slot }).closingCompleted p).endRequest
        | (t, .failed) =>
          if k + 2 < 3 then t.retryHead { q with attempts := k + 2 } else t.failHead [p.val]
        | (t, .noSlot) => t.failHead [p.val]
      | _, _ => s
    | [] => s)

/-- COLLECT_PROGRAM: the program of a collected mark completes; it is tried up to three times. The look at the mark after
the third failure is taken from that attempt's verify and is not counted as a read (R163, R166; log entry 47). -/
def execCollectProgram (outcome : ProgramOutcome) (s : State) : Host.Outcome State Fault Refusal :=
  .next (if s.rlg.erasing then s else
    match s.rlg.queue with
    | q :: _ =>
      match q.kind with
      | .collect =>
        let m := s.rlg.programMark q.slot .collected outcome.marks
        if m.2 then ((s.withRlg (m.1.withSlotState q.slot .collected)).eraseTest).endRequest
        else if q.attempts + 1 < 3 then (s.withRlg m.1).retryHead { q with attempts := q.attempts + 1 }
        else
          let t := (s.withRlg m.1).failHead []
          if t.rlg.markSet q.slot .collected then (t.withRlg (t.rlg.withSlotState q.slot .collected)).eraseTest else t
      | _ => s
    | [] => s)

/-- The orphan has been closed: it leaves the list (R176, R177). -/
def State.orphanClosed (number : Nat) (s : State) : State :=
  (s.withRlg { s.rlg with orphans := s.rlg.orphans.filter (fun n => n != number) }).endRequest

/-- A relocation attempt of an orphan closing (R177). -/
def State.orphanRelocation (point : Nat) (part : ClosingPart) (q : ProgramRequest) (o : ProgramOutcome) (s : State) :
    State :=
  match s.relocate part q o with
  | (t, .moved _) => t.orphanClosed q.number
  | (t, .failed) =>
    if q.attempts + 1 < 3 then t.retryHead { q with attempts := q.attempts + 1 } else t.failHead [point]
  | (t, .noSlot) => t.failHead [point]

/-- ORPHAN_CLOSING: an attempt of the head orphan closing completes: in place while the closing words read erased, else
a relocation (R177). The closing words are read at the first attempt (log entry 23). -/
def execOrphanClosing (outcome : ProgramOutcome) (s : State) : Host.Outcome State Fault Refusal :=
  .next (if s.rlg.erasing then s else
    match s.rlg.queue with
    | q :: _ =>
      match q.kind with
      | .orphanClosing point part =>
        if q.attempts = 0 then
          let r := s.withRlg (s.rlg.countWords (16 * q.slot + 4) 11)
          if s.rlg.closingErased q.slot then
            let t := r.closeInPlace part q outcome
            if t.2 then t.1.orphanClosed q.number else t.1.retryHead { q with attempts := 1 }
          else r.orphanRelocation point part q outcome
        else s.orphanRelocation point part q outcome
      | _ => s
    | [] => s)

/-! ## Erasing -/

/-- A request waits and 20 ms of progress have accumulated since the erase started or last resumed, unless the erase is to
complete first (R171). -/
def Rlg.mustSuspend (r : Rlg) (e : Erase) : Bool :=
  r.erasing && !r.queue.isEmpty && decide (20 ≤ e.sinceResume) && !e.completesFirst

/-- ERASE_SUSPEND: the erase that runs is suspended for the requests that wait (R171; log entry 24). -/
def execEraseSuspend (s : State) : Host.Outcome State Fault Refusal :=
  .next (match s.rlg.erase with
    | some e =>
      if s.rlg.mustSuspend e then s.withRlg { s.rlg with sectors := s.rlg.sectors.set e.sector .eraseSuspended } else s
    | none => s)

/-- The header word programmed at the end of an erase with the next number, tried up to three times; whether a verify was
good (R172). -/
def Rlg.programHeader (r : Rlg) (k : Fin 16) (o : HeaderOutcome) : Rlg × Bool :=
  Rlg.programTries (fun t => t.programWord (32768 + k.val) (BitVec.ofNat 64 r.nextNumber)) 3 o.attempts r

/-- The sector is erased: every slot ERASED, its COLLECTED numbers leave the index, the sector FREE and, if none is
ACTIVE and it is the ring successor, ACTIVE (R172). A held R_ret takes effect (R169). -/
def Rlg.sectorErased (r : Rlg) (k : Fin 16) : Rlg :=
  Rlg.activateSuccessor
    { r with
      slotStates := r.slotStates.filter (fun e => !(decide (128 * k.val ≤ e.1) && decide (e.1 < 128 * (k.val + 1))))
      index := r.index.filter (fun e => !(decide (128 * k.val ≤ e.2) && decide (e.2 < 128 * (k.val + 1))))
      sectors := r.sectors.set k .free
      erase := none
      rRet := r.heldRet.getD r.rRet
      heldRet := none }

/-- ERASE_COMPLETE: progress has reached the sector's erase time; the header is programmed, the sector becomes FREE and
the erase test is made again (R171, R172; log entry 24). -/
def execEraseComplete (outcome : HeaderOutcome) (s : State) : Host.Outcome State Fault Refusal :=
  .next (match s.rlg.erase with
    | some e =>
      if s.rlg.erasing && decide (e.time ≤ e.progress) then
        let h := (s.rlg.eraseSector e.sector).programHeader e.sector outcome
        let u := if h.2 then s.withRlg h.1 else (s.withRlg h.1).thirdFailure []
        (u.withRlg (u.rlg.sectorErased e.sector)).eraseTest
      else s
    | none => s)

end Sys2Proof.Machine
end

