-- ==== Sys2Proof/Machine/Metering.lean ====
section
/-! DEFINITION. Metering and source attribution (Chapter 7), what a report does to a session (R61 to R70), and the session
commands of Chapter 4. -/

namespace Sys2Proof.Machine

open Sys2Proof

/-! ## The delta and its tests -/

/-- ΔE (R122). -/
def Session.delta (x : Session) (register : Word32) : Nat := (register - x.lastMeter).toNat

/-- T, the session total before the report (R122). -/
def Session.total (x : Session) : Nat := (x.lastMeter - x.meterStart).toNat

/-- The first test: the register has moved backwards or all the way round (R122). -/
def Session.setsAside (x : Session) (register : Word32) : Bool :=
  decide (2147483648 ≤ x.delta register) || decide (top32 < x.total + x.delta register)

/-- The elapsed time of the plausibility limit, in ms (R123; log entry 29). -/
def Session.elapsed (x : Session) (now tBal : Nat) : Nat :=
  match x.lastReport with
  | some t => min top32 (now - t)
  | none => tBal

/-- ΔE_max (R123). -/
def plausibleDelta (rating elapsed : Nat) : Nat := ceilDiv (rating * elapsed) 3600000 + 2

/-- The three parts of a delta, in mWh (R128). -/
structure Parts where
  pv : Nat
  bat : Nat
  grid : Nat
deriving DecidableEq, Repr

/-- A delta divided by the ratios of the balance record in force (R128, R129). -/
def divide (r : BalanceRecord) (delta : Nat) : Parts :=
  let mWh := 1000 * delta
  if r.c = 0 then ⟨0, 0, mWh⟩
  else ⟨mWh * r.pvW / r.c, mWh * r.batW / r.c, mWh - mWh * r.pvW / r.c - mWh * r.batW / r.c⟩

/-- The accumulators of a band with the parts added (R126). -/
def Accounts.add (a : Accounts) (b : Fin 4) (x : Parts) : Accounts :=
  { pv := a.pv.set b (a.pv[b] + x.pv), bat := a.bat.set b (a.bat[b] + x.bat), grid := a.grid.set b (a.grid[b] + x.grid) }

/-- Each of the three parts fits its accumulator (R125). -/
def Accounts.fits (a : Accounts) (b : Fin 4) (x : Parts) : Bool :=
  decide (a.pv[b] + x.pv ≤ top32) && decide (a.bat[b] + x.bat ≤ top32) && decide (a.grid[b] + x.grid ≤ top32)

/-- A set-aside report (R122). -/
def Session.setAside (x : Session) : Session := { x with meterSuspect := true }

/-- A disputed delta (R124, R125). -/
def Session.dispute (x : Session) (register : Word32) (now : Nat) : Session :=
  { x with
    disputed := x.disputed + x.delta register, lastMeter := register, lastReport := some now, meterSuspect := true }

/-- A taken delta (R126). -/
def Session.take (x : Session) (register : Word32) (now : Nat) (b : Fin 4) (parts : Parts) : Session :=
  { x with accounts := x.accounts.add b parts, lastMeter := register, lastReport := some now }

/-- The record after an accounted report: the three tests in their order (R121 to R126). -/
def Session.account (x : Session) (register : Word32) (now limit : Nat) (b : Fin 4) (r : BalanceRecord) : Session :=
  if x.setsAside register then x.setAside
  else if limit < x.delta register then x.dispute register now
  else if x.accounts.fits b (divide r (x.delta register)) then x.take register now b (divide r (x.delta register))
  else x.dispute register now

/-- The session's state lets a report be accounted (R121). -/
def Session.accountable (x : Session) : Bool := x.state.closable || x.waitRuns

/-- The plausibility limit of a report now (R123). -/
def State.limitNow (s : State) (p : Point) : Nat :=
  plausibleDelta ((s.node (pointNode p)).rating s.site.vNom) ((s.session p).elapsed s.now s.site.tBal)

/-- Step 1 of R61: the delta of the report accounted. -/
def State.accountReport (p : Point) (register : Word32) (s : State) : State :=
  if (s.session p).accountable then
    s.withSession p
      ((s.session p).account register s.now (s.limitNow p) (s.tfu.deltaBand (s.session p)) s.bau.record)
  else s

/-- A REPORT with the echo is the final one: the wait runs, the node is ONLINE, the echo equals the sequence and the sent
value is 0 (R70). -/
def State.isFinal (s : State) (p : Point) (echo : Byte) : Bool :=
  (s.session p).waitRuns && s.online p && echo == (s.node (pointNode p)).sequence &&
    decide ((s.node (pointNode p)).sentValue = 0)

/-- Step 2 of R61: the final-meter test. -/
def State.finalTest (p : Point) (echo : Byte) (s : State) : State := if s.isFinal p echo then s.endFinalWait p else s

/-- Step 3 of R61: the plug state (R60, R68). -/
def State.plugTest (p : Point) (plugged : Bool) (s : State) : State :=
  if plugged then s
  else if (s.session p).state.closable then s.startClose p .unplugged
  else if (s.session p).state = .opening ∧ (s.session p).pendingClose = none then
    s.withSession p { s.session p with pendingClose := some .unplugged }
  else s

/-- A zero request counted in WAITING or CHARGING; the third makes the session DONE (R62). -/
def State.countRequest (p : Point) (request : Nat) (s : State) : State :=
  if request ≠ 0 then s.withSession p { s.session p with zeroRequests := 0 }
  else if 3 ≤ (s.session p).zeroRequests + 1 then s.enterDone p
  else s.withSession p { s.session p with zeroRequests := (s.session p).zeroRequests + 1 }

/-- Step 4 of R61: the request. -/
def State.requestTest (p : Point) (request : Nat) (s : State) : State :=
  match (s.session p).state with
  | .waiting => s.countRequest p request
  | .charging => s.countRequest p request
  | .done => if request ≠ 0 then s.enterWaiting p else s
  | .free => s
  | .opening => s
  | .stopped => s
  | .closing => s

/-- A charge-point REPORT on a point whose session is not FREE (R61). -/
def State.sessionReport (p : Point) (echo : Byte) (register : Word32) (request : Nat) (plugged : Bool) (s : State) :
    State :=
  (((s.accountReport p register).finalTest p echo).plugTest p plugged).requestTest p request

/-- The REPORT of a request to the session unit about a point, with its echo. -/
def Request.sessionReport (p : Point) : Request → Option (Byte × Report)
  | .reportToSession q echo report => if q = p then some (echo, report) else none
  | .newReading _ => none
  | .recompute => none
  | .budget _ _ => none
  | .reduction _ => none
  | .reportToAllocator _ _ _ => none

/-- The REPORT the session unit takes: the first one of the point handed to it, else the latest of the node table (R112;
log entry 6). -/
def State.reportToTake (s : State) (p : Point) : Option (Byte × Report) :=
  match s.requests.findSome? (Request.sessionReport p) with
  | some x => some x
  | none => (s.node (pointNode p)).latestReport

/-- SESSION_REPORT: the session unit takes a point's REPORT; one of a FREE point is disregarded (R61, R112, R121). -/
def execSessionReport (point : Point) (s : State) : Host.Outcome State Fault Refusal :=
  .next (match s.reportToTake point with
    | some x =>
      let t := s.takeRequest (.reportToSession point x.1 x.2)
      match x.2 with
      | .chargePoint register _ request plugged _ =>
        if (t.session point).state = .free then t else t.sessionReport point x.1 register request plugged
      | .canopy _ _ _ => t
      | .battery _ _ _ => t
    | none => s)

/-! ## OPEN SESSION -/

/-- The check of R56 that refuses an OPEN SESSION, in their order. -/
def State.openCheck (p : Point) (s : State) : Option (Status × Reason) :=
  if s.rlg.logState = .starting then some (.busy, .starting)
  else if s.rlg.logState = .fault then some (.refused, .storeFault)
  else if s.tfu.calendarValid = false then some (.refused, .noTime)
  else if s.tfu.current = none then some (.refused, .noTariff)
  else if s.lsu.esc = .tripped then some (.refused, .tripped)
  else if s.online p = false then some (.refused, .notReady)
  else if (s.session p).state ≠ .free then some (.busy, .state)
  else if s.rlg.erasedCount ≤ 4 then some (.refused, .noSpace)
  else none

/-- The opening part of a new session (R57). -/
def State.openingPart (p : Point) (customer : Word32) (cls : SessionClass) (e : Edition) (s : State) : OpeningPart :=
  { number := s.rlg.nextNumber, point := p.val, cls, edition := e.number, customer, openTime := s.tfu.calendar
    meterStart := (s.node (pointNode p)).register
    fallbackPrice := e.bands[(s.tfu.bandInForce e).getD 0].standard
    sessionFee := e.sessionFee }

/-- The record of a new session (R57). -/
def State.openedSession (p : Point) (slot : Nat) (o : OpeningPart) (s : State) : Session :=
  { Session.free with
    state := .opening, number := o.number, slot, customer := o.customer, cls := o.cls, edition := o.edition
    tariffSlot := .current, openTime := o.openTime, meterStart := o.meterStart
    lastMeter := (s.node (pointNode p)).register }

/-- The next number assigned (R157). -/
def Rlg.assignNumber (r : Rlg) : Rlg := { r with nextNumber := numberAfter r.nextNumber 1 }

/-- Steps 2 to 5 of the acceptance of OPEN SESSION (R57; log entry 25). -/
def State.openSession (p : Point) (slot : Nat) (o : OpeningPart) (s : State) : State :=
  let t := s.withSession p (s.openedSession p slot o)
  (t.withTfu (t.tfu.addRef .current)).enqueue { kind := .opening p o, number := o.number, slot, attempts := 0 }

/-- OPEN SESSION on port C. The number is assigned before the slot is reserved, so the reservation's erase test sees the
retention window that ends with it (R56, R57 step 1, R169, R170; log entry 25). -/
def openSessionOp (point : Byte) (customer : Word32) (cls : Byte) (s : State) : State :=
  match pointOperand point, classOperand cls with
  | some p, some k =>
    let numbered := s.withRlg s.rlg.assignNumber
    match s.openCheck p, s.tfu.current, numbered.reserveWith numbered.rlg.reserve with
    | some r, _, _ => s.turnDown .c r.1 r.2
    | none, some h, some (slot, t) =>
      let o := s.openingPart p customer k h.edition
      (t.openSession p slot o).accepted .c (leBytes 4 o.number)
    | none, none, _ => s.turnDown .c .refused .noTariff
    | none, some _, none => s.turnDown .c .refused .noSpace
  | _, _ => s.turnDown .c .refused .badValue

/-- OPEN_SESSION (R56, R57). -/
def execOpenSession (port : Port) (point : Byte) (customer : Word32) (cls : Byte) (s : State) :
    Host.Outcome State Fault Refusal :=
  .next (s.onCharge port (openSessionOp point customer cls))

/-! ## The other session commands -/

/-- CLOSE SESSION on port C (R67, R69). -/
def closeSessionOp (point : Byte) (s : State) : State :=
  match pointOperand point with
  | none => s.turnDown .c .refused .badValue
  | some p =>
    if (s.session p).state.closable then
      (s.startClose p .customer).accepted .c (leBytes 4 (s.session p).number)
    else s.turnDown .c .refused .state

/-- CLOSE_SESSION (R67). -/
def execCloseSession (port : Port) (point : Byte) (s : State) : Host.Outcome State Fault Refusal :=
  .next (s.onCharge port (closeSessionOp point))

/-- A command that writes one of the two flags and applies R66; its refusals are those of R64. -/
def State.flagCommand (port : Port) (point setting : Byte) (write : Session → Bool → Session) (s : State) : State :=
  match pointOperand point, settingOperand setting with
  | some p, some on =>
    if (s.session p).state.closable then
      ((s.withSession p (write (s.session p) on)).applyStop p).ok port false []
    else s.turnDown port .refused .state
  | _, _ => s.turnDown port .refused .badValue

/-- PAUSE_SESSION on port C (R64, R66). -/
def execPauseSession (port : Port) (point setting : Byte) (s : State) : Host.Outcome State Fault Refusal :=
  .next (s.onCharge port (State.flagCommand .c point setting (fun x on => { x with pause := on })))

/-- HOLD_POINT on port S (R65, R66). -/
def execHoldPoint (port : Port) (point setting : Byte) (s : State) : Host.Outcome State Fault Refusal :=
  .next (s.onSite port (State.flagCommand .s point setting (fun x on => { x with hold := on })))

/-- SET CLASS on port C (R75). -/
def setClassOp (point cls : Byte) (s : State) : State :=
  match pointOperand point, classOperand cls with
  | some p, some k =>
    if (s.session p).state = .free then s.turnDown .c .refused .state
    else (s.withSession p { s.session p with cls := k }).ok .c false []
  | _, _ => s.turnDown .c .refused .badValue

/-- SET_CLASS (R75). -/
def execSetClass (port : Port) (point cls : Byte) (s : State) : Host.Outcome State Fault Refusal :=
  .next (s.onCharge port (setClassOp point cls))

/-! ## READ SESSION -/

/-- The presence mask of a record (R55). -/
def Session.presence (x : Session) : Nat :=
  if x.state = .free then 0
  else
    1 + 2 * flagCode x.lastReport.isSome + 4 * flagCode x.pendingClose.isSome + 8 * flagCode x.ending.isSome +
      16 * flagCode x.finalWait.isSome + 32 * flagCode x.priced.isSome

/-- The result bytes of a record (R55, R135), absent fields 0. -/
def Session.bytes (x : Session) (now : Nat) : List Byte :=
  leBytes 1 x.state.code ++ leBytes 2 x.presence ++ leBytes 4 x.number ++ leBytes 2 x.slot ++
    leBytes 4 x.customer.toNat ++ leBytes 1 x.cls.code ++ leBytes 2 x.edition.toNat ++ leBytes 1 x.tariffSlot.code ++
    leBytes 1 (flagCode x.pause) ++ leBytes 1 (flagCode x.hold) ++ leBytes 4 x.openTime.toNat ++
    leBytes 4 x.meterStart.toNat ++ leBytes 4 x.lastMeter.toNat ++
    leBytes 4 (x.lastReport.elim 0 (fun t => min top32 (now - t))) ++
    accountBytes x.accounts ++ leBytes 4 x.disputed ++
    leBytes 4 x.idleSeconds ++ leBytes 1 x.zeroRequests ++
    leBytes 1 (flagBits x.meterSuspect x.nodeLostSeen x.tripSeen) ++
    leBytes 2 x.waitCount ++ leBytes 2 x.grantAge ++ leBytes 4 x.grant ++
    leBytes 1 (x.pendingClose.elim 0 EndReason.code) ++
    leBytes 1 (x.ending.elim 0 (fun e => e.reason.code)) ++
    leBytes 4 (x.ending.elim 0 (fun e => e.closeTime.toNat)) ++
    leBytes 1 (x.finalWait.getD 0) ++
    leBytes 4 (x.priced.elim 0 (fun m => m.meterEnd.toNat)) ++ leBytes 4 (x.priced.elim 0 (·.energy)) ++
    leBytes 4 (x.priced.elim 0 (·.idle)) ++ leBytes 4 (x.priced.elim 0 (·.total))

/-- READ_SESSION: the record of a point (R55). -/
def execReadSession (port : Port) (point : Byte) (s : State) : Host.Outcome State Fault Refusal :=
  .next (match pointOperand point with
    | none => s.turnDown port .refused .badValue
    | some p => s.ok port false ((s.session p).bytes s.now))

end Sys2Proof.Machine
end

