-- ==== Sys2Proof/Machine/Periods.lean ====
section
/-! DEFINITION. The connection meter (R1 to R4): the running average, the reading, the judgement of R15, and the
meanings of FRONT_END_VALIDITY, PERIOD_CLOSE and FINAL_WAIT_EXPIRY. -/

namespace Sys2Proof.Machine

open Sys2Proof

/-- A measured stretch added to the running average while the front end reports nothing (R2). -/
def Cmu.accumulate (x : Cmu) (stretch : Stretch) : Cmu :=
  if x.lossOfReference || x.converterFault then x
  else { x with energy := x.energy + stretch.energy, validTime := x.validTime + stretch.ms }

/-- FRONT_END_VALIDITY: the stretch that ends here is counted under the old reports, then the reports change (R2). -/
def execFrontEndValidity (lossOfReference converterFault : Bool) (stretch : Stretch) (s : State) :
    Host.Outcome State Fault Refusal :=
  .next (s.withCmu { s.cmu.accumulate stretch with lossOfReference, converterFault })

/-- The saturation bound of a reading (R3). -/
def readingTop : Int := 8000000

/-- The reading of a period, from its running average (R3). -/
def Cmu.formReading (x : Cmu) : Reading :=
  if x.validTime = 0 then { period := x.periodNumber + 1, pGrid := 0, quality := .missing }
  else
    let average := x.energy.tdiv x.validTime
    if readingTop < average then { period := x.periodNumber + 1, pGrid := readingTop, quality := .saturated }
    else if average < -readingTop then { period := x.periodNumber + 1, pGrid := -readingTop, quality := .saturated }
    else { period := x.periodNumber + 1, pGrid := average, quality := .good }

/-- The judgement of a reading (R15). -/
def Lsu.judge (l : Lsu) (r : Reading) : Judgement :=
  if l.limitsValid = false then .unjudged
  else
    match r.quality with
    | .missing => .missing
    | .good => if (l.checkLimit : Int) < r.pGrid then .excess else .clean
    | .saturated => if (l.checkLimit : Int) < r.pGrid then .excess else .clean

/-- The meter at a close: the reading record replaced as a whole, the next period begun with the T_bal in force (R1 to
R3). -/
def Cmu.close (x : Cmu) (tBal : Nat) (r : Reading) (j : Judgement) : Cmu :=
  { x with
    periodLength := tBal, periodTimer := 0, energy := 0, validTime := 0, periodNumber := r.period, reading := r
    readingExists := true, judgement := j }

/-- A close with its reading: the record, the escalation machine, the balance unit's new reading, the new period's check
limit, the final-meter waits and the poll round (R3, R4, R14, R20, R70, R106; log entry 8). The judgement is applied
in the same step, so no SET LIMITS comes between the two as R21 allows (log entry 50). An ALL-ZERO broadcast request that
the judgement makes is taken in that step too, before the budget arrival of the reading; R94 allows either order (log entry
54). -/
def State.closePeriod (r : Reading) (s : State) : State :=
  let j := s.lsu.judge r
  let t := ((s.withCmu (s.cmu.close s.site.tBal r j)).applyJudgement j).send (.newReading r)
  let u := (t.withLsu { t.lsu with checkLimit := t.lsu.lEff }).finalWaitTicks
  u.withFlc u.flc.periodClose

/-- PERIOD_CLOSE: the period timer reaches T_bal (R3). The stretch is what the front end measured since its last
report. -/
def execPeriodClose (stretch : Stretch) (s : State) : Host.Outcome State Fault Refusal :=
  let t := s.withCmu (s.cmu.accumulate stretch)
  .next (t.closePeriod t.cmu.formReading)

/-- FINAL_WAIT_EXPIRY: the final-wait count of a CLOSING session reaches 5 (R70; log entry 7). -/
def execFinalWaitExpiry (point : Point) (s : State) : Host.Outcome State Fault Refusal :=
  .next (if (s.session point).waitRuns then
      (s.withSession point { s.session point with finalWait := some 5 }).endFinalWait point
    else s)

end Sys2Proof.Machine
end

