-- ==== Sys2Proof/Machine/Ports.lean ====
section
/-! DEFINITION. The port units and the notice and mail unit (Chapter 10): frames that are no command, the replies that
show the part's state, notices, mail and port reset; and the receipt commands of Chapter 9. -/

namespace Sys2Proof.Machine

open Sys2Proof

/-! ## Frames that are no command -/

/-- What SDO carries in byte `i` of a frame, counted from the command byte, for a command with that many operand bytes and
the reply the port holds: 0x00 in the command, operand and turnaround phases, then status, qualifier and result, then
0x00 (section 10.1, R179, R180). -/
def sdoByte (operands : Nat) (reply : Option Reply) (i : Nat) : Byte :=
  if i < operands + 3 then 0
  else
    match reply with
    | some r => ((r.status :: r.qualifier :: r.result)[i - (operands + 3)]?).getD 0
    | none => 0

/-- A port left without a reply (R180; log entry 31). -/
def State.clearReply (p : Port) (s : State) : State :=
  match p with
  | .s => s.withReplies { s.replies with s := none }
  | .c => s.withReplies { s.replies with c := none }

/-- One more frame error on a port, saturating (R180). -/
def FrameErrors.count (x : FrameErrors) : Port → FrameErrors
  | .s => { x with s := satAdd 65535 x.s 1 }
  | .c => { x with c := satAdd 65535 x.c 1 }

/-- SHORT_FRAME: a frame whose select goes high before its command is taken (R180). -/
def execShortFrame (port : Port) (s : State) : Host.Outcome State Fault Refusal :=
  .next ((s.withFrameErrors (s.frameErrors.count port)).clearReply port)

/-- UNKNOWN_COMMAND: a command byte that names no command is answered UNKNOWN, one that names a command of the other port
WRONG_PORT (R182). A byte that names a command of the port itself is a frame of that command, which is another row of the
table (log entry 32). -/
def execUnknownCommand (port : Port) (code : Byte) (s : State) : Host.Outcome State Fault Refusal :=
  .next (match commandRow code.toNat with
    | none => s.unknown port
    | some row => if row.issuers.allows port then s else s.wrongPort port)

/-! ## STATUS -/

/-- Reading and limits: 50 bytes (R185, R17). -/
def State.limitBytes (s : State) : List Byte :=
  leBytes 4 s.cmu.reading.period.toNat ++ leBytesInt 4 s.cmu.reading.pGrid ++ leBytes 1 s.cmu.reading.quality.code ++
    leBytes 1 (flagCode s.cmu.readingExists) ++ leBytes 1 s.cmu.judgement.code ++ leBytes 4 s.lsu.checkLimit ++
    leBytes 4 s.lsu.lImp ++ leBytes 4 s.lsu.lRed ++ leBytes 4 s.lsu.lExp ++ leBytes 4 s.lsu.margin ++
    leBytes 4 s.lsu.lFb ++ leBytes 2 s.lsu.tLive ++ leBytes 1 (flagCode s.lsu.limitsValid) ++ leBytes 4 s.lsu.lEff ++
    leBytes 4 s.lsu.marginInForce ++ leBytes 1 s.lsu.line.code ++ leBytes 1 s.lsu.lease.code ++
    leBytes 2 s.lsu.leaseCount

/-- Escalation: 5 bytes (R185, R18). -/
def State.escalationBytes (s : State) : List Byte :=
  leBytes 1 s.lsu.esc.code ++ leBytes 1 s.lsu.cleanCount ++ leBytes 1 s.lsu.graceCount ++
    leBytes 1 (flagCode s.lsu.latchS) ++ leBytes 1 (flagCode s.lsu.latchC)

/-- The ms since the last reduction acknowledgement, saturating; all ones when none has been taken (R185). -/
def State.sinceAck (s : State) : Nat := s.alu.lastAck.elim top32 (fun t => min top32 (s.now - t))

/-- The 24 queue places, head first, unused places 0xFF (R185). -/
def queuePlaces (queue : List Point) : List Byte :=
  (List.range 24).map (fun k => (queue[k]?).elim 0xFF (fun p => BitVec.ofNat 8 p.val))

/-- Allocation: 40 bytes (R185, R97). -/
def State.allocationBytes (s : State) : List Byte :=
  leBytes 2 s.alu.set.number.toNat ++ leBytes 4 s.alu.set.budget ++ leBytes 1 s.alu.staging.code ++
    leBytes 4 s.alu.k ++ leBytes 4 s.sinceAck ++ leBytes 1 s.alu.queue.length ++ queuePlaces s.alu.queue

/-- Field link: 10 bytes (R185, R118). The node byte of an idle round is a free value (log entry 14). The settings held
for the next round, when none wait, are those last stored, equal to those in force (log entry 49). -/
def State.linkBytes (s : State) : List Byte :=
  leBytes 1 (flagCode s.flc.running) ++ [if s.flc.running then BitVec.ofNat 8 s.flc.nextNode else Config.idleNextNode] ++
    leBytes 1 (flagCode s.flc.startPending) ++ leBytes 2 s.flc.overruns ++
    leBytes 1 s.flc.inForce.rate.code ++ leBytes 1 s.flc.inForce.tReply ++
    leBytes 1 s.flc.held.rate.code ++ leBytes 1 s.flc.held.tReply ++ leBytes 1 (flagCode s.flc.broadcastPending)

/-- One tariff slot: presence, edition number, reference count (R185). Of an empty slot number and count read 0 (log entry
49). -/
def heldBytes (h : Option HeldEdition) : List Byte :=
  leBytes 1 (flagCode h.isSome) ++ leBytes 2 (h.elim 0 (·.edition.number.toNat)) ++ leBytes 1 (h.elim 0 (·.refs))

/-- The band in force in CURRENT, 0xFF for none (R185, R152). -/
def Tfu.currentBand (t : Tfu) : Nat :=
  match t.current with
  | some h => (t.bandInForce h.edition).elim 0xFF (·.val)
  | none => 0xFF

/-- Tariffs: 9 bytes (R185, R152). -/
def State.tariffBytes (s : State) : List Byte :=
  heldBytes s.tfu.current ++ heldBytes s.tfu.previous ++ leBytes 1 s.tfu.currentBand

/-- Erase target, progress and erase state (R185; log entry 38). -/
def Rlg.eraseBytes (r : Rlg) : List Byte :=
  match r.erase with
  | some e =>
    leBytes 1 e.sector.val ++ leBytes 2 e.progress ++
      leBytes 1 (if r.sectors[e.sector] = .eraseSuspended then 2 else 1)
  | none => leBytes 1 0xFF ++ leBytes 2 0 ++ leBytes 1 0

/-- Receipt log outside STARTING: 40 bytes (R185, R178). -/
def Rlg.bytes (r : Rlg) : List Byte :=
  leBytes 1 r.logState.code ++ leBytes 2 r.erasedCount ++ leBytes 1 (flagCode r.spaceLow) ++
    r.sectors.toList.flatMap (fun x => leBytes 1 x.code) ++ leBytes 2 (r.fill.getD 0xFFFF) ++ leBytes 4 r.nextNumber ++
    leBytes 2 r.rRet ++ leBytes 1 r.queue.length ++ leBytes 1 r.portRequests ++ r.eraseBytes ++
    leBytes 2 r.secCount ++ leBytes 2 r.dedCount ++ leBytes 2 r.orphans.length

/-- Receipt log in STARTING: the reset values, not the scan's partial results (R178), but for R_ret, which is the value in
force after a SET RETENTION (R169; log entry 55). -/
def Rlg.startingBytes (r : Rlg) : List Byte :=
  leBytes 1 r.logState.code ++ leBytes 2 0 ++ leBytes 1 (flagCode r.spaceLow) ++
    List.replicate 16 0xFF ++ leBytes 2 0xFFFF ++ leBytes 4 0 ++
    leBytes 2 r.rRet ++ leBytes 1 r.queue.length ++ leBytes 1 r.portRequests ++
    leBytes 1 0xFF ++ leBytes 2 0 ++ leBytes 1 0 ++
    leBytes 2 r.secCount ++ leBytes 2 r.dedCount ++ leBytes 2 0

/-- The receipt log's group (R185, R178). -/
def State.logBytes (s : State) : List Byte := if s.rlg.logState = .starting then s.rlg.startingBytes else s.rlg.bytes

/-- Policy: 13 bytes (R185, R189). -/
def State.policyBytes (s : State) : List Byte :=
  leBytes 1 s.alu.mode.code ++ leBytes 2 s.alu.tFair ++ leBytes 2 s.alu.tRun ++ leBytes 2 s.alu.tDwell ++
    leBytes 1 s.lsu.tClear ++ leBytes 1 s.lsu.tGrace ++ leBytes 4 s.bau.bSafe

/-- Site: 4 bytes (R185, R188). -/
def State.siteBytes (s : State) : List Byte := leBytes 2 s.site.tBal ++ leBytes 2 s.site.vNom

/-- The frame-error count of a port. -/
def FrameErrors.of (x : FrameErrors) : Port → Nat
  | .s => x.s
  | .c => x.c

/-- This port: 11 bytes (R185). -/
def State.portBytes (s : State) (p : Port) : List Byte :=
  leBytes 2 (s.notices p).enables.toNat ++ leBytes 1 (s.notices p).threshold ++
    leBytes 2 (s.notices p).pending.toNat ++ leBytes 2 (s.notices p).inService.toNat ++
    leBytes 2 (s.frameErrors.of p) ++
    leBytes 1 (flagCode s.mail.sToC.isSome) ++ leBytes 1 (flagCode s.mail.cToS.isSome)

/-- The 182 result bytes of STATUS (R185). -/
def State.statusBytes (s : State) (p : Port) : List Byte :=
  s.limitBytes ++ s.escalationBytes ++ s.allocationBytes ++ s.linkBytes ++ s.tariffBytes ++ s.logBytes ++
    s.policyBytes ++ s.siteBytes ++ s.portBytes p

/-- STATUS (R185). -/
def execStatus (port : Port) (s : State) : Host.Outcome State Fault Refusal :=
  .next (s.ok port false (s.statusBytes port))

/-! ## READ BALANCE and READ NODE -/

/-- The balance record: 43 bytes (R186). -/
def BalanceRecord.bytes (r : BalanceRecord) : List Byte :=
  leBytes 4 r.period.toNat ++ leBytes 1 (flagCode r.recomputed) ++ leBytesInt 4 r.n ++ leBytesInt 4 r.a ++
    leBytes 4 r.d ++ leBytes 4 r.b ++ leBytesInt 4 r.qo ++ leBytes 4 r.cap ++ leBytes 4 r.pvW ++ leBytes 4 r.batW ++
    leBytes 4 r.c ++ leBytes 1 r.esc.code ++ leBytes 1 r.missing

/-- READ_BALANCE: 70 result bytes (R186). -/
def execReadBalance (port : Port) (s : State) : Host.Outcome State Fault Refusal :=
  .next (s.ok port false
    (s.bau.record.bytes ++ leBytesInt 4 s.batteryOrder ++ leBytes 4 s.canopyCap ++
      leBytes 4 s.lsu.lEff ++ leBytes 4 s.lsu.marginInForce ++
      leBytes 4 s.cmu.reading.period.toNat ++ leBytesInt 4 s.cmu.reading.pGrid ++
      leBytes 1 s.cmu.reading.quality.code ++ leBytes 1 s.cmu.judgement.code ++ leBytes 1 s.lsu.esc.code))

/-- The latest report fields of a node: 14 bytes (R187). -/
def reportBytes : Option Report → List Byte
  | some (.chargePoint register power request plugged fault) =>
    leBytes 4 register.toNat ++ leBytes 4 power ++ leBytes 4 request ++ leBytes 1 (flagCode plugged) ++ [fault]
  | some (.canopy power available fault) =>
    leBytes 4 0 ++ leBytes 4 power ++ leBytes 4 available ++ leBytes 1 0 ++ [fault]
  | some (.battery power soc fault) =>
    leBytes 4 0 ++ leBytesInt 4 power ++ leBytes 4 soc ++ leBytes 1 0 ++ [fault]
  | none => List.replicate 14 0

/-- The entry of R98 as READ NODE returns it: 49 bytes. One presence byte marks last echo and report fields, which are
present and absent together, and reads 1 (R118, R184, R187; log entry 22). The byte of an absent echo reads 0 (log entry
49). -/
def Node.bytes (n : Node) : List Byte :=
  leBytes 1 n.kind.code ++ leBytes 1 n.state.code ++ leBytes 4 n.maximum ++ leBytes 4 n.minimum ++
    leBytes 4 n.failsafe ++ leBytesInt 4 n.sentValue ++ leBytes 4 n.sentPower ++ leBytes 4 n.sentFailsafe ++
    [n.sequence, n.lastEcho.getD 0] ++ leBytes 1 (flagCode n.latestReport.isSome) ++
    reportBytes n.report ++ leBytes 1 n.misses ++ leBytes 1 n.frameErrors ++ leBytes 4 n.replyCount.toNat

/-- The allocator's fields of a node; 0 for nodes 24 and 25 (R187). -/
def State.allocatorBytes (s : State) (n : Fin 26) : List Byte :=
  let v := s.alu.points[n.val]?.getD ⟨0, 0, false⟩
  leBytes 2 v.value ++ leBytes 4 v.power ++ leBytes 1 (flagCode v.pendingReduction)

/-- READ_NODE: 57 result bytes (R187). -/
def execReadNode (port : Port) (node : Byte) (s : State) : Host.Outcome State Fault Refusal :=
  .next (match nodeOperand node with
    | none => s.turnDown port .refused .badValue
    | some n =>
      s.ok port false ((s.node n).bytes ++ s.allocatorBytes n ++ leBytes 1 (flagCode (s.node n).echoed)))

/-! ## Notices and mail -/

/-- TAKE_NOTICE: the highest-ranked enabled pending kind moves into service (R193). -/
def execTakeNotice (port : Port) (s : State) : Host.Outcome State Fault Refusal :=
  let n := s.notices port
  .next (if n.next = 0 then s.ok port false (leBytes 1 0 ++ leBytes 4 0)
    else
      (s.withNotices port (n.takeRank n.next)).ok port false
        (leBytes 1 n.next ++ leBytes 4 (n.detail n.next).toNat))

/-- END_NOTICE: the top of the in-service stack ends (R194). -/
def execEndNotice (port : Port) (s : State) : Host.Outcome State Fault Refusal :=
  let n := s.notices port
  .next (if topRank n.inService = 0 then s.turnDown port .refused .empty
    else (s.withNotices port n.endTop).ok port false (leBytes 1 (topRank n.inService)))

/-- SET_NOTICE_MASK: enable set and threshold (R195). -/
def execSetNoticeMask (port : Port) (enables : Word16) (threshold : Byte) (s : State) :
    Host.Outcome State Fault Refusal :=
  .next ((s.withNotices port ((s.notices port).mask enables (min threshold.toNat 15))).ok port
    (decide (15 < threshold.toNat)) [])

/-- The box a port writes (R196). -/
def Mail.outgoing (m : Mail) : Port → Option (BitVec 256)
  | .s => m.sToC
  | .c => m.cToS

/-- The box a port reads (R197). -/
def Mail.incoming (m : Mail) : Port → Option (BitVec 256)
  | .s => m.cToS
  | .c => m.sToC

/-- The box a port writes, replaced. -/
def Mail.withOutgoing (m : Mail) (p : Port) (x : Option (BitVec 256)) : Mail :=
  match p with
  | .s => { m with sToC := x }
  | .c => { m with cToS := x }

/-- The box a port reads, replaced. -/
def Mail.withIncoming (m : Mail) (p : Port) (x : Option (BitVec 256)) : Mail :=
  match p with
  | .s => { m with cToS := x }
  | .c => { m with sToC := x }

/-- The other port. -/
def otherPort : Port → Port
  | .s => .c
  | .c => .s

/-- SEND_MAIL (R196). -/
def execSendMail (port : Port) (message : BitVec 256) (s : State) : Host.Outcome State Fault Refusal :=
  .next (if (s.mail.outgoing port).isSome then s.turnDown port .refused .full
    else ((s.withMail (s.mail.withOutgoing port (some message))).raise (otherPort port) .mail []).ok port false [])

/-- READ_MAIL (R197). -/
def execReadMail (port : Port) (s : State) : Host.Outcome State Fault Refusal :=
  .next (match s.mail.incoming port with
    | none => s.turnDown port .refused .empty
    | some m => (s.withMail (s.mail.withIncoming port none)).ok port false (leBytes 32 m.toNat))

/-- PORT_RESET: notice state and incoming mailbox (R198). -/
def execPortReset (port : Port) (s : State) : Host.Outcome State Fault Refusal :=
  .next (((s.withNotices port Notices.reset).withMail (s.mail.withIncoming port none)).ok port false [])

/-! ## Reading receipts -/

/-- The 133 result bytes of a receipt: slot index, slot state, collect pending, the words, integrity status (R167). -/
def Rlg.receiptBytes (r : Rlg) (number slot : Nat) : List Byte :=
  leBytes 2 slot ++ leBytes 1 (r.slotState slot).code ++ leBytes 1 (flagCode (r.collectPending number)) ++
    r.readBytes (slotAddress slot) 128 ++ leBytes 1 (integrityCode (r.status (16 * slot) 16))

/-- A receipt read and returned; every word read is counted (R166, R167). -/
def State.giveReceipt (port : Port) (number slot : Nat) (s : State) : State :=
  (s.withRlg (s.rlg.countWords (16 * slot) 16)).ok port false (s.rlg.receiptBytes number slot)

/-- The slot lies in a sector that is ERASING or ERASE_SUSPENDED (R167). -/
def Rlg.inErase (r : Rlg) (slot : Nat) : Bool :=
  r.sectors[slotSector slot] == .erasing || r.sectors[slotSector slot] == .eraseSuspended

/-- READ_RECEIPT (R167). -/
def execReadReceipt (port : Port) (number : Word32) (s : State) : Host.Outcome State Fault Refusal :=
  .next (if s.rlg.logState = .starting then s.turnDown port .busy .starting
    else
      match s.rlg.slotOf number.toNat with
      | none => s.turnDown port .refused .notFound
      | some slot =>
        if s.rlg.inErase slot then s.turnDown port .busy .state else s.giveReceipt port number.toNat slot)

/-- The lowest number in the index whose slot is CLOSED and not collect-pending, with its slot (R168). -/
def Rlg.nextReceipt (r : Rlg) : Option (Nat × Nat) :=
  (r.index.filter (fun e => r.slotState e.2 == .closed && !r.collectPending e.1)).foldl
    (fun best e => match best with
      | none => some e
      | some x => if e.1 < x.1 then some e else some x) none

/-- READ NEXT RECEIPT on port C (R168). -/
def readNextReceiptOp (s : State) : State :=
  if s.rlg.logState = .starting then s.turnDown .c .busy .starting
  else
    match s.rlg.nextReceipt with
    | none => s.turnDown .c .refused .notFound
    | some e => s.giveReceipt .c e.1 e.2

/-- READ_NEXT_RECEIPT (R168). -/
def execReadNextReceipt (port : Port) (s : State) : Host.Outcome State Fault Refusal :=
  .next (s.onCharge port readNextReceiptOp)

/-! ## Collecting and retaining -/

/-- COLLECT RECEIPT on port C (R163). -/
def collectReceiptOp (number : Nat) (s : State) : State :=
  if s.rlg.logState = .starting then s.turnDown .c .busy .starting
  else if s.rlg.logState = .fault then s.turnDown .c .refused .storeFault
  else
    match s.rlg.slotOf number with
    | none => s.turnDown .c .refused .notFound
    | some slot =>
      if s.rlg.slotState slot = .collected ∨ s.rlg.collectPending number = true then
        s.turnDown .c .refused .already
      else if s.rlg.slotState slot = .opened then s.turnDown .c .refused .state
      else if 8 ≤ s.rlg.portRequests then s.turnDown .c .busy .full
      else (s.enqueue { kind := .collect, number, slot, attempts := 0 }).ok .c false []

/-- COLLECT_RECEIPT (R163). -/
def execCollectReceipt (port : Port) (number : Word32) (s : State) : Host.Outcome State Fault Refusal :=
  .next (s.onCharge port (collectReceiptOp number.toNat))

/-- SET RETENTION on port S: at once with the erase test, or held until the erase completes (R169; log entry 26). -/
def setRetentionOp (retention : Nat) (s : State) : State :=
  let r := min retention 1024
  let t :=
    if s.rlg.erase.isSome then s.withRlg { s.rlg with heldRet := some r }
    else if s.rlg.logState = .starting then s.withRlg { s.rlg with rRet := r }
    else (s.withRlg { s.rlg with rRet := r }).eraseTest
  t.ok .s (decide (1024 < retention)) []

/-- SET_RETENTION (R169). -/
def execSetRetention (port : Port) (retention : Word16) (s : State) : Host.Outcome State Fault Refusal :=
  .next (s.onSite port (setRetentionOp retention.toNat))

/-! ## Orphans -/

/-- The 41 result bytes of an orphan (R176; log entry 23). -/
def Rlg.orphanBytes (r : Rlg) (number slot : Nat) : List Byte :=
  leBytes 4 number ++ leBytes 2 slot ++ r.readBytes (slotAddress slot) 32 ++
    leBytes 1 (flagCode (r.closingErased slot)) ++ leBytes 1 (flagCode (r.orphanQueued number)) ++
    leBytes 1 (integrityCode (r.status (16 * slot) 16))

/-- READ NEXT ORPHAN on port C (R176). -/
def readNextOrphanOp (s : State) : State :=
  if s.rlg.logState = .starting then s.turnDown .c .busy .starting
  else
    match s.rlg.orphans with
    | [] => s.turnDown .c .refused .notFound
    | number :: _ =>
      let slot := (s.rlg.slotOf number).getD 0
      (s.withRlg (s.rlg.countWords (16 * slot) 16)).ok .c false (s.rlg.orphanBytes number slot)

/-- READ_NEXT_ORPHAN (R176). -/
def execReadNextOrphan (port : Port) (s : State) : Host.Outcome State Fault Refusal :=
  .next (s.onCharge port readNextOrphanOp)

/-- Some open session holds the number (R177). -/
def State.heldBySession (s : State) (number : Nat) : Bool :=
  allPoints.any (fun p => (s.session p).state != .free && (s.session p).number == number)

/-- The refusal of a number that is not in the orphan list (R177, order 3). -/
def State.notOrphan (s : State) (number : Nat) : Reason :=
  match s.rlg.slotOf number with
  | none => .notFound
  | some slot =>
    match s.rlg.slotState slot with
    | .closed => .already
    | .collected => .already
    | .opened => if s.heldBySession number then .state else .notFound
    | .erased => .notFound
    | .reserved => .notFound
    | .bad => .notFound
    | .superseded => .notFound

/-- The accounts of an orphan: the register difference in E_grid[0], saturated (R177). -/
def orphanAccounts (meterStart register : Word32) : Accounts :=
  { pv := Vector.replicate 4 0, bat := Vector.replicate 4 0
    grid := (Vector.replicate 4 0).set 0 (min (1000 * (register - meterStart).toNat) top32) }

/-- The closing part of an orphan (R177, R151). -/
def orphanPart (calendar meterStart register : Word32) (fallbackPrice sessionFee : Nat) : ClosingPart :=
  let energy := orphanEnergyAmount meterStart register fallbackPrice
  { closeTime := calendar, meterEnd := register, reason := .powerLoss, meterSuspect := false, nodeLostSeen := false
    tripSeen := false, disputed := 0, accounts := orphanAccounts meterStart register, idleSeconds := 0
    energy, idle := 0, total := totalAmount sessionFee energy 0 }

/-- An accepted CLOSE ORPHAN: the opening part read, the closing part formed and queued (R177; log entry 43). -/
def State.closeOrphan (number : Nat) (register : Word32) (s : State) : State :=
  let slot := (s.rlg.slotOf number).getD 0
  let r := s.rlg
  let part := orphanPart s.tfu.calendar (BitVec.ofNat 32 (r.longField slot 16)) register
    (leNat (r.readBytes (slotAddress slot + 20) 2)) (leNat (r.readBytes (slotAddress slot + 22) 2))
  (s.withRlg (r.countWords (16 * slot) 4)).enqueue
    { kind := .orphanClosing (r.readByte (slotAddress slot + 4)).toNat part, number, slot, attempts := 0 }

/-- CLOSE ORPHAN on port C (R177). -/
def closeOrphanOp (number : Nat) (register : Word32) (s : State) : State :=
  if s.rlg.logState = .starting then s.turnDown .c .busy .starting
  else if s.tfu.calendarValid = false then s.turnDown .c .refused .noTime
  else if !s.rlg.orphans.contains number then s.turnDown .c .refused (s.notOrphan number)
  else if s.rlg.orphanQueued number then s.turnDown .c .refused .already
  else if 8 ≤ s.rlg.portRequests then s.turnDown .c .busy .full
  else (s.closeOrphan number register).ok .c false []

/-- CLOSE_ORPHAN (R177). -/
def execCloseOrphan (port : Port) (number register : Word32) (s : State) : Host.Outcome State Fault Refusal :=
  .next (s.onCharge port (closeOrphanOp number.toNat register))

end Sys2Proof.Machine
end

