-- ==== Sys2Proof/Machine/Scan.lean ====
section
/-! DEFINITION. The start-up scan (R173 to R176) and device reset (R199, and the reset values of every chapter). -/

namespace Sys2Proof.Machine

open Sys2Proof

/-! ## What the scan reads -/

/-- The words with a stored byte that is not 0xFF or a check code that is not CLEAN: every other word reads erased. -/
def Rlg.touchedWords (r : Rlg) : List Nat := r.cells.map (fun e => e.1 / 8) ++ r.codes.map (fun e => e.1 / 8)

/-- Some word of the slot does not read erased (R153; log entry 40). -/
def Rlg.slotUsed (r : Rlg) (slot : Nat) : Bool := r.touchedWords.any (fun w => w / 16 == slot && !r.wordErased w)

/-- The slots of a sector, in ascending order. -/
def sectorSlots (k : Fin 16) : List Nat := (List.range 128).map (fun i => 128 * k.val + i)

/-- An interrupted erase: the header reads erased while a slot word of the sector does not (R174). -/
def Rlg.interrupted (r : Rlg) (k : Fin 16) : Bool :=
  r.wordErased (32768 + k.val) && (sectorSlots k).any r.slotUsed

/-- Every sector, in ascending order. -/
def allSectors : List (Fin 16) := List.ofFn id

/-- The used slots the scan reads, in ascending order: those outside the interrupted erases (R174). -/
def Rlg.slotsRead (r : Rlg) : List Nat :=
  (allSectors.filter (fun k => !r.interrupted k)).flatMap (fun k => (sectorSlots k).filter r.slotUsed)

/-- The state the marks give a slot (R174). -/
def Rlg.markState (r : Rlg) (slot : Nat) : SlotState :=
  if r.markSet slot .bad then .bad
  else if r.markSet slot .superseded then .superseded
  else
    match r.markSet slot .opened, r.markSet slot .closed, r.markSet slot .collected with
    | true, true, true => .collected
    | true, true, false => .closed
    | true, false, false => .opened
    | true, false, true => .bad
    | false, true, _ => .bad
    | false, false, true => .bad
    | false, false, false => if r.slotUsed slot then .bad else .erased

/-- The value of a number word: none when it reads erased or DAMAGED (R175). -/
def Rlg.numberWord (r : Rlg) (slot word offset : Nat) : Option Nat :=
  if r.wordErased (16 * slot + word) || r.code (16 * slot + word) == .damaged then none
  else some (r.longField slot offset)

/-- The values of a slot's number words: word 0, word 3 and the number check of word 14 (R175). -/
def Rlg.numberWords (r : Rlg) (slot : Nat) : List Nat :=
  [r.numberWord slot 0 0, r.numberWord slot 3 24, r.numberWord slot 14 114].filterMap id

/-- The receipt number of a slot: word 0, else word 3, else word 14, whichever reads (R174). -/
def Rlg.slotNumber (r : Rlg) (slot : Nat) : Option Nat := (r.numberWords slot).head?

/-- A number word of the slot reads DAMAGED and none gives a value (R175). -/
def Rlg.unreadable (r : Rlg) (slot : Nat) : Bool :=
  (r.numberWords slot).isEmpty &&
    (r.code (16 * slot) == .damaged || r.code (16 * slot + 3) == .damaged || r.code (16 * slot + 14) == .damaged)

/-- The state of a slot read, before relocations are looked at (R174). A slot otherwise OPENED without a DAMAGED opening word
whose number words all read erased is BAD (log entry 51). -/
def Rlg.readState (r : Rlg) (slot : Nat) : SlotState :=
  match r.markState slot with
  | .opened => if r.status (16 * slot) 4 == .damaged || (r.slotNumber slot).isNone then .bad else .opened
  | .closed => if (r.slotNumber slot).isNone then .bad else .closed
  | .collected => if (r.slotNumber slot).isNone then .bad else .collected
  | x => x

/-- The origin that a relocated slot sets aside: it holds the same number and is OPENED by its marks. The relocation mark
and the origin index are taken as read, from a DAMAGED word too (R174; log entry 48). -/
def Rlg.originOf (r : Rlg) (slot : Nat) : Option Nat :=
  let origin := leNat (r.readBytes (slotAddress slot + 112) 2)
  if (r.readState slot = .closed ∨ r.readState slot = .collected) ∧ r.readByte (slotAddress slot + 42) = 1 ∧
      origin < 2048 ∧ r.interrupted (slotSector origin) = false ∧ r.markState origin = .opened ∧
      r.slotNumber origin = r.slotNumber slot
  then some origin
  else none

/-- Every origin set aside, in ascending order of the slots that name them. -/
def Rlg.origins (r : Rlg) : List Nat := r.slotsRead.filterMap r.originOf

/-- The state of a slot before the gaps are filled (R174). -/
def Rlg.foundState (r : Rlg) (origins : List Nat) (slot : Nat) : SlotState :=
  if r.interrupted (slotSector slot) then .bad
  else if origins.contains slot then .superseded
  else r.readState slot

/-! ## Numbers -/

/-- The value of a sector's header: none when it reads erased or DAMAGED (R175). -/
def Rlg.headerValue (r : Rlg) (k : Fin 16) : Option Nat :=
  if r.wordErased (32768 + k.val) || r.code (32768 + k.val) == .damaged then none
  else some (leNat (r.readBytes (headerAddress k) 4))

/-- The highest receipt number or header value read; 0 when nothing gives a value (R175; log entry 12). -/
def Rlg.highestNumber (r : Rlg) : Nat :=
  (r.slotsRead.flatMap r.numberWords ++ allSectors.filterMap r.headerValue).foldl max 0

/-- The skip of R175. -/
def Rlg.skip (r : Rlg) : Nat :=
  24 + (r.slotsRead.filter r.unreadable).length + 128 * (allSectors.filter r.interrupted).length

/-- The next number the scan sets (R175; log entry 13). -/
def Rlg.scannedNext (r : Rlg) : Nat := numberAfter r.highestNumber (1 + r.skip)

/-! ## Sectors -/

/-- Every slot of the sector is ERASED (R174). -/
def Rlg.sectorFree (r : Rlg) (k : Fin 16) : Bool := !(sectorSlots k).any r.slotUsed

/-- The sector's last slot is ERASED, so an ERASED slot lies after its last used slot (R174). -/
def Rlg.hasTail (r : Rlg) (k : Fin 16) : Bool := !r.interrupted k && !r.slotUsed (128 * k.val + 127)

/-- The highest header value read; 0 when no header gives one. -/
def Rlg.topHeader (r : Rlg) : Nat := (allSectors.filterMap r.headerValue).foldl max 0

/-- The sector's header holds the highest header value, and the next header around the ring that gives a value holds another
one: no sector was erased after this one (R172; log entry 41). Where a header was programmed late, at a later scan than the
one that first failed to, the headers are not in erase order; the highest one is taken all the same, the model's choice (log
entry 41). -/
def Rlg.erasedLast (r : Rlg) (k : Fin 16) : Bool :=
  r.headerValue k == some r.topHeader &&
    (List.range 15).findSome? (fun i => r.headerValue (k + 1 + Fin.ofNat 16 i)) != some r.topHeader

/-- The last sector of the run in ring order (R174). With no FREE sector the run is the whole ring: it ends before an
interrupted erase, which was the oldest FULL sector, else at the sector that was erased last, whose header tells so; with
every header alike the ring is in its first turn, which began at sector 0 (R172, R174; log entry 41). -/
def Rlg.lastOfRun (r : Rlg) : Fin 16 :=
  match allSectors.find? (fun k => !r.sectorFree k && r.sectorFree (nextSector k)) with
  | some k => k
  | none =>
    match allSectors.find? r.interrupted with
    | some k => k - 1
    | none => (allSectors.find? r.erasedLast).getD 15

/-- Every sector is FREE. -/
def Rlg.allFree (r : Rlg) : Bool := allSectors.all r.sectorFree

/-- The newest used slot: the last non-ERASED slot of the run (R174). -/
def Rlg.newestUsed (r : Rlg) : Nat :=
  if r.interrupted r.lastOfRun then 128 * r.lastOfRun.val + 127
  else ((sectorSlots r.lastOfRun).filter r.slotUsed).foldl max 0

/-- The gaps: ERASED slots of the run before the newest used slot (R174). -/
def Rlg.gaps (r : Rlg) : List Nat :=
  (allSectors.filter (fun k => !r.sectorFree k && !r.interrupted k)).flatMap (fun k =>
    (sectorSlots k).filter (fun slot =>
      !r.slotUsed slot && (decide (k ≠ r.lastOfRun) || decide (slot < r.newestUsed))))

/-- The sector that is ACTIVE after the scan, with its fill position; none when there is none (R174). -/
def Rlg.scannedActive (r : Rlg) : Option (Fin 16 × Nat) :=
  if r.allFree then some (0, 0)
  else if r.hasTail r.lastOfRun then some (r.lastOfRun, r.newestUsed + 1)
  else if r.sectorFree (nextSector r.lastOfRun) then
    some (nextSector r.lastOfRun, 128 * (nextSector r.lastOfRun).val)
  else none

/-- A sector's state after the scan (R174). -/
def Rlg.scannedSector (r : Rlg) (k : Fin 16) : SectorState :=
  if r.scannedActive.any (fun x => x.1 == k) then .active
  else if r.sectorFree k then .free
  else .full

/-! ## The scan's own programs -/

/-- How the array took the attempts at a program of the scan: as asked where nothing is said. -/
def attemptsOf (results : List ScanResult) (t : ScanTarget) : List ArrayResult :=
  (results.find? (fun x => x.target == t)).elim [] (·.attempts)

/-- One program of the scan, tried up to three times, and whether a verify was good (R175; log entry 35). -/
def Rlg.scanProgram (r : Rlg) (next : Nat) (results : List ScanResult) (t : ScanTarget) : Rlg × Bool :=
  match t with
  | .header k =>
    Rlg.programTries (fun u => u.programWord (32768 + k.val) (BitVec.ofNat 64 next)) 3 (attemptsOf results t) r
  | .superseded slot =>
    Rlg.programTries (fun u => u.programByte (slotAddress slot + markOffset .superseded)) 3 (attemptsOf results t) r
  | .gap slot =>
    Rlg.programTries (fun u => u.programByte (slotAddress slot + markOffset .bad)) 3 (attemptsOf results t) r

/-- Programs of the scan in turn, and whether every one had a good verify (R175). -/
def Rlg.scanPrograms (next : Nat) (results : List ScanResult) : List ScanTarget → Rlg → Rlg × Bool
  | [], r => (r, true)
  | t :: ts, r =>
    let x := r.scanProgram next results t
    let y := Rlg.scanPrograms next results ts x.1
    (y.1, x.2 && y.2)

/-- The programs the scan makes: headers of FREE sectors that read erased, superseded marks, gap marks (R174, R175). -/
def Rlg.scanTargets (r : Rlg) : List ScanTarget :=
  (allSectors.filter (fun k => r.sectorFree k && r.wordErased (32768 + k.val))).map .header ++
    r.origins.map (fun slot => .superseded (Fin.ofNat 2048 slot)) ++
    r.gaps.map (fun slot => .gap (Fin.ofNat 2048 slot))

/-- The array after the scan's programs, and whether every one had a good verify (R175). -/
def Rlg.scanWrites (results : List ScanResult) (r : Rlg) : Rlg × Bool :=
  Rlg.scanPrograms r.scannedNext results r.scanTargets r

/-- One of the scan's programs failed for the third time (R175). -/
def Rlg.scanFails (r : Rlg) (results : List ScanResult) : Bool := !(r.scanWrites results).2

/-! ## The scan -/

/-- The slot states the scan leaves, those that are not ERASED, by rising slot index (R174). -/
def Rlg.scannedStates (r : Rlg) (origins gaps : List Nat) : List (Nat × SlotState) :=
  ((List.range 2048).map (fun slot =>
    (slot, if gaps.contains slot then SlotState.bad else r.foundState origins slot))).filter (fun e => e.2 != .erased)

/-- Number of words of the array: 2,048 slots of 16 words and 16 headers (R153). -/
def arrayWords : Nat := 32784

/-- A word's place in the order of the scan's reads: each sector's header and then its slots (R174). -/
def scanPlace (w : Nat) : Nat := if w < 32768 then 2049 * (w / 2048) + 1 + w % 2048 else 2049 * (w - 32768)

/-- The words that do not read CLEAN and that the scan reads: every header, and the slots outside the interrupted erases
(R166, R174). -/
def Rlg.flawedWords (r : Rlg) : List Nat :=
  (r.codes.map (fun e => e.1 / 8)).dedup.filter (fun w =>
    decide (32768 ≤ w) || !r.interrupted (slotSector (w / 16)))

/-- The scan reads on to a place of its order; the words it reads are counted (R166). -/
def Rlg.scanTo (r : Rlg) (place : Nat) : Rlg :=
  { (r.flawedWords.filter (fun w => decide (r.scanPosition ≤ scanPlace w) && decide (scanPlace w < place))).foldl
      Rlg.countWord r with
    scanPosition := max r.scanPosition place }

/-- The number index the scan builds, by rising slot index: an entry for each slot found OPENED, CLOSED or COLLECTED (R157,
R175; log entry 53). -/
def Rlg.scannedIndex (r : Rlg) : List (Nat × Nat) :=
  (r.scannedStates r.origins r.gaps).filterMap (fun e =>
    match e.2 with
    | .opened => (r.slotNumber e.1).map (·, e.1)
    | .closed => (r.slotNumber e.1).map (·, e.1)
    | .collected => (r.slotNumber e.1).map (·, e.1)
    | _ => none)

/-- The orphan list: the numbers of the slots the scan leaves OPENED, in ascending order (R176). -/
def Rlg.scannedOrphans (r : Rlg) : List Nat :=
  (((r.scannedStates r.origins r.gaps).filter (fun e => e.2 == .opened)).filterMap (fun e => r.slotNumber e.1)).insertionSort
    (· ≤ ·)

/-- The receipt log after the scan of its array, log state aside (R174 to R176). -/
def Rlg.scanned (results : List ScanResult) (r : Rlg) : Rlg :=
  let counted := r.scanTo arrayWords
  { (r.scanWrites results).1 with
    secCount := counted.secCount
    dedCount := counted.dedCount
    scanPosition := counted.scanPosition
    slotStates := r.scannedStates r.origins r.gaps
    sectors := Vector.ofFn r.scannedSector
    fill := r.scannedActive.map (·.2)
    lastActive := (r.scannedActive.map (·.1)).getD r.lastOfRun
    index := r.scannedIndex
    nextNumber := r.scannedNext
    orphans := r.scannedOrphans }

/-- The points of the orphans (R173): byte 4 of their slots. -/
def Rlg.orphanPoints (r : Rlg) : List Nat :=
  r.orphans.filterMap (fun n => (r.slotOf n).map (fun slot => (r.readByte (slotAddress slot + 4)).toNat))

/-- The end of the scan: READY, or FAULT after a third failure of its own; the erase test; ORPHANS_FOUND (R173). -/
def State.scan (results : List ScanResult) (s : State) : State :=
  let t := s.withRlg { s.rlg.scanned results with logState := .ready }
  let u := (if s.rlg.scanFails results then t.thirdFailure [] else t).eraseTest
  if u.rlg.orphans.isEmpty then u else u.raise .c .orphansFound u.rlg.orphanPoints

/-- STARTUP_SCAN: the scan that begins at the release of device reset completes (R173). -/
def execStartupScan (results : List ScanResult) (s : State) : Host.Outcome State Fault Refusal :=
  .next (if s.rlg.logState = .starting then s.scan results else s)

/-! ## Device reset -/

/-- The word a place of the array belongs to. -/
def placeWord : ArrayPlace → Nat
  | .word w => w
  | .markByte slot _ => 16 * slot + 15

/-- The array has the place: its words, the mark words byte by byte (R153). -/
def placeExists : ArrayPlace → Bool
  | .word w => decide (w < arrayWords) && !isMarkWord w
  | .markByte slot _ => decide (slot < 2048)

/-- The bits the array holds at a place. -/
def Rlg.rawAt (r : Rlg) : ArrayPlace → Word64
  | .word w => r.rawWord w
  | .markByte slot i => (r.rawByte (slotAddress slot + 120 + i.val)).zeroExtend 64

/-- A place of the array set. -/
def Rlg.storeAt (r : Rlg) (x : ArrayResult) : ArrayPlace → Rlg
  | .word w => r.storeWord w x
  | .markByte slot i => r.storeMarkByte (slotAddress slot + 120 + i.val) x

/-- The head request's next attempt writes a fresh slot as well (R162, R177). -/
def ProgramRequest.relocates (q : ProgramRequest) : Bool :=
  match q.kind with
  | .closing _ _ => decide (0 < q.attempts)
  | .orphanClosing _ _ => true
  | .opening _ _ => false
  | .collect => false

/-- A program cut short by the reset may have reached the word: the attempt that has begun writes the head request's
slot and, for a relocation, the slot at the fill position; the scan writes headers and marks (R153, R174; log entry
11). -/
def Rlg.programReaches (r : Rlg) (w : Nat) : Bool :=
  (match r.programming, r.queue with
    | true, q :: _ => decide (w / 16 = q.slot) || (q.relocates && r.fill == some (w / 16))
    | _, _ => false) ||
  (r.logState == .starting && (decide (32768 ≤ w) || decide (w % 16 = 15)))

/-- The sector whose erase had started when the reset came. -/
def Rlg.eraseReaches (r : Rlg) (w : Nat) : Bool :=
  match r.erase with
  | some e => decide (w / 2048 = e.sector.val) || decide (w = 32768 + e.sector.val)
  | none => false

/-- One place of the array as the reset left it. A program has turned bits from 1 to 0 only; an erase takes the header word
before any slot word changes (R153; log entry 11). A place that nothing was writing keeps its contents. -/
def Rlg.applyResidue (reset : Rlg) (before : Rlg) (x : Residue) : Rlg :=
  let w := placeWord x.place
  if before.eraseReaches w then
    if w < 32768 then
      (reset.storeWord (32768 + w / 2048) ⟨BitVec.allOnes 64, .clean⟩).storeAt x.left x.place
    else reset.storeAt x.left x.place
  else if before.programReaches w then reset.storeAt ⟨before.rawAt x.place &&& x.left.value, x.left.code⟩ x.place
  else reset

/-- The receipt log at the release of device reset: the array kept, with what the interrupted programs and erase left;
everything else at its reset value. Residues of headers are laid down before those of slots. -/
def Rlg.afterReset (r : Rlg) (left : List Residue) : Rlg :=
  let headers := left.filter (fun x => decide (32768 ≤ placeWord x.place))
  let slots := left.filter (fun x => decide (placeWord x.place < 32768))
  (headers ++ slots).foldl (fun t x => t.applyResidue r x) (Rlg.reset r.cells r.codes)

/-- The part at the release of device reset: the reset state, with the array, the level of LIMREQ_N, the front end's
reports and the commands that wait kept, for none of these is the part's volatile state (log entries 1, 2, 11). -/
def State.deviceReset (left : List Residue) (s : State) : State :=
  { State.reset with
    cmu := { State.reset.cmu with lossOfReference := s.cmu.lossOfReference, converterFault := s.cmu.converterFault }
    lsu := { State.reset.lsu with limreqLow := s.lsu.limreqLow }
    rlg := s.rlg.afterReset left
    pending := s.pending }

/-- DEVICE_RESET: RESET_N asserted and released, or power-up (00_scope, Outside lines; R199). A residue at a place the
array does not have stops the model (log entry 33). -/
def execDeviceReset (left : List Residue) (s : State) : Host.Outcome State Fault Refusal :=
  if left.all (fun x => placeExists x.place) then .next (s.deviceReset left) else .fault .noSuchArrayWord

end Sys2Proof.Machine
end

