-- ==== Sys2Proof/Machine/Dispatch.lean ====
section
/-! DEFINITION. One arm for each command of the table. -/

namespace Sys2Proof.Machine

open Sys2Proof

/-- The meaning of a command on everything but the queue. -/
def exec (i : Instr) (s : State) : Host.Outcome State Fault Refusal :=
  match i with
  | .deviceReset left => Sys2Proof.Machine.execDeviceReset left s
  | .frontEndValidity lossOfReference converterFault stretch => Sys2Proof.Machine.execFrontEndValidity lossOfReference converterFault stretch s
  | .periodClose stretch => Sys2Proof.Machine.execPeriodClose stretch s
  | .finalWaitExpiry point => Sys2Proof.Machine.execFinalWaitExpiry point s
  | .limreqNChange low => Sys2Proof.Machine.execLimreqNChange low s
  | .limitLineEdge => Sys2Proof.Machine.execLimitLineEdge s
  | .secondTick => Sys2Proof.Machine.execSecondTick s
  | .leaseLapse => Sys2Proof.Machine.execLeaseLapse s
  | .newReading => Sys2Proof.Machine.execNewReading s
  | .recomputeRequest => Sys2Proof.Machine.execRecomputeRequest s
  | .allocation => Sys2Proof.Machine.execAllocation s
  | .dwellEnd => Sys2Proof.Machine.execDwellEnd s
  | .reductionAcknowledgement point => Sys2Proof.Machine.execReductionAcknowledgement point s
  | .reductionRequest point => Sys2Proof.Machine.execReductionRequest point s
  | .frameSend => Sys2Proof.Machine.execFrameSend s
  | .zeroFrame => Sys2Proof.Machine.execZeroFrame s
  | .replyReceived bytes => Sys2Proof.Machine.execReplyReceived bytes s
  | .replyTimeout => Sys2Proof.Machine.execReplyTimeout s
  | .replySilence => Sys2Proof.Machine.execReplySilence s
  | .linkCharacterError error => Sys2Proof.Machine.execLinkCharacterError error s
  | .sessionReport point => Sys2Proof.Machine.execSessionReport point s
  | .programStart => Sys2Proof.Machine.execProgramStart s
  | .openingProgram outcome => Sys2Proof.Machine.execOpeningProgram outcome s
  | .closingProgram outcome => Sys2Proof.Machine.execClosingProgram outcome s
  | .relocation outcome => Sys2Proof.Machine.execRelocation outcome s
  | .collectProgram outcome => Sys2Proof.Machine.execCollectProgram outcome s
  | .orphanClosing outcome => Sys2Proof.Machine.execOrphanClosing outcome s
  | .eraseSuspend => Sys2Proof.Machine.execEraseSuspend s
  | .eraseComplete outcome => Sys2Proof.Machine.execEraseComplete outcome s
  | .startupScan results => Sys2Proof.Machine.execStartupScan results s
  | .shortFrame port => Sys2Proof.Machine.execShortFrame port s
  | .unknownCommand port code => Sys2Proof.Machine.execUnknownCommand port code s
  | .status port => Sys2Proof.Machine.execStatus port s
  | .readBalance port => Sys2Proof.Machine.execReadBalance port s
  | .readSession port point => Sys2Proof.Machine.execReadSession port point s
  | .readNode port node => Sys2Proof.Machine.execReadNode port node s
  | .readReceipt port number => Sys2Proof.Machine.execReadReceipt port number s
  | .readTime port => Sys2Proof.Machine.execReadTime port s
  | .takeNotice port => Sys2Proof.Machine.execTakeNotice port s
  | .endNotice port => Sys2Proof.Machine.execEndNotice port s
  | .setNoticeMask port enables threshold => Sys2Proof.Machine.execSetNoticeMask port enables threshold s
  | .sendMail port message => Sys2Proof.Machine.execSendMail port message s
  | .readMail port => Sys2Proof.Machine.execReadMail port s
  | .releaseTrip port => Sys2Proof.Machine.execReleaseTrip port s
  | .portReset port => Sys2Proof.Machine.execPortReset port s
  | .setSite port tBal vNom rate tReply => Sys2Proof.Machine.execSetSite port tBal vNom rate tReply s
  | .setLimits port limits => Sys2Proof.Machine.execSetLimits port limits s
  | .renewLimit port => Sys2Proof.Machine.execRenewLimit port s
  | .setBattery port discharge charge socLo socHi => Sys2Proof.Machine.execSetBattery port discharge charge socLo socHi s
  | .setCanopy port rating failsafe => Sys2Proof.Machine.execSetCanopy port rating failsafe s
  | .configurePoint port point kind maximum minimum failsafe => Sys2Proof.Machine.execConfigurePoint port point kind maximum minimum failsafe s
  | .removePoint port node => Sys2Proof.Machine.execRemovePoint port node s
  | .holdPoint port point setting => Sys2Proof.Machine.execHoldPoint port point setting s
  | .setPolicy port policy => Sys2Proof.Machine.execSetPolicy port policy s
  | .setTime port calendar => Sys2Proof.Machine.execSetTime port calendar s
  | .setRetention port retention => Sys2Proof.Machine.execSetRetention port retention s
  | .loadTariff port tariff => Sys2Proof.Machine.execLoadTariff port tariff s
  | .openSession port point customer cls => Sys2Proof.Machine.execOpenSession port point customer cls s
  | .closeSession port point => Sys2Proof.Machine.execCloseSession port point s
  | .pauseSession port point setting => Sys2Proof.Machine.execPauseSession port point setting s
  | .setClass port point cls => Sys2Proof.Machine.execSetClass port point cls s
  | .readNextReceipt port => Sys2Proof.Machine.execReadNextReceipt port s
  | .collectReceipt port number => Sys2Proof.Machine.execCollectReceipt port number s
  | .readNextOrphan port => Sys2Proof.Machine.execReadNextOrphan port s
  | .closeOrphan port number register => Sys2Proof.Machine.execCloseOrphan port number register s
  | .lengthFieldAbove16 => Sys2Proof.Machine.execLengthFieldAbove16 s

end Sys2Proof.Machine
end

