-- ==== Sys2Proof/Machine/Step.lean ====
section
/-! DEFINITION. One step: the command at the front of the queue is taken and run on the rest; with none waiting one
millisecond passes (log entry 5). -/

namespace Sys2Proof.Machine

open Sys2Proof

/-- A timer one millisecond on, held at its end. -/
def tickTo (top n : Nat) : Nat := satAdd top n 1

/-- The erase that runs makes progress up to its erase time (R171). -/
def Erase.passMillisecond (e : Erase) : Erase :=
  { e with progress := tickTo e.time e.progress, sinceResume := tickTo 1200 e.sinceResume }

/-- In STARTING the scan reads on, as many words as a free value says (R173, R178; log entry 46); the erase that runs
makes progress (R171). -/
def Rlg.passMillisecond (r : Rlg) (now : Nat) : Rlg :=
  if r.logState = .starting then r.scanTo (min arrayWords (r.scanPosition + Config.scanRate now))
  else if r.erasing then { r with erase := r.erase.map Erase.passMillisecond }
  else r

/-- The debounce runs while LIMREQ_N holds the level of the opposite line state (R8). -/
def Lsu.passMillisecond (l : Lsu) : Lsu :=
  if lineOf l.limreqLow = l.line then l else { l with debounce := tickTo 20 l.debounce }

/-- The reply timer runs while a reply is awaited (R109). -/
def Flc.passMillisecond (x : Flc) : Flc :=
  match x.exchange with
  | some _ => { x with replyTimer := tickTo x.inForce.tReply x.replyTimer }
  | none => x

/-- One millisecond: the time base and every timer that runs advance (R1, R8, R109, R120, R144, R171, R173). The events
that a timer brings are commands. -/
def State.passMillisecond (s : State) : State :=
  { s with
    cmu := { s.cmu with periodTimer := tickTo s.cmu.periodLength s.cmu.periodTimer }
    lsu := s.lsu.passMillisecond
    flc := s.flc.passMillisecond
    ssu := { s.ssu with timeBase := s.ssu.timeBase + 1 }
    tfu := { s.tfu with secondTimer := tickTo 1000 s.tfu.secondTimer }
    rlg := s.rlg.passMillisecond s.now }

/-- One step of the part. -/
def step (s : State) : Host.Outcome State Fault Refusal :=
  match s.pending with
  | c :: rest => exec c (s.withPending rest)
  | [] => .next s.passMillisecond

/-- The state with the command a table word spells at the front of its queue; unchanged where the word spells none (log
entry 39). -/
def State.withFetchWord (s : State) (nbits w : Nat) : State :=
  match decodeTableWord nbits w with
  | some c => s.withPending (c :: s.pending)
  | none => s

end Sys2Proof.Machine
end

