-- ==== Sys2Proof/WellFormed.lean ====
section
/-! DEFINITION. Which commands can occur: the shape of what comes with an event. The port commands need no check, since
their operands have the widths of R183 and a value out of range is answered by the command's own rule. -/

namespace Sys2Proof

/-- A stretch of no time brings no energy (R2). -/
def Stretch.wellFormed (x : Stretch) : Bool :=
  x.ms != 0 || x.energy == 0

/-- No word and no mark is named twice. -/
def ProgramOutcome.wellFormed (o : ProgramOutcome) : Bool :=
  decide (o.words.map (·.word)).Nodup && decide (o.marks.map (·.mark)).Nodup

/-- A place of the array: 16 × 128 × 16 slot words and 16 headers, the mark words byte by byte (R153). -/
def Residue.wellFormed (r : Residue) : Bool :=
  match r.place with
  | .word w => decide (w < 32784) && !(decide (w < 32768) && w % 16 == 15)
  | .markByte slot _ => decide (slot < 2048)

/-- A program is tried at most three times (R172, R175). -/
def attemptsWellFormed (xs : List ArrayResult) : Bool := decide (xs.length ≤ 3)

/-- A complete reply: start byte, address, kind, length of at most 16, that many payload bytes, two CRC bytes
(R109, R104). -/
def completeReply (bytes : List Byte) : Bool :=
  decide (fieldAt bytes 3 1 ≤ 16) && bytes.length == 6 + fieldAt bytes 3 1

/-- Each command's check. -/
def WellFormed : Instr → Bool
  | .deviceReset left => left.all Residue.wellFormed
  | .frontEndValidity _ _ stretch => stretch.wellFormed
  | .periodClose stretch => stretch.wellFormed
  | .replyReceived bytes => completeReply bytes
  | .openingProgram o => o.wellFormed
  | .closingProgram o => o.wellFormed
  | .relocation o => o.wellFormed
  | .collectProgram o => o.wellFormed
  | .orphanClosing o => o.wellFormed
  | .eraseComplete o => attemptsWellFormed o.attempts
  | .startupScan results =>
    decide (results.map (·.target)).Nodup && results.all (fun x => attemptsWellFormed x.attempts)
  | .unknownCommand _ code => (commandRow code.toNat).isNone
  | .finalWaitExpiry _ => true
  | .limreqNChange _ => true
  | .limitLineEdge => true
  | .secondTick => true
  | .leaseLapse => true
  | .newReading => true
  | .recomputeRequest => true
  | .allocation => true
  | .dwellEnd => true
  | .reductionAcknowledgement _ => true
  | .reductionRequest _ => true
  | .frameSend => true
  | .zeroFrame => true
  | .replyTimeout => true
  | .replySilence => true
  | .linkCharacterError _ => true
  | .sessionReport _ => true
  | .programStart => true
  | .eraseSuspend => true
  | .shortFrame _ => true
  | .status _ => true
  | .readBalance _ => true
  | .readSession _ _ => true
  | .readNode _ _ => true
  | .readReceipt _ _ => true
  | .readTime _ => true
  | .takeNotice _ => true
  | .endNotice _ => true
  | .setNoticeMask _ _ _ => true
  | .sendMail _ _ => true
  | .readMail _ => true
  | .releaseTrip _ => true
  | .portReset _ => true
  | .setSite _ _ _ _ _ => true
  | .setLimits _ _ => true
  | .renewLimit _ => true
  | .setBattery _ _ _ _ _ => true
  | .setCanopy _ _ _ => true
  | .configurePoint _ _ _ _ _ _ => true
  | .removePoint _ _ => true
  | .holdPoint _ _ _ => true
  | .setPolicy _ _ => true
  | .setTime _ _ => true
  | .setRetention _ _ => true
  | .loadTariff _ _ => true
  | .openSession _ _ _ _ => true
  | .closeSession _ _ => true
  | .pauseSession _ _ _ => true
  | .setClass _ _ _ => true
  | .readNextReceipt _ => true
  | .collectReceipt _ _ => true
  | .readNextOrphan _ => true
  | .closeOrphan _ _ _ => true
  | .lengthFieldAbove16 => true

end Sys2Proof
end

