-- ==== Sys2Proof/Safety.lean ====
section
/-! DEFINITION. The terms in which statements about the part are made: which fields of the state a command may change, what
a port was answered, and the invariants of the part. -/

namespace Sys2Proof

/-! ## How the array took a program -/

/-- What reaches word `w` of the slot when `asked` is programmed into it (R153). -/
def ProgramOutcome.wordLeft (o : ProgramOutcome) (w : Nat) (asked : Word64) : Word64 :=
  ((o.words.find? (fun x : WordResult => x.word.val == w)).map (fun x => x.left.value)).getD asked

/-- What reaches a mark byte when 0x00 is programmed into it (R153). -/
def ProgramOutcome.markLeft (o : ProgramOutcome) (m : Mark) : Byte :=
  ((o.marks.find? (fun x : MarkResult => x.mark == m)).map (fun x => x.left.value.truncate 8)).getD 0

/-- What the check code of a mark byte then shows (R153; log entry 10). -/
def ProgramOutcome.markCode (o : ProgramOutcome) (m : Mark) : CheckCode :=
  ((o.marks.find? (fun x : MarkResult => x.mark == m)).map (fun x => x.left.code)).getD .clean

/-- What a word holds after the first `j` attempts at programming `asked` into it erased: the bits every attempt left at
1 (R153, R172). -/
def heldAfter (attempts : List ArrayResult) (asked : Word64) (j : Nat) : Word64 :=
  ((List.range j).map (fun i => (attempts[i]?).elim asked (·.value))).foldl (· &&& ·) (BitVec.allOnes 64)

end Sys2Proof

namespace Sys2Proof.Machine

open Sys2Proof

/-! ## Frames -/

/-- The fields of the state. -/
inductive Field where
  | site
  | cmu
  | lsu
  | bau
  | alu
  | flc
  | ssu
  | tfu
  | rlg
  | noticesS
  | noticesC
  | mail
  | frameErrors
  | replies
  | requests
  | pending
deriving DecidableEq, Repr

/-- The field is the same in both states. -/
def Field.same (s t : State) : Field → Prop
  | .site => t.site = s.site
  | .cmu => t.cmu = s.cmu
  | .lsu => t.lsu = s.lsu
  | .bau => t.bau = s.bau
  | .alu => t.alu = s.alu
  | .flc => t.flc = s.flc
  | .ssu => t.ssu = s.ssu
  | .tfu => t.tfu = s.tfu
  | .rlg => t.rlg = s.rlg
  | .noticesS => t.noticesS = s.noticesS
  | .noticesC => t.noticesC = s.noticesC
  | .mail => t.mail = s.mail
  | .frameErrors => t.frameErrors = s.frameErrors
  | .replies => t.replies = s.replies
  | .requests => t.requests = s.requests
  | .pending => t.pending = s.pending

/-- From `s` to `t` only the listed fields may differ. -/
def State.onlyChanges (fs : List Field) (s t : State) : Prop := ∀ f, f ∉ fs → f.same s t

/-- The notice field of a port. -/
def noticeField : Port → Field
  | .s => .noticesS
  | .c => .noticesC

/-- Every session record but that of the point is the same. -/
def State.otherSessionsSame (p : Point) (s t : State) : Prop := ∀ q, q ≠ p → t.session q = s.session q

/-- Every node entry but that of the node is the same. -/
def State.otherNodesSame (n : Fin 26) (s t : State) : Prop := ∀ m, m ≠ n → t.node m = s.node m

/-- Every node entry but that of the node is the same, sequences aside: a release may hand out values (R91, R95). -/
def State.otherNodesSameButSequences (n : Fin 26) (s t : State) : Prop :=
  ∀ m, m ≠ n → { t.node m with sequence := 0 } = { s.node m with sequence := 0 }

/-- The array has the place: 2,048 slots of 16 words, the sixteenth byte by byte, and 16 headers (R153). -/
def inArray : ArrayPlace → Prop
  | .word w => w < 32784 ∧ ¬(w < 32768 ∧ w % 16 = 15)
  | .markByte slot _ => slot < 2048

/-- Every byte of the array outside a slot reads as before. -/
def State.otherSlotsRead (slot : Nat) (s t : State) : Prop :=
  ∀ a, ¬(slotAddress slot ≤ a ∧ a < slotAddress slot + 128) → t.rlg.readByte a = s.rlg.readByte a

/-- Every byte of the array reads as before. -/
def State.arraySame (s t : State) : Prop := ∀ a, t.rlg.readByte a = s.rlg.readByte a

/-! ## Replies -/

/-- The reply a port holds. -/
def State.replyOf (s : State) : Port → Option Reply
  | .s => s.replies.s
  | .c => s.replies.c

/-- The port was given the reply, the other port's reply stands. -/
def State.answered (p : Port) (r : Reply) (s t : State) : Prop :=
  t.replyOf p = some r ∧ t.replyOf (otherPort p) = s.replyOf (otherPort p)

/-- The reply OK with the CLAMPED flag as given (R181). -/
def okReply (clamped : Bool) (result : List Byte) : Reply := ⟨0x01, if clamped then 1 else 0, result⟩

/-- The reply ACCEPTED (R181). -/
def acceptedReply (result : List Byte) : Reply := ⟨0x02, 0, result⟩

/-- The reply BUSY or REFUSED with a reason code (R181). -/
def deniedReply (status : Status) (reason : Reason) : Reply :=
  ⟨BitVec.ofNat 8 status.code, BitVec.ofNat 8 reason.code, []⟩

/-- The command was turned away: BUSY or REFUSED with its reason, and nothing changed but the reply (R181). -/
def State.turnedAway (p : Port) (status : Status) (reason : Reason) (s t : State) : Prop :=
  s.answered p (deniedReply status reason) t ∧ s.onlyChanges [.replies] t

/-- The command was answered WRONG_PORT, and nothing changed but the reply (R182). -/
def State.answeredWrongPort (p : Port) (s t : State) : Prop :=
  s.answered p ⟨0x05, 0, []⟩ t ∧ s.onlyChanges [.replies] t

/-! ## The bytes of a reply -/

/-- The bytes are the fields of the layout one after the other and no more: each field's width in bytes and its value, least
significant byte first (Conventions; R179). -/
def carries (bytes : List Byte) : List (Nat × Nat) → Prop
  | [] => bytes = []
  | (width, value) :: rest =>
    fieldAt bytes 0 width = value % 256 ^ width ∧ carries (bytes.drop width) rest

/-- A signed 32-bit field in two's complement (Conventions). -/
def signed32 (i : Int) : Nat := (i % 4294967296).toNat

/-- A mark, a flag or a presence byte (R184). -/
def markByte (b : Bool) : Nat × Nat := (1, if b then 1 else 0)

/-- The characters of the field link (R103): a start bit, eight data bits from the least significant on, an even parity bit, a
stop bit; and a frame goes out character by character. -/
structure LinkCharacters : Prop where
  character : ∀ b : Byte, ∃ parity : Bool,
    linkCharacter b =
      [.start, .data (b.getLsbD 0), .data (b.getLsbD 1), .data (b.getLsbD 2), .data (b.getLsbD 3), .data (b.getLsbD 4),
        .data (b.getLsbD 5), .data (b.getLsbD 6), .data (b.getLsbD 7), .parity parity, .stop] ∧
    (((List.range 8).filter (fun i => b.getLsbD i)).length + (if parity then 1 else 0)) % 2 = 0
  frame : linkBits [] = [] ∧ ∀ b rest, linkBits (b :: rest) = linkCharacter b ++ linkBits rest

/-- The codes of R184's table, of the modes and classes (R183, R189) and of the bit rates (R188). -/
structure ReplyCodes : Prop where
  quality : [Quality.good, .saturated, .missing].map Quality.code = [0, 1, 2]
  judgement : [Judgement.unjudged, .clean, .excess, .missing].map Judgement.code = [0, 1, 2, 3]
  line : [Line.released, .asserted].map Line.code = [0, 1]
  lease : [Lease.off, .live, .lapsed].map Lease.code = [0, 1, 2]
  escalation : [Escalation.unconfigured, .normal, .curtail, .shed, .tripped].map Escalation.code = [0, 1, 2, 3, 4]
  staging : [Staging.reducing, .dwelling, .released].map Staging.code = [0, 1, 2]
  kind : [NodeKind.notConfigured, .ac1, .ac3, .dc, .canopy, .battery].map NodeKind.code = [0, 1, 2, 3, 4, 5]
  node : [NodeState.absent, .joining, .online, .lost].map NodeState.code = [0, 1, 2, 3]
  session : [SessionState.free, .opening, .waiting, .charging, .stopped, .done, .closing].map SessionState.code =
    [0, 1, 2, 3, 4, 5, 6]
  tariffSlot : [TariffSlot.current, .previous].map TariffSlot.code = [0, 1]
  reason : [EndReason.customer, .unplugged, .storeFault, .powerLoss].map EndReason.code = [1, 2, 3, 4]
  log : [LogState.starting, .ready, .fault].map LogState.code = [0, 1, 2]
  sector : [SectorState.free, .active, .full, .erasing, .eraseSuspended].map SectorState.code = [0, 1, 2, 3, 4]
  slot : [SlotState.erased, .reserved, .opened, .closed, .collected, .bad, .superseded].map SlotState.code =
    [0, 1, 2, 3, 4, 5, 6]
  integrity : [Integrity.clean, .corrected, .damaged].map integrityCode = [0, 1, 2]
  classes : [SessionClass.standard, .priority].map SessionClass.code = [0, 1]
  mode : [Mode.shared, .priority].map Mode.code = [0, 1]
  rate : [BitRate.b57600, .b115200, .b230400].map BitRate.code = [1, 2, 3]

/-! ## Rules that several statements read -/

/-- R10's table: L_eff for a line state and a lease state. -/
def Lsu.limitFor (l : Lsu) (line : Line) (lease : Lease) : Nat :=
  if lease = .lapsed then min (if line = .asserted then l.lRed else l.lImp) l.lFb
  else if line = .asserted then l.lRed else l.lImp

/-- The margin in force, by R10's table: doubled in CURTAIL (R22). -/
def Lsu.marginFor (l : Lsu) : Nat := if l.esc = .curtail then 2 * l.margin else l.margin

/-- The check limit of the running period when L_eff becomes `e`: only a change of L_eff raises it (R14). -/
def Lsu.checkAfter (l : Lsu) (e : Nat) : Nat := if e = l.lEff then l.checkLimit else max l.checkLimit e

/-- A program of `k` words from word `first` of a slot and then of marks passes its verify: each word and each mark byte
holds what was written, where a program only turns bits from 1 to 0 (R153). -/
structure Rlg.Verifies (r : Rlg) (slot first k : Nat) (bytes : List Byte) (marks : List Mark) (o : ProgramOutcome) :
    Prop where
  words : ∀ i, i < k →
    r.rawWord (16 * slot + (first + i)) &&& o.wordLeft (first + i) (BitVec.ofNat 64 (fieldAt bytes (8 * i) 8)) =
      BitVec.ofNat 64 (fieldAt bytes (8 * i) 8)
  marks : ∀ m ∈ marks, r.rawByte (slotAddress slot + markOffset m) &&& o.markLeft m = 0

/-- A mark has been programmed once: its byte holds the bits that stood there and were left, verified or not, and its own
check code shows what the program left (R153, R160, R162). -/
structure Rlg.MarkTaken (r : Rlg) (slot : Nat) (m : Mark) (o : ProgramOutcome) (t : Rlg) : Prop where
  byte : t.rawByte (slotAddress slot + markOffset m) = r.rawByte (slotAddress slot + markOffset m) &&& o.markLeft m
  code : t.codeAt (slotAddress slot + markOffset m) = o.markCode m

/-- The budget an ALLOCATION takes: the first one that waits, else that of the record in force, which counts for the ages when
it came of a reading (R77; log entry 6). -/
structure State.TakesBudget (s : State) : Prop where
  first : ∀ before b counts after, s.requests = before ++ .budget b counts :: after →
    (∀ x y, Request.budget x y ∉ before) → s.budgetToTake = (b, counts)
  none : (∀ x y, Request.budget x y ∉ s.requests) → s.budgetToTake = (s.bau.record.b, !s.bau.record.recomputed)

/-- The reading a NEW_READING takes: the first one that waits, else the reading record, if a reading exists (log entry
6). -/
structure State.TakesReading (s : State) : Prop where
  first : ∀ before r after, s.requests = before ++ .newReading r :: after →
    (∀ x, Request.newReading x ∉ before) → s.readingToTake = some r
  none : (∀ x, Request.newReading x ∉ s.requests) →
    s.readingToTake = if s.cmu.readingExists then some s.cmu.reading else none

/-- A recompute request is added to the requests between units exactly when a reading exists (R16). -/
def State.asksRecompute (s t : State) : Prop :=
  t.requests = if s.cmu.readingExists then s.requests ++ [.recompute] else s.requests

/-- The lease has lapsed between the two states: LAPSED with count 0, LEASE_LAPSED on port S, L_eff by R10, a recompute
request when L_eff changed and a reading exists (R12). -/
def State.leaseLapsed (s t : State) : Prop :=
  let e := s.lsu.limitFor s.lsu.line .lapsed
  t.lsu = { s.lsu with lease := .lapsed, leaseCount := 0, lEff := e, checkLimit := s.lsu.checkAfter e } ∧
    t.noticesS = s.noticesS.raise 12 [] ∧
    if e = s.lsu.lEff then t.requests = s.requests else s.asksRecompute t

/-- What a judgement acts on in the limit supervisor: escalation state, clean count, grace count, latches (R18). -/
structure MachineState where
  esc : Escalation
  clean : Nat
  grace : Nat
  latchS : Bool
  latchC : Bool
deriving DecidableEq, Repr

/-- The machine as it stands. -/
def Lsu.machine (l : Lsu) : MachineState := ⟨l.esc, l.cleanCount, l.graceCount, l.latchS, l.latchC⟩

/-- The machine after a judgement, as R20, R22, R24, R26, R29 and R30 tabulate it. -/
def Lsu.machineAfter (l : Lsu) (j : Judgement) : MachineState :=
  match l.esc, j with
  | _, .unjudged => l.machine
  | .unconfigured, _ => l.machine
  | .normal, .excess => ⟨.curtail, 0, 0, l.latchS, l.latchC⟩
  | .normal, _ => l.machine
  | .curtail, .excess => ⟨.shed, 0, 0, l.latchS, l.latchC⟩
  | .curtail, .clean =>
    if l.tClear ≤ l.cleanCount + 1 then ⟨.normal, 0, 0, l.latchS, l.latchC⟩
    else { l.machine with clean := min 255 (l.cleanCount + 1) }
  | .curtail, .missing => l.machine
  | .shed, judged =>
    if l.graceCount < l.tGrace then { l.machine with grace := l.graceCount + 1 }
    else
      match judged with
      | .excess => ⟨.tripped, 0, 0, false, false⟩
      | .clean =>
        if l.tClear ≤ l.cleanCount + 1 then ⟨.curtail, 0, 0, l.latchS, l.latchC⟩
        else { l.machine with clean := min 255 (l.cleanCount + 1) }
      | _ => l.machine
  | .tripped, .excess => { l.machine with latchS := false, latchC := false }
  | .tripped, .clean => if l.latchS ∧ l.latchC then ⟨.curtail, 0, 0, false, false⟩ else l.machine
  | .tripped, .missing => l.machine

/-- The failsafe power F_i of a point at a nominal voltage (R36). -/
def Node.lostDraw (n : Node) (vNom : Nat) : Nat :=
  if n.kind = .ac1 then n.sentFailsafe * vNom / 10
  else if n.kind = .ac3 then n.sentFailsafe * 3 * vNom / 10
  else if n.kind = .dc then n.sentFailsafe
  else 0

/-- What a point draws by R36: its report capped at 150,000 W while ONLINE, F_i while LOST with a session, else 0. -/
def State.draws (s : State) (p : Point) : Nat :=
  if (s.node (pointNode p)).state = .online then
    match (s.node (pointNode p)).report with
    | some (.chargePoint _ power _ _ _) => min power 150000
    | _ => 0
  else if (s.node (pointNode p)).state = .lost ∧ (s.session p).state ≠ .free then
    (s.node (pointNode p)).lostDraw s.site.vNom
  else 0

/-- The charge amount of a surplus (R43). -/
def chargeAmount (headroom rest : Int) (demand available : Nat) (gridOk : Bool) : Int :=
  if gridOk then min (headroom - demand) available
  else min (min (headroom - demand) available) (max 0 (-rest - demand))

/-- A record computed in full from a reading, by R42 to R47. -/
structure State.ComputedRecord (s : State) (r : Reading) (recomputed : Bool) (missing : Nat) (x : BalanceRecord) :
    Prop where
  stamp : x.period = r.period ∧ x.recomputed = recomputed ∧ x.esc = s.lsu.esc ∧ x.missing = missing
  rest : x.n = r.pGrid - s.chargerSum + s.batteryPower
  headroom : x.a = s.lsu.lEff - s.lsu.marginFor - x.n - s.lostSum
  demand : x.d = s.demand
  surplus : s.lsu.esc = .normal ∨ s.lsu.esc = .curtail → x.d ≤ x.a →
    x.b = x.d ∧ x.qo = -chargeAmount x.a x.n x.d s.availableCharge s.tfu.gridOk
  shortfall : s.lsu.esc = .normal ∨ s.lsu.esc = .curtail → x.a < x.d →
    x.qo = min (s.availableDischarge : Int) (x.d - x.a) ∧ (x.b : Int) = max 0 (x.a + x.qo)
  shed : s.lsu.esc = .shed ∨ s.lsu.esc = .tripped → x.b = 0 ∧ x.qo = s.availableDischarge
  unconfigured : s.lsu.esc = .unconfigured → x.b = 0 ∧ x.qo = 0
  cap : if s.lsu.limitsValid = true ∧ x.n + x.b - x.qo < -(s.lsu.lExp : Int) then
      (x.cap : Int) = min (s.bau.pPvRat : Int) (max 0 (s.canopyPower - (-(s.lsu.lExp : Int) - (x.n + x.b - x.qo))))
    else x.cap = s.bau.pPvRat
  ratios : x.pvW = min s.canopyPower s.chargerSum ∧
    (x.batW : Int) = min (max s.batteryPower 0) (s.chargerSum - x.pvW) ∧ x.c = s.chargerSum

/-- A record of a MISSING reading at a missing count, from the record in force, by R49 below three and R50 from three
on. -/
structure State.CarriedRecord (s : State) (r : Reading) (recomputed : Bool) (missing : Nat) (x : BalanceRecord) :
    Prop where
  stamp : x.period = r.period ∧ x.recomputed = recomputed ∧ x.esc = s.lsu.esc ∧ x.missing = missing
  held : x.n = s.bau.record.n ∧ x.a = s.bau.record.a
  demand : x.d = s.demand
  budget : x.b =
    if s.lsu.esc = .normal ∨ s.lsu.esc = .curtail then
      if missing < 3 then min s.bau.record.b s.demand else min (min s.bau.record.b s.bau.bSafe) s.demand
    else 0
  order : x.qo = if missing < 3 ∧ s.lsu.esc ≠ .unconfigured then s.bau.record.qo else 0
  cap : x.cap = if s.lsu.esc = .unconfigured then s.bau.pPvRat else min s.bau.record.cap s.bau.pPvRat
  heldRatios : missing < 3 → x.pvW = s.bau.record.pvW ∧ x.batW = s.bau.record.batW ∧ x.c = s.bau.record.c
  freshRatios : 3 ≤ missing → x.pvW = min s.canopyPower s.chargerSum ∧
    (x.batW : Int) = min (max s.batteryPower 0) (s.chargerSum - x.pvW) ∧ x.c = s.chargerSum

/-- An ALL-ZERO request has been made between the two states (R25, R94, R108): values to send, targets and sent values 0, a
pending mark for every fall on an ONLINE node, K unchanged. That a RELEASED set stays RELEASED, and a set still staging is
REDUCING while a mark is pending, is log entry 18. -/
structure State.ZeroedInto (s t : State) : Prop where
  broadcast : t.flc.broadcastPending = true
  kept : t.alu = { s.alu with
    points := t.alu.points, set := { s.alu.set with entries := t.alu.set.entries }, staging := t.alu.staging }
  staging : t.alu.staging =
    if s.alu.staging ≠ .released ∧ ∃ p : Point, t.alu.points[p].pendingReduction = true then .reducing
    else s.alu.staging
  points : ∀ p : Point,
    t.alu.points[p].value = 0 ∧
      t.alu.points[p].power = (if s.alu.points[p].value = 0 then s.alu.points[p].power else 0) ∧
      t.alu.points[p].pendingReduction =
        (s.alu.points[p].pendingReduction || (s.online p && decide (0 < s.alu.points[p].value)))
  entries : ∀ p : Point, t.alu.set.entries[p] =
    { s.alu.set.entries[p] with
      target := 0, power := 0, mark := if 0 < (s.node (pointNode p)).sentValue then .reduction else .unchanged }
  chargers : ∀ p : Point,
    let x := s.node (pointNode p)
    t.node (pointNode p) =
      { x with
        sequence := x.sequence + (if s.alu.points[p].value = 0 then 0 else 1)
        sentValue := if x.state = .absent then x.sentValue else 0
        sentPower := if x.state = .absent then x.sentPower else 0 }
  others : ∀ n : Fin 26, 24 ≤ n.val → t.node n = s.node n

/-- The allocator has released the raises of its set in force, and has changed nothing else (R91). An entry whose node has left
ONLINE since the formation is passed over (log entry 17). -/
structure Alu.Released (a : Alu) (online : Point → Bool) (b : Alu) : Prop where
  kept : b = { a with points := b.points, staging := b.staging, k := b.k }
  staging : b.staging = .released
  committed : b.k = a.set.budget
  values : ∀ p : Point,
    let x := a.set.entries[p]
    let old := a.points[p]
    b.points[p] =
      if x.mark = .raised ∧ x.leftOnline = false ∧ x.target ≠ old.value then
        { value := x.target
          power := x.power
          pendingReduction := old.pendingReduction || (decide (x.target < old.value) && online p) }
      else old

/-- The raises of the set in force have been released between the two states, and nothing else of the allocator and of the
link has changed but the sequences of the values handed out (R91, R108). -/
structure State.ReleasedInto (s t : State) : Prop where
  alu : s.alu.Released s.online t.alu
  link : t.flc = { s.flc with nodes := t.flc.nodes }
  others : ∀ n : Fin 26, 24 ≤ n.val → t.node n = s.node n
  sequences : ∀ p : Point, t.node (pointNode p) =
    if t.alu.points[p].value = s.alu.points[p].value then s.node (pointNode p)
    else { s.node (pointNode p) with sequence := (s.node (pointNode p)).sequence + 1 }

/-- The allocator after a point's node has left ONLINE, before the staging test: value to send 0, no mark, no acknowledgement
(R89, R95; log entry 17). -/
def Alu.without (a : Alu) (p : Point) : Alu :=
  { a with
    points := a.points.set p
      { value := 0, power := if a.points[p].value = 0 then a.points[p].power else 0, pendingReduction := false }
    set := { a.set with entries := a.set.entries.set p { a.set.entries[p] with leftOnline := true } } }

/-- A point's node has left ONLINE between the two states and the staging test has been made (R89, R90, R95): the point drops
out without starting a dwell, and a set not yet RELEASED waits for the other marks, then for a dwell that runs, else its
raises are released. -/
structure State.LeftOnline (s : State) (p : Point) (t : State) : Prop where
  released : s.alu.staging = .released → t.alu = s.alu.without p
  reducing : s.alu.staging ≠ .released → (∃ q : Point, q ≠ p ∧ s.alu.points[q].pendingReduction = true) →
    t.alu = { s.alu.without p with staging := .reducing }
  dwelling : s.alu.staging ≠ .released → (∀ q : Point, q ≠ p → s.alu.points[q].pendingReduction = false) →
    s.alu.dwellOver = false → ∀ ack, s.alu.lastAck = some ack → s.now < ack + s.alu.dwellLength →
      t.alu = { s.alu.without p with staging := .dwelling }
  raised : s.alu.staging ≠ .released → (∀ q : Point, q ≠ p → s.alu.points[q].pendingReduction = false) →
    (s.alu.dwellOver = true ∨ ∀ ack ∈ s.alu.lastAck, ack + s.alu.dwellLength ≤ s.now) →
      (s.alu.without p).Released s.online t.alu
  sequences : ∀ q : Point, (t.node (pointNode q)).sequence = (s.node (pointNode q)).sequence +
    (if t.alu.points[q].value = s.alu.points[q].value then 0 else 1)
  others : ∀ n : Fin 26, 24 ≤ n.val → t.node n = s.node n

/-- The groups of the admission list put in order, with the runner of the fairness swap: when NORMAL, the first of group 3
has waited T_fair and the first of group 2 has charged T_run, the two change places, the runner last in group 3 (R79,
R80). -/
def State.listOf (s : State) (g1 g2 g3 : List Point) : List Point × Option Point :=
  match g2, g3 with
  | r :: rs, w :: ws =>
    if s.lsu.esc = .normal ∧ s.alu.tFair ≤ (s.session w).waitCount ∧ s.alu.tRun ≤ (s.session r).grantAge then
      (g1 ++ (w :: rs) ++ (ws ++ [r]), some r)
    else (g1 ++ g2 ++ g3, none)
  | _, _ => (g1 ++ g2 ++ g3, none)

/-- What R79 asks of a session's node: it is ONLINE and its latest request is not 0. -/
def State.asksPower (s : State) (p : Point) : Bool :=
  decide ((s.node (pointNode p)).state = .online ∧ (s.node (pointNode p)).request ≠ 0)

/-- The three groups of the admission list (R79, R83): who stands in each and in which order. Equal receipt numbers, which
only numbers past the greatest one could give (log entry 13), stand in point order. -/
structure State.Groups (s : State) (g1 g2 g3 : List Point) : Prop where
  first : ∀ p, p ∈ g1 ↔ s.asksPower p = true ∧ (s.session p).cls = .priority ∧
    ((s.session p).state = .charging ∨ (s.session p).state = .waiting ∧ s.lsu.esc ≠ .curtail)
  firstOrder : g1.Pairwise (fun p q => (s.session p).number < (s.session q).number ∨
    (s.session p).number = (s.session q).number ∧ p < q)
  second : ∀ p, p ∈ g2 ↔
    s.asksPower p = true ∧ (s.session p).cls = .standard ∧ (s.session p).state = .charging
  secondOrder : g2.Pairwise (fun p q => (s.session q).grantAge < (s.session p).grantAge ∨
    (s.session p).grantAge = (s.session q).grantAge ∧
      ((s.session p).number < (s.session q).number ∨ (s.session p).number = (s.session q).number ∧ p < q))
  third : g3 = if s.lsu.esc = .curtail then [] else s.alu.queue.filter (fun p =>
    s.asksPower p && decide ((s.session p).cls = .standard ∧ (s.session p).state = .waiting))

/-- A group of sessions has been shared against a power (R84): every one at its ceiling when the ceilings fit, else each
at clamp(w × λ, m, c) for the largest λ whose shares fit. -/
structure State.SharedAgainst (s : State) (w : Point → Nat) (ps : List Point) (b : Nat) (grant : Point → Nat) :
    Prop where
  ceilings : (ps.map s.shareCeiling).sum ≤ b → ∀ p ∈ ps, grant p = s.shareCeiling p
  level : b < (ps.map s.shareCeiling).sum →
    ∃ level : Nat,
      (ps.map (fun p => max (s.minPower p) (min (s.shareCeiling p) (w p * level)))).sum ≤ b ∧
      (∀ x, (ps.map (fun p => max (s.minPower p) (min (s.shareCeiling p) (w p * x)))).sum ≤ b → x ≤ level) ∧
      ∀ p ∈ ps, grant p = max (s.minPower p) (min (s.shareCeiling p) (w p * level))

/-- A charge point's set point in its own steps as a power, by the kind's formula (Conventions, Currents and set
points). -/
def State.wattsOf (s : State) (p : Point) (value : Nat) : Nat :=
  if (s.node (pointNode p)).kind = .ac1 then value * s.site.vNom / 10
  else if (s.node (pointNode p)).kind = .ac3 then value * 3 * s.site.vNom / 10
  else if (s.node (pointNode p)).kind = .dc then 100 * value
  else 0

/-- The node is a charge point's, of a kind a charge point can have, or NONE (R98). -/
def State.chargerNode (s : State) (n : Fin 26) : Prop :=
  n.val < 24 ∧ (s.node n).kind ≠ .canopy ∧ (s.node n).kind ≠ .battery

/-- The node the round polls now (R104, R106): a round runs between exchanges, no ZERO frame is due first, and the node is
the first one from the next node to consider on that is not ABSENT. -/
structure Flc.Polls (x : Flc) (n : Fin 26) : Prop where
  running : x.running = true
  idle : x.exchange = none
  noZero : x.broadcastPending = false
  reached : x.nextNode ≤ n.val
  enrolled : x.nodes[n].state ≠ .absent
  first : ∀ m : Fin 26, x.nextNode ≤ m.val → m < n → x.nodes[m].state = .absent

/-- The round has gone on between the two (R106; log entry 15): to the first node from the next one on that is not ABSENT;
past node 25 the round ends, and with a start pending a new one begins at node 0 with the held link settings. -/
structure Flc.RoundMoved (before after : Flc) : Prop where
  noRound : before.running = false →
    after.running = false ∧ after.startPending = before.startPending ∧ after.inForce = before.inForce
  goesOn : before.running = true → ∀ n : Fin 26, before.nextNode ≤ n.val → before.nodes[n].state ≠ .absent →
    (∀ m : Fin 26, before.nextNode ≤ m.val → m < n → before.nodes[m].state = .absent) →
      after.running = true ∧ after.nextNode = n.val ∧ after.startPending = before.startPending ∧
        after.inForce = before.inForce
  ends : before.running = true → (∀ n : Fin 26, before.nextNode ≤ n.val → before.nodes[n].state = .absent) →
    before.startPending = false →
      after.running = false ∧ after.startPending = false ∧ after.inForce = before.inForce
  restarts : before.running = true → (∀ n : Fin 26, before.nextNode ≤ n.val → before.nodes[n].state = .absent) →
    before.startPending = true →
      after.startPending = false ∧ after.inForce = before.held ∧
      ((∀ n : Fin 26, before.nodes[n].state = .absent) → after.running = false) ∧
      ∀ n : Fin 26, before.nodes[n].state ≠ .absent → (∀ m : Fin 26, m < n → before.nodes[m].state = .absent) →
        after.running = true ∧ after.nextNode = n.val

/-- An exchange has ended and its round goes on (R106). -/
structure Flc.ExchangeEnded (before after : Flc) : Prop where
  idle : after.exchange = none
  kept : after.held = before.held ∧ after.overruns = before.overruns ∧
    after.broadcastPending = before.broadcastPending ∧ after.line = before.line
  round : before.RoundMoved after

/-- The exchange with the node has ended with a miss (R110, R113, R114); the third in a row loses a node that was ONLINE, and
of a charge point the allocator and the session learn it (R73, R95). -/
structure State.MissTaken (s : State) (n : Fin 26) (error : Bool) (t : State) : Prop where
  ended : s.flc.ExchangeEnded t.flc
  entry : t.node n = { s.node n with
    misses := min 3 ((s.node n).misses + 1)
    frameErrors := if error then min 255 ((s.node n).frameErrors + 1) else (s.node n).frameErrors
    state := if (s.node n).state = .online ∧ 2 ≤ (s.node n).misses then .lost else (s.node n).state
    sequence := (t.node n).sequence }
  others : s.otherNodesSameButSequences n t
  stays : ¬((s.node n).state = .online ∧ 2 ≤ (s.node n).misses) →
    t.noticesS = s.noticesS ∧ t.noticesC = s.noticesC ∧ t.alu = s.alu ∧ t.ssu = s.ssu ∧
      (t.node n).sequence = (s.node n).sequence ∧ s.otherNodesSame n t
  lost : (s.node n).state = .online ∧ 2 ≤ (s.node n).misses →
    t.noticesS = s.noticesS.raise 10 [n.val] ∧ t.noticesC = s.noticesC.raise 10 [n.val] ∧
      (24 ≤ n.val → t.alu = s.alu ∧ t.ssu = s.ssu ∧ (t.node n).sequence = (s.node n).sequence ∧ s.otherNodesSame n t) ∧
      ∀ p : Point, pointNode p = n →
        s.LeftOnline p t ∧ s.otherSessionsSame p t ∧ t.ssu.timeBase = s.ssu.timeBase ∧
        t.session p = { s.session p with
          nodeLostSeen := (s.session p).nodeLostSeen || decide ((s.session p).state ≠ .free) }

/-- A valid REPORT of a node has been taken in (R111, R112). -/
structure State.ReportTaken (s : State) (n : Fin 26) (echo : Byte) (report : Report) (t : State) : Prop where
  ended : s.flc.ExchangeEnded t.flc
  entry : t.node n =
    { s.node n with
      report := some report, lastEcho := some echo, misses := 0, replyCount := (s.node n).replyCount + 1
      state := if (s.node n).state = .joining ∨ (s.node n).state = .lost then .online else (s.node n).state }
  others : s.otherNodesSame n t
  notice : t.noticesS =
    if (s.node n).state = .joining ∨ (s.node n).state = .lost then s.noticesS.raise 2 [n.val] else s.noticesS
  handed : ∀ p : Point, pointNode p = n →
    t.requests = s.requests ++ [.reportToAllocator p echo report, .reportToSession p echo report]
  kept : 24 ≤ n.val → t.requests = s.requests

/-- The bytes of a complete reply fail one of R110's checks 5 to 7, or its first byte is no start byte (check 4), in the
exchange with a node. -/
def replyFails (x : Exchange) (bytes : List Byte) : Prop :=
  byteAt bytes 0 ≠ 0xC5 ∨
  wordAt bytes (bytes.length - 2) ≠ crc16 ((bytes.drop 1).take (bytes.length - 3)) ∨
  byteAt bytes 1 ≠ BitVec.ofNat 8 x.node.val ∨ byteAt bytes 2 ≠ 0x20 ∨ x.kindChanged = true ∨
  (x.node.val < 24 ∧
    (byteAt bytes 4 ≠ 1 ∨ byteAt bytes 3 ≠ 16 ∨ (byteAt bytes 18 ≠ 0 ∧ byteAt bytes 18 ≠ 1))) ∨
  (x.node = 24 ∧ (byteAt bytes 4 ≠ 2 ∨ byteAt bytes 3 ≠ 11)) ∨
  (x.node = 25 ∧ (byteAt bytes 4 ≠ 3 ∨ byteAt bytes 3 ≠ 9))

/-- The exchange in progress, with a mark set when it is with the node (R102, R117). -/
def Flc.exchangeMarked (x : Flc) (n : Fin 26) (mark : Exchange → Exchange) : Option Exchange :=
  x.exchange.map (fun e => if e.node = n then mark e else e)

/-- WAITING, CHARGING, STOPPED or DONE: the states of R64, R67 and R68. -/
def Session.running (x : Session) : Prop :=
  x.state = .waiting ∨ x.state = .charging ∨ x.state = .stopped ∨ x.state = .done

/-- The session has left WAITING or CHARGING for a state without power: its point is out of the queue, and from CHARGING a
reduction to 0 has been asked for (R62, R66, R69). -/
structure State.Withdrawn (s : State) (p : Point) (t : State) : Prop where
  queue : t.alu.queue = if (s.session p).state = .waiting then s.alu.queue.filter (fun q => q != p) else s.alu.queue
  request : t.requests = if (s.session p).state = .charging then s.requests ++ [.reduction p] else s.requests

/-- A close of the point's session has started with the end reason (R69). -/
structure State.CloseStarted (s : State) (p : Point) (reason : EndReason) (t : State) : Prop where
  record : t.session p = { s.session p with
    state := .closing, grant := 0, pendingClose := none, ending := some ⟨reason, s.tfu.calendar⟩
    finalWait := some 0 }
  withdrawn : s.Withdrawn p t
  others : s.otherSessionsSame p t

/-- The plausibility limit of R123 for the point's next report. -/
def State.reportLimit (s : State) (p : Point) : Nat :=
  let elapsed := match (s.session p).lastReport with
    | some t => min 4294967295 (s.now - t)
    | none => s.site.tBal
  ((s.node (pointNode p)).rating s.site.vNom * elapsed + 3599999) / 3600000 + 2

/-- A part of a delta in mWh, by the weight of its source (R128). -/
def share (delta weight c : Nat) : Nat := if c = 0 then 0 else 1000 * delta * weight / c

/-- The band a schedule gives at a minute of day (R142): that of the switch point with the greatest minute not above it; when
it is below every switch point, that of the last one. -/
def bandIs (schedule : List SwitchPoint) (minute : Nat) (b : Fin 4) : Prop :=
  ∃ q ∈ schedule, q.band = b ∧
    (q.minute ≤ minute ∧ (∀ r ∈ schedule, r.minute ≤ minute → r.minute ≤ q.minute) ∨
      (∀ r ∈ schedule, minute < r.minute) ∧ ∀ r ∈ schedule, r.minute ≤ q.minute)

/-- The band of a session's delta (R127): the one in force at the present minute of day in the session's own edition, the
edition of its number in the tariff slot that its record names (R140). -/
def State.deltaBandIs (s : State) (x : Session) (b : Fin 4) : Prop :=
  ∃ h, s.tfu.slot x.tariffSlot = some h ∧ h.edition.number = x.edition ∧
    bandIs h.edition.schedule (s.tfu.calendar.toNat % 86400 / 60) b

/-- The session's edition stands in the slot its record names, its schedule is what R138 admits, and the calendar is
valid: what R127 and R140 say of every open session. -/
def State.bandKnown (s : State) (x : Session) : Prop :=
  s.tfu.calendarValid = true ∧
    ∃ h, s.tfu.slot x.tariffSlot = some h ∧ h.edition.number = x.edition ∧
      h.edition.schedule ≠ [] ∧ (h.edition.schedule.map (·.minute)).Pairwise (· < ·)

/-- What a report's delta does to a session's accounts (R121 to R129). -/
structure State.DeltaTaken (s : State) (p : Point) (register : Word32) (t : State) : Prop where
  setAside : 2147483648 ≤ (register - (s.session p).lastMeter).toNat ∨
      4294967295 < ((s.session p).lastMeter - (s.session p).meterStart).toNat +
        (register - (s.session p).lastMeter).toNat →
    (t.session p).accounts = (s.session p).accounts ∧ (t.session p).disputed = (s.session p).disputed ∧
      (t.session p).lastMeter = (s.session p).lastMeter ∧ (t.session p).lastReport = (s.session p).lastReport ∧
      (t.session p).meterSuspect = true
  implausible : (register - (s.session p).lastMeter).toNat < 2147483648 →
    ((s.session p).lastMeter - (s.session p).meterStart).toNat + (register - (s.session p).lastMeter).toNat ≤
      4294967295 →
    s.reportLimit p < (register - (s.session p).lastMeter).toNat →
      (t.session p).accounts = (s.session p).accounts ∧
      (t.session p).disputed = (s.session p).disputed + (register - (s.session p).lastMeter).toNat ∧
      (t.session p).lastMeter = register ∧ (t.session p).lastReport = some s.now ∧ (t.session p).meterSuspect = true
  plausible : (register - (s.session p).lastMeter).toNat < 2147483648 →
    ((s.session p).lastMeter - (s.session p).meterStart).toNat + (register - (s.session p).lastMeter).toNat ≤
      4294967295 →
    (register - (s.session p).lastMeter).toNat ≤ s.reportLimit p →
      let delta := (register - (s.session p).lastMeter).toNat
      let b := s.tfu.deltaBand (s.session p)
      let pv := share delta s.bau.record.pvW s.bau.record.c
      let bat := share delta s.bau.record.batW s.bau.record.c
      let grid := 1000 * delta - pv - bat
      let old := (s.session p).accounts
      (s.bandKnown (s.session p) → s.deltaBandIs (s.session p) b) ∧
      (t.session p).lastMeter = register ∧ (t.session p).lastReport = some s.now ∧
      (old.pv[b] + pv ≤ 4294967295 ∧ old.bat[b] + bat ≤ 4294967295 ∧ old.grid[b] + grid ≤ 4294967295 →
        (t.session p).accounts =
          ⟨old.pv.set b (old.pv[b] + pv), old.bat.set b (old.bat[b] + bat), old.grid.set b (old.grid[b] + grid)⟩ ∧
        (t.session p).disputed = (s.session p).disputed ∧
        (t.session p).meterSuspect = (s.session p).meterSuspect) ∧
      (¬(old.pv[b] + pv ≤ 4294967295 ∧ old.bat[b] + bat ≤ 4294967295 ∧ old.grid[b] + grid ≤ 4294967295) →
        (t.session p).accounts = old ∧ (t.session p).disputed = (s.session p).disputed + delta ∧
        (t.session p).meterSuspect = true)

/-- Check 1 of R138 fails: the edition number is 0 or stands in a slot. -/
def tariffNumberBad (u : Tfu) (x : TariffOperand) : Prop :=
  x.edition = 0 ∨ (∃ h, u.current = some h ∧ h.edition.number = x.edition) ∨
    ∃ h, u.previous = some h ∧ h.edition.number = x.edition

/-- Check 2 of R138 fails: a permission is neither 0 nor 1. -/
def tariffPermissionBad (x : TariffOperand) : Prop :=
  ∃ b ∈ x.bands.toList, b.permission ≠ 0 ∧ b.permission ≠ 1

/-- Check 3 of R138 fails: not 1 to 8 switch points, or a minute, a band or the order of the minutes is wrong. -/
def tariffScheduleBad (x : TariffOperand) : Prop :=
  x.count.toNat = 0 ∨ 8 < x.count.toNat ∨
    (∃ q ∈ x.places.toList.take x.count.toNat, 1439 < q.minute.toNat ∨ 3 < q.band.toNat) ∨
    ¬((x.places.toList.take x.count.toNat).map (fun q => q.minute.toNat)).Pairwise (· < ·)

/-- Check 4 of R138 fails: PREVIOUS holds an edition some session refers to. -/
def previousReferenced (u : Tfu) : Prop := ∃ h, u.previous = some h ∧ h.refs ≠ 0

/-! ## The receipt log -/

/-- A reservation can be made at the slot (R155, R158). -/
def Rlg.canReserve (r : Rlg) (slot : Nat) : Prop := 0 < r.erasedCount ∧ r.fill = some slot

/-- A slot is erasable by its own state (R170): BAD, SUPERSEDED, or COLLECTED with a number outside the retention
window. -/
def Rlg.slotIsDone (r : Rlg) (slot : Nat) : Prop :=
  r.slotState slot = .bad ∨ r.slotState slot = .superseded ∨
    r.slotState slot = .collected ∧ ∀ n, r.numberOf slot = some n → ¬(r.nextNumber ≤ n + r.rRet ∧ n < r.nextNumber)

/-- The state of a sector once the slot at the fill position has been reserved: with slot 127 the ACTIVE sector becomes FULL
and its ring successor, if FREE, ACTIVE (R155). -/
def Rlg.sectorAfter (r : Rlg) (slot : Nat) (k : Fin 16) : SectorState :=
  if slot % 128 ≠ 127 then r.sectors[k]
  else if k = r.lastActive then .full
  else if k = r.lastActive + 1 ∧ r.sectors[k] = .free then .active
  else r.sectors[k]

/-- Between the two logs the slot at the fill position was reserved and the fill position moved on (R155, R158). An erase
may have started or resumed in the same event (R170, R171). -/
structure Rlg.FillMoved (r : Rlg) (slot : Nat) (t : Rlg) : Prop where
  fill : t.fill =
    if slot % 128 ≠ 127 then some (slot + 1)
    else if r.sectors[r.lastActive + 1] = .free then some (128 * (r.lastActive + 1).val)
    else none
  last : t.lastActive =
    if slot % 128 = 127 ∧ r.sectors[r.lastActive + 1] = .free then r.lastActive + 1 else r.lastActive
  sectors : ∀ k, t.sectors[k] = r.sectorAfter slot k ∨
    t.sectors[k] = .erasing ∧ (r.sectorAfter slot k = .full ∨ r.sectorAfter slot k = .eraseSuspended)

/-- How many words of a check-code result the start-up scan reads between its position and a place of its order: headers,
and slots outside the interrupted erases (R166, R174). -/
def Rlg.passedWords (r : Rlg) (place : Nat) (x : Integrity) : Nat :=
  ((List.range 32784).filter (fun w =>
    decide (r.code w = x) && decide (r.scanPosition ≤ scanPlace w) && decide (scanPlace w < place) &&
      (decide (32768 ≤ w) || !r.interrupted (slotSector (w / 16))))).length

/-- What an idle millisecond makes of the receipt log: in STARTING the scan reads on by a free number of words and counts
those that do not read CLEAN (R166, R173, R178; log entry 46); else an erase that runs makes progress up to its erase time
(R171; log entry 24). -/
structure Rlg.MillisecondPassed (r : Rlg) (now : Nat) (t : Rlg) : Prop where
  scans : r.logState = .starting →
    let place := max r.scanPosition (min 32784 (r.scanPosition + Config.scanRate now))
    let single := r.passedWords place .corrected
    let double := r.passedWords place .damaged
    t = { r with
      scanPosition := place
      secCount := if single = 0 then r.secCount else min 65535 (r.secCount + single)
      dedCount := if double = 0 then r.dedCount else min 65535 (r.dedCount + double) }
  erases : r.logState ≠ .starting → ∀ e, r.erase = some e → r.sectors[e.sector] = .erasing → r.logState ≠ .fault →
    t = { r with erase := some { e with
      progress := min e.time (e.progress + 1), sinceResume := min 1200 (e.sinceResume + 1) } }
  rests : r.logState ≠ .starting →
    (∀ e, r.erase = some e → r.sectors[e.sector] ≠ .erasing ∨ r.logState = .fault) → t = r

/-- The log with a request that has joined the queue: an erase that runs and has less than 20 ms of its time remaining is
to complete first (R159, R171). -/
def Rlg.afterJoin (r : Rlg) (q : ProgramRequest) : Rlg :=
  { r with
    queue := r.queue ++ [q]
    erase := r.erase.map (fun e =>
      if r.sectors[e.sector] = .erasing ∧ r.logState ≠ .fault then
        { e with completesFirst := e.completesFirst || decide (e.time < e.progress + 20) }
      else e) }

/-- An erase of the sector is due (R170): the log READY, no erase in progress, the erased count below 256, the sector the
oldest FULL one and every slot of it done. -/
def Rlg.isDue (r : Rlg) (k : Fin 16) : Prop :=
  r.logState = .ready ∧ r.erase = none ∧ r.erasedCount < 256 ∧ r.oldestFull = some k ∧
    ∀ i, i < 128 → r.slotIsDone (128 * k.val + i)

/-- The log as the erase test leaves it (R170): the space-low mark says that the erased count is below 256 with no erase
in progress or about to start, and with an empty queue no erase is still due. -/
structure Rlg.Tested (r : Rlg) : Prop where
  mark : r.spaceLow = true ↔
    r.erasedCount < 256 ∧ (r.erase = none ∨ r.logState = .fault) ∧ ∀ k, ¬r.isDue k
  started : r.queue = [] → ∀ k, ¬r.isDue k

/-- An event of R170's list lies between the two logs: a reservation, a slot that becomes COLLECTED, BAD or SUPERSEDED, the
completion of an erase, the queue becoming empty, the end of the scan. -/
def Rlg.testEvent (r t : Rlg) : Prop :=
  t.fill ≠ r.fill ∨
  (∃ slot, t.slotState slot ≠ r.slotState slot ∧
    (t.slotState slot = .collected ∨ t.slotState slot = .bad ∨ t.slotState slot = .superseded)) ∨
  (r.erase ≠ none ∧ t.erase = none) ∨
  (r.queue ≠ [] ∧ t.queue = []) ∨
  (r.logState = .starting ∧ t.logState ≠ .starting)

/-- A word gives a value to the scan: it reads neither erased nor DAMAGED (R175). -/
def Rlg.givesValue (r : Rlg) (w : Nat) : Bool := !r.wordErased w && r.code w != .damaged

/-- The value of one of a slot's number words: word 0, word 3 or the number check of word 14 (R156, R175). -/
def Rlg.numberIn (r : Rlg) (slot word : Nat) : Nat :=
  leNat (r.readBytes (slotAddress slot + (if word = 0 then 0 else if word = 3 then 24 else 114)) 4)

/-- The receipt number of a slot: that of word 0, word 3 or word 14, the first of them that gives one (R174). -/
def Rlg.numberRead (r : Rlg) (slot : Nat) : Option Nat :=
  (([0, 3, 14].filter (fun w => r.givesValue (16 * slot + w))).map (r.numberIn slot)).head?

/-- The value of a sector's header (R153, R175). -/
def Rlg.headerHolds (r : Rlg) (k : Fin 16) : Nat := leNat (r.readBytes (headerAddress k) 4)

/-- The number is a value that takes part in the scan's maximum: of a number word of a slot read, or of a header (R175). -/
def Rlg.takesPart (r : Rlg) (n : Nat) : Prop :=
  (∃ slot, slot < 2048 ∧ r.interrupted (slotSector slot) = false ∧
    ∃ w, (w = 0 ∨ w = 3 ∨ w = 14) ∧ r.givesValue (16 * slot + w) = true ∧ n = r.numberIn slot w) ∨
  ∃ k : Fin 16, r.givesValue (32768 + k.val) = true ∧ n = r.headerHolds k

/-- A slot read that has a number word reading DAMAGED and none giving a value (R175). -/
def Rlg.numberLost (r : Rlg) (slot : Nat) : Bool :=
  !r.interrupted (slotSector slot) && [0, 3, 14].any (fun w => r.code (16 * slot + w) == .damaged) &&
    [0, 3, 14].all (fun w => !r.givesValue (16 * slot + w))

/-- The skip of R175: 24, one for each slot whose number is lost, 128 for each interrupted erase. -/
def Rlg.skipIs (r : Rlg) : Nat :=
  24 + ((List.range 2048).filter r.numberLost).length +
    128 * ((List.ofFn (id : Fin 16 → Fin 16)).filter r.interrupted).length

/-- The slot's marks are those of an OPENED slot: opened set, every other one clear (R174). -/
def Rlg.openedByMarks (r : Rlg) (slot : Nat) : Prop :=
  r.markSet slot .bad = false ∧ r.markSet slot .superseded = false ∧ r.markSet slot .opened = true ∧
    r.markSet slot .closed = false ∧ r.markSet slot .collected = false

/-- A relocated slot sets its origin aside (R174; log entry 48): found CLOSED or COLLECTED with relocation mark 1, it names
a slot read that holds the same number and is OPENED by its marks. -/
structure Rlg.SetsAside (r : Rlg) (new origin : Nat) : Prop where
  slots : new < 2048 ∧ origin < 2048
  read : r.interrupted (slotSector new) = false ∧ r.interrupted (slotSector origin) = false
  closed : r.markSet new .bad = false ∧ r.markSet new .superseded = false ∧ r.markSet new .opened = true ∧
    r.markSet new .closed = true
  relocated : r.readByte (slotAddress new + 42) = 1
  names : leNat (r.readBytes (slotAddress new + 112) 2) = origin
  opened : r.openedByMarks origin
  number : ∃ n, r.numberRead new = some n ∧ r.numberRead origin = some n

/-- The state of a slot read, by its marks and words (R174), but for a slot with every word erased. An OPENED slot whose
number words all read erased is BAD by log entry 51. -/
structure Rlg.Classified (r : Rlg) (slot : Nat) (x : SlotState) : Prop where
  bad : r.markSet slot .bad = true → x = .bad
  superseded : r.markSet slot .bad = false → r.markSet slot .superseded = true → x = .superseded
  wrongMarks : r.markSet slot .bad = false → r.markSet slot .superseded = false →
    r.markSet slot .closed = true ∧ r.markSet slot .opened = false ∨
      r.markSet slot .collected = true ∧ (r.markSet slot .opened = false ∨ r.markSet slot .closed = false) →
    x = .bad
  closed : r.markSet slot .bad = false → r.markSet slot .superseded = false → r.markSet slot .opened = true →
    r.markSet slot .closed = true →
      x = if r.numberRead slot = none then .bad else if r.markSet slot .collected then .collected else .closed
  setAside : r.openedByMarks slot → (∃ new, r.SetsAside new slot) → x = .superseded
  opened : r.openedByMarks slot → (¬∃ new, r.SetsAside new slot) →
    x = if (∃ i : Fin 4, r.code (16 * slot + i.val) = .damaged) ∨ r.numberRead slot = none then .bad else .opened
  noMarks : (∀ m, r.markSet slot m = false) → (∃ w : Fin 16, r.wordErased (16 * slot + w.val) = false) → x = .bad

/-- Every word of every slot of the sector reads erased, so every slot is ERASED (R174). -/
def Rlg.isEmpty (r : Rlg) (k : Fin 16) : Prop :=
  ∀ (i : Fin 128) (w : Fin 16), r.wordErased (16 * (128 * k.val + i.val) + w.val) = true

/-- The sector was erased last (log entry 41): around the ring from the sector after it the headers that give a value never
fall, and it holds more than one of them, or it is sector 15. -/
structure Rlg.ErasedLast (r : Rlg) (last : Fin 16) : Prop where
  reads : r.givesValue (32768 + last.val) = true
  rising : ∀ i j : Fin 16, i ≤ j →
    r.givesValue (32768 + (last + 1 + i).val) = true → r.givesValue (32768 + (last + 1 + j).val) = true →
      r.headerHolds (last + 1 + i) ≤ r.headerHolds (last + 1 + j)
  falls : last = 15 ∨ ∃ k : Fin 16, r.givesValue (32768 + k.val) = true ∧ r.headerHolds k < r.headerHolds last

/-- The last sector of the run of non-FREE sectors in ring order (R174): before a FREE one. With none FREE it is, by log
entry 41, the one before an interrupted erase, else the one that was erased last. -/
def Rlg.EndsRun (r : Rlg) (last : Fin 16) : Prop :=
  (¬r.isEmpty last ∧ r.isEmpty (last + 1) ∧ ∀ k, ¬r.isEmpty k → r.isEmpty (k + 1) → k = last) ∨
  ((∀ k, ¬r.isEmpty k) ∧ r.interrupted (last + 1) = true ∧ ∀ k, r.interrupted k = true → k = last + 1) ∨
  ((∀ k, ¬r.isEmpty k) ∧ (∀ k, r.interrupted k = false) ∧ r.ErasedLast last)

/-- The newest used slot: the last slot of the run that is not ERASED (R174). -/
structure Rlg.NewestIs (r : Rlg) (last : Fin 16) (newest : Nat) : Prop where
  sector : newest / 128 = last.val
  interrupted : r.interrupted last = true → newest % 128 = 127
  used : r.interrupted last = false → ∃ w : Fin 16, r.wordErased (16 * newest + w.val) = false
  later : r.interrupted last = false → ∀ slot, slot / 128 = last.val → newest < slot →
    ∀ w : Fin 16, r.wordErased (16 * slot + w.val) = true

/-- What the scan makes of the ring when its run ends in a sector with a newest used slot (R174, R155): the gaps, the
ACTIVE sector and the fill position. -/
structure Rlg.RunFound (r : Rlg) (last : Fin 16) (newest : Nat) (t : Rlg) : Prop where
  gaps : ∀ slot, slot < 2048 → r.interrupted (slotSector slot) = false → ¬r.isEmpty (slotSector slot) →
    (∀ w : Fin 16, r.wordErased (16 * slot + w.val) = true) → slotSector slot ≠ last ∨ slot < newest →
      t.slotState slot = .bad
  ahead : ∀ slot, slot / 128 = last.val → newest < slot → t.slotState slot = .erased
  tail : newest % 128 ≠ 127 → t.sectors[last] = .active ∧ t.lastActive = last ∧ t.fill = some (newest + 1)
  next : newest % 128 = 127 → r.isEmpty (last + 1) →
    t.sectors[last + 1] = .active ∧ t.lastActive = last + 1 ∧ t.fill = some (128 * (last + 1).val)
  full : newest % 128 = 127 → ¬r.isEmpty (last + 1) →
    (∀ k : Fin 16, t.sectors[k] ≠ .active) ∧ t.lastActive = last ∧ t.fill = none

/-- The notice is pending on the port, with the numbers in its detail set (R191). -/
def Notices.tells (n : Notices) (kind : Fin 16) (numbers : List Nat) : Prop :=
  n.pending.getLsbD kind = true ∧ ∀ k ∈ numbers, k < 32 → n.details[kind].getLsbD k = true

/-- The session of a point whose record returns to FREE, and its edition's reference given up (R59, R71). -/
def State.sessionFreed (s : State) (p : Point) (t : State) : Prop :=
  t.session p = Session.free ∧
    ∀ k, t.tfu.slot k =
      if k = (s.session p).tariffSlot then (s.tfu.slot k).map (fun h => { h with refs := h.refs - 1 })
      else s.tfu.slot k

/-- A session at the log's entry into FAULT (R69). -/
def State.closedByFault (s : State) (q : Point) : Session :=
  let x := s.session q
  if x.state = .waiting ∨ x.state = .charging ∨ x.state = .stopped ∨ x.state = .done then
    { x with
      state := .closing, grant := 0, pendingClose := none, ending := some ⟨.storeFault, s.tfu.calendar⟩
      finalWait := some 0 }
  else if x.state = .opening ∧ x.pendingClose = none then { x with pendingClose := some .storeFault }
  else x

/-- A third failure has been taken (R164, R165, R69): FAULT, STORE_FAULT on both ports with its numbers, and on the entry
into FAULT no COLLECT left and every session but the failing one told. -/
structure State.FaultTaken (s : State) (numbers : List Nat) (failing : Option Point) (t : State) : Prop where
  state : t.rlg.logState = .fault
  told : t.noticesS.tells 13 numbers ∧ t.noticesC.tells 13 numbers
  collects : s.rlg.logState ≠ .fault → ∀ q ∈ t.rlg.queue, q.isCollect = false
  sessions : ∀ q, failing ≠ some q →
    t.session q = if s.rlg.logState = .fault then s.session q else s.closedByFault q
  frame : s.onlyChanges [.rlg, .ssu, .tfu, .alu, .requests, .noticesS, .noticesC] t

/-- The rest of the program queue once its head has ended in a third failure: on the entry into FAULT the COLLECT
requests are gone (R165). -/
def State.queueAfterFault (s : State) (rest : List ProgramRequest) : List ProgramRequest :=
  if s.rlg.logState = .fault then rest else rest.filter (fun q => !q.isCollect)

/-- A record has been relocated from its slot into another (R162): the states, the index entry, and no byte changed but
the new slot's and the origin's superseded mark, which holds what its one program left. -/
structure State.RelocatedInto (s : State) (number slot new : Nat) (o : ProgramOutcome) (t : State) : Prop where
  taken : t.rlg.slotState new = .closed
  setAside : t.rlg.slotState slot = .superseded
  mark : s.rlg.MarkTaken slot .superseded o t.rlg
  index : t.rlg.slotOf number = some new
  otherNumbers : ∀ n, n ≠ number → t.rlg.slotOf n = s.rlg.slotOf n
  elsewhere : ∀ a, ¬(slotAddress new ≤ a ∧ a < slotAddress new + 128) → a ≠ slotAddress slot + 124 →
    t.rlg.readByte a = s.rlg.readByte a

/-- The bytes of a relocated record as the array holds them: the origin's opening words as read and corrected, the closing
part naming its origin, and the marks (R162). -/
structure State.RelocatedBytes (s : State) (part : ClosingPart) (number slot new : Nat) (t : State) : Prop where
  opening : t.rlg.rawBytes (slotAddress new) 32 = s.rlg.readBytes (slotAddress slot) 32
  closing : t.rlg.rawBytes (slotAddress new + 32) 88 = closingBytes part number (some slot)
  marks : t.rlg.rawByte (slotAddress new + 120) = 0 ∧ t.rlg.rawByte (slotAddress new + 121) = 0

/-- A relocation attempt has failed (R162): the new slot is BAD, its bad mark holds what its one program left, the origin keeps its state and its index entry, and no
byte outside the new slot changed. -/
structure State.RelocationFailed (s : State) (number slot new : Nat) (o : ProgramOutcome) (t : State) : Prop where
  bad : t.rlg.slotState new = .bad
  mark : s.rlg.MarkTaken new .bad o t.rlg
  origin : t.rlg.slotState slot = s.rlg.slotState slot
  index : t.rlg.slotOf number = s.rlg.slotOf number
  elsewhere : s.otherSlotsRead new t

/-- A closing was written into its own slot (R161): CLOSED, and no byte outside the slot changed. -/
structure State.ClosedInPlace (s : State) (slot : Nat) (t : State) : Prop where
  closed : t.rlg.slotState slot = .closed
  index : t.rlg.index = s.rlg.index
  elsewhere : s.otherSlotsRead slot t

/-- The integrity status of reading the slot's sixteen words (R166). -/
def Rlg.readStatus (r : Rlg) (slot : Nat) : Integrity :=
  if ∃ i : Fin 16, r.code (16 * slot + i.val) = .damaged then .damaged
  else if ∃ i : Fin 16, r.code (16 * slot + i.val) = .corrected then .corrected
  else .clean

/-- How many of the slot's sixteen words read so (R166). -/
def Rlg.wordsReading (r : Rlg) (slot : Nat) (x : Integrity) : Nat :=
  ((List.range 16).filter (fun i => r.code (16 * slot + i) == x)).length

/-- The slot was read whole: only the two counts of R166 moved, by the words that were not CLEAN. -/
def State.slotWasRead (s : State) (slot : Nat) (t : State) : Prop :=
  t.rlg = { s.rlg with
    secCount :=
      if s.rlg.wordsReading slot .corrected = 0 then s.rlg.secCount
      else min 65535 (s.rlg.secCount + s.rlg.wordsReading slot .corrected)
    dedCount :=
      if s.rlg.wordsReading slot .damaged = 0 then s.rlg.dedCount
      else min 65535 (s.rlg.dedCount + s.rlg.wordsReading slot .damaged) }

/-- The port was given the receipt in the slot (R167). -/
structure State.ReceiptGiven (s : State) (p : Port) (number slot : Nat) (t : State) : Prop where
  answer : s.answered p
    (okReply false
      (leBytes 2 slot ++ leBytes 1 (s.rlg.slotState slot).code ++
        [if s.rlg.queue.any (fun q => q.isCollect && q.number == number) then 1 else 0] ++
        s.rlg.readBytes (slotAddress slot) 128 ++ leBytes 1 (integrityCode (s.rlg.readStatus slot)))) t
  frame : s.onlyChanges [.rlg, .replies] t
  read : s.slotWasRead slot t

/-- The entry of the number index is a receipt READ NEXT RECEIPT may give: CLOSED and not collect-pending (R168). -/
def Rlg.uncollected (r : Rlg) (x : Nat × Nat) : Prop :=
  r.slotState x.2 = .closed ∧ ∀ q ∈ r.queue, ¬(q.isCollect = true ∧ q.number = x.1)

/-- Eight port requests are queued (R159). -/
def Rlg.portsFull (r : Rlg) : Prop := 8 ≤ (r.queue.filter ProgramRequest.isPort).length

/-! ## Notices -/

/-- The condition of R192: an enabled pending kind ranks above the threshold and above every kind in service. -/
def Notices.pulls (n : Notices) : Prop :=
  ∃ k : Fin 16, n.pending.getLsbD k = true ∧ n.enables.getLsbD k = true ∧ n.threshold < k.val ∧
    ∀ j : Fin 16, 0 < j.val → n.inService.getLsbD j = true → j.val < k.val

/-! ## Replies that show the state -/

/-- R185, the group of reading and limits: 50 bytes. -/
def State.limitLayout (s : State) : List (Nat × Nat) :=
  [(4, s.cmu.reading.period.toNat), (4, signed32 s.cmu.reading.pGrid), (1, s.cmu.reading.quality.code),
    markByte s.cmu.readingExists, (1, s.cmu.judgement.code), (4, s.lsu.checkLimit), (4, s.lsu.lImp), (4, s.lsu.lRed),
    (4, s.lsu.lExp), (4, s.lsu.margin), (4, s.lsu.lFb), (2, s.lsu.tLive), markByte s.lsu.limitsValid, (4, s.lsu.lEff),
    (4, s.lsu.marginFor), (1, s.lsu.line.code), (1, s.lsu.lease.code), (2, s.lsu.leaseCount)]

/-- R185, the groups of escalation and allocation: 5 and 40 bytes. -/
def State.allocationLayout (s : State) : List (Nat × Nat) :=
  [(1, s.lsu.esc.code), (1, s.lsu.cleanCount), (1, s.lsu.graceCount), markByte s.lsu.latchS, markByte s.lsu.latchC,
    (2, s.alu.set.number.toNat), (4, s.alu.set.budget), (1, s.alu.staging.code), (4, s.alu.k),
    (4, s.alu.lastAck.elim 4294967295 (fun t => min 4294967295 (s.now - t))), (1, s.alu.queue.length)] ++
    (List.range 24).map (fun k => (1, (s.alu.queue[k]?).elim 255 (·.val)))

/-- R185, the group of the field link: 10 bytes. The next node to consider of an idle round is a free value (log entry
14); held settings when none wait are log entry 49. -/
def State.linkLayout (s : State) : List (Nat × Nat) :=
  [markByte s.flc.running, (1, if s.flc.running then s.flc.nextNode else Config.idleNextNode.toNat),
    markByte s.flc.startPending, (2, s.flc.overruns), (1, s.flc.inForce.rate.code), (1, s.flc.inForce.tReply),
    (1, s.flc.held.rate.code), (1, s.flc.held.tReply), markByte s.flc.broadcastPending]

/-- R185, a tariff slot: presence, edition number, reference count; 0 where empty by log entry 49. -/
def tariffLayout (h : Option HeldEdition) : List (Nat × Nat) :=
  match h with
  | some e => [markByte true, (2, e.edition.number.toNat), (1, e.refs)]
  | none => [markByte false, (2, 0), (1, 0)]

/-- R185, R152: the band in force in CURRENT, 0xFF for none. -/
def Tfu.bandByte (u : Tfu) : Nat :=
  match u.current with
  | some h => if u.calendarValid then (bandAt h.edition.schedule (u.calendar.toNat % 86400 / 60)).val else 255
  | none => 255

/-- R185, R178, the group of the receipt log: 40 bytes; the reset values in STARTING, with R_ret in force (log entry 55).
The erase that FAULT has stopped is log entry 38. -/
def Rlg.layout (r : Rlg) : List (Nat × Nat) :=
  let starting := r.logState = .starting
  [(1, r.logState.code), (2, if starting then 0 else r.erasedCount), markByte r.spaceLow] ++
    (List.ofFn (id : Fin 16 → Fin 16)).map (fun k => (1, if starting then 255 else r.sectors[k].code)) ++
    [(2, if starting then 65535 else r.fill.getD 65535), (4, if starting then 0 else r.nextNumber), (2, r.rRet),
      (1, r.queue.length), (1, (r.queue.filter ProgramRequest.isPort).length)] ++
    (r.erase.elim [(1, 255), (2, 0), (1, 0)] (fun e =>
      if starting then [(1, 255), (2, 0), (1, 0)]
      else [(1, e.sector.val), (2, e.progress), (1, if r.sectors[e.sector] = .eraseSuspended then 2 else 1)])) ++
    [(2, r.secCount), (2, r.dedCount), (2, if starting then 0 else r.orphans.length)]

/-- R185, the groups of policy, site and the port that asks: 13, 4 and 11 bytes. -/
def State.settingLayout (s : State) (p : Port) : List (Nat × Nat) :=
  [(1, s.alu.mode.code), (2, s.alu.tFair), (2, s.alu.tRun), (2, s.alu.tDwell), (1, s.lsu.tClear), (1, s.lsu.tGrace),
    (4, s.bau.bSafe), (2, s.site.tBal), (2, s.site.vNom), (2, (s.notices p).enables.toNat), (1, (s.notices p).threshold),
    (2, (s.notices p).pending.toNat), (2, (s.notices p).inService.toNat),
    (2, match p with
      | .s => s.frameErrors.s
      | .c => s.frameErrors.c),
    markByte s.mail.sToC.isSome, markByte s.mail.cToS.isSome]

/-- R185: the 182 result bytes of STATUS. -/
def State.statusLayout (s : State) (p : Port) : List (Nat × Nat) :=
  s.limitLayout ++ s.allocationLayout ++ s.linkLayout ++ tariffLayout s.tfu.current ++ tariffLayout s.tfu.previous ++
    [(1, s.tfu.bandByte)] ++ s.rlg.layout ++ s.settingLayout p

/-- R186: the 70 result bytes of READ BALANCE. -/
def State.balanceLayout (s : State) : List (Nat × Nat) :=
  let r := s.bau.record
  [(4, r.period.toNat), markByte r.recomputed, (4, signed32 r.n), (4, signed32 r.a), (4, r.d), (4, r.b),
    (4, signed32 r.qo), (4, r.cap), (4, r.pvW), (4, r.batW), (4, r.c), (1, r.esc.code), (1, r.missing),
    (4, signed32 s.batteryOrder), (4, s.canopyCap), (4, s.lsu.lEff), (4, s.lsu.marginFor),
    (4, s.cmu.reading.period.toNat), (4, signed32 s.cmu.reading.pGrid), (1, s.cmu.reading.quality.code),
    (1, s.cmu.judgement.code), (1, s.lsu.esc.code)]

/-- R55: the presence mask of a record. -/
def Session.presenceBits (x : Session) : Nat :=
  if x.state = .free then 0
  else
    1 + (if x.lastReport.isSome then 2 else 0) + (if x.pendingClose.isSome then 4 else 0) +
      (if x.ending.isSome then 8 else 0) + (if x.finalWait.isSome then 16 else 0) + (if x.priced.isSome then 32 else 0)

/-- The twelve accumulators in the order of the receipt slot (R55, R156; log entry 21). -/
def Accounts.layout (a : Accounts) : List (Nat × Nat) :=
  (List.ofFn (id : Fin 4 → Fin 4)).flatMap (fun b => [(4, a.pv[b]), (4, a.bat[b]), (4, a.grid[b])])

/-- R55: the 124 result bytes of READ SESSION, absent fields 0. -/
def Session.layout (x : Session) (now : Nat) : List (Nat × Nat) :=
  [(1, x.state.code), (2, x.presenceBits), (4, x.number), (2, x.slot), (4, x.customer.toNat), (1, x.cls.code),
    (2, x.edition.toNat), (1, x.tariffSlot.code), markByte x.pause, markByte x.hold, (4, x.openTime.toNat),
    (4, x.meterStart.toNat), (4, x.lastMeter.toNat),
    (4, x.lastReport.elim 0 (fun t => min 4294967295 (now - t)))] ++
    x.accounts.layout ++
    [(4, x.disputed), (4, x.idleSeconds), (1, x.zeroRequests),
      (1, (if x.meterSuspect then 1 else 0) + (if x.nodeLostSeen then 2 else 0) + (if x.tripSeen then 4 else 0)),
      (2, x.waitCount), (2, x.grantAge), (4, x.grant), (1, (x.pendingClose.map EndReason.code).getD 0)] ++
    x.ending.elim [(1, 0), (4, 0)] (fun e => [(1, e.reason.code), (4, e.closeTime.toNat)]) ++
    [(1, x.finalWait.getD 0)] ++
    x.priced.elim [(4, 0), (4, 0), (4, 0), (4, 0)]
      (fun m => [(4, m.meterEnd.toNat), (4, m.energy), (4, m.idle), (4, m.total)])

/-- R187: the latest report fields of a node, 0 where absent. -/
def reportLayout : Option Report → List (Nat × Nat)
  | some (.chargePoint register power request plugged fault) =>
    [(4, register.toNat), (4, power), (4, request), markByte plugged, (1, fault.toNat)]
  | some (.canopy power available fault) => [(4, 0), (4, power), (4, available), (1, 0), (1, fault.toNat)]
  | some (.battery power soc fault) => [(4, 0), (4, signed32 power), (4, soc), (1, 0), (1, fault.toNat)]
  | none => [(4, 0), (4, 0), (4, 0), (1, 0), (1, 0)]

/-- R187: the 57 result bytes of READ NODE. One presence byte for echo and report fields is log entry 22, the byte of an
absent echo log entry 49. -/
def State.nodeLayout (s : State) (n : Fin 26) : List (Nat × Nat) :=
  let x := s.node n
  [(1, x.kind.code), (1, x.state.code), (4, x.maximum), (4, x.minimum), (4, x.failsafe), (4, signed32 x.sentValue),
    (4, x.sentPower), (4, x.sentFailsafe), (1, x.sequence.toNat), (1, (x.lastEcho.map BitVec.toNat).getD 0),
    markByte (x.lastEcho.isSome && x.report.isSome)] ++
    reportLayout x.report ++ [(1, x.misses), (1, x.frameErrors), (4, x.replyCount.toNat)] ++
    (if h : n.val < 24 then
      [(2, s.alu.points[n.val].value), (4, s.alu.points[n.val].power), markByte s.alu.points[n.val].pendingReduction]
    else [(2, 0), (4, 0), (1, 0)]) ++
    [markByte (decide (x.lastEcho = some x.sequence))]

/-- The port a command frame came on; none for an event and for a frame that is no command (R183). -/
def commandPort : Instr → Option Port
  | .unknownCommand p _ => some p
  | .status p => some p
  | .readBalance p => some p
  | .readSession p _ => some p
  | .readNode p _ => some p
  | .readReceipt p _ => some p
  | .readTime p => some p
  | .takeNotice p => some p
  | .endNotice p => some p
  | .setNoticeMask p _ _ => some p
  | .sendMail p _ => some p
  | .readMail p => some p
  | .releaseTrip p => some p
  | .portReset p => some p
  | .setSite p _ _ _ _ => some p
  | .setLimits p _ => some p
  | .renewLimit p => some p
  | .setBattery p _ _ _ _ => some p
  | .setCanopy p _ _ => some p
  | .configurePoint p _ _ _ _ _ => some p
  | .removePoint p _ => some p
  | .holdPoint p _ _ => some p
  | .setPolicy p _ => some p
  | .setTime p _ => some p
  | .setRetention p _ => some p
  | .loadTariff p _ => some p
  | .openSession p _ _ _ => some p
  | .closeSession p _ => some p
  | .pauseSession p _ _ => some p
  | .setClass p _ _ => some p
  | .readNextReceipt p => some p
  | .collectReceipt p _ => some p
  | .readNextOrphan p => some p
  | .closeOrphan p _ _ => some p
  | .deviceReset _ => none
  | .frontEndValidity _ _ _ => none
  | .periodClose _ => none
  | .finalWaitExpiry _ => none
  | .limreqNChange _ => none
  | .limitLineEdge => none
  | .secondTick => none
  | .leaseLapse => none
  | .newReading => none
  | .recomputeRequest => none
  | .allocation => none
  | .dwellEnd => none
  | .reductionAcknowledgement _ => none
  | .reductionRequest _ => none
  | .frameSend => none
  | .zeroFrame => none
  | .replyReceived _ => none
  | .replyTimeout => none
  | .replySilence => none
  | .linkCharacterError _ => none
  | .sessionReport _ => none
  | .programStart => none
  | .openingProgram _ => none
  | .closingProgram _ => none
  | .relocation _ => none
  | .collectProgram _ => none
  | .orphanClosing _ => none
  | .eraseSuspend => none
  | .eraseComplete _ => none
  | .startupScan _ => none
  | .shortFrame _ => none
  | .lengthFieldAbove16 => none

/-! ## Invariants -/

/-- Limits and lease (R5, R6, R7, R10, R11, R14, R21): the clamps hold, the limits are valid exactly while L_imp is above
0 and the escalation state is not UNCONFIGURED, L_eff is what R10 forms, the check limit is at least L_eff, and a LIVE
lease has a count (R11, R12; at T_live 1, where R13 says otherwise, log entry 44). -/
structure LimitsInv (s : State) : Prop where
  red : s.lsu.lRed ≤ s.lsu.lImp
  fallback : s.lsu.lFb ≤ s.lsu.lImp
  top : s.lsu.lImp ≤ 4000000
  valid : s.lsu.limitsValid = decide (0 < s.lsu.lImp)
  configured : s.lsu.esc = .unconfigured ↔ s.lsu.limitsValid = false
  effective : s.lsu.lEff = s.lsu.effective
  check : s.lsu.lEff ≤ s.lsu.checkLimit ∧ s.lsu.checkLimit ≤ 4000000
  leased : s.lsu.lease ≠ .off → 0 < s.lsu.tLive ∧ s.lsu.limitsValid = true
  counted : s.lsu.lease = .live → 0 < s.lsu.leaseCount ∧ s.lsu.leaseCount ≤ s.lsu.tLive
  idle : s.lsu.lease ≠ .live → s.lsu.leaseCount = 0

/-- The escalation machine (R18, R22, R27 to R30): the trip line is asserted exactly in TRIPPED, latches and counts stand
only in the states that use them, and no release that R29 completes is left open. -/
structure EscalationInv (s : State) : Prop where
  trip : s.lsu.trip = true ↔ s.lsu.esc = .tripped
  latches : s.lsu.esc ≠ .tripped → s.lsu.latchS = false ∧ s.lsu.latchC = false
  clean : s.lsu.esc = .curtail ∨ s.lsu.esc = .shed ∨ s.lsu.cleanCount = 0
  grace : s.lsu.esc = .shed ∨ s.lsu.graceCount = 0
  release : ¬(s.lsu.esc = .tripped ∧ s.lsu.latchS = true ∧ s.lsu.latchC = true ∧ s.cmu.judgement = .clean)

/-- A port's notice state: the alert line is R192's condition; kinds and threshold are in range (R190, R192, R195). -/
structure NoticesInv (n : Notices) : Prop where
  line : n.alert = true ↔ max n.threshold (topRank n.inService) < n.next
  threshold : n.threshold ≤ 15
  kinds : n.enables.getLsbD 0 = false ∧ n.pending.getLsbD 0 = false ∧ n.inService.getLsbD 0 = false

/-- Both ports' notice states. -/
def AlertInv (s : State) : Prop := NoticesInv s.noticesS ∧ NoticesInv s.noticesC

/-- The receipt array keeps its canonical form, and so do the lists of check-code results and of slot states. -/
structure ArrayInv (s : State) : Prop where
  cells : Memory.wf s.rlg.cells = true
  codes : sparseWf CheckCode.clean s.rlg.codes = true
  slots : sparseWf SlotState.erased s.rlg.slotStates = true

/-- The balance record (R45, R47): the budget is at most the demand and 0 outside NORMAL and CURTAIL, and the two source
weights sum to at most C. -/
structure BalanceInv (s : State) : Prop where
  budget : s.bau.record.b ≤ s.bau.record.d
  closed : s.bau.record.esc = .normal ∨ s.bau.record.esc = .curtail ∨ s.bau.record.b = 0
  weights : s.bau.record.pvW + s.bau.record.batW ≤ s.bau.record.c

/-- The sum of a session's twelve accumulators, in mWh. -/
def Accounts.sum (a : Accounts) : Nat := a.pv.toList.sum + a.bat.toList.sum + a.grid.toList.sum

/-- The identity of the accounts (R134). -/
def Session.balanced (x : Session) : Prop :=
  x.state ≠ .free → 1000 * (x.lastMeter - x.meterStart).toNat = x.accounts.sum + 1000 * x.disputed

/-- Every session's accounts agree with its meter (R134). The weights of the record are what makes a division exact. -/
structure AccountsInv (s : State) : Prop where
  weights : s.bau.record.pvW + s.bau.record.batW ≤ s.bau.record.c
  balanced : ∀ p, (s.session p).balanced

/-- The point of a session's program request; none for a port request (R159). -/
def ProgramRequest.sessionPoint (q : ProgramRequest) : Option Point :=
  match q.kind with
  | .opening p _ => some p
  | .closing p _ => some p
  | .collect => none
  | .orphanClosing _ _ => none

/-- A session's request stands for what its record says: an opening for an OPENING session, a closing for a CLOSING one
whose final-meter wait has ended (R57, R71). -/
def State.requestFits (s : State) (q : ProgramRequest) : Prop :=
  match q.kind with
  | .opening p _ => (s.session p).state = .opening
  | .closing p _ => (s.session p).state = .closing ∧ (s.session p).finalWait = none
  | .collect => True
  | .orphanClosing _ _ => True

/-- The waiting queue and the sessions (R76, R159): a point is in the queue exactly when its session is WAITING, none
twice, and each session has at most one request in the program queue, the one its state calls for. -/
structure QueueInv (s : State) : Prop where
  queued : ∀ p, p ∈ s.alu.queue ↔ (s.session p).state = .waiting
  once : s.alu.queue.Nodup
  fits : ∀ q ∈ s.rlg.queue, s.requestFits q
  oneEach : (s.rlg.queue.filterMap ProgramRequest.sessionPoint).Nodup

/-- Staging (R89, R91, R95, R96): no value to send is above the value last sent until the set in force is released, a
point whose node is not ONLINE has value 0, and only points of ONLINE nodes wait to be raised (a withheld raise of a node that
has left ONLINE is dropped: log entry 17). -/
structure StagingInv (s : State) : Prop where
  sent : ∀ p : Point, 0 ≤ (s.node (pointNode p)).sentValue
  kinds : ∀ p : Point, (s.node (pointNode p)).kind ≠ .canopy ∧ (s.node (pointNode p)).kind ≠ .battery
  offline : ∀ p : Point, (s.node (pointNode p)).state ≠ .online → s.alu.points[p].value = 0
  withheld : s.alu.staging ≠ .released → ∀ p : Point, (s.alu.points[p].value : Int) ≤ (s.node (pointNode p)).sentValue
  raises : ∀ p : Point, s.alu.set.entries[p].mark = .raised → s.alu.set.entries[p].leftOnline = false →
    (s.node (pointNode p)).state = .online

/-- Tariff references (R140): the count of a slot is the number of sessions that name it, and the edition of every session
stands in the slot it names. -/
structure TariffInv (s : State) : Prop where
  counts : ∀ k, (s.tfu.slot k).elim 0 (·.refs) =
    (allPoints.filter (fun p => decide ((s.session p).state ≠ .free ∧ (s.session p).tariffSlot = k))).length
  editions : ∀ p, (s.session p).state ≠ .free →
    ∃ h, s.tfu.slot (s.session p).tariffSlot = some h ∧ h.edition.number = (s.session p).edition

/-- The slots sessions hold (R158, R155): one each, RESERVED while OPENING and OPENED from then on, the one their program
request writes; what lies ahead of the fill position is ERASED; in STARTING there is no session, request or erase. -/
structure SlotsInv (s : State) : Prop where
  opening : ∀ p, (s.session p).state = .opening → s.rlg.slotState (s.session p).slot = .reserved
  opened : ∀ p, (s.session p).state ≠ .free → (s.session p).state ≠ .opening →
    s.rlg.slotState (s.session p).slot = .opened
  distinct : ∀ p q, p ≠ q → (s.session p).state ≠ .free → (s.session q).state ≠ .free →
    (s.session p).slot ≠ (s.session q).slot
  requests : ∀ q ∈ s.rlg.queue, ∀ p, q.sessionPoint = some p → q.slot = (s.session p).slot
  active : ∀ f, s.rlg.fill = some f → f / 128 = s.rlg.lastActive.val ∧ s.rlg.sectors[s.rlg.lastActive] = .active
  ahead : ∀ f, s.rlg.fill = some f → ∀ slot, f ≤ slot → slot / 128 = f / 128 → s.rlg.slotState slot = .erased
  free : ∀ k : Fin 16, s.rlg.sectors[k] = .free → ∀ slot, slot / 128 = k.val → s.rlg.slotState slot = .erased
  erasing : ∀ e, s.rlg.erase = some e →
    s.rlg.sectors[e.sector] = .erasing ∨ s.rlg.sectors[e.sector] = .eraseSuspended
  starting : s.rlg.logState = .starting →
    (∀ p, (s.session p).state = .free) ∧ s.rlg.queue = [] ∧ s.rlg.erase = none

/-- What is not a session's does not touch a session's slot: port requests write other slots, none of them ERASED, and no
sector with a session's slot is being erased (R163, R170, R177). -/
structure State.Apart (s : State) : Prop where
  ports : ∀ q ∈ s.rlg.queue, q.sessionPoint = none →
    s.rlg.slotState q.slot ≠ .erased ∧ ∀ p, (s.session p).state ≠ .free → (s.session p).slot ≠ q.slot
  erases : ∀ e, s.rlg.erase = some e → ∀ p, (s.session p).state ≠ .free →
    (s.session p).slot / 128 ≠ e.sector.val

/-- A property that every step keeps, whatever the state. -/
def KeptByStep (inv : State → Prop) : Prop := ∀ s t, inv s → step s = .next t → inv t

end Sys2Proof.Machine
end

