-- ==== Sys2Proof/Laws/PerInstr.lean ====
section
/-! SUPPORT. Statements made of every command, one lemma per constructor of `Instr`. -/

namespace Sys2Proof.Laws.FrameLength

open Sys2Proof Sys2Proof.Machine

/-- A port command's frame is its code and exactly the operand bytes of the code's row in R183, on the command's own port; a
byte that names no command has no operand phase (R182); an event has no frame. -/
def Statement (c : Instr) : Prop :=
  WellFormed c = true →
    match encodeFrame c with
    | none => commandPort c = none
    | some x => commandPort c = some x.1 ∧
      x.2.length = 1 + ((commandRow (byteAt x.2 0).toNat).elim 0 (fun row => row.operands))

theorem leBytes_length (k n : Nat) : (leBytes k n).length = k := by
  induction k generalizing n with
  | zero => rfl
  | succ k ih => simp [leBytes, ih]

theorem byteAt_zero (b : Byte) (bs : List Byte) : byteAt (b :: bs) 0 = b := by
  simp [byteAt, fieldAt, leNat]

theorem deviceReset (left : List Residue) : Statement (.deviceReset left) := fun _ => rfl
theorem frontEndValidity (lossOfReference : Bool) (converterFault : Bool) (stretch : Stretch) : Statement (.frontEndValidity lossOfReference converterFault stretch) := fun _ => rfl
theorem periodClose (stretch : Stretch) : Statement (.periodClose stretch) := fun _ => rfl
theorem finalWaitExpiry (point : Point) : Statement (.finalWaitExpiry point) := fun _ => rfl
theorem limreqNChange (low : Bool) : Statement (.limreqNChange low) := fun _ => rfl
theorem limitLineEdge : Statement .limitLineEdge := fun _ => rfl
theorem secondTick : Statement .secondTick := fun _ => rfl
theorem leaseLapse : Statement .leaseLapse := fun _ => rfl
theorem newReading : Statement .newReading := fun _ => rfl
theorem recomputeRequest : Statement .recomputeRequest := fun _ => rfl
theorem allocation : Statement .allocation := fun _ => rfl
theorem dwellEnd : Statement .dwellEnd := fun _ => rfl
theorem reductionAcknowledgement (point : Point) : Statement (.reductionAcknowledgement point) := fun _ => rfl
theorem reductionRequest (point : Point) : Statement (.reductionRequest point) := fun _ => rfl
theorem frameSend : Statement .frameSend := fun _ => rfl
theorem zeroFrame : Statement .zeroFrame := fun _ => rfl
theorem replyReceived (bytes : List Byte) : Statement (.replyReceived bytes) := fun _ => rfl
theorem replyTimeout : Statement .replyTimeout := fun _ => rfl
theorem replySilence : Statement .replySilence := fun _ => rfl
theorem linkCharacterError (error : CharacterError) : Statement (.linkCharacterError error) := fun _ => rfl
theorem sessionReport (point : Point) : Statement (.sessionReport point) := fun _ => rfl
theorem programStart : Statement .programStart := fun _ => rfl
theorem openingProgram (outcome : ProgramOutcome) : Statement (.openingProgram outcome) := fun _ => rfl
theorem closingProgram (outcome : ProgramOutcome) : Statement (.closingProgram outcome) := fun _ => rfl
theorem relocation (outcome : ProgramOutcome) : Statement (.relocation outcome) := fun _ => rfl
theorem collectProgram (outcome : ProgramOutcome) : Statement (.collectProgram outcome) := fun _ => rfl
theorem orphanClosing (outcome : ProgramOutcome) : Statement (.orphanClosing outcome) := fun _ => rfl
theorem eraseSuspend : Statement .eraseSuspend := fun _ => rfl
theorem eraseComplete (outcome : HeaderOutcome) : Statement (.eraseComplete outcome) := fun _ => rfl
theorem startupScan (results : List ScanResult) : Statement (.startupScan results) := fun _ => rfl
theorem shortFrame (port : Port) : Statement (.shortFrame port) := fun _ => rfl
theorem unknownCommand (port : Port) (code : Byte) : Statement (.unknownCommand port code) := by
  intro h
  refine ⟨rfl, ?_⟩
  simp only [WellFormed, Option.isNone_iff_eq_none] at h
  show _ = 1 + ((commandRow (byteAt [code] 0).toNat).elim 0 _)
  rw [byteAt_zero, h]
  rfl
theorem status (port : Port) : Statement (.status port) :=
  fun _ => ⟨rfl, rfl⟩
theorem readBalance (port : Port) : Statement (.readBalance port) :=
  fun _ => ⟨rfl, rfl⟩
theorem readSession (port : Port) (point : Byte) : Statement (.readSession port point) :=
  fun _ => ⟨rfl, rfl⟩
theorem readNode (port : Port) (node : Byte) : Statement (.readNode port node) :=
  fun _ => ⟨rfl, rfl⟩
theorem readReceipt (port : Port) (number : Word32) : Statement (.readReceipt port number) :=
  fun _ => ⟨rfl, rfl⟩
theorem readTime (port : Port) : Statement (.readTime port) :=
  fun _ => ⟨rfl, rfl⟩
theorem takeNotice (port : Port) : Statement (.takeNotice port) :=
  fun _ => ⟨rfl, rfl⟩
theorem endNotice (port : Port) : Statement (.endNotice port) :=
  fun _ => ⟨rfl, rfl⟩
theorem setNoticeMask (port : Port) (enables : Word16) (threshold : Byte) : Statement (.setNoticeMask port enables threshold) :=
  fun _ => ⟨rfl, rfl⟩
theorem sendMail (port : Port) (message : BitVec 256) : Statement (.sendMail port message) :=
  fun _ => ⟨rfl, rfl⟩
theorem readMail (port : Port) : Statement (.readMail port) :=
  fun _ => ⟨rfl, rfl⟩
theorem releaseTrip (port : Port) : Statement (.releaseTrip port) :=
  fun _ => ⟨rfl, rfl⟩
theorem portReset (port : Port) : Statement (.portReset port) :=
  fun _ => ⟨rfl, rfl⟩
theorem setSite (port : Port) (tBal : Word16) (vNom : Word16) (rate : Byte) (tReply : Byte) : Statement (.setSite port tBal vNom rate tReply) :=
  fun _ => ⟨rfl, rfl⟩
theorem setLimits (port : Port) (limits : LimitsOperand) : Statement (.setLimits port limits) :=
  fun _ => ⟨rfl, rfl⟩
theorem renewLimit (port : Port) : Statement (.renewLimit port) :=
  fun _ => ⟨rfl, rfl⟩
theorem setBattery (port : Port) (discharge : Word32) (charge : Word32) (socLo : Word16) (socHi : Word16) : Statement (.setBattery port discharge charge socLo socHi) :=
  fun _ => ⟨rfl, rfl⟩
theorem setCanopy (port : Port) (rating : Word32) (failsafe : Word32) : Statement (.setCanopy port rating failsafe) :=
  fun _ => ⟨rfl, rfl⟩
theorem configurePoint (port : Port) (point : Byte) (kind : Byte) (maximum : Word32) (minimum : Word32) (failsafe : Word32) : Statement (.configurePoint port point kind maximum minimum failsafe) :=
  fun _ => ⟨rfl, rfl⟩
theorem removePoint (port : Port) (node : Byte) : Statement (.removePoint port node) :=
  fun _ => ⟨rfl, rfl⟩
theorem holdPoint (port : Port) (point : Byte) (setting : Byte) : Statement (.holdPoint port point setting) :=
  fun _ => ⟨rfl, rfl⟩
theorem setPolicy (port : Port) (policy : PolicyOperand) : Statement (.setPolicy port policy) :=
  fun _ => ⟨rfl, rfl⟩
theorem setTime (port : Port) (calendar : Word32) : Statement (.setTime port calendar) :=
  fun _ => ⟨rfl, rfl⟩
theorem setRetention (port : Port) (retention : Word16) : Statement (.setRetention port retention) :=
  fun _ => ⟨rfl, rfl⟩
theorem loadTariff (port : Port) (tariff : TariffOperand) : Statement (.loadTariff port tariff) :=
  fun _ => ⟨rfl, by simp [encodeTariff, encodeBand, encodePlace, leBytes_length, byteAt_zero, commandRow]⟩
theorem openSession (port : Port) (point : Byte) (customer : Word32) (cls : Byte) : Statement (.openSession port point customer cls) :=
  fun _ => ⟨rfl, rfl⟩
theorem closeSession (port : Port) (point : Byte) : Statement (.closeSession port point) :=
  fun _ => ⟨rfl, rfl⟩
theorem pauseSession (port : Port) (point : Byte) (setting : Byte) : Statement (.pauseSession port point setting) :=
  fun _ => ⟨rfl, rfl⟩
theorem setClass (port : Port) (point : Byte) (cls : Byte) : Statement (.setClass port point cls) :=
  fun _ => ⟨rfl, rfl⟩
theorem readNextReceipt (port : Port) : Statement (.readNextReceipt port) :=
  fun _ => ⟨rfl, rfl⟩
theorem collectReceipt (port : Port) (number : Word32) : Statement (.collectReceipt port number) :=
  fun _ => ⟨rfl, rfl⟩
theorem readNextOrphan (port : Port) : Statement (.readNextOrphan port) :=
  fun _ => ⟨rfl, rfl⟩
theorem closeOrphan (port : Port) (number : Word32) (register : Word32) : Statement (.closeOrphan port number register) :=
  fun _ => ⟨rfl, rfl⟩
theorem lengthFieldAbove16 : Statement .lengthFieldAbove16 := fun _ => rfl

end Sys2Proof.Laws.FrameLength
end

