-- ==== Sys2Proof/Certificates/Slice0/Obligations.lean ====
section
/-! DEFINITION. The statements for the provers, chapter by chapter. -/

open Sys2Proof Sys2Proof.Machine

/-! ## Device reset -/

/-- R199 and the reset values of every chapter. Where a chapter gives none, the value is the model's (log entry 4, which
covers the dwell, the slot and sector states and the sector last ACTIVE; log entries 30 and 31: no line bytes, no reply).
What the reset does not touch is the model's choice too: the front end's reports (log entry 1), the contact's level (log
entry 2), the array (R153) and the commands that wait (log entry 37). A residue at a place the array does not have is
the model's fault (log entry 33). -/
def Obligations.DeviceResetGivesResetValues : Prop :=
  ∀ (left : List Residue) (s : State),
    ((∀ x ∈ left, inArray x.place) →
      ∃ t, exec (.deviceReset left) s = .next t ∧
        t.site = State.reset.site ∧ t.bau = State.reset.bau ∧ t.alu = State.reset.alu ∧ t.flc = State.reset.flc ∧
        t.ssu = State.reset.ssu ∧ t.tfu = State.reset.tfu ∧
        t.noticesS = State.reset.noticesS ∧ t.noticesC = State.reset.noticesC ∧ t.mail = State.reset.mail ∧
        t.frameErrors = State.reset.frameErrors ∧ t.replies = State.reset.replies ∧ t.requests = [] ∧
        t.cmu = { State.reset.cmu with
          lossOfReference := s.cmu.lossOfReference, converterFault := s.cmu.converterFault } ∧
        t.lsu = { State.reset.lsu with limreqLow := s.lsu.limreqLow } ∧
        t.rlg = Rlg.reset t.rlg.cells t.rlg.codes ∧ t.pending = s.pending) ∧
    ((∃ x ∈ left, ¬inArray x.place) → exec (.deviceReset left) s = .fault .noSuchArrayWord)

/-- R153, R174 with log entry 11: a reset keeps every byte of the array but those of words that an interrupted program
or erase was writing, and an interrupted program turns stored bits from 1 to 0 only. -/
def Obligations.DeviceResetKeepsTheArray : Prop :=
  ∀ (left : List Residue) (s : State), (∀ x ∈ left, inArray x.place) →
    ∃ t, exec (.deviceReset left) s = .next t ∧
      ∀ a, s.rlg.eraseReaches (a / 8) = false →
        (s.rlg.programReaches (a / 8) = false → t.rlg.readByte a = s.rlg.readByte a) ∧
        t.rlg.rawByte a &&& s.rlg.rawByte a = t.rlg.rawByte a

/-! ## Chapter 1: the connection point -/

/-- R2, R3, R14, R15: a stretch counts in both parts of the running average exactly while the front end reported
nothing; the reading formed at a close, its judgement, the next period's check limit and the new reading handed to the
balance unit. The order of effects inside the close is log entry 8, the whole ms and W·ms of a stretch log entry 45. -/
def Obligations.PeriodCloseFormsTheReading : Prop :=
  (∀ (l c : Bool) (x : Stretch) (s : State),
    ∃ t, exec (.frontEndValidity l c x) s = .next t ∧ s.onlyChanges [.cmu] t ∧
      t.cmu = { s.cmu with
        lossOfReference := l
        converterFault := c
        energy := if s.cmu.lossOfReference || s.cmu.converterFault then s.cmu.energy else s.cmu.energy + x.energy
        validTime :=
          if s.cmu.lossOfReference || s.cmu.converterFault then s.cmu.validTime else s.cmu.validTime + x.ms }) ∧
  ∀ (x : Stretch) (s : State),
    let faulty := s.cmu.lossOfReference || s.cmu.converterFault
    let energy := if faulty then s.cmu.energy else s.cmu.energy + x.energy
    let time := if faulty then s.cmu.validTime else s.cmu.validTime + x.ms
    let average := energy.tdiv time
    ∃ t, exec (.periodClose x) s = .next t ∧
      s.onlyChanges [.cmu, .lsu, .alu, .flc, .ssu, .rlg, .noticesS, .noticesC, .requests] t ∧
      t.cmu =
        { s.cmu with
          periodLength := s.site.tBal
          periodTimer := 0
          energy := 0
          validTime := 0
          periodNumber := s.cmu.periodNumber + 1
          readingExists := true
          reading :=
            if time = 0 then ⟨s.cmu.periodNumber + 1, 0, .missing⟩
            else if 8000000 < average then ⟨s.cmu.periodNumber + 1, 8000000, .saturated⟩
            else if average < -8000000 then ⟨s.cmu.periodNumber + 1, -8000000, .saturated⟩
            else ⟨s.cmu.periodNumber + 1, average, .good⟩
          judgement :=
            if s.lsu.limitsValid = false then .unjudged
            else if t.cmu.reading.quality = .missing then .missing
            else if (s.lsu.checkLimit : Int) < t.cmu.reading.pGrid then .excess
            else .clean } ∧
      t.lsu.checkLimit = s.lsu.lEff ∧ t.lsu.lEff = s.lsu.lEff ∧
      t.requests = s.requests ++ [.newReading t.cmu.reading]

/-- R20, R22 to R27, R29 to R31, R94: what the judgement of a closing reading does to the escalation machine, the trip
line, the notices and the sessions, and on entry into SHED or TRIPPED to the grant set, the values and the nodes. That the
judgement is applied in the step of the close is log entry 50, that the ALL-ZERO request is taken in it too, before the budget
arrival of the same reading, log entry 54, the staging state after that request log entry 18. -/
def Obligations.JudgementsMoveTheEscalationMachine : Prop :=
  ∀ (x : Stretch) (s : State),
    ∃ t, exec (.periodClose x) s = .next t ∧
      let m := s.lsu.machineAfter t.cmu.judgement
      t.lsu = { s.lsu with
        esc := m.esc, cleanCount := m.clean, graceCount := m.grace, latchS := m.latchS, latchC := m.latchC
        trip := if m.esc = s.lsu.esc then s.lsu.trip else m.esc == .tripped
        checkLimit := s.lsu.lEff } ∧
      (m.esc = s.lsu.esc → t.noticesS = s.noticesS ∧ t.noticesC = s.noticesC) ∧
      (m.esc ≠ s.lsu.esc → m.esc ≠ .tripped →
        t.noticesS = s.noticesS.raise 14 [] ∧ t.noticesC = s.noticesC.raise 14 []) ∧
      (m.esc ≠ s.lsu.esc → m.esc = .tripped →
        t.noticesS = (s.noticesS.raise 14 []).raise 15 [] ∧ t.noticesC = (s.noticesC.raise 14 []).raise 15 [] ∧
        ∀ p, (s.session p).state ≠ .free → (t.session p).tripSeen = true) ∧
      (m.esc ≠ s.lsu.esc → m.esc = .shed ∨ m.esc = .tripped → s.ZeroedInto t) ∧
      (m.esc = s.lsu.esc ∨ (m.esc ≠ .shed ∧ m.esc ≠ .tripped) →
        t.alu = s.alu ∧ t.flc.broadcastPending = s.flc.broadcastPending ∧ ∀ n, t.node n = s.node n)

/-- R70, R71: at each period close a final-meter wait counts one and ends at 5; FINAL_WAIT_EXPIRY ends a wait that
still runs and leaves every other state as it is (log entry 7). That the count is absent once the wait has ended is log
entry 20. -/
def Obligations.FinalMeterWaitCountsCloses : Prop :=
  (∀ (x : Stretch) (s : State) (p : Point),
    ∃ t, exec (.periodClose x) s = .next t ∧
      (t.session p).state = (s.session p).state ∧
      ((s.session p).waitRuns = false →
        (t.session p).finalWait = (s.session p).finalWait ∧ (t.session p).priced = (s.session p).priced) ∧
      ∀ k, (s.session p).state = .closing → (s.session p).finalWait = some k →
        (k + 1 < 5 →
          (t.session p).finalWait = some (k + 1) ∧ (t.session p).priced = (s.session p).priced) ∧
        (5 ≤ k + 1 →
          (t.session p).finalWait = none ∧ (t.session p).priced = some (s.tfu.price (s.session p)) ∧
          ⟨.closing p (t.session p).closingPart, (s.session p).number, (s.session p).slot, 0⟩ ∈ t.rlg.queue)) ∧
  ∀ (p : Point) (s : State),
    ∃ t, exec (.finalWaitExpiry p) s = .next t ∧ s.onlyChanges [.ssu, .rlg] t ∧ s.otherSessionsSame p t ∧
      s.arraySame t ∧
      ((s.session p).waitRuns = true →
        t.session p =
          { s.session p with finalWait := none, priced := some (s.tfu.price (s.session p)) } ∧
        t.rlg = s.rlg.afterJoin
          ⟨.closing p (t.session p).closingPart, (s.session p).number, (s.session p).slot, 0⟩) ∧
      ((s.session p).waitRuns = false → t = s)

/-- R8, R9, R10, R14: the contact's level restarts the debounce; an edge changes the line state, L_eff and the check
limit, raises LIMIT_LINE on port S and asks for a recompute. A LIMIT_LINE_EDGE with the contact at the level of the
present line state is no edge and changes nothing (log entry 5). -/
def Obligations.LimitRequestLineDebouncesAndLowersTheLimit : Prop :=
  (∀ (low : Bool) (s : State),
    ∃ t, exec (.limreqNChange low) s = .next t ∧ s.onlyChanges [.lsu] t ∧
      t.lsu = { s.lsu with
        limreqLow := low, debounce := if low = s.lsu.limreqLow then s.lsu.debounce else 0 }) ∧
  ∀ (s : State),
    let line : Line := if s.lsu.limreqLow then .asserted else .released
    let e := s.lsu.limitFor line s.lsu.lease
    ∃ t, exec .limitLineEdge s = .next t ∧ s.onlyChanges [.lsu, .noticesS, .requests] t ∧
      (line = s.lsu.line → t = s) ∧
      (line ≠ s.lsu.line →
        t.lsu = { s.lsu with line, debounce := 0, lEff := e, checkLimit := s.lsu.checkAfter e } ∧
        t.noticesS = s.noticesS.raise 11 [] ∧ s.asksRecompute t)

/-- R144, R11, R12, R63: a second tick advances the calendar, counts a LIVE lease down and lapses it at 0, and counts
the idle seconds of DONE sessions. LEASE_LAPSE lapses a LIVE lease (log entry 7). That a count of 1 lapses though T_live 1
has just reloaded it is log entry 44. -/
def Obligations.SecondTickCountsTheLeaseDown : Prop :=
  (∀ (s : State),
    ∃ t, exec .secondTick s = .next t ∧ s.onlyChanges [.lsu, .ssu, .tfu, .noticesS, .requests] t ∧
      t.tfu = { s.tfu with calendar := s.tfu.calendar + 1, secondTimer := 0 } ∧
      t.ssu.timeBase = s.ssu.timeBase ∧
      (∀ p, t.session p =
        if (s.session p).state = .done then
          { s.session p with idleSeconds := min 4294967295 ((s.session p).idleSeconds + 1) }
        else s.session p) ∧
      (s.lsu.lease = .live → s.lsu.leaseCount ≤ 1 → s.leaseLapsed t) ∧
      (s.lsu.lease = .live → 1 < s.lsu.leaseCount →
        t.lsu = { s.lsu with leaseCount := s.lsu.leaseCount - 1 } ∧
        t.noticesS = s.noticesS ∧ t.requests = s.requests) ∧
      (s.lsu.lease ≠ .live → t.lsu = s.lsu ∧ t.noticesS = s.noticesS ∧ t.requests = s.requests)) ∧
  ∀ (s : State),
    ∃ t, exec .leaseLapse s = .next t ∧ s.onlyChanges [.lsu, .noticesS, .requests] t ∧
      (s.lsu.lease = .live → s.leaseLapsed t) ∧ (s.lsu.lease ≠ .live → t = s)

/-- R13: RENEW LIMIT on port S. -/
def Obligations.RenewLimitReloadsTheLease : Prop :=
  ∀ (s : State),
    let e := s.lsu.limitFor s.lsu.line .live
    ∃ t, exec (.renewLimit .s) s = .next t ∧
      (s.lsu.limitsValid = false → s.turnedAway .s .refused .state t) ∧
      (s.lsu.limitsValid = true →
        s.answered .s (okReply false []) t ∧ s.onlyChanges [.lsu, .requests, .replies] t ∧
        (s.lsu.lease = .live →
          t.lsu = { s.lsu with leaseCount := s.lsu.tLive } ∧ t.requests = s.requests) ∧
        (s.lsu.lease = .lapsed →
          t.lsu = { s.lsu with
            lease := .live, leaseCount := s.lsu.tLive, lEff := e, checkLimit := s.lsu.checkAfter e } ∧
          (e = s.lsu.lEff → t.requests = s.requests) ∧ (e ≠ s.lsu.lEff → s.asksRecompute t)) ∧
        (s.lsu.lease = .off → t.lsu = s.lsu ∧ t.requests = s.requests))

/-- R5, R6, R7, R10, R11, R14, R16, R21: SET LIMITS on port S. -/
def Obligations.SetLimitsReplacesTheLimitSet : Prop :=
  ∀ (x : LimitsOperand) (s : State),
    let imp := min x.lImp.toNat 4000000
    let red := min x.lRed.toNat imp
    let exp := min x.lExp.toNat 4000000
    let margin := min x.margin.toNat 200000
    let fb := min x.lFb.toNat imp
    let live := min x.tLive.toNat 3600
    let e := if s.lsu.line = .asserted then red else imp
    let esc : Escalation :=
      if imp = 0 then .unconfigured else if s.lsu.esc = .unconfigured then .normal else s.lsu.esc
    ∃ t, exec (.setLimits .s x) s = .next t ∧
      (imp = 0 ∧ s.lsu.esc = .tripped → s.turnedAway .s .refused .state t) ∧
      (¬(imp = 0 ∧ s.lsu.esc = .tripped) →
        s.answered .s
          (okReply
            (decide (¬(x.lImp.toNat = imp ∧ x.lRed.toNat = red ∧ x.lExp.toNat = exp ∧ x.margin.toNat = margin ∧
              x.lFb.toNat = fb ∧ x.tLive.toNat = live))) []) t ∧
        s.onlyChanges [.lsu, .noticesS, .noticesC, .requests, .replies] t ∧
        t.lsu = { s.lsu with
          lImp := imp, lRed := red, lExp := exp, margin, lFb := fb, tLive := live
          limitsValid := decide (0 < imp)
          lease := if 0 < imp ∧ 0 < live then .live else .off
          leaseCount := if 0 < imp then live else 0
          lEff := e
          checkLimit := s.lsu.checkAfter e
          esc
          trip := if esc = s.lsu.esc then s.lsu.trip else false
          cleanCount := if imp = 0 ∨ esc ≠ s.lsu.esc then 0 else s.lsu.cleanCount
          graceCount := if imp = 0 ∨ esc ≠ s.lsu.esc then 0 else s.lsu.graceCount } ∧
        s.asksRecompute t ∧
        (esc = s.lsu.esc → t.noticesS = s.noticesS ∧ t.noticesC = s.noticesC) ∧
        (esc ≠ s.lsu.esc → t.noticesS = s.noticesS.raise 14 [] ∧ t.noticesC = s.noticesC.raise 14 []))

/-! ## Chapter 2: release -/

/-- R28, R29, R31: RELEASE TRIP of either port. -/
def Obligations.ReleaseTripNeedsBothPortsAndACleanReading : Prop :=
  ∀ (p : Port) (s : State),
    let both := (p = .s ∨ s.lsu.latchS = true) ∧ (p = .c ∨ s.lsu.latchC = true)
    ∃ t, exec (.releaseTrip p) s = .next t ∧
      (s.lsu.esc ≠ .tripped → s.turnedAway p .refused .state t) ∧
      (s.lsu.esc = .tripped → ¬(both ∧ s.cmu.judgement = .clean) →
        s.answered p (acceptedReply []) t ∧ s.onlyChanges [.lsu, .replies] t ∧
        t.lsu = { s.lsu with
          latchS := decide (p = .s) || s.lsu.latchS, latchC := decide (p = .c) || s.lsu.latchC }) ∧
      (s.lsu.esc = .tripped → both ∧ s.cmu.judgement = .clean →
        s.answered p (okReply false []) t ∧
        s.onlyChanges [.lsu, .noticesS, .noticesC, .requests, .replies] t ∧
        t.lsu = { s.lsu with
          esc := .curtail, trip := false, latchS := false, latchC := false, cleanCount := 0, graceCount := 0 } ∧
        t.noticesS = s.noticesS.raise 14 [] ∧ t.noticesC = s.noticesC.raise 14 [] ∧ s.asksRecompute t)

/-! ## Chapter 3: the balance computation -/

/-- R36 to R39, R52, R53, R78, R142: the inputs of the balance computation and the orders in force, as the node, session
and tariff tables give them: C, R_lost, D with the ratings and minimums it uses, Q, P_pv, Bd, Bc, G_ok, and the battery
order in every case. -/
def Obligations.BalanceInputsComeFromTheTables : Prop :=
  ∀ s : State,
    let battery := s.node 25
    let canopy := s.node 24
    s.chargerSum = sumPoints s.draws ∧
    s.lostSum = sumPoints (fun p =>
      if (s.node (pointNode p)).state = .lost ∧ (s.session p).state ≠ .free then
        (s.node (pointNode p)).lostDraw s.site.vNom else 0) ∧
    s.demand = sumPoints (fun p =>
      if ((s.session p).state = .waiting ∨ (s.session p).state = .charging) ∧ s.asksPower p = true then
        max (min ((s.node (pointNode p)).rating s.site.vNom) (s.node (pointNode p)).request) (s.minPower p)
      else 0) ∧
    (∀ p : Point,
      let n := s.node (pointNode p)
      (n.kind = .ac1 → n.rating s.site.vNom = n.maximum * s.site.vNom / 10 ∧
        s.minPower p = min n.minimum n.maximum * s.site.vNom / 10) ∧
      (n.kind = .ac3 → n.rating s.site.vNom = n.maximum * 3 * s.site.vNom / 10 ∧
        s.minPower p = min n.minimum n.maximum * 3 * s.site.vNom / 10) ∧
      (n.kind = .dc → n.rating s.site.vNom = 100 * (n.maximum / 100) ∧
        s.minPower p = min (100 * ((n.minimum + 99) / 100)) (100 * (n.maximum / 100))) ∧
      ∀ register power request plugged fault,
        n.report = some (.chargePoint register power request plugged fault) → n.request = request) ∧
    (battery.state ≠ .online →
      s.batteryPower = 0 ∧ s.availableDischarge = 0 ∧ s.availableCharge = 0 ∧ s.batteryOrder = 0) ∧
    (∀ power reported fault, battery.state = .online → battery.report = some (.battery power reported fault) →
      let soc := min reported 1000
      let order := s.bau.record.qo
      s.batteryPower = max (-2000000) (min 2000000 power) ∧
      s.availableDischarge = (if s.bau.socLo < soc then s.bau.pBdMax else 0) ∧
      s.availableCharge = (if soc < s.bau.socHi then s.bau.pBcMax else 0) ∧
      (0 < order → s.batteryOrder = if soc ≤ s.bau.socLo then 0 else min order s.bau.pBdMax) ∧
      (order < 0 → s.batteryOrder = if s.bau.socHi ≤ soc then 0 else -(min (-order) s.bau.pBcMax)) ∧
      (order = 0 → s.batteryOrder = 0)) ∧
    (canopy.state ≠ .online → s.canopyPower = 0) ∧
    (∀ power available fault, canopy.state = .online → canopy.report = some (.canopy power available fault) →
      s.canopyPower = min power 2000000) ∧
    s.canopyCap = min s.bau.record.cap s.bau.pPvRat ∧
    (s.tfu.gridOk = true ↔ s.tfu.calendarValid = true ∧ ∃ h, s.tfu.current = some h ∧
      h.edition.bands[bandAt h.edition.schedule (s.tfu.calendar.toNat % 86400 / 60)].gridCharge = true) ∧
    ∀ (schedule : List SwitchPoint) (minute : Nat),
      schedule ≠ [] → (schedule.map (·.minute)).Pairwise (· < ·) → bandIs schedule minute (bandAt schedule minute)

/-- R34, R35, R42 to R48: a GOOD or SATURATED reading, new or recomputed, gives a record computed in full, its headroom with
the margin in force of R10 and R22, handed on as a budget arrival. That a NEW_READING takes the first reading
that waits, else the reading record, is log entry 6. -/
def Obligations.MeasuredReadingsGiveFullRecords : Prop :=
  (∀ s : State, s.TakesReading) ∧
  (∀ (r : Reading) (s : State), s.readingToTake = some r → r.quality ≠ .missing →
    ∃ t, exec .newReading s = .next t ∧ s.onlyChanges [.bau, .requests] t ∧
      t.bau = { s.bau with record := t.bau.record, missingCount := 0 } ∧
      s.ComputedRecord r false 0 t.bau.record ∧
      t.requests = s.requests.erase (.newReading r) ++ [.budget t.bau.record.b true]) ∧
  ∀ (s : State), s.cmu.readingExists = true → s.cmu.reading.quality ≠ .missing →
    ∃ t, exec .recomputeRequest s = .next t ∧ s.onlyChanges [.bau, .requests] t ∧
      t.bau = { s.bau with record := t.bau.record } ∧
      s.ComputedRecord s.cmu.reading true s.bau.missingCount t.bau.record ∧
      t.requests = s.requests.erase .recompute ++ [.budget t.bau.record.b false]

/-- R48 to R51: a MISSING reading is counted and noticed and gives a held record, from the third on a degraded one; a
recompute on a MISSING reading counts nothing. With the count at 0 a recompute gives a held record (log entry 9).
Without any reading no such event is sent (R16, R34); that NEW_READING with no reading to take and RECOMPUTE_REQUEST
with none existing change nothing, and which reading a NEW_READING takes, is log entry 6. -/
def Obligations.MissingReadingsCarryTheLastRecord : Prop :=
  (∀ s : State, s.TakesReading) ∧
  (∀ (r : Reading) (s : State), s.readingToTake = some r → r.quality = .missing →
    ∃ t, exec .newReading s = .next t ∧ s.onlyChanges [.bau, .noticesS, .requests] t ∧
      t.bau = { s.bau with record := t.bau.record, missingCount := min 255 (s.bau.missingCount + 1) } ∧
      s.CarriedRecord r false (min 255 (s.bau.missingCount + 1)) t.bau.record ∧
      t.noticesS = s.noticesS.raise 9 [] ∧
      t.requests = s.requests.erase (.newReading r) ++ [.budget t.bau.record.b true]) ∧
  (∀ (s : State), s.cmu.readingExists = true → s.cmu.reading.quality = .missing →
    ∃ t, exec .recomputeRequest s = .next t ∧ s.onlyChanges [.bau, .requests] t ∧
      t.bau = { s.bau with record := t.bau.record } ∧
      s.CarriedRecord s.cmu.reading true s.bau.missingCount t.bau.record ∧
      t.requests = s.requests.erase .recompute ++ [.budget t.bau.record.b false]) ∧
  ∀ (s : State),
    (s.readingToTake = none → exec .newReading s = .next s) ∧
    (s.cmu.readingExists = false → exec .recomputeRequest s = .next s)

/-! ## Chapter 5: allocation and staging -/

/-- R77, R88 to R90, R93, R108: an allocation forms one new set whose marks compare its targets with the sent values, and
hands over the values its marks call for, each change with its power and one more in the sequence. A pending reduction
leaves the set REDUCING, a dwell that runs DWELLING, else its raises are released at once; K moves only with a release. The
budget is the first one that waits, else that of the record in force (log entry 6). -/
def Obligations.AllocationFormsANewGrantSet : Prop :=
  ∀ s : State,
    let b := s.budgetToTake.1
    let ps := s.admitted b
    s.TakesBudget ∧
    ∃ t, exec .allocation s = .next t ∧ s.onlyChanges [.alu, .flc, .ssu, .requests] t ∧
      { t.flc with nodes := s.flc.nodes } = s.flc ∧
      (∀ n, { t.node n with sequence := 0 } = { s.node n with sequence := 0 }) ∧
      (∀ n, 24 ≤ n.val → t.node n = s.node n) ∧
      { t.alu with
        queue := s.alu.queue, set := s.alu.set, points := s.alu.points, staging := s.alu.staging, k := s.alu.k } =
        s.alu ∧
      t.requests = s.requests.erase (.budget b s.budgetToTake.2) ∧
      t.alu.set.number = s.alu.set.number + 1 ∧ t.alu.set.budget = b ∧
      t.alu.staging =
        (if ∃ p : Point, t.alu.points[p].pendingReduction = true then .reducing
        else if s.alu.dwellOver = true ∨ ∀ ack ∈ s.alu.lastAck, ack + s.alu.dwellLength ≤ s.now then .released
        else .dwelling) ∧
      t.alu.k = (if t.alu.staging = .released then b else s.alu.k) ∧
      ∀ p : Point,
        let x := t.alu.set.entries[p]
        let sent := (s.node (pointNode p)).sentValue
        let formed := if x.mark = .raised then sent.toNat else x.target
        let old := s.alu.points[p]
        let new := t.alu.points[p]
        x.target = (if s.online p then (s.node (pointNode p)).targetOf s.site.vNom (s.grantOf ps b p) else 0) ∧
        x.power = s.wattsOf p x.target ∧ x.leftOnline = false ∧
        x.mark =
          (if s.online p = false then .offline
          else if (x.target : Int) < sent then .reduction
          else if (x.target : Int) = sent then .unchanged
          else .raised) ∧
        new.value = (if t.alu.staging = .released then x.target else formed) ∧
        (new.value ≠ old.value → new.power = s.wattsOf p new.value) ∧
        new.pendingReduction = (old.pendingReduction || (s.online p && decide (formed < old.value))) ∧
        (t.node (pointNode p)).sequence = (s.node (pointNode p)).sequence +
          (if formed = old.value then 0 else 1) + (if new.value = formed then 0 else 1)

/-- R76, R79 to R83: the admission list with its groups and the fairness swap, the strict walk along it, what the
allocation makes of every session and of the waiting queue, and that in CURTAIL no grant rises. The queue order of
sessions that CURTAIL leaves out is log entry 19.Which budget the allocation takes is log entry 6
(State.TakesBudget, in AllocationFormsANewGrantSet). -/
def Obligations.AllocationMovesTheSessions : Prop :=
  ∀ (s : State) (g1 g2 g3 : List Point), s.Groups g1 g2 g3 →
    let b := s.budgetToTake.1
    let counts := s.budgetToTake.2
    let candidates := (s.listOf g1 g2 g3).1
    let runner := (s.listOf g1 g2 g3).2
    let list := candidates.filter (fun p => !decide (s.lsu.esc = .curtail ∧ (s.session p).grant < s.minPower p))
    let sum : Nat → Nat := fun k => ((list.take k).map s.minPower).sum
    ∃ t k, exec .allocation s = .next t ∧ t.ssu.timeBase = s.ssu.timeBase ∧
      k ≤ list.length ∧ sum k ≤ b ∧ (k < list.length → b < sum (k + 1)) ∧
      let ps := list.take k
      s.admitted b = ps ∧
      t.alu.queue = (s.alu.queue ++ runner.toList).filter (fun p => decide (p ∉ ps)) ++
        candidates.filter (fun p => decide ((s.session p).state = .charging ∧ p ∉ ps ∧ runner ≠ some p)) ∧
      ∀ p : Point,
        let x := s.session p
        let y := t.session p
        y = { x with state := y.state, grant := y.grant, grantAge := y.grantAge, waitCount := y.waitCount } ∧
        (p ∈ ps →
          y.state = .charging ∧ y.grant = s.grantOf ps b p ∧
          (x.state = .charging → runner ≠ some p →
            y.grantAge = (if counts then min 65535 (x.grantAge + 1) else x.grantAge) ∧ y.waitCount = x.waitCount) ∧
          (x.state ≠ .charging ∨ runner = some p → y.grantAge = 0 ∧ y.waitCount = 0)) ∧
        (p ∉ ps → x.state = .charging → s.asksPower p = true →
          y.state = .waiting ∧ y.grant = 0 ∧ y.grantAge = 0 ∧ y.waitCount = 0) ∧
        (p ∉ ps → x.state = .charging → s.asksPower p = false →
          y.state = .charging ∧ y.grant = 0 ∧ y.grantAge = x.grantAge ∧ y.waitCount = x.waitCount) ∧
        (p ∉ ps → x.state = .waiting →
          y.state = .waiting ∧ y.grant = 0 ∧ y.grantAge = x.grantAge ∧
          y.waitCount = (if counts && s.asksPower p then min 65535 (x.waitCount + 1) else x.waitCount)) ∧
        (x.state ≠ .waiting → x.state ≠ .charging → y = x) ∧
        (s.lsu.esc = .curtail → y.grant ≤ x.grant)

/-- R84 to R87: the grants of an allocation sum to at most its budget, and so do the target powers of its set; every
admitted session is granted at least its minimum. Which budget the allocation takes is log entry 6 (State.TakesBudget). -/
def Obligations.AllocationStaysWithinTheBudget : Prop :=
  ∀ s : State,
    let b := s.budgetToTake.1
    ∃ t, exec .allocation s = .next t ∧
      sumPoints (s.grantOf (s.admitted b) b) ≤ b ∧
      sumPoints (fun p => t.alu.set.entries[p].power) ≤ t.alu.set.budget ∧
      ∀ p ∈ s.admitted b, s.minPower p ≤ (t.session p).grant

/-- R84, R85: in SHARED mode the admitted sessions are shared against the budget with weights 2 and 1; in PRIORITY mode
the PRIORITY sessions first, against the budget less the STANDARD minimums, then the STANDARD sessions against what the
PRIORITY grants leave. Every level is the largest whole number of watts whose shares fit. Which budget the allocation takes
is log entry 6 (State.TakesBudget). -/
def Obligations.TheWaterLevelIsTheLargestThatFits : Prop :=
  ∀ s : State,
    let b := s.budgetToTake.1
    let ps := s.admitted b
    let first := ps.filter (fun p => decide ((s.session p).cls = .priority))
    let rest := ps.filter (fun p => decide ((s.session p).cls = .standard))
    ∃ t, exec .allocation s = .next t ∧
      let grant : Point → Nat := fun p => (t.session p).grant
      (s.alu.mode = .shared →
        s.SharedAgainst (fun p => if (s.session p).cls = .priority then 2 else 1) ps b grant) ∧
      (s.alu.mode = .priority →
        s.SharedAgainst (fun _ => 1) first (b - (rest.map s.minPower).sum) grant ∧
        s.SharedAgainst (fun _ => 1) rest (b - (first.map grant).sum) grant) ∧
      ∀ p, s.shareCeiling p =
        let ceiling := max (min ((s.node (pointNode p)).rating s.site.vNom) (s.node (pointNode p)).request) (s.minPower p)
        if s.lsu.esc = .curtail then min ceiling (s.session p).grant else ceiling

/-- R86 for AC points, R87 for DC points: the target of an allocation's entry is the largest set point whose power the
grant covers. Which budget the allocation takes is log entry 6 (State.TakesBudget). -/
def Obligations.TargetsAreTheLargestSetPointsTheGrantCovers : Prop :=
  ∀ (s : State) (p : Point) (value : Nat),
    let b := s.budgetToTake.1
    let g := s.grantOf (s.admitted b) b p
    let n := s.node (pointNode p)
    0 < s.site.vNom → s.online p = true →
      ∃ t, exec .allocation s = .next t ∧
        let x := t.alu.set.entries[p]
        (g = 0 → x.target = 0 ∧ x.power = 0) ∧
        (n.kind = .ac1 ∨ n.kind = .ac3 → 0 < g →
          x.target ≤ n.maximum ∧ s.wattsOf p x.target ≤ g ∧ x.power = s.wattsOf p x.target ∧
          (value ≤ n.maximum → s.wattsOf p value ≤ g → value ≤ x.target) ∧
          (s.minPower p ≤ g → min n.minimum n.maximum ≤ x.target)) ∧
        (n.kind = .dc → x.target = g / 100 ∧ x.power = 100 * (g / 100))

/-- R90, R91: the end of the dwell and a reduction acknowledgement make the staging test; R89 says which report
acknowledges a reduction, which clears the mark of its point alone and starts a dwell. The report is the first of the
point handed on (R112), else the latest of the node table (log entry 6). A withheld raise of a node that left ONLINE after
the formation is not released (R95, R115; log entry 17). -/
def Obligations.AcknowledgementsAndTheDwellReleaseTheRaises : Prop :=
  (∀ s : State,
    ∃ t, exec .dwellEnd s = .next t ∧ s.onlyChanges [.alu, .flc] t ∧ t.alu.dwellOver = true ∧
      (s.alu.staging = .released → t.alu = { s.alu with dwellOver := true } ∧ t.flc = s.flc) ∧
      (s.alu.staging ≠ .released → s.alu.anyPending = true →
        t.alu = { s.alu with dwellOver := true, staging := .reducing } ∧ t.flc = s.flc) ∧
      (s.alu.staging ≠ .released → s.alu.anyPending = false →
        (s.withAlu { s.alu with dwellOver := true }).ReleasedInto t)) ∧
  (∀ (p : Point) (s : State),
    (s.allocatorReport p = none → exec (.reductionAcknowledgement p) s = .next s) ∧
    ∀ before echo report after, s.requests = before ++ .reportToAllocator p echo report :: after →
      (∀ e r, Request.reportToAllocator p e r ∉ before) → s.allocatorReport p = some (echo, report)) ∧
  ∀ (p : Point) (s : State) (echo : Byte) (report : Report), s.allocatorReport p = some (echo, report) →
    let taken := s.alu.points[p].pendingReduction = true ∧
      echo = (s.node (pointNode p)).sequence ∧
      (s.node (pointNode p)).sentValue = s.alu.points[p].value
    let more := ∃ q : Point, q ≠ p ∧ s.alu.points[q].pendingReduction = true
    let cleared : Alu := { s.alu with
      points := s.alu.points.set p { s.alu.points[p] with pendingReduction := false }
      lastAck := some s.now, dwellLength := s.alu.tDwell, dwellOver := false }
    ∃ t, exec (.reductionAcknowledgement p) s = .next t ∧ s.onlyChanges [.alu, .flc, .requests] t ∧
      t.requests = s.requests.erase (.reportToAllocator p echo report) ∧
      (¬taken → t.alu = s.alu ∧ t.flc = s.flc) ∧
      (taken →
        (s.alu.staging = .released → t.alu = cleared ∧ t.flc = s.flc) ∧
        (s.alu.staging ≠ .released → more → t.alu = { cleared with staging := .reducing } ∧ t.flc = s.flc) ∧
        (s.alu.staging ≠ .released → ¬more → 0 < s.alu.tDwell →
          t.alu = { cleared with staging := .dwelling } ∧ t.flc = s.flc) ∧
        (s.alu.staging ≠ .released → ¬more → s.alu.tDwell = 0 →
          (s.withAlu cleared).ReleasedInto t))

/-- R92: the session unit's request stages a reduction to 0 of one point without a new set, and nothing else of the allocator
changes. That a RELEASED set stays RELEASED with the new mark, and a set still staging is REDUCING while a mark is pending,
is log entry 18 (R90). -/
def Obligations.ReductionRequestsStageOnePointToZero : Prop :=
  ∀ (p : Point) (s : State),
    ∃ t, exec (.reductionRequest p) s = .next t ∧ s.onlyChanges [.alu, .flc, .requests] t ∧
      t.requests = s.requests.erase (.reduction p) ∧
      t.alu.set.number = s.alu.set.number ∧ t.alu.set.budget = s.alu.set.budget ∧ t.alu.k = s.alu.k ∧
      t.alu.points[p].value = 0 ∧
      t.alu.set.entries[p].target = 0 ∧ t.alu.set.entries[p].power = 0 ∧
      t.alu.set.entries[p].mark =
        (if s.online p = true ∧ 0 < (s.node (pointNode p)).sentValue then .reduction else .unchanged) ∧
      t.alu.points[p].pendingReduction =
        (s.alu.points[p].pendingReduction || (s.online p && decide (0 < s.alu.points[p].value))) ∧
      (t.node (pointNode p)).sequence =
        (s.node (pointNode p)).sequence + (if s.alu.points[p].value = 0 then 0 else 1) ∧
      (∀ q : Point, q ≠ p → t.alu.points[q] = s.alu.points[q] ∧ t.alu.set.entries[q] = s.alu.set.entries[q]) ∧
      s.otherNodesSame (pointNode p) t ∧
      (s.alu.staging = .released → t.alu.staging = .released) ∧
      (s.alu.staging ≠ .released → (∃ q : Point, t.alu.points[q].pendingReduction = true) →
        t.alu.staging = .reducing) ∧
      ((∀ q : Point, t.alu.points[q].pendingReduction = false) → t.alu.staging = s.alu.staging) ∧
      (s.alu.points[p].value ≠ 0 → t.alu.points[p].power = 0) ∧
      (s.alu.points[p].value = 0 → t.alu.points[p].power = s.alu.points[p].power) ∧
      t.alu.set.entries[p].leftOnline = s.alu.set.entries[p].leftOnline ∧
      t.alu = { s.alu with
        points := t.alu.points, set := { s.alu.set with entries := t.alu.set.entries }, staging := t.alu.staging } ∧
      t.flc = { s.flc with nodes := t.flc.nodes } ∧
      { t.node (pointNode p) with sequence := 0 } = { s.node (pointNode p) with sequence := 0 }

/-! ## Chapter 6: the field link -/

/-- R103, R104, R106, R107, R108: the frame the round sends next, to the first node from the next one to consider on that is not
ABSENT, its bytes as the characters of R103, and what its forming writes into the entry. The next node to consider is then
the one after it (log entry 15). With no round between exchanges, or with a ZERO frame due first, FRAME_SEND changes
nothing (log entry 5). -/
def Obligations.FramesCarryTheValuesInForce : Prop :=
  LinkCharacters ∧
  ∀ (s : State),
    ((¬∃ n, s.flc.Polls n) → exec .frameSend s = .next s) ∧
    ∀ n : Fin 26, s.flc.Polls n →
      let x := s.node n
      let online := x.state = .online
      ∃ t, exec .frameSend s = .next t ∧ s.onlyChanges [.flc] t ∧ s.otherNodesSame n t ∧
        t.flc.running = true ∧
        t.flc = { s.flc with
          nodes := t.flc.nodes, exchange := some ⟨n, false, false⟩, replyTimer := 0, nextNode := n.val + 1
          line := t.flc.line } ∧
        (∀ p : Point, pointNode p = n → s.chargerNode n → online →
          t.node n = { x with
            sentValue := s.alu.points[p].value, sentPower := s.alu.points[p].power, sentFailsafe := x.failsafe } ∧
          t.flc.line = linkBits (linkFrame n.val 0x12
            ([x.sequence] ++ leBytes 2 s.alu.points[p].value ++ leBytes 4 x.failsafe))) ∧
        (s.chargerNode n → ¬online →
          t.node n = { x with sentValue := 0, sentPower := 0, sentFailsafe := x.failsafe } ∧
          t.flc.line = linkBits (linkFrame n.val 0x11
            ([x.sequence] ++ leBytes 1 x.kind.code ++ leBytes 4 x.maximum ++ leBytes 4 x.minimum ++
              leBytes 4 x.failsafe ++ leBytes 4 0))) ∧
        (x.kind = .canopy → online →
          let sequence := if (s.canopyCap : Int) = x.sentValue then x.sequence else x.sequence + 1
          t.node n = { x with sequence, sentValue := s.canopyCap, sentFailsafe := x.failsafe } ∧
          t.flc.line = linkBits (linkFrame n.val 0x13 ([sequence] ++ leBytes 4 s.canopyCap ++ leBytes 4 x.failsafe))) ∧
        (x.kind = .canopy → ¬online →
          let sequence := if x.sentValue = 0 then x.sequence else x.sequence + 1
          t.node n = { x with sequence, sentValue := 0, sentFailsafe := x.failsafe } ∧
          t.flc.line = linkBits (linkFrame n.val 0x11
            ([sequence] ++ leBytes 1 4 ++ leBytes 4 s.bau.pPvRat ++ leBytes 4 0 ++ leBytes 4 x.failsafe ++
              leBytes 4 0))) ∧
        (x.kind = .battery → online →
          let sequence := if s.batteryOrder = x.sentValue then x.sequence else x.sequence + 1
          t.node n = { x with sequence, sentValue := s.batteryOrder } ∧
          t.flc.line = linkBits (linkFrame n.val 0x14 ([sequence] ++ leBytesInt 4 s.batteryOrder))) ∧
        (x.kind = .battery → ¬online →
          let sequence := if x.sentValue = 0 then x.sequence else x.sequence + 1
          t.node n = { x with sequence, sentValue := 0, sentFailsafe := 0 } ∧
          t.flc.line = linkBits (linkFrame n.val 0x11
            ([sequence] ++ leBytes 1 5 ++ leBytes 4 s.bau.pBdMax ++ leBytes 4 s.bau.pBcMax ++ leBytes 4 0 ++
              leBytes 4 0)))

/-- R103, R104, R116: the ZERO frame goes out only between exchanges and only when pending, and clears the mark. -/
def Obligations.TheZeroFrameClearsTheBroadcastMark : Prop :=
  ∀ (s : State),
    ∃ t, exec .zeroFrame s = .next t ∧ s.onlyChanges [.flc] t ∧
      (s.flc.broadcastPending = true → s.flc.exchange = none →
        t.flc = { s.flc with
          broadcastPending := false
          line := linkBits ([0xC5, 0xFF, 0x1F, 0x00] ++ leBytes 2 (crc16 [0xFF, 0x1F, 0x00]).toNat) }) ∧
      (¬(s.flc.broadcastPending = true ∧ s.flc.exchange = none) → t = s)

/-- R104, R106, R109 to R112, R108: the bytes of a REPORT from the polled node are read field by field, and a valid REPORT
updates the entry and is handed on. The round then stands at the first node that is not ABSENT, or ends with none left, in
the same step (log entry 15). -/
def Obligations.ValidReportsUpdateTheEntry : Prop :=
  (∀ (p : Point) (echo fault : Byte) (register power request : Word32) (plugged : Bool) (s : State),
    s.flc.exchange = some ⟨pointNode p, false, false⟩ →
      ∃ t, exec (.replyReceived (linkFrame p.val 0x20
          ([1, echo] ++ leBytes 4 register.toNat ++ leBytes 4 power.toNat ++ leBytes 4 request.toNat ++
            [if plugged then 1 else 0, fault]))) s = .next t ∧
        s.onlyChanges [.flc, .noticesS, .requests] t ∧
        s.ReportTaken (pointNode p) echo (.chargePoint register power.toNat request.toNat plugged fault) t) ∧
  (∀ (echo fault : Byte) (power available : Word32) (s : State),
    s.flc.exchange = some ⟨24, false, false⟩ →
      ∃ t, exec (.replyReceived (linkFrame 24 0x20
          ([2, echo] ++ leBytes 4 power.toNat ++ leBytes 4 available.toNat ++ [fault]))) s = .next t ∧
        s.onlyChanges [.flc, .noticesS] t ∧
        s.ReportTaken 24 echo (.canopy power.toNat available.toNat fault) t) ∧
  ∀ (echo fault : Byte) (power : Word32) (soc : Word16) (s : State),
    s.flc.exchange = some ⟨25, false, false⟩ →
      ∃ t, exec (.replyReceived (linkFrame 25 0x20
          ([3, echo] ++ leBytes 4 power.toNat ++ leBytes 2 soc.toNat ++ [fault]))) s = .next t ∧
        s.onlyChanges [.flc, .noticesS] t ∧
        s.ReportTaken 25 echo (.battery power.toInt soc.toNat fault) t

/-- R90, R95, R102, R106, R109, R110, R113, R114, R117: every exchange that ends without a valid REPORT counts one miss, and a
frame error unless no byte came; the third miss in a row of an ONLINE node makes it LOST: its point drops out of the staging
without a dwell, and the staging test is made (the entry's leftOnline: log entry 17). A reply fails by its first byte, CRC,
address, kind, variant, length or plug state, or when the node's kind has changed meanwhile (log entry 16). The reply of
a node removed meanwhile changes no entry, nor does an exchange with it that ends without one (log entry 52), and without
an exchange nothing happens. The round then stands at the first node that is not ABSENT, or ends with none left, in the same
step (log entry 15). -/
def Obligations.MissesAreCountedAndTheThirdLosesTheNode : Prop :=
  (∀ (c : Instr) (s : State),
    c ∈ [.replyTimeout, .replySilence, .linkCharacterError .overrun, .linkCharacterError .parity,
        .linkCharacterError .framing, .lengthFieldAbove16] →
      ∃ t, exec c s = .next t ∧ s.onlyChanges [.flc, .alu, .ssu, .noticesS, .noticesC] t ∧
        (s.flc.exchange = none → t = s) ∧
        (∀ x, s.flc.exchange = some x → x.removed = false → s.MissTaken x.node (decide (c ≠ .replyTimeout)) t) ∧
        (∀ x, s.flc.exchange = some x → x.removed = true →
          s.flc.ExchangeEnded t.flc ∧ ∀ n, t.node n = s.node n)) ∧
  (∀ (bytes : List Byte) (s : State), s.flc.exchange = none → exec (.replyReceived bytes) s = .next s) ∧
  ∀ (x : Exchange) (bytes : List Byte) (s : State),
    s.flc.exchange = some x → WellFormed (.replyReceived bytes) = true →
      ∃ t, exec (.replyReceived bytes) s = .next t ∧
        (x.removed = true →
          s.onlyChanges [.flc] t ∧ s.flc.ExchangeEnded t.flc ∧ ∀ n, t.node n = s.node n) ∧
        (x.removed = false → replyFails x bytes →
          s.onlyChanges [.flc, .alu, .ssu, .noticesS, .noticesC] t ∧ s.MissTaken x.node true t)

/-- R99, R100, R95, R90, R117: CONFIGURE POINT on port S; a kind change is noted in the exchange in progress with the node (log
entry 16), and with it an ONLINE node leaves ONLINE: the staging test is made, no dwell starts (the entry's leftOnline: log
entry 17). -/
def Obligations.ConfigurePointEnrolsOrChangesACharger : Prop :=
  (∀ (point kind : Byte) (a b f : Word32) (s : State),
    24 ≤ point.toNat ∨ (kind ≠ 1 ∧ kind ≠ 2 ∧ kind ≠ 3) →
      ∃ t, exec (.configurePoint .s point kind a b f) s = .next t ∧ s.turnedAway .s .refused .badValue t) ∧
  ∀ (p : Point) (k : NodeKind) (kind : Byte) (a b f : Word32) (s : State),
    kindOperand kind = some k →
    let x := s.node (pointNode p)
    let maximum := if k = .dc then max 1400 (min 150000 a.toNat) else max 60 (min 800 a.toNat)
    let minimum := if k = .dc then min 20000 b.toNat else max 60 (min 160 b.toNat)
    let failsafe := min f.toNat maximum
    ∃ t, exec (.configurePoint .s (BitVec.ofNat 8 p.val) kind a b f) s = .next t ∧
      (x.kind ≠ k ∧ (s.session p).state ≠ .free → s.turnedAway .s .busy .state t) ∧
      (¬(x.kind ≠ k ∧ (s.session p).state ≠ .free) →
        s.answered .s
          (okReply (decide (¬(a.toNat = maximum ∧ b.toNat = minimum ∧ f.toNat = failsafe))) []) t ∧
        s.onlyChanges [.flc, .alu, .replies] t ∧
        (t.node (pointNode p)).kind = k ∧ (t.node (pointNode p)).maximum = maximum ∧
        (t.node (pointNode p)).minimum = minimum ∧ (t.node (pointNode p)).failsafe = failsafe ∧
        (t.node (pointNode p)).sentValue = x.sentValue ∧ (t.node (pointNode p)).sentPower = x.sentPower ∧
        (t.node (pointNode p)).sentFailsafe = x.sentFailsafe ∧
        (t.node (pointNode p)).frameErrors = x.frameErrors ∧ (t.node (pointNode p)).replyCount = x.replyCount ∧
        { t.flc with nodes := s.flc.nodes, exchange := s.flc.exchange } = s.flc ∧
        s.otherNodesSameButSequences (pointNode p) t ∧
        (x.state ≠ .online ∨ x.kind = k → t.alu = s.alu ∧ s.otherNodesSame (pointNode p) t) ∧
        (x.state = .absent →
          t.node (pointNode p) = { x with kind := k, maximum, minimum, failsafe, state := .joining } ∧
          t.flc.exchange = s.flc.exchange) ∧
        (x.state ≠ .absent → x.kind = k →
          t.node (pointNode p) = { x with kind := k, maximum, minimum, failsafe } ∧
          t.flc.exchange = s.flc.exchange) ∧
        (x.state ≠ .absent → x.kind ≠ k →
          (t.node (pointNode p)).state = .joining ∧ (t.node (pointNode p)).misses = 0 ∧
          (t.node (pointNode p)).report = none ∧ (t.node (pointNode p)).lastEcho = none ∧
          t.flc.exchange = s.flc.exchangeMarked (pointNode p) (fun e => { e with kindChanged := true })) ∧
        (x.state = .online → x.kind ≠ k → s.LeftOnline p t) ∧
        (x.state ≠ .online → (t.node (pointNode p)).sequence = x.sequence))

/-- R102, R95, R90, R106: REMOVE POINT on port S. An ONLINE charge point leaves ONLINE: the staging test is made, no dwell
starts (the entry's leftOnline: log entry 17). The exchange in progress with the node is marked, so that its reply will
change no count; between exchanges the round moves on to the first node that is not ABSENT, or ends with none left, in the
same step (log entry 15). -/
def Obligations.RemovePointClearsTheEntry : Prop :=
  (∀ (node : Byte) (s : State), 26 ≤ node.toNat →
    ∃ t, exec (.removePoint .s node) s = .next t ∧ s.turnedAway .s .refused .badValue t) ∧
  ∀ (n : Fin 26) (s : State),
    let x := s.node n
    let busy := ∃ p : Point, pointNode p = n ∧ (s.session p).state ≠ .free
    ∃ t, exec (.removePoint .s (BitVec.ofNat 8 n.val)) s = .next t ∧
      (busy → s.turnedAway .s .busy .state t) ∧
      (¬busy → x.state = .absent → s.answered .s (okReply false []) t ∧ s.onlyChanges [.replies] t) ∧
      (¬busy → x.state ≠ .absent →
        s.answered .s (okReply false []) t ∧ s.onlyChanges [.flc, .alu, .replies] t ∧
        (t.node n).state = .absent ∧ (t.node n).report = none ∧ (t.node n).lastEcho = none ∧
        (t.node n).misses = 0 ∧ (t.node n).frameErrors = 0 ∧ (t.node n).replyCount = 0 ∧
        (t.node n).sentValue = 0 ∧ (t.node n).sentPower = 0 ∧ (t.node n).sentFailsafe = 0 ∧
        t.flc.exchange = s.flc.exchangeMarked n (fun e => { e with removed := true }) ∧
        (s.flc.exchange ≠ none →
          t.flc.running = s.flc.running ∧ t.flc.nextNode = s.flc.nextNode ∧
          t.flc.startPending = s.flc.startPending ∧ t.flc.inForce = s.flc.inForce) ∧
        (s.flc.exchange = none → Flc.RoundMoved { s.flc with nodes := t.flc.nodes } t.flc) ∧
        t.flc.held = s.flc.held ∧ t.flc.overruns = s.flc.overruns ∧ t.flc.line = s.flc.line ∧
        t.flc.broadcastPending = s.flc.broadcastPending ∧
        s.otherNodesSameButSequences n t ∧
        (x.state ≠ .online → t.alu = s.alu ∧ s.otherNodesSame n t ∧ (t.node n).sequence = x.sequence) ∧
        (n.val < 24 → (t.node n).kind = .notConfigured ∧ (t.node n).maximum = 0 ∧ (t.node n).minimum = 0 ∧
          (t.node n).failsafe = 0) ∧
        (24 ≤ n.val → (t.node n).kind = x.kind ∧ (t.node n).failsafe = x.failsafe ∧ t.alu = s.alu ∧
          (t.node n).sequence = x.sequence ∧ s.otherNodesSame n t) ∧
        ∀ p : Point, pointNode p = n → x.state = .online → s.LeftOnline p t)

/-- R40, R41, R101: SET BATTERY and SET CANOPY on port S. -/
def Obligations.SetBatteryAndSetCanopyEnrolTheirNodes : Prop :=
  (∀ (d c : Word32) (lo hi : Word16) (s : State),
    let d' := min d.toNat 2000000
    let c' := min c.toNat 2000000
    let lo' := min lo.toNat 1000
    let hi' := min hi.toNat 1000
    ∃ t, exec (.setBattery .s d c lo hi) s = .next t ∧
      (hi' ≤ lo' → s.turnedAway .s .refused .badValue t) ∧
      (lo' < hi' →
        s.answered .s
          (okReply (decide (¬(d.toNat = d' ∧ c.toNat = c' ∧ lo.toNat = lo' ∧ hi.toNat = hi'))) []) t ∧
        s.onlyChanges [.bau, .flc, .replies] t ∧ s.otherNodesSame 25 t ∧
        t.bau = { s.bau with pBdMax := d', pBcMax := c', socLo := lo', socHi := hi' } ∧
        t.node 25 = { s.node 25 with
          state := if (s.node 25).state = .absent then .joining else (s.node 25).state })) ∧
  ∀ (rating failsafe : Word32) (s : State),
    let r := min rating.toNat 1000000
    let f := min failsafe.toNat r
    ∃ t, exec (.setCanopy .s rating failsafe) s = .next t ∧
      s.answered .s (okReply (decide (¬(rating.toNat = r ∧ failsafe.toNat = f))) []) t ∧
      s.onlyChanges [.bau, .flc, .replies] t ∧ s.otherNodesSame 24 t ∧
      t.bau = { s.bau with pPvRat := r } ∧
      t.node 24 = { s.node 24 with
        failsafe := f, state := if (s.node 24).state = .absent then .joining else (s.node 24).state }

/-- R1, R103, R188: SET SITE on port S, its three clamps and the bit-rate code. -/
def Obligations.SetSiteHoldsTheNewPeriodAndLinkSettings : Prop :=
  ∀ (bal v : Word16) (rate reply : Byte) (s : State),
    let bal' := if bal.toNat < 250 then 250 else if 2000 < bal.toNat then 2000 else bal.toNat / 50 * 50
    let v' := max 200 (min 260 v.toNat)
    let reply' := max 2 (min 50 reply.toNat)
    ∃ t, exec (.setSite .s bal v rate reply) s = .next t ∧
      (rate ≠ 1 ∧ rate ≠ 2 ∧ rate ≠ 3 → s.turnedAway .s .refused .badValue t) ∧
      ∀ r : BitRate, rateOperand rate = some r →
        s.answered .s (okReply (decide (¬(bal.toNat = bal' ∧ v.toNat = v' ∧ reply.toNat = reply'))) []) t ∧
        s.onlyChanges [.site, .flc, .replies] t ∧
        t.site = ⟨bal', v'⟩ ∧ t.flc = { s.flc with held := ⟨r, reply'⟩ }

/-- R106, R103: a close starts a poll round at the first node that is not ABSENT with the held link settings, or,
while a round runs, counts an overrun and marks a start pending. ABSENT nodes are passed over at once (log entry 15).
-/
def Obligations.APeriodCloseStartsAPollRound : Prop :=
  ∀ (x : Stretch) (s : State),
    ∃ t, exec (.periodClose x) s = .next t ∧
      t.flc.exchange = s.flc.exchange ∧ t.flc.line = s.flc.line ∧ t.flc.held = s.flc.held ∧
      (s.flc.running = true →
        t.flc.running = true ∧ t.flc.nextNode = s.flc.nextNode ∧ t.flc.startPending = true ∧
        t.flc.overruns = min 65535 (s.flc.overruns + 1) ∧ t.flc.inForce = s.flc.inForce) ∧
      (s.flc.running = false →
        t.flc.startPending = false ∧ t.flc.overruns = s.flc.overruns ∧ t.flc.inForce = s.flc.held ∧
        ((∀ n, (s.node n).state = .absent) → t.flc.running = false) ∧
        ∀ n, (s.node n).state ≠ .absent → (∀ m, m < n → (s.node m).state = .absent) →
          t.flc.running = true ∧ t.flc.nextNode = n.val)

/-! ## Chapters 4 and 7: sessions and metering -/

/-- R61 step 1, R121 to R129: the delta of a report is set aside, disputed, or divided into the accounts of one band, the
band in force in the session's own edition at the calendar's minute of day (R127).
A report on a FREE or OPENING session, or on a CLOSING one whose wait has ended, is not accounted (R60, R70). The report
is the first of the point handed on (R112), which leaves the requests between units with it, else the latest of the node
table (log entry 6). A session's first report is held against the stored T_bal (log entry 29). -/
def Obligations.ReportsAreAccountedOnce : Prop :=
  ∀ (p : Point) (s : State) (echo : Byte) (register : Word32) (power request : Nat) (plugged : Bool) (fault : Byte),
    s.reportToTake p = some (echo, .chargePoint register power request plugged fault) →
      let taken := s.requests.erase (.reportToSession p echo (.chargePoint register power request plugged fault))
      ∃ t, exec (.sessionReport p) s = .next t ∧
        s.onlyChanges [.ssu, .alu, .rlg, .noticesC, .requests] t ∧ s.arraySame t ∧ s.otherSessionsSame p t ∧
        t.requests =
          (if (s.session p).state = .charging ∧ (t.session p).state ≠ .charging then taken ++ [.reduction p]
          else taken) ∧
        ((s.session p).running ∨ (s.session p).waitRuns = true → s.DeltaTaken p register t) ∧
        (¬((s.session p).running ∨ (s.session p).waitRuns = true) →
          (t.session p).accounts = (s.session p).accounts ∧ (t.session p).disputed = (s.session p).disputed ∧
          (t.session p).lastMeter = (s.session p).lastMeter ∧ (t.session p).lastReport = (s.session p).lastReport)

/-- R60, R61 steps 2 to 4, R62, R68, R69, R70: what a report's echo, plug state and request do to the session's state.
The report is the first of the point handed on (R112), else the latest of the node table (log entry 6). A report of a FREE
session is disregarded, and with none to take nothing happens. The report leaves the requests between units, and nothing
joins them but the reduction of a session that leaves CHARGING. That the final-wait count is absent once the wait has
ended is log entry 20. -/
def Obligations.ReportsMoveTheSession : Prop :=
  (∀ (p : Point) (s : State),
    (s.reportToTake p = none → exec (.sessionReport p) s = .next s) ∧
    (∀ echo report, s.reportToTake p = some (echo, report) → (s.session p).state = .free →
      exec (.sessionReport p) s = .next (s.takeRequest (.reportToSession p echo report))) ∧
    ∀ before echo report after, s.requests = before ++ .reportToSession p echo report :: after →
      (∀ e r, Request.reportToSession p e r ∉ before) → s.reportToTake p = some (echo, report)) ∧
  ∀ (p : Point) (s : State) (echo : Byte) (register : Word32) (power request : Nat) (plugged : Bool) (fault : Byte),
    s.reportToTake p = some (echo, .chargePoint register power request plugged fault) →
      let taken := s.takeRequest (.reportToSession p echo (.chargePoint register power request plugged fault))
      ∃ t, exec (.sessionReport p) s = .next t ∧
        let x := s.session p
        let y := t.session p
        let final := s.online p && decide (echo = (s.node (pointNode p)).sequence) &&
          decide ((s.node (pointNode p)).sentValue = 0)
        (x.waitRuns = true → final = true →
          y.finalWait = none ∧ y.state = .closing ∧ y.priced.isSome = true ∧
          t.rlg = s.rlg.afterJoin ⟨.closing p y.closingPart, x.number, x.slot, 0⟩) ∧
        (x.waitRuns = true → final = false →
          y.finalWait = x.finalWait ∧ y.priced = x.priced ∧ t.rlg = s.rlg) ∧
        (plugged = false → x.running →
          y.state = .closing ∧ y.grant = 0 ∧ y.ending = some ⟨.unplugged, s.tfu.calendar⟩ ∧ y.finalWait = some 0 ∧
          taken.Withdrawn p t) ∧
        (plugged = false → x.state = .opening →
          y.state = .opening ∧ y.pendingClose = some (x.pendingClose.getD .unplugged)) ∧
        (plugged = true → x.state = .waiting ∨ x.state = .charging →
          (request ≠ 0 → y.state = x.state ∧ y.zeroRequests = 0) ∧
          (request = 0 → x.zeroRequests < 2 → y.state = x.state ∧ y.zeroRequests = x.zeroRequests + 1) ∧
          (request = 0 → 2 ≤ x.zeroRequests →
            y.state = .done ∧ y.zeroRequests = 3 ∧ y.grant = 0 ∧
            t.noticesC = s.noticesC.raise 5 [p.val] ∧ taken.Withdrawn p t)) ∧
        (plugged = true → x.state = .done →
          (request = 0 → y.state = .done ∧ y.zeroRequests = x.zeroRequests) ∧
          (request ≠ 0 → y.state = .waiting ∧ y.zeroRequests = 0 ∧ y.waitCount = 0 ∧
            t.alu.queue = s.alu.queue ++ [p])) ∧
        (plugged = true → x.state = .stopped → y.state = .stopped ∧ y.zeroRequests = x.zeroRequests) ∧
        (plugged = true → x.state = .opening → t = taken) ∧
        (x.state = .closing → x.waitRuns = false → t = taken) ∧
        t.requests =
          if x.state = .charging ∧ y.state ≠ .charging then taken.requests ++ [.reduction p] else taken.requests

/-- R64, R65, R66: PAUSE SESSION on port C writes the pause flag, HOLD POINT on port S the hold flag, and the stop
rule follows. -/
def Obligations.PauseAndHoldApplyTheStopRule : Prop :=
  ∀ (hold : Bool) (point setting : Byte) (s : State),
    let c : Instr := if hold then .holdPoint .s point setting else .pauseSession .c point setting
    let port : Port := if hold then .s else .c
    ∃ t, exec c s = .next t ∧
      (24 ≤ point.toNat ∨ (setting ≠ 0 ∧ setting ≠ 1) → s.turnedAway port .refused .badValue t) ∧
      ∀ p : Point, point = BitVec.ofNat 8 p.val → setting = 0 ∨ setting = 1 →
        let x := s.session p
        let flagged : Session :=
          { x with
            hold := if hold then decide (setting = 1) else x.hold
            pause := if hold then x.pause else decide (setting = 1) }
        (¬x.running → s.turnedAway port .refused .state t) ∧
        (x.running →
          s.answered port (okReply false []) t ∧ s.onlyChanges [.ssu, .alu, .requests, .replies] t ∧
          s.otherSessionsSame p t ∧
          (flagged.pause = true ∨ flagged.hold = true → x.state ≠ .stopped →
            t.session p = { flagged with state := .stopped, grant := 0 } ∧ s.Withdrawn p t) ∧
          (flagged.pause = false → flagged.hold = false → x.state = .stopped →
            t.session p = { flagged with state := .waiting, waitCount := 0, zeroRequests := 0 } ∧
            t.alu.queue = s.alu.queue ++ [p] ∧ t.requests = s.requests) ∧
          (((flagged.pause = true ∨ flagged.hold = true) ↔ x.state = .stopped) →
            t.session p = flagged ∧ t.alu = s.alu ∧ t.requests = s.requests))

/-- R75: SET CLASS on port C. -/
def Obligations.SetClassWritesTheClassOfAnOpenSession : Prop :=
  ∀ (point cls : Byte) (s : State),
    ∃ t, exec (.setClass .c point cls) s = .next t ∧
      (24 ≤ point.toNat ∨ (cls ≠ 0 ∧ cls ≠ 1) → s.turnedAway .c .refused .badValue t) ∧
      ∀ p : Point, point = BitVec.ofNat 8 p.val → cls = 0 ∨ cls = 1 →
        ((s.session p).state = .free → s.turnedAway .c .refused .state t) ∧
        ((s.session p).state ≠ .free →
          s.answered .c (okReply false []) t ∧ s.onlyChanges [.ssu, .replies] t ∧ s.otherSessionsSame p t ∧
          t.ssu.timeBase = s.ssu.timeBase ∧
          t.session p = { s.session p with cls := if cls = 1 then .priority else .standard })

/-- R56, R57, R155, R158, R159: the checks of OPEN SESSION in their order, and what an accepted one does: the record, the
number, the slot at the fill position, which moves on, and the request. The reservation's erase test comes after the
number is assigned and before the request joins the queue (log entry 25). -/
def Obligations.OpenSessionChecksInOrderAndFillsTheRecord : Prop :=
  ∀ (point cls : Byte) (customer : Word32) (s : State),
    ∃ t, exec (.openSession .c point customer cls) s = .next t ∧
      (24 ≤ point.toNat ∨ (cls ≠ 0 ∧ cls ≠ 1) → s.turnedAway .c .refused .badValue t) ∧
      ∀ p : Point, point = BitVec.ofNat 8 p.val → cls = 0 ∨ cls = 1 →
        let x := s.session p
        if s.rlg.logState = .starting then s.turnedAway .c .busy .starting t
        else if s.rlg.logState = .fault then s.turnedAway .c .refused .storeFault t
        else if s.tfu.calendarValid = false then s.turnedAway .c .refused .noTime t
        else if s.tfu.current = none then s.turnedAway .c .refused .noTariff t
        else if s.lsu.esc = .tripped then s.turnedAway .c .refused .tripped t
        else if s.online p = false then s.turnedAway .c .refused .notReady t
        else if x.state ≠ .free then s.turnedAway .c .busy .state t
        else if s.rlg.erasedCount ≤ 4 then s.turnedAway .c .refused .noSpace t
        else ∀ slot, s.rlg.fill = some slot → ∀ h, s.tfu.current = some h →
          let y := t.session p
          let band := bandAt h.edition.schedule (s.tfu.calendar.toNat % 86400 / 60)
          let k : SessionClass := if cls = 1 then .priority else .standard
          s.answered .c (acceptedReply (leBytes 4 s.rlg.nextNumber)) t ∧
          s.onlyChanges [.ssu, .tfu, .rlg, .noticesS, .noticesC, .replies] t ∧ s.otherSessionsSame p t ∧
          s.arraySame t ∧
          y = { Session.free with
            state := .opening, number := s.rlg.nextNumber, slot, customer, cls := k, edition := h.edition.number
            tariffSlot := .current, openTime := s.tfu.calendar
            meterStart := (s.node (pointNode p)).register, lastMeter := (s.node (pointNode p)).register } ∧
          t.tfu = { s.tfu with current := some { h with refs := h.refs + 1 } } ∧
          (s.rlg.nextNumber < 4294967295 → t.rlg.nextNumber = s.rlg.nextNumber + 1) ∧
          t.rlg.slotState slot = .reserved ∧ (∀ q, q ≠ slot → t.rlg.slotState q = s.rlg.slotState q) ∧
          s.rlg.FillMoved slot t.rlg ∧
          t.rlg.queue = s.rlg.queue ++
            [⟨.opening p
                ⟨s.rlg.nextNumber, p.val, k, h.edition.number, customer, s.tfu.calendar, y.meterStart,
                  h.edition.bands[band].standard, h.edition.sessionFee⟩,
              s.rlg.nextNumber, slot, 0⟩]

/-- R67, R69: CLOSE SESSION on port C. -/
def Obligations.CloseSessionStartsTheClose : Prop :=
  ∀ (point : Byte) (s : State),
    ∃ t, exec (.closeSession .c point) s = .next t ∧
      (24 ≤ point.toNat → s.turnedAway .c .refused .badValue t) ∧
      ∀ p : Point, point = BitVec.ofNat 8 p.val →
        (¬(s.session p).running → s.turnedAway .c .refused .state t) ∧
        ((s.session p).running →
          s.answered .c (acceptedReply (leBytes 4 (s.session p).number)) t ∧
          s.onlyChanges [.ssu, .alu, .requests, .replies] t ∧ s.CloseStarted p .customer t)

/-! ## Chapter 8: tariffs and amounts -/

/-- R138, R139: LOAD TARIFF on port C. -/
def Obligations.LoadTariffChecksInOrderAndPlacesTheEdition : Prop :=
  ∀ (x : TariffOperand) (s : State),
    let places := x.places.toList.take x.count.toNat
    ∃ t, exec (.loadTariff .c x) s = .next t ∧
      (tariffNumberBad s.tfu x ∨ tariffPermissionBad x → s.turnedAway .c .refused .badValue t) ∧
      (¬tariffNumberBad s.tfu x → ¬tariffPermissionBad x → tariffScheduleBad x →
        s.turnedAway .c .refused .badSchedule t) ∧
      (¬tariffNumberBad s.tfu x → ¬tariffPermissionBad x → ¬tariffScheduleBad x → previousReferenced s.tfu →
        s.turnedAway .c .refused .inUse t) ∧
      (¬tariffNumberBad s.tfu x → ¬tariffPermissionBad x → ¬tariffScheduleBad x → ¬previousReferenced s.tfu →
        s.answered .c
          (okReply
            (decide ((∃ b ∈ x.bands.toList, b.standard.toNat < b.solar.toNat) ∨ 240 < x.idleGrace.toNat)) []) t ∧
        s.onlyChanges [.tfu, .ssu, .replies] t ∧
        t.tfu = { s.tfu with
          previous := s.tfu.current
          current := some
            { refs := 0
              edition :=
                { number := x.edition
                  bands := x.bands.map (fun b =>
                    ⟨b.standard.toNat, min b.solar.toNat b.standard.toNat, decide (b.permission = 1)⟩)
                  schedule := places.map (fun q => ⟨q.minute.toNat, Fin.ofNat 4 q.band.toNat⟩)
                  sessionFee := x.sessionFee.toNat
                  idleFee := x.idleFee.toNat
                  idleGrace := min x.idleGrace.toNat 240
                  idleCap := x.idleCap.toNat } } } ∧
        ∀ p, t.session p =
          if (s.session p).state = .free then s.session p else { s.session p with tariffSlot := .previous })

/-- R70, R71, R147 to R150: the end of a final-meter wait prices the session by its own edition: energy to the nearest
cent with a half rounded up, idle minutes after the grace rounded up, the cap, and the saturating total. -/
def Obligations.TheEndOfTheWaitPricesTheSession : Prop :=
  ∀ (p : Point) (s : State) (e : Edition), (s.session p).waitRuns = true →
    s.tfu.editionOf (s.session p) = some e →
      let x := s.session p
      let cost : Fin 4 → Nat := fun b =>
        x.accounts.pv[b] * e.bands[b].solar + (x.accounts.bat[b] + x.accounts.grid[b]) * e.bands[b].standard
      let product := cost 0 + cost 1 + cost 2 + cost 3
      let late := x.idleSeconds - 60 * e.idleGrace
      ∃ t m, exec (.finalWaitExpiry p) s = .next t ∧ (t.session p).priced = some m ∧
        m.meterEnd = x.lastMeter ∧
        1000000 * m.energy ≤ product + 500000 ∧ product + 500000 < 1000000 * m.energy + 1000000 ∧
        m.idle =
          (if e.idleCap = 0 then min ((late + 59) / 60 * e.idleFee) 4294967295
          else min ((late + 59) / 60 * e.idleFee) e.idleCap) ∧
        m.total = min (e.sessionFee + m.energy + m.idle) 4294967295

/-! ## Settings -/

/-- R189, R96, R19, R41, R145, R169, R170: SET POLICY, SET TIME and SET RETENTION on port S. A retention set during an
erase is held; set at any other time outside the scan it is followed by the erase test, of which the last clauses say
the whole. In STARTING there is no test before that of the scan (log entry 26). The oldest FULL sector is log entry 27, the
erase time of the erase that starts log entry 24. -/
def Obligations.SettingCommandsReplaceTheirSettings : Prop :=
  (∀ (x : PolicyOperand) (s : State),
    let fair := max 1 x.tFair.toNat
    let run := max 1 x.tRun.toNat
    let dwell := min 10000 x.tDwell.toNat
    let clear := max 5 x.tClear.toNat
    let grace := max 1 (min 30 x.tGrace.toNat)
    let safe := min 4000000 x.bSafe.toNat
    ∃ t, exec (.setPolicy .s x) s = .next t ∧
      (x.mode ≠ 0 ∧ x.mode ≠ 1 → s.turnedAway .s .refused .badValue t) ∧
      (x.mode = 0 ∨ x.mode = 1 →
        s.answered .s
          (okReply
            (decide (¬(x.tFair.toNat = fair ∧ x.tRun.toNat = run ∧ x.tDwell.toNat = dwell ∧ x.tClear.toNat = clear ∧
              x.tGrace.toNat = grace ∧ x.bSafe.toNat = safe))) []) t ∧
        s.onlyChanges [.alu, .lsu, .bau, .replies] t ∧
        t.alu = { s.alu with
          mode := if x.mode = 1 then .priority else .shared, tFair := fair, tRun := run, tDwell := dwell } ∧
        t.lsu = { s.lsu with tClear := clear, tGrace := grace } ∧
        t.bau = { s.bau with bSafe := safe })) ∧
  (∀ (calendar : Word32) (s : State),
    ∃ t, exec (.setTime .s calendar) s = .next t ∧ s.answered .s (okReply false []) t ∧
      s.onlyChanges [.tfu, .replies] t ∧ t.tfu = { s.tfu with calendar, calendarValid := true }) ∧
  ∀ (retention : Word16) (s : State),
    let kept := min retention.toNat 1024
    let r := { s.rlg with rRet := kept }
    ∃ t, exec (.setRetention .s retention) s = .next t ∧
      s.answered .s (okReply (decide (1024 < retention.toNat)) []) t ∧
      s.onlyChanges [.rlg, .noticesS, .noticesC, .replies] t ∧
      (s.rlg.erase.isSome = true →
        t.rlg = { s.rlg with heldRet := some kept } ∧ t.noticesS = s.noticesS ∧ t.noticesC = s.noticesC) ∧
      (s.rlg.erase = none → s.rlg.logState = .starting →
        t.rlg = r ∧ t.noticesS = s.noticesS ∧ t.noticesC = s.noticesC) ∧
      (s.rlg.erase = none → s.rlg.logState ≠ .starting →
        let due : Fin 16 → Prop := fun k =>
          s.rlg.logState = .ready ∧ s.rlg.erasedCount < 256 ∧ s.rlg.oldestFull = some k ∧
            ∀ i, i < 128 → r.slotIsDone (128 * k.val + i)
        let low := s.rlg.erasedCount < 256 ∧ ∀ k, ¬due k
        (t.rlg.spaceLow = true ↔ low) ∧
        (low ∧ s.rlg.spaceLow = false →
          t.noticesS = s.noticesS.raise 3 [] ∧ t.noticesC = s.noticesC.raise 3 []) ∧
        (¬(low ∧ s.rlg.spaceLow = false) → t.noticesS = s.noticesS ∧ t.noticesC = s.noticesC) ∧
        (∀ k, due k → s.rlg.queue = [] →
          t.rlg = { r with
            sectors := r.sectors.set k .erasing
            erase := some ⟨k, 0, 0, (Config.eraseTime k).val, false⟩
            spaceLow := t.rlg.spaceLow }) ∧
        ((∀ k, ¬due k) ∨ s.rlg.queue ≠ [] → t.rlg = { r with spaceLow := t.rlg.spaceLow }))

/-! ## Chapter 9: the receipt log -/

/-- R159, R169 to R172: no program is carried out while an erase runs. A request that waits has the erase suspended once
20 ms of progress have accumulated, unless it joined with less than 20 ms of the erase time remaining; the erase resumes
when the queue becomes empty, and completes when its progress has reached the time (log entry 24). It leaves its sector
erased, its header with the next number, and its numbers out of the index; each attempt at the header turns bits from 1
to 0 only (what reaches it, an attempt not listed taking what was asked: log entry 10), and the third failure enters FAULT. The erase test follows each of its events (the numbers it sees at a
reservation: log entry 25), but for one that the entry into FAULT overtakes. The oldest FULL sector is log entry 27; that
an erase stopped by FAULT (R165) is none in progress for the space-low mark is log entry 42. -/
def Obligations.ProgramsAndErasesShareTheArray : Prop :=
  (∀ s : State,
    ∃ t, exec .programStart s = .next t ∧ s.onlyChanges [.rlg] t ∧
      t.rlg = { s.rlg with programming := s.rlg.programming || (!s.rlg.queue.isEmpty && !s.rlg.erasing) }) ∧
  (∀ (o : ProgramOutcome) (c : Instr) (s : State),
    c ∈ [.openingProgram o, .closingProgram o, .relocation o, .collectProgram o, .orphanClosing o] →
      s.rlg.erasing = true ∨ s.rlg.queue = [] → exec c s = .next s) ∧
  (∀ s : State,
    ∃ t, exec .eraseSuspend s = .next t ∧ s.onlyChanges [.rlg] t ∧
      (s.rlg.erasing = false ∨ s.rlg.queue = [] → t = s) ∧
      ∀ e, s.rlg.erase = some e → s.rlg.erasing = true → s.rlg.queue ≠ [] →
        t.rlg =
          if 20 ≤ e.sinceResume ∧ e.completesFirst = false then
            { s.rlg with sectors := s.rlg.sectors.set e.sector .eraseSuspended }
          else s.rlg) ∧
  (∀ (c : Instr) (s t : State), (∀ left, c ≠ .deviceReset left) → exec c s = .next t →
    (t.rlg.logState = s.rlg.logState ∨ (∃ xs, c = .startupScan xs) → s.rlg.testEvent t.rlg → t.rlg.Tested) ∧
    (s.rlg.spaceLow = false → t.rlg.spaceLow = true →
      t.noticesS.pending.getLsbD 3 = true ∧ t.noticesC.pending.getLsbD 3 = true) ∧
    ∀ e, s.rlg.queue ≠ [] → t.rlg.queue = [] → t.rlg.logState ≠ .fault → s.rlg.erase = some e →
      s.rlg.sectors[e.sector] = .eraseSuspended → (s.rlg.fill ≠ none → s.rlg.lastActive ≠ e.sector) →
        t.rlg.sectors[e.sector] = .erasing ∧ t.rlg.erase = some { e with sinceResume := 0 }) ∧
  ∀ (o : HeaderOutcome) (s : State),
    (s.rlg.erasing = false → exec (.eraseComplete o) s = .next s) ∧
    ∀ e, s.rlg.erase = some e → s.rlg.erasing = true →
      let inside : Nat → Prop := fun slot => 128 * e.sector.val ≤ slot ∧ slot < 128 * (e.sector.val + 1)
      let asked := BitVec.ofNat 64 s.rlg.nextNumber
      let good := ∃ j : Fin 3, heldAfter o.attempts asked (j.val + 1) = asked
      (e.progress < e.time → exec (.eraseComplete o) s = .next s) ∧
      (e.time ≤ e.progress → ∃ t, exec (.eraseComplete o) s = .next t ∧
        (∀ a, (inside (a / 128) → t.rlg.readByte a = 0xFF) ∧
          (¬inside (a / 128) → ¬(headerAddress e.sector ≤ a ∧ a < headerAddress e.sector + 8) →
            t.rlg.readByte a = s.rlg.readByte a)) ∧
        t.rlg.rawBytes (headerAddress e.sector) 8 =
          leBytes 8 (if good then asked else heldAfter o.attempts asked 3).toNat ∧
        (∀ slot, (inside slot → t.rlg.slotState slot = .erased) ∧
          (¬inside slot → t.rlg.slotState slot = s.rlg.slotState slot)) ∧
        (∀ x, x ∈ t.rlg.index ↔ x ∈ s.rlg.index ∧ ¬inside x.2) ∧
        t.rlg.nextNumber = s.rlg.nextNumber ∧ t.rlg.rRet = s.rlg.heldRet.getD s.rlg.rRet ∧ t.rlg.heldRet = none ∧
        t.rlg.sectors[e.sector] =
          (if s.rlg.fill = none ∧ e.sector = s.rlg.lastActive + 1 then .active else .free) ∧
        (good →
          s.onlyChanges [.rlg, .noticesS, .noticesC] t ∧ t.rlg.logState = s.rlg.logState ∧
            t.rlg.queue = s.rlg.queue) ∧
        (¬good → s.FaultTaken [] none t ∧ t.rlg.queue = s.queueAfterFault s.rlg.queue))

/-- R153 to R155, R157, R158, R160, R58, R59, R164: an opening attempt of the head request. One that verifies opens the
slot and starts the session; one that does not makes the slot BAD, its bad mark programmed once and not verified, and takes
the next, where the fill position moves on, and the third failure, or an attempt without a slot, frees the session and
enters FAULT. What reaches a word is log entry 10. -/
def Obligations.OpeningProgramsOpenTheSlotOrTakeAnother : Prop :=
  ∀ (o : ProgramOutcome) (s : State) (p : Point) (part : OpeningPart) (number slot attempts : Nat)
    (rest : List ProgramRequest),
    s.rlg.erasing = false → s.rlg.queue = ⟨.opening p part, number, slot, attempts⟩ :: rest →
      let verifies := s.rlg.Verifies slot 0 4 (openingBytes part) [.opened] o
      ∃ t, exec (.openingProgram o) s = .next t ∧ s.otherSlotsRead slot t ∧
        (verifies →
          t.rlg.slotState slot = .opened ∧ t.rlg.slotOf number = some slot ∧
          (∀ n, n ≠ number → t.rlg.slotOf n = s.rlg.slotOf n) ∧
          t.rlg.queue = rest ∧ t.rlg.logState = s.rlg.logState ∧ t.rlg.fill = s.rlg.fill ∧
          s.otherSessionsSame p t ∧ t.noticesC.tells 6 [p.val] ∧
          s.onlyChanges [.rlg, .ssu, .alu, .requests, .noticesS, .noticesC] t ∧
          t.rlg.rawBytes (slotAddress slot) 32 = openingBytes part ∧ t.rlg.rawByte (slotAddress slot + 120) = 0 ∧
          ((s.session p).pendingClose = none →
            t.session p = { s.session p with state := .waiting, waitCount := 0, zeroRequests := 0 } ∧
            t.alu.queue = s.alu.queue ++ [p]) ∧
          ∀ reason, (s.session p).pendingClose = some reason →
            t.session p = { s.session p with
              state := .closing, grant := 0, pendingClose := none, ending := some ⟨reason, s.tfu.calendar⟩
              finalWait := some 0 }) ∧
        (¬verifies → s.rlg.MarkTaken slot .bad o t.rlg) ∧
        (¬verifies → s.rlg.slotState slot = .reserved →
          (∀ new, s.rlg.canReserve new → attempts < 2 → new ≠ slot →
            t.rlg.slotState slot = .bad ∧ t.rlg.slotState new = .reserved ∧ s.rlg.FillMoved new t.rlg ∧
            (∀ q, q ≠ slot → q ≠ new → t.rlg.slotState q = s.rlg.slotState q) ∧
            t.session p = { s.session p with slot := new } ∧ s.otherSessionsSame p t ∧
            t.rlg.queue = ⟨.opening p part, number, new, attempts + 1⟩ :: rest ∧
            s.onlyChanges [.rlg, .ssu, .noticesS, .noticesC] t ∧
            t.rlg.nextNumber = s.rlg.nextNumber ∧ t.rlg.logState = s.rlg.logState) ∧
          (2 ≤ attempts ∨ s.rlg.erasedCount = 0 →
            t.rlg.slotState slot = .bad ∧ s.sessionFreed p t ∧ t.noticesC.tells 7 [p.val] ∧
            s.FaultTaken [p.val] (some p) t ∧ t.rlg.queue = s.queueAfterFault rest ∧
            t.rlg.nextNumber = s.rlg.nextNumber))

/-- R153, R161, R71: a closing is first tried in the session's own slot. One that verifies closes the slot and frees the
session; one that does not leaves the slot's state as it is and makes the next attempt a relocation. What reaches a word
is log entry 10. -/
def Obligations.ClosingProgramsWriteInPlaceFirst : Prop :=
  ∀ (o : ProgramOutcome) (s : State) (p : Point) (part : ClosingPart) (number slot : Nat)
    (rest : List ProgramRequest),
    s.rlg.erasing = false → s.rlg.queue = ⟨.closing p part, number, slot, 0⟩ :: rest →
      let verifies := s.rlg.Verifies slot 4 11 (closingBytes part number none) [.closed] o
      ∃ t, exec (.closingProgram o) s = .next t ∧
        (verifies →
          s.ClosedInPlace slot t ∧ s.sessionFreed p t ∧ s.otherSessionsSame p t ∧ t.noticesC.tells 8 [p.val] ∧
          s.onlyChanges [.rlg, .ssu, .tfu, .noticesS, .noticesC] t ∧
          t.rlg.queue = rest ∧ t.rlg.logState = s.rlg.logState ∧
          t.rlg.rawBytes (slotAddress slot + 32) 88 = closingBytes part number none ∧
          t.rlg.rawByte (slotAddress slot + 121) = 0) ∧
        (¬verifies →
          s.onlyChanges [.rlg] t ∧ s.otherSlotsRead slot t ∧
          t.rlg.slotStates = s.rlg.slotStates ∧ t.rlg.index = s.rlg.index ∧
          t.rlg.queue = ⟨.closing p part, number, slot, 1⟩ :: rest)

/-- R153, R155, R158, R162, R71, R72, R164: a relocation attempt of the head closing request, into the slot at the fill
position, which moves on. That the session stays as it is when the log enters FAULT needs it to be CLOSING, as the
session of a closing request is (QueueInv). What reaches a word is log entry 10. -/
def Obligations.RelocationsMoveTheRecordToAFreshSlot : Prop :=
  ∀ (o : ProgramOutcome) (s : State) (p : Point) (part : ClosingPart) (number slot attempts : Nat)
    (rest : List ProgramRequest),
    0 < attempts → s.rlg.erasing = false → s.rlg.queue = ⟨.closing p part, number, slot, attempts⟩ :: rest →
      let damaged := ∃ i : Fin 4, s.rlg.code (16 * slot + i.val) = .damaged
      let record := s.rlg.readBytes (slotAddress slot) 32 ++ closingBytes part number (some slot)
      let verifies : Nat → Prop := fun new => s.rlg.Verifies new 0 15 record [.opened, .closed] o
      ∃ t, exec (.relocation o) s = .next t ∧
        (∀ new, s.rlg.canReserve new → new ≠ slot → ¬damaged → verifies new →
          s.RelocatedInto number slot new o t ∧ s.RelocatedBytes part number slot new t ∧
          s.rlg.FillMoved new t.rlg ∧ s.sessionFreed p t ∧ s.otherSessionsSame p t ∧
          s.onlyChanges [.rlg, .ssu, .tfu, .noticesS, .noticesC] t ∧
          t.noticesC.tells 8 [p.val] ∧ t.rlg.queue = rest ∧ t.rlg.logState = s.rlg.logState) ∧
        (∀ new, s.rlg.canReserve new → new ≠ slot → damaged ∨ ¬verifies new →
          s.RelocationFailed number slot new o t ∧ s.rlg.FillMoved new t.rlg ∧
          (attempts < 2 →
            t.session p = s.session p ∧
            t.rlg.queue = ⟨.closing p part, number, slot, attempts + 1⟩ :: rest ∧
            s.onlyChanges [.rlg, .noticesS, .noticesC] t ∧
            t.rlg.logState = s.rlg.logState) ∧
          (2 ≤ attempts → (s.session p).state = .closing →
            t.session p = s.session p ∧
            s.FaultTaken [p.val] none t ∧ t.rlg.queue = s.queueAfterFault rest)) ∧
        (s.rlg.erasedCount = 0 →
          s.FaultTaken [p.val] none t ∧ s.arraySame t ∧ t.rlg.slotStates = s.rlg.slotStates ∧
          t.rlg.queue = s.queueAfterFault rest)

/-- R153, R155, R177, R161, R162, R176: an orphan closing writes in place while the closing words read erased, else
relocates; its number leaves the orphan list at success and stays in it at a third failure. That the words are read at
the first attempt is log entry 23, what reads erased log entry 40, what reaches a word log entry 10. -/
def Obligations.OrphanClosingsEndTheOrphan : Prop :=
  ∀ (o : ProgramOutcome) (s : State) (point : Nat) (part : ClosingPart) (number slot attempts : Nat)
    (rest : List ProgramRequest),
    s.rlg.erasing = false → s.rlg.queue = ⟨.orphanClosing point part, number, slot, attempts⟩ :: rest →
      let damaged := ∃ i : Fin 4, s.rlg.code (16 * slot + i.val) = .damaged
      let inPlace := attempts = 0 ∧ ∀ i : Fin 11, s.rlg.wordErased (16 * slot + 4 + i.val) = true
      let written := s.rlg.Verifies slot 4 11 (closingBytes part number none) [.closed] o
      let record := s.rlg.readBytes (slotAddress slot) 32 ++ closingBytes part number (some slot)
      let verifies : Nat → Prop := fun new => s.rlg.Verifies new 0 15 record [.opened, .closed] o
      let ended : State → Prop := fun t =>
        t.rlg.orphans = s.rlg.orphans.filter (fun n => n != number) ∧ t.rlg.queue = rest ∧
          s.onlyChanges [.rlg, .noticesS, .noticesC] t
      ∃ t, exec (.orphanClosing o) s = .next t ∧
        (inPlace → written →
          s.ClosedInPlace slot t ∧ ended t ∧
          t.rlg.rawBytes (slotAddress slot + 32) 88 = closingBytes part number none) ∧
        (inPlace → ¬written →
          s.onlyChanges [.rlg] t ∧ s.otherSlotsRead slot t ∧ t.rlg.slotStates = s.rlg.slotStates ∧
          t.rlg.orphans = s.rlg.orphans ∧ t.rlg.queue = ⟨.orphanClosing point part, number, slot, 1⟩ :: rest) ∧
        (∀ new, s.rlg.canReserve new → ¬inPlace → new ≠ slot → ¬damaged → verifies new →
          s.RelocatedInto number slot new o t ∧ s.RelocatedBytes part number slot new t ∧
          s.rlg.FillMoved new t.rlg ∧ ended t) ∧
        (∀ new, s.rlg.canReserve new → ¬inPlace → new ≠ slot → damaged ∨ ¬verifies new →
          s.RelocationFailed number slot new o t ∧ s.rlg.FillMoved new t.rlg ∧ t.rlg.orphans = s.rlg.orphans ∧
          (attempts < 2 →
            t.rlg.queue = ⟨.orphanClosing point part, number, slot, attempts + 1⟩ :: rest ∧
            s.onlyChanges [.rlg, .noticesS, .noticesC] t) ∧
          (2 ≤ attempts → s.FaultTaken [point] none t ∧ t.rlg.queue = s.queueAfterFault rest)) ∧
        (¬inPlace → s.rlg.erasedCount = 0 →
          s.FaultTaken [point] none t ∧ s.arraySame t ∧ t.rlg.orphans = s.rlg.orphans ∧
          t.rlg.queue = s.queueAfterFault rest)

/-- R153, R163, R164: the program of a collected mark, verified by the byte it leaves. The look at the mark after the
third failure is log entry 47, what reaches the byte log entry 10. -/
def Obligations.CollectProgramsSetTheCollectedMark : Prop :=
  ∀ (o : ProgramOutcome) (s : State) (number slot attempts : Nat) (rest : List ProgramRequest),
    s.rlg.erasing = false → s.rlg.queue = ⟨.collect, number, slot, attempts⟩ :: rest →
      let written := s.rlg.rawByte (slotAddress slot + 122) &&& o.markLeft .collected
      ∃ t, exec (.collectProgram o) s = .next t ∧ t.rlg.rawByte (slotAddress slot + 122) = written ∧
        (∀ a, a ≠ slotAddress slot + 122 → t.rlg.readByte a = s.rlg.readByte a) ∧
        (∀ q, q ≠ slot → t.rlg.slotState q = s.rlg.slotState q) ∧
        (written = 0 →
          t.rlg.slotState slot = .collected ∧ t.rlg.queue = rest ∧ s.onlyChanges [.rlg, .noticesS, .noticesC] t) ∧
        (written ≠ 0 →
          (attempts < 2 →
            t.rlg.queue = ⟨.collect, number, slot, attempts + 1⟩ :: rest ∧ s.onlyChanges [.rlg] t ∧
            t.rlg.slotStates = s.rlg.slotStates) ∧
          (2 ≤ attempts →
            s.FaultTaken [] none t ∧ t.rlg.queue = s.queueAfterFault rest ∧
            t.rlg.slotState slot =
              (if t.rlg.readByte (slotAddress slot + 122) = 0xFF then s.rlg.slotState slot else .collected)))

/-- R173 to R176: what the start-up scan finds in each slot by its marks and words, and where it sets origins aside; the gaps,
the sectors and the fill position; the next number; the number index; the orphans, whose points join the detail set of
ORPHANS_FOUND (R156: byte 4 of the slot); and its own programs. What reaches these
is log entry 35. What reads erased is log entry 40, a DAMAGED relocation word log entry 48, an OPENED slot without a number
log entry 51, the end of a run that fills the ring log entry 41, the index order log entry 53, the number past the greatest
one a free value (log entry 13). Some sector may be ERASING already, for the erase test ends the scan. -/
def Obligations.TheScanRebuildsTheLog : Prop :=
  ∀ (fs : List ScanResult) (s : State),
    (s.rlg.logState ≠ .starting → exec (.startupScan fs) s = .next s) ∧
    (s.rlg.logState = .starting →
      let r := s.rlg
      ∃ t, exec (.startupScan fs) s = .next t ∧
        (r.scanFails fs = false →
          t.rlg.logState = .ready ∧ s.onlyChanges [.rlg, .noticesS, .noticesC] t ∧ t.rlg.queue = s.rlg.queue) ∧
        (r.scanFails fs = true → s.FaultTaken [] none t) ∧
        (∀ k : Fin 16, r.interrupted k = true ↔ r.wordErased (32768 + k.val) = true ∧ ¬r.isEmpty k) ∧
        (∀ slot, slot < 2048 → r.interrupted (slotSector slot) = true → t.rlg.slotState slot = .bad) ∧
        (∀ slot, slot < 2048 → r.interrupted (slotSector slot) = false → r.Classified slot (t.rlg.slotState slot)) ∧
        (∀ slot, slot < 2048 → r.isEmpty (slotSector slot) → t.rlg.slotState slot = .erased) ∧
        (∀ last newest, r.EndsRun last → r.NewestIs last newest → r.RunFound last newest t.rlg) ∧
        ((∀ k, r.isEmpty k) → t.rlg.sectors[0] = .active ∧ t.rlg.lastActive = 0 ∧ t.rlg.fill = some 0) ∧
        (∀ k : Fin 16, r.isEmpty k → t.rlg.sectors[k] = .free ∨ t.rlg.sectors[k] = .active ∧ t.rlg.lastActive = k) ∧
        (∀ k : Fin 16, ¬r.isEmpty k → t.rlg.sectors[k] = .full ∨ t.rlg.sectors[k] = .erasing ∨
          t.rlg.sectors[k] = .active ∧ t.rlg.lastActive = k) ∧
        (∀ h, r.takesPart h → (∀ n, r.takesPart n → n ≤ h) → h + 1 + r.skipIs < 4294967296 →
          t.rlg.nextNumber = h + 1 + r.skipIs) ∧
        (∀ n slot, (n, slot) ∈ t.rlg.index ↔
          slot < 2048 ∧ r.numberRead slot = some n ∧ (t.rlg.slotState slot = .opened ∨
            t.rlg.slotState slot = .closed ∨ t.rlg.slotState slot = .collected)) ∧
        (t.rlg.index.map Prod.snd).Pairwise (· < ·) ∧
        (∀ n, n ∈ t.rlg.orphans ↔
          ∃ slot : Fin 2048, t.rlg.slotState slot = .opened ∧ r.numberRead slot = some n) ∧
        t.rlg.orphans.Pairwise (· ≤ ·) ∧
        (t.rlg.orphans ≠ [] → t.noticesC.pending.getLsbD 4 = true) ∧
        (∀ k, k < 32 → (t.noticesC.details[(4 : Fin 16)].getLsbD k = true ↔
          s.noticesC.details[(4 : Fin 16)].getLsbD k = true ∨
            ∃ n slot, n ∈ t.rlg.orphans ∧ t.rlg.slotOf n = some slot ∧
              (t.rlg.readByte (slotAddress slot + 4)).toNat = k)) ∧
        (∀ a, a < 262144 → a % 128 ≠ 123 → a % 128 ≠ 124 → t.rlg.readByte a = r.readByte a) ∧
        (∀ a, 262272 ≤ a → t.rlg.readByte a = r.readByte a) ∧
        (∀ k : Fin 16, ¬(r.isEmpty k ∧ r.wordErased (32768 + k.val) = true) →
          t.rlg.rawWord (32768 + k.val) = r.rawWord (32768 + k.val)) ∧
        (r.scanFails fs = false →
          (∀ k : Fin 16, r.isEmpty k → r.wordErased (32768 + k.val) = true →
            t.rlg.rawWord (32768 + k.val) = BitVec.ofNat 64 t.rlg.nextNumber) ∧
          (∀ new origin, r.SetsAside new origin → t.rlg.rawByte (slotAddress origin + 124) = 0) ∧
          ∀ slot, slot < 2048 → r.interrupted (slotSector slot) = false → t.rlg.slotState slot = .bad →
            (∀ w : Fin 16, r.wordErased (16 * slot + w.val) = true) → t.rlg.rawByte (slotAddress slot + 123) = 0))

/-- R163, R177, R151, R159: the checks of COLLECT RECEIPT and CLOSE ORPHAN in their order, and the requests they queue. The
meter start, fallback price and session fee come from the opening part as R156 lays it out; that the point of the request is
byte 4 of the slot as read is log entry 43. -/
def Obligations.PortRequestsAreCheckedInOrderAndQueued : Prop :=
  (∀ (number : Word32) (s : State),
    let n := number.toNat
    let r := s.rlg
    let queued := ∃ q ∈ r.queue, q.isCollect = true ∧ q.number = n
    ∃ t, exec (.collectReceipt .c number) s = .next t ∧
      (r.logState = .starting → s.turnedAway .c .busy .starting t) ∧
      (r.logState = .fault → s.turnedAway .c .refused .storeFault t) ∧
      (r.logState = .ready → r.slotOf n = none → s.turnedAway .c .refused .notFound t) ∧
      ∀ slot, r.slotOf n = some slot → r.logState = .ready →
        (r.slotState slot = .collected ∨ queued → s.turnedAway .c .refused .already t) ∧
        (r.slotState slot = .opened → ¬queued → s.turnedAway .c .refused .state t) ∧
        (r.slotState slot ≠ .collected → r.slotState slot ≠ .opened → ¬queued → r.portsFull →
          s.turnedAway .c .busy .full t) ∧
        (r.slotState slot ≠ .collected → r.slotState slot ≠ .opened → ¬queued → ¬r.portsFull →
          s.answered .c (okReply false []) t ∧ s.onlyChanges [.rlg, .replies] t ∧
          t.rlg = r.afterJoin ⟨.collect, n, slot, 0⟩)) ∧
  ∀ (number register : Word32) (s : State),
    let n := number.toNat
    let r := s.rlg
    let queued := ∃ q ∈ r.queue, q.isPort = true ∧ q.isCollect = false ∧ q.number = n
    let held := ∃ p, (s.session p).state ≠ .free ∧ (s.session p).number = n
    ∃ t, exec (.closeOrphan .c number register) s = .next t ∧
      (r.logState = .starting → s.turnedAway .c .busy .starting t) ∧
      (r.logState ≠ .starting → s.tfu.calendarValid = false → s.turnedAway .c .refused .noTime t) ∧
      (r.logState ≠ .starting → s.tfu.calendarValid = true → n ∉ r.orphans →
        (r.slotOf n = none → s.turnedAway .c .refused .notFound t) ∧
        ∀ slot, r.slotOf n = some slot →
          (r.slotState slot = .closed ∨ r.slotState slot = .collected → s.turnedAway .c .refused .already t) ∧
          (r.slotState slot = .opened → held → s.turnedAway .c .refused .state t) ∧
          (r.slotState slot = .opened → ¬held → s.turnedAway .c .refused .notFound t)) ∧
      (r.logState ≠ .starting → s.tfu.calendarValid = true → n ∈ r.orphans → queued →
        s.turnedAway .c .refused .already t) ∧
      (r.logState ≠ .starting → s.tfu.calendarValid = true → n ∈ r.orphans → ¬queued → r.portsFull →
        s.turnedAway .c .busy .full t) ∧
      ∀ slot, r.slotOf n = some slot → r.logState ≠ .starting → s.tfu.calendarValid = true → n ∈ r.orphans →
        ¬queued → ¬r.portsFull →
          let start := leNat (r.readBytes (slotAddress slot + 16) 4)
          let price := leNat (r.readBytes (slotAddress slot + 20) 2)
          let fee := leNat (r.readBytes (slotAddress slot + 22) 2)
          let mwh := 1000 * ((register.toNat + 4294967296 - start) % 4294967296)
          let energy := min ((mwh * price + 500000) / 1000000) 4294967295
          let part : ClosingPart :=
            { closeTime := s.tfu.calendar, meterEnd := register, reason := .powerLoss, meterSuspect := false
              nodeLostSeen := false, tripSeen := false, disputed := 0
              accounts := ⟨#v[0, 0, 0, 0], #v[0, 0, 0, 0], #v[min mwh 4294967295, 0, 0, 0]⟩
              idleSeconds := 0, energy, idle := 0, total := min (fee + energy) 4294967295 }
          s.answered .c (okReply false []) t ∧ s.onlyChanges [.rlg, .replies] t ∧ s.arraySame t ∧
          t.rlg.orphans = r.orphans ∧ t.rlg.slotStates = r.slotStates ∧
          t.rlg.queue =
            r.queue ++ [⟨.orphanClosing (r.readByte (slotAddress slot + 4)).toNat part, n, slot, 0⟩]

/-- R167, R168, R176, R166: the commands that read slots of the array, their refusals, their replies, and that reading
counts words that are not CLEAN and changes nothing else. READ NEXT ORPHAN reads the whole slot (log entry 23); what
reads erased is log entry 40. -/
def Obligations.ReceiptReadsReturnTheSlotAndCountItsWords : Prop :=
  (∀ (p : Port) (number : Word32) (s : State),
    let r := s.rlg
    ∃ t, exec (.readReceipt p number) s = .next t ∧
      (r.logState = .starting → s.turnedAway p .busy .starting t) ∧
      (r.logState ≠ .starting → r.slotOf number.toNat = none → s.turnedAway p .refused .notFound t) ∧
      ∀ slot, r.slotOf number.toNat = some slot → r.logState ≠ .starting →
        let sector := r.sectors[slotSector slot]
        (sector = .erasing ∨ sector = .eraseSuspended → s.turnedAway p .busy .state t) ∧
        (sector ≠ .erasing → sector ≠ .eraseSuspended → s.ReceiptGiven p number.toNat slot t)) ∧
  (∀ s : State,
    let r := s.rlg
    ∃ t, exec (.readNextReceipt .c) s = .next t ∧
      (r.logState = .starting → s.turnedAway .c .busy .starting t) ∧
      (r.logState ≠ .starting → (∀ x ∈ r.index, ¬r.uncollected x) → s.turnedAway .c .refused .notFound t) ∧
      ∀ x ∈ r.index, r.logState ≠ .starting → r.uncollected x →
        (∀ y ∈ r.index, r.uncollected y → y = x ∨ x.1 < y.1) → s.ReceiptGiven .c x.1 x.2 t) ∧
  ∀ s : State,
    let r := s.rlg
    ∃ t, exec (.readNextOrphan .c) s = .next t ∧
      (r.logState = .starting → s.turnedAway .c .busy .starting t) ∧
      (r.logState ≠ .starting → r.orphans = [] → s.turnedAway .c .refused .notFound t) ∧
      ∀ n rest, r.orphans = n :: rest → r.logState ≠ .starting → ∀ slot, r.slotOf n = some slot →
        s.answered .c
          (okReply false
            (leBytes 4 n ++ leBytes 2 slot ++ r.readBytes (slotAddress slot) 32 ++
              [if ∀ i : Fin 11, r.wordErased (16 * slot + 4 + i.val) = true then 1 else 0,
                if ∃ q ∈ r.queue, q.isPort = true ∧ q.isCollect = false ∧ q.number = n then 1 else 0] ++
              leBytes 1 (integrityCode (r.readStatus slot)))) t ∧
        s.onlyChanges [.rlg, .replies] t ∧ s.slotWasRead slot t

/-! ## Chapter 10: the command ports -/

/-- R185, R186, R187, R55, R184: the reads that change no state, answered OK with the result lengths of R183, every field of
their replies in order with its width and its value, and the codes. The byte of an idle round is a free value (log entry
14), the order of the accumulators log entry 21, one presence byte for echo and report fields log entry 22, an erase that
FAULT has stopped log entry 38, the fields of what is not there log entry 49, and R_ret in STARTING log entry 55. -/
def Obligations.ReadsShowTheStateAndChangeOnlyTheReply : Prop :=
  ReplyCodes ∧
  ∀ (p : Port) (s : State),
    (∃ t bytes, exec (.status p) s = .next t ∧ s.answered p (okReply false bytes) t ∧ s.onlyChanges [.replies] t ∧
      bytes.length = 182 ∧ carries bytes (s.statusLayout p)) ∧
    (∃ t bytes, exec (.readBalance p) s = .next t ∧ s.answered p (okReply false bytes) t ∧
      s.onlyChanges [.replies] t ∧ bytes.length = 70 ∧ carries bytes s.balanceLayout) ∧
    (∃ t, exec (.readTime p) s = .next t ∧ s.onlyChanges [.replies] t ∧
      s.answered p
        (okReply false
          (leBytes 4 s.tfu.calendar.toNat ++ [if s.tfu.calendarValid then 1 else 0] ++
            leBytes 2 (s.tfu.calendar.toNat % 86400 / 60))) t) ∧
    (∀ point : Byte, 24 ≤ point.toNat →
      ∃ t, exec (.readSession p point) s = .next t ∧ s.turnedAway p .refused .badValue t) ∧
    (∀ q : Point, ∃ t bytes, exec (.readSession p (BitVec.ofNat 8 q.val)) s = .next t ∧
      s.answered p (okReply false bytes) t ∧ s.onlyChanges [.replies] t ∧ bytes.length = 124 ∧
      carries bytes ((s.session q).layout s.now) ∧
      (s.session q = Session.free → ∀ b ∈ bytes, b = 0)) ∧
    (∀ node : Byte, 26 ≤ node.toNat →
      ∃ t, exec (.readNode p node) s = .next t ∧ s.turnedAway p .refused .badValue t) ∧
    ∀ n : Fin 26, ∃ t bytes, exec (.readNode p (BitVec.ofNat 8 n.val)) s = .next t ∧
      s.answered p (okReply false bytes) t ∧ s.onlyChanges [.replies] t ∧ bytes.length = 57 ∧
      carries bytes (s.nodeLayout n)

/-- R182 whole: a byte that names no command, and a command of the other port, are answered and change nothing else.
-/
def Obligations.UnknownAndForeignCommandsChangeNothing : Prop :=
  (∀ (p : Port) (code : Byte) (rest : List Byte) (bits : Fin 8) (s : State), commandRow code.toNat = none →
    decodeFrame p (code :: rest) bits = some (.unknownCommand p code) ∧
    ∃ t, exec (.unknownCommand p code) s = .next t ∧ s.answered p ⟨0x06, 0, []⟩ t ∧ s.onlyChanges [.replies] t) ∧
  ∀ (c : Instr) (p : Port) (code : Byte) (operands rest : List Byte) (bits : Fin 8) (row : CommandRow) (s : State),
    WellFormed c = true → encodeFrame c = some (p, code :: operands) → commandRow code.toNat = some row →
      row.issuers.allows p = false → operands.length = row.operands ∧
      (∀ d, decodeFrame p (code :: operands ++ rest) bits = some d →
        ∃ t, exec d s = .next t ∧ s.answeredWrongPort p t) ∧
      ∃ t, exec c s = .next t ∧ s.answeredWrongPort p t

/-- R193, R194, R195 whole: TAKE NOTICE, END NOTICE and SET NOTICE MASK. -/
def Obligations.NoticeCommandsMoveKindsThroughService : Prop :=
  ∀ (p : Port) (s : State),
    let n := s.notices p
    let takeable : Fin 16 → Prop := fun k =>
      0 < k.val ∧ n.pending.getLsbD k = true ∧ n.enables.getLsbD k = true
    let serves : Fin 16 → Prop := fun k => 0 < k.val ∧ n.inService.getLsbD k = true
    (∃ t, exec (.takeNotice p) s = .next t ∧
      ((∀ k, ¬takeable k) → s.answered p (okReply false [0, 0, 0, 0, 0]) t ∧ s.onlyChanges [.replies] t) ∧
      ∀ k, takeable k → (∀ j, takeable j → j ≤ k) →
        let m := t.notices p
        s.answered p (okReply false (BitVec.ofNat 8 k.val :: leBytes 4 n.details[k].toNat)) t ∧
        s.onlyChanges [noticeField p, .replies] t ∧ m.enables = n.enables ∧ m.threshold = n.threshold ∧
        (∀ j : Fin 16, m.pending.getLsbD j = (n.pending.getLsbD j && decide (j ≠ k))) ∧
        (∀ j : Fin 16, m.inService.getLsbD j = (n.inService.getLsbD j || decide (j = k))) ∧
        (∀ j : Fin 16, m.details[j] = if j = k then 0 else n.details[j]) ∧
        (m.alert = true ↔ m.pulls)) ∧
    (∃ t, exec (.endNotice p) s = .next t ∧
      ((∀ k, ¬serves k) → s.turnedAway p .refused .empty t) ∧
      ∀ k, serves k → (∀ j, serves j → j ≤ k) →
        let m := t.notices p
        s.answered p (okReply false [BitVec.ofNat 8 k.val]) t ∧ s.onlyChanges [noticeField p, .replies] t ∧
        m.enables = n.enables ∧ m.threshold = n.threshold ∧ m.pending = n.pending ∧ m.details = n.details ∧
        (∀ j : Fin 16, m.inService.getLsbD j = (n.inService.getLsbD j && decide (j ≠ k))) ∧
        (m.alert = true ↔ m.pulls)) ∧
    ∀ (enables : Word16) (threshold : Byte),
      ∃ t, exec (.setNoticeMask p enables threshold) s = .next t ∧
        let m := t.notices p
        s.answered p (okReply (decide (15 < threshold.toNat)) []) t ∧
        s.onlyChanges [noticeField p, .replies] t ∧
        (∀ j : Fin 16, m.enables.getLsbD j = (enables.getLsbD j && decide (j ≠ 0))) ∧
        m.threshold = min threshold.toNat 15 ∧ m.pending = n.pending ∧ m.inService = n.inService ∧
        m.details = n.details ∧ (m.alert = true ↔ m.pulls)

/-- R196, R197, R198: SEND MAIL, READ MAIL and PORT RESET. -/
def Obligations.MailAndPortResetActOnTheirBoxes : Prop :=
  ∀ (p : Port) (s : State),
    let mine : Option (BitVec 256) := match p with | .s => s.mail.cToS | .c => s.mail.sToC
    let theirs : Option (BitVec 256) := match p with | .s => s.mail.sToC | .c => s.mail.cToS
    let emptied : Mail := match p with | .s => { s.mail with cToS := none } | .c => { s.mail with sToC := none }
    (∀ message : BitVec 256,
      ∃ t, exec (.sendMail p message) s = .next t ∧
        (theirs.isSome = true → s.turnedAway p .refused .full t) ∧
        (theirs = none →
          s.answered p (okReply false []) t ∧
          s.onlyChanges [.mail, noticeField (otherPort p), .replies] t ∧
          t.mail =
            (match p with | .s => { s.mail with sToC := some message } | .c => { s.mail with cToS := some message }) ∧
          t.notices (otherPort p) = (s.notices (otherPort p)).raise 1 [] ∧
          (t.notices (otherPort p)).pending.getLsbD 1 = true)) ∧
    (∃ t, exec (.readMail p) s = .next t ∧
      (mine = none → s.turnedAway p .refused .empty t) ∧
      ∀ m, mine = some m →
        s.answered p (okReply false (leBytes 32 m.toNat)) t ∧ s.onlyChanges [.mail, .replies] t ∧
        t.mail = emptied) ∧
    ∃ t, exec (.portReset p) s = .next t ∧ s.answered p (okReply false []) t ∧
      s.onlyChanges [noticeField p, .mail, .replies] t ∧ t.mail = emptied ∧
      t.notices p = ⟨0xFFFE, 0, 0, 0, #v[0, 0, 0, 0, 0, 0, 0, 0, 0, 0, 0, 0, 0, 0, 0, 0], false⟩

/-- R181, R180: a command answered BUSY, REFUSED, WRONG_PORT or UNKNOWN has changed no state, and every port command
gets a reply on its own port only; SDO carries 0x00 in the command, operand and turnaround phases, then the reply, then
0x00. A short frame is counted, saturating, and leaves no reply (log entry 31): SDO stays 0x00. -/
def Obligations.CommandsTurnedAwayChangeNothing : Prop :=
  (∀ (c : Instr) (p : Port) (s : State), commandPort c = some p → WellFormed c = true →
    ∃ t r, exec c s = .next t ∧ s.answered p r t ∧ (1 ≤ r.status.toNat ∧ r.status.toNat ≤ 6) ∧
      (3 ≤ r.status.toNat → r.result = [] ∧ s.onlyChanges [.replies] t) ∧
      ∀ operands i, sdoByte operands (t.replyOf p) i =
        if i < operands + 3 then 0
        else if i = operands + 3 then r.status
        else if i = operands + 4 then r.qualifier
        else r.result.getD (i - (operands + 5)) 0) ∧
  ∀ (p : Port) (s : State),
    ∃ t, exec (.shortFrame p) s = .next t ∧ s.onlyChanges [.frameErrors, .replies] t ∧
      t.replyOf p = none ∧ t.replyOf (otherPort p) = s.replyOf (otherPort p) ∧
      (∀ operands i, sdoByte operands (t.replyOf p) i = 0) ∧
      t.frameErrors =
        (match p with
        | .s => { s.frameErrors with s := min 65535 (s.frameErrors.s + 1) }
        | .c => { s.frameErrors with c := min 65535 (s.frameErrors.c + 1) })

/-- R179, R180, R182, R183: a whole frame spells its command whatever bytes and clock edges follow it; a frame cut inside
the command byte or the operands is a short frame, a select without a clock edge none. -/
def Obligations.FramesDecodeToTheirCommands : Prop :=
  (∀ (c : Instr) (p : Port) (bytes rest : List Byte) (bits : Fin 8),
    WellFormed c = true → encodeFrame c = some (p, bytes) →
      commandPort c = some p ∧ decodeFrame p (bytes ++ rest) bits = some c ∧
      ∀ k, k < bytes.length → 0 < k ∨ 0 < bits → decodeFrame p (bytes.take k) bits = some (.shortFrame p)) ∧
  ∀ p, decodeFrame p [] 0 = none

/-! ## The machine -/

/-- A step takes the command at the front of the queue and runs it on the rest. With none waiting one millisecond passes
(log entry 5): the time base and every timer that runs go on by one and stop at their end (R1, R8, R109, R120, R144), the
scan reads on (log entry 46), the erase makes progress (R171; log entry 24). The table's words spell no command (log entry
39). -/
def Obligations.AStepRunsTheFrontCommand : Prop :=
  (∀ (c : Instr) (rest : List Instr) (s : State), s.pending = c :: rest → step s = exec c (s.withPending rest)) ∧
  (∀ (c : Instr) (s t : State), exec c s = .next t → t.pending = s.pending) ∧
  (∀ s : State, s.pending = [] →
    ∃ t, step s = .next t ∧ s.onlyChanges [.cmu, .lsu, .flc, .ssu, .tfu, .rlg] t ∧
      t.ssu = { s.ssu with timeBase := s.ssu.timeBase + 1 } ∧
      t.cmu = { s.cmu with periodTimer := min s.cmu.periodLength (s.cmu.periodTimer + 1) } ∧
      t.tfu = { s.tfu with secondTimer := min 1000 (s.tfu.secondTimer + 1) } ∧
      t.lsu = { s.lsu with
        debounce :=
          if (if s.lsu.limreqLow then Line.asserted else .released) = s.lsu.line then s.lsu.debounce
          else min 20 (s.lsu.debounce + 1) } ∧
      t.flc = { s.flc with
        replyTimer :=
          if s.flc.exchange = none then s.flc.replyTimer else min s.flc.inForce.tReply (s.flc.replyTimer + 1) } ∧
      s.rlg.MillisecondPassed s.ssu.timeBase t.rlg) ∧
  ∀ (nbits w : Nat) (s : State), decodeTableWord nbits w = none ∧ s.withFetchWord nbits w = s

/-- R27: TRIP is asserted exactly in TRIPPED, through every step and at every reset. -/
def Obligations.TheTripLineFollowsTheEscalationState : Prop :=
  let follows : State → Prop := fun s => s.lsu.trip = true ↔ s.lsu.esc = .tripped
  KeptByStep follows ∧ follows State.reset ∧
    (∀ (left : List Residue) (s t : State),
      exec (.deviceReset left) s = .next t → t.lsu.esc = .unconfigured ∧ t.lsu.trip = false) ∧
    ∀ (c : Instr) (s t : State), exec c s = .next t → t.lsu.esc = s.lsu.esc → s.lsu.esc ≠ .unconfigured →
      t.lsu.trip = s.lsu.trip

/-- R5 to R7, R10 to R12, R14, R18, R22, R29: the limits, the lease and the escalation machine stay consistent. That a LIVE
lease has a count above 0 is R11 and R12; at T_live 1, where R13 would leave it LIVE with count 0, it is log entry 44. -/
def Obligations.LimitsAndEscalationStayConsistent : Prop :=
  KeptByStep (fun s => LimitsInv s ∧ EscalationInv s)

/-- R192: both alert lines stand where their condition says; R153: the array keeps its canonical form. -/
def Obligations.AlertLinesAndTheArrayFormAreKept : Prop :=
  KeptByStep AlertInv ∧ KeptByStep ArrayInv

/-- R76, R159, R134, R45, R47, R140, R155, R158: the waiting queue holds the WAITING sessions once each, the program queue
one request a session at most; every session's accounts equal its meter difference; the budget stays within the demand;
the reference counts of the tariff slots are the sessions that name them; and each session holds a slot of its own ahead
of which the log is erased, as long as no port request and no erase touches it (Apart, of the state before the step). -/
def Obligations.QueuesAndAccountsAgreeWithTheSessions : Prop :=
  KeptByStep QueueInv ∧ KeptByStep AccountsInv ∧ KeptByStep BalanceInv ∧
    KeptByStep (fun s => QueueInv s ∧ TariffInv s) ∧
    ∀ s t, QueueInv s → SlotsInv s → s.Apart → step s = .next t → SlotsInv t

/-- R89, R91, R95, R96: from the formation of a set to its release no value to send is above the value last sent. That a
withheld raise of a node which has left ONLINE since the formation is not released, on which the invariant rests, is log entry
17. -/
def Obligations.StagingNeverRaisesBeforeTheRelease : Prop := KeptByStep StagingInv

/-- The invariants hold right after device reset. -/
def Obligations.TheInvariantsHoldAtReset : Prop :=
  LimitsInv State.reset ∧ EscalationInv State.reset ∧ AlertInv State.reset ∧ ArrayInv State.reset ∧
    QueueInv State.reset ∧ AccountsInv State.reset ∧ BalanceInv State.reset ∧ StagingInv State.reset ∧
    TariffInv State.reset ∧ SlotsInv State.reset ∧ State.reset.Apart
end

