-- ==== Sys2Proof/Laws/State.lean ====
section
/-! SUPPORT. One lemma per field per update of the state, each true by `rfl`, so that no later proof unfolds an update. -/

namespace Sys2Proof.Machine

variable (s : State)

@[simp] theorem State.withSite_site (x : Site) : (s.withSite x).site = x := rfl
@[simp] theorem State.withSite_cmu (x : Site) : (s.withSite x).cmu = s.cmu := rfl
@[simp] theorem State.withSite_lsu (x : Site) : (s.withSite x).lsu = s.lsu := rfl
@[simp] theorem State.withSite_bau (x : Site) : (s.withSite x).bau = s.bau := rfl
@[simp] theorem State.withSite_alu (x : Site) : (s.withSite x).alu = s.alu := rfl
@[simp] theorem State.withSite_flc (x : Site) : (s.withSite x).flc = s.flc := rfl
@[simp] theorem State.withSite_ssu (x : Site) : (s.withSite x).ssu = s.ssu := rfl
@[simp] theorem State.withSite_tfu (x : Site) : (s.withSite x).tfu = s.tfu := rfl
@[simp] theorem State.withSite_rlg (x : Site) : (s.withSite x).rlg = s.rlg := rfl
@[simp] theorem State.withSite_noticesS (x : Site) : (s.withSite x).noticesS = s.noticesS := rfl
@[simp] theorem State.withSite_noticesC (x : Site) : (s.withSite x).noticesC = s.noticesC := rfl
@[simp] theorem State.withSite_mail (x : Site) : (s.withSite x).mail = s.mail := rfl
@[simp] theorem State.withSite_frameErrors (x : Site) : (s.withSite x).frameErrors = s.frameErrors := rfl
@[simp] theorem State.withSite_replies (x : Site) : (s.withSite x).replies = s.replies := rfl
@[simp] theorem State.withSite_requests (x : Site) : (s.withSite x).requests = s.requests := rfl
@[simp] theorem State.withSite_pending (x : Site) : (s.withSite x).pending = s.pending := rfl

@[simp] theorem State.withCmu_site (x : Cmu) : (s.withCmu x).site = s.site := rfl
@[simp] theorem State.withCmu_cmu (x : Cmu) : (s.withCmu x).cmu = x := rfl
@[simp] theorem State.withCmu_lsu (x : Cmu) : (s.withCmu x).lsu = s.lsu := rfl
@[simp] theorem State.withCmu_bau (x : Cmu) : (s.withCmu x).bau = s.bau := rfl
@[simp] theorem State.withCmu_alu (x : Cmu) : (s.withCmu x).alu = s.alu := rfl
@[simp] theorem State.withCmu_flc (x : Cmu) : (s.withCmu x).flc = s.flc := rfl
@[simp] theorem State.withCmu_ssu (x : Cmu) : (s.withCmu x).ssu = s.ssu := rfl
@[simp] theorem State.withCmu_tfu (x : Cmu) : (s.withCmu x).tfu = s.tfu := rfl
@[simp] theorem State.withCmu_rlg (x : Cmu) : (s.withCmu x).rlg = s.rlg := rfl
@[simp] theorem State.withCmu_noticesS (x : Cmu) : (s.withCmu x).noticesS = s.noticesS := rfl
@[simp] theorem State.withCmu_noticesC (x : Cmu) : (s.withCmu x).noticesC = s.noticesC := rfl
@[simp] theorem State.withCmu_mail (x : Cmu) : (s.withCmu x).mail = s.mail := rfl
@[simp] theorem State.withCmu_frameErrors (x : Cmu) : (s.withCmu x).frameErrors = s.frameErrors := rfl
@[simp] theorem State.withCmu_replies (x : Cmu) : (s.withCmu x).replies = s.replies := rfl
@[simp] theorem State.withCmu_requests (x : Cmu) : (s.withCmu x).requests = s.requests := rfl
@[simp] theorem State.withCmu_pending (x : Cmu) : (s.withCmu x).pending = s.pending := rfl

@[simp] theorem State.withLsu_site (x : Lsu) : (s.withLsu x).site = s.site := rfl
@[simp] theorem State.withLsu_cmu (x : Lsu) : (s.withLsu x).cmu = s.cmu := rfl
@[simp] theorem State.withLsu_lsu (x : Lsu) : (s.withLsu x).lsu = x := rfl
@[simp] theorem State.withLsu_bau (x : Lsu) : (s.withLsu x).bau = s.bau := rfl
@[simp] theorem State.withLsu_alu (x : Lsu) : (s.withLsu x).alu = s.alu := rfl
@[simp] theorem State.withLsu_flc (x : Lsu) : (s.withLsu x).flc = s.flc := rfl
@[simp] theorem State.withLsu_ssu (x : Lsu) : (s.withLsu x).ssu = s.ssu := rfl
@[simp] theorem State.withLsu_tfu (x : Lsu) : (s.withLsu x).tfu = s.tfu := rfl
@[simp] theorem State.withLsu_rlg (x : Lsu) : (s.withLsu x).rlg = s.rlg := rfl
@[simp] theorem State.withLsu_noticesS (x : Lsu) : (s.withLsu x).noticesS = s.noticesS := rfl
@[simp] theorem State.withLsu_noticesC (x : Lsu) : (s.withLsu x).noticesC = s.noticesC := rfl
@[simp] theorem State.withLsu_mail (x : Lsu) : (s.withLsu x).mail = s.mail := rfl
@[simp] theorem State.withLsu_frameErrors (x : Lsu) : (s.withLsu x).frameErrors = s.frameErrors := rfl
@[simp] theorem State.withLsu_replies (x : Lsu) : (s.withLsu x).replies = s.replies := rfl
@[simp] theorem State.withLsu_requests (x : Lsu) : (s.withLsu x).requests = s.requests := rfl
@[simp] theorem State.withLsu_pending (x : Lsu) : (s.withLsu x).pending = s.pending := rfl

@[simp] theorem State.withBau_site (x : Bau) : (s.withBau x).site = s.site := rfl
@[simp] theorem State.withBau_cmu (x : Bau) : (s.withBau x).cmu = s.cmu := rfl
@[simp] theorem State.withBau_lsu (x : Bau) : (s.withBau x).lsu = s.lsu := rfl
@[simp] theorem State.withBau_bau (x : Bau) : (s.withBau x).bau = x := rfl
@[simp] theorem State.withBau_alu (x : Bau) : (s.withBau x).alu = s.alu := rfl
@[simp] theorem State.withBau_flc (x : Bau) : (s.withBau x).flc = s.flc := rfl
@[simp] theorem State.withBau_ssu (x : Bau) : (s.withBau x).ssu = s.ssu := rfl
@[simp] theorem State.withBau_tfu (x : Bau) : (s.withBau x).tfu = s.tfu := rfl
@[simp] theorem State.withBau_rlg (x : Bau) : (s.withBau x).rlg = s.rlg := rfl
@[simp] theorem State.withBau_noticesS (x : Bau) : (s.withBau x).noticesS = s.noticesS := rfl
@[simp] theorem State.withBau_noticesC (x : Bau) : (s.withBau x).noticesC = s.noticesC := rfl
@[simp] theorem State.withBau_mail (x : Bau) : (s.withBau x).mail = s.mail := rfl
@[simp] theorem State.withBau_frameErrors (x : Bau) : (s.withBau x).frameErrors = s.frameErrors := rfl
@[simp] theorem State.withBau_replies (x : Bau) : (s.withBau x).replies = s.replies := rfl
@[simp] theorem State.withBau_requests (x : Bau) : (s.withBau x).requests = s.requests := rfl
@[simp] theorem State.withBau_pending (x : Bau) : (s.withBau x).pending = s.pending := rfl

@[simp] theorem State.withAlu_site (x : Alu) : (s.withAlu x).site = s.site := rfl
@[simp] theorem State.withAlu_cmu (x : Alu) : (s.withAlu x).cmu = s.cmu := rfl
@[simp] theorem State.withAlu_lsu (x : Alu) : (s.withAlu x).lsu = s.lsu := rfl
@[simp] theorem State.withAlu_bau (x : Alu) : (s.withAlu x).bau = s.bau := rfl
@[simp] theorem State.withAlu_alu (x : Alu) : (s.withAlu x).alu = x := rfl
@[simp] theorem State.withAlu_flc (x : Alu) : (s.withAlu x).flc = s.flc := rfl
@[simp] theorem State.withAlu_ssu (x : Alu) : (s.withAlu x).ssu = s.ssu := rfl
@[simp] theorem State.withAlu_tfu (x : Alu) : (s.withAlu x).tfu = s.tfu := rfl
@[simp] theorem State.withAlu_rlg (x : Alu) : (s.withAlu x).rlg = s.rlg := rfl
@[simp] theorem State.withAlu_noticesS (x : Alu) : (s.withAlu x).noticesS = s.noticesS := rfl
@[simp] theorem State.withAlu_noticesC (x : Alu) : (s.withAlu x).noticesC = s.noticesC := rfl
@[simp] theorem State.withAlu_mail (x : Alu) : (s.withAlu x).mail = s.mail := rfl
@[simp] theorem State.withAlu_frameErrors (x : Alu) : (s.withAlu x).frameErrors = s.frameErrors := rfl
@[simp] theorem State.withAlu_replies (x : Alu) : (s.withAlu x).replies = s.replies := rfl
@[simp] theorem State.withAlu_requests (x : Alu) : (s.withAlu x).requests = s.requests := rfl
@[simp] theorem State.withAlu_pending (x : Alu) : (s.withAlu x).pending = s.pending := rfl

@[simp] theorem State.withFlc_site (x : Flc) : (s.withFlc x).site = s.site := rfl
@[simp] theorem State.withFlc_cmu (x : Flc) : (s.withFlc x).cmu = s.cmu := rfl
@[simp] theorem State.withFlc_lsu (x : Flc) : (s.withFlc x).lsu = s.lsu := rfl
@[simp] theorem State.withFlc_bau (x : Flc) : (s.withFlc x).bau = s.bau := rfl
@[simp] theorem State.withFlc_alu (x : Flc) : (s.withFlc x).alu = s.alu := rfl
@[simp] theorem State.withFlc_flc (x : Flc) : (s.withFlc x).flc = x := rfl
@[simp] theorem State.withFlc_ssu (x : Flc) : (s.withFlc x).ssu = s.ssu := rfl
@[simp] theorem State.withFlc_tfu (x : Flc) : (s.withFlc x).tfu = s.tfu := rfl
@[simp] theorem State.withFlc_rlg (x : Flc) : (s.withFlc x).rlg = s.rlg := rfl
@[simp] theorem State.withFlc_noticesS (x : Flc) : (s.withFlc x).noticesS = s.noticesS := rfl
@[simp] theorem State.withFlc_noticesC (x : Flc) : (s.withFlc x).noticesC = s.noticesC := rfl
@[simp] theorem State.withFlc_mail (x : Flc) : (s.withFlc x).mail = s.mail := rfl
@[simp] theorem State.withFlc_frameErrors (x : Flc) : (s.withFlc x).frameErrors = s.frameErrors := rfl
@[simp] theorem State.withFlc_replies (x : Flc) : (s.withFlc x).replies = s.replies := rfl
@[simp] theorem State.withFlc_requests (x : Flc) : (s.withFlc x).requests = s.requests := rfl
@[simp] theorem State.withFlc_pending (x : Flc) : (s.withFlc x).pending = s.pending := rfl

@[simp] theorem State.withSsu_site (x : Ssu) : (s.withSsu x).site = s.site := rfl
@[simp] theorem State.withSsu_cmu (x : Ssu) : (s.withSsu x).cmu = s.cmu := rfl
@[simp] theorem State.withSsu_lsu (x : Ssu) : (s.withSsu x).lsu = s.lsu := rfl
@[simp] theorem State.withSsu_bau (x : Ssu) : (s.withSsu x).bau = s.bau := rfl
@[simp] theorem State.withSsu_alu (x : Ssu) : (s.withSsu x).alu = s.alu := rfl
@[simp] theorem State.withSsu_flc (x : Ssu) : (s.withSsu x).flc = s.flc := rfl
@[simp] theorem State.withSsu_ssu (x : Ssu) : (s.withSsu x).ssu = x := rfl
@[simp] theorem State.withSsu_tfu (x : Ssu) : (s.withSsu x).tfu = s.tfu := rfl
@[simp] theorem State.withSsu_rlg (x : Ssu) : (s.withSsu x).rlg = s.rlg := rfl
@[simp] theorem State.withSsu_noticesS (x : Ssu) : (s.withSsu x).noticesS = s.noticesS := rfl
@[simp] theorem State.withSsu_noticesC (x : Ssu) : (s.withSsu x).noticesC = s.noticesC := rfl
@[simp] theorem State.withSsu_mail (x : Ssu) : (s.withSsu x).mail = s.mail := rfl
@[simp] theorem State.withSsu_frameErrors (x : Ssu) : (s.withSsu x).frameErrors = s.frameErrors := rfl
@[simp] theorem State.withSsu_replies (x : Ssu) : (s.withSsu x).replies = s.replies := rfl
@[simp] theorem State.withSsu_requests (x : Ssu) : (s.withSsu x).requests = s.requests := rfl
@[simp] theorem State.withSsu_pending (x : Ssu) : (s.withSsu x).pending = s.pending := rfl

@[simp] theorem State.withTfu_site (x : Tfu) : (s.withTfu x).site = s.site := rfl
@[simp] theorem State.withTfu_cmu (x : Tfu) : (s.withTfu x).cmu = s.cmu := rfl
@[simp] theorem State.withTfu_lsu (x : Tfu) : (s.withTfu x).lsu = s.lsu := rfl
@[simp] theorem State.withTfu_bau (x : Tfu) : (s.withTfu x).bau = s.bau := rfl
@[simp] theorem State.withTfu_alu (x : Tfu) : (s.withTfu x).alu = s.alu := rfl
@[simp] theorem State.withTfu_flc (x : Tfu) : (s.withTfu x).flc = s.flc := rfl
@[simp] theorem State.withTfu_ssu (x : Tfu) : (s.withTfu x).ssu = s.ssu := rfl
@[simp] theorem State.withTfu_tfu (x : Tfu) : (s.withTfu x).tfu = x := rfl
@[simp] theorem State.withTfu_rlg (x : Tfu) : (s.withTfu x).rlg = s.rlg := rfl
@[simp] theorem State.withTfu_noticesS (x : Tfu) : (s.withTfu x).noticesS = s.noticesS := rfl
@[simp] theorem State.withTfu_noticesC (x : Tfu) : (s.withTfu x).noticesC = s.noticesC := rfl
@[simp] theorem State.withTfu_mail (x : Tfu) : (s.withTfu x).mail = s.mail := rfl
@[simp] theorem State.withTfu_frameErrors (x : Tfu) : (s.withTfu x).frameErrors = s.frameErrors := rfl
@[simp] theorem State.withTfu_replies (x : Tfu) : (s.withTfu x).replies = s.replies := rfl
@[simp] theorem State.withTfu_requests (x : Tfu) : (s.withTfu x).requests = s.requests := rfl
@[simp] theorem State.withTfu_pending (x : Tfu) : (s.withTfu x).pending = s.pending := rfl

@[simp] theorem State.withRlg_site (x : Rlg) : (s.withRlg x).site = s.site := rfl
@[simp] theorem State.withRlg_cmu (x : Rlg) : (s.withRlg x).cmu = s.cmu := rfl
@[simp] theorem State.withRlg_lsu (x : Rlg) : (s.withRlg x).lsu = s.lsu := rfl
@[simp] theorem State.withRlg_bau (x : Rlg) : (s.withRlg x).bau = s.bau := rfl
@[simp] theorem State.withRlg_alu (x : Rlg) : (s.withRlg x).alu = s.alu := rfl
@[simp] theorem State.withRlg_flc (x : Rlg) : (s.withRlg x).flc = s.flc := rfl
@[simp] theorem State.withRlg_ssu (x : Rlg) : (s.withRlg x).ssu = s.ssu := rfl
@[simp] theorem State.withRlg_tfu (x : Rlg) : (s.withRlg x).tfu = s.tfu := rfl
@[simp] theorem State.withRlg_rlg (x : Rlg) : (s.withRlg x).rlg = x := rfl
@[simp] theorem State.withRlg_noticesS (x : Rlg) : (s.withRlg x).noticesS = s.noticesS := rfl
@[simp] theorem State.withRlg_noticesC (x : Rlg) : (s.withRlg x).noticesC = s.noticesC := rfl
@[simp] theorem State.withRlg_mail (x : Rlg) : (s.withRlg x).mail = s.mail := rfl
@[simp] theorem State.withRlg_frameErrors (x : Rlg) : (s.withRlg x).frameErrors = s.frameErrors := rfl
@[simp] theorem State.withRlg_replies (x : Rlg) : (s.withRlg x).replies = s.replies := rfl
@[simp] theorem State.withRlg_requests (x : Rlg) : (s.withRlg x).requests = s.requests := rfl
@[simp] theorem State.withRlg_pending (x : Rlg) : (s.withRlg x).pending = s.pending := rfl

@[simp] theorem State.withNoticesS_site (x : Notices) : (s.withNoticesS x).site = s.site := rfl
@[simp] theorem State.withNoticesS_cmu (x : Notices) : (s.withNoticesS x).cmu = s.cmu := rfl
@[simp] theorem State.withNoticesS_lsu (x : Notices) : (s.withNoticesS x).lsu = s.lsu := rfl
@[simp] theorem State.withNoticesS_bau (x : Notices) : (s.withNoticesS x).bau = s.bau := rfl
@[simp] theorem State.withNoticesS_alu (x : Notices) : (s.withNoticesS x).alu = s.alu := rfl
@[simp] theorem State.withNoticesS_flc (x : Notices) : (s.withNoticesS x).flc = s.flc := rfl
@[simp] theorem State.withNoticesS_ssu (x : Notices) : (s.withNoticesS x).ssu = s.ssu := rfl
@[simp] theorem State.withNoticesS_tfu (x : Notices) : (s.withNoticesS x).tfu = s.tfu := rfl
@[simp] theorem State.withNoticesS_rlg (x : Notices) : (s.withNoticesS x).rlg = s.rlg := rfl
@[simp] theorem State.withNoticesS_noticesS (x : Notices) : (s.withNoticesS x).noticesS = x := rfl
@[simp] theorem State.withNoticesS_noticesC (x : Notices) : (s.withNoticesS x).noticesC = s.noticesC := rfl
@[simp] theorem State.withNoticesS_mail (x : Notices) : (s.withNoticesS x).mail = s.mail := rfl
@[simp] theorem State.withNoticesS_frameErrors (x : Notices) : (s.withNoticesS x).frameErrors = s.frameErrors := rfl
@[simp] theorem State.withNoticesS_replies (x : Notices) : (s.withNoticesS x).replies = s.replies := rfl
@[simp] theorem State.withNoticesS_requests (x : Notices) : (s.withNoticesS x).requests = s.requests := rfl
@[simp] theorem State.withNoticesS_pending (x : Notices) : (s.withNoticesS x).pending = s.pending := rfl

@[simp] theorem State.withNoticesC_site (x : Notices) : (s.withNoticesC x).site = s.site := rfl
@[simp] theorem State.withNoticesC_cmu (x : Notices) : (s.withNoticesC x).cmu = s.cmu := rfl
@[simp] theorem State.withNoticesC_lsu (x : Notices) : (s.withNoticesC x).lsu = s.lsu := rfl
@[simp] theorem State.withNoticesC_bau (x : Notices) : (s.withNoticesC x).bau = s.bau := rfl
@[simp] theorem State.withNoticesC_alu (x : Notices) : (s.withNoticesC x).alu = s.alu := rfl
@[simp] theorem State.withNoticesC_flc (x : Notices) : (s.withNoticesC x).flc = s.flc := rfl
@[simp] theorem State.withNoticesC_ssu (x : Notices) : (s.withNoticesC x).ssu = s.ssu := rfl
@[simp] theorem State.withNoticesC_tfu (x : Notices) : (s.withNoticesC x).tfu = s.tfu := rfl
@[simp] theorem State.withNoticesC_rlg (x : Notices) : (s.withNoticesC x).rlg = s.rlg := rfl
@[simp] theorem State.withNoticesC_noticesS (x : Notices) : (s.withNoticesC x).noticesS = s.noticesS := rfl
@[simp] theorem State.withNoticesC_noticesC (x : Notices) : (s.withNoticesC x).noticesC = x := rfl
@[simp] theorem State.withNoticesC_mail (x : Notices) : (s.withNoticesC x).mail = s.mail := rfl
@[simp] theorem State.withNoticesC_frameErrors (x : Notices) : (s.withNoticesC x).frameErrors = s.frameErrors := rfl
@[simp] theorem State.withNoticesC_replies (x : Notices) : (s.withNoticesC x).replies = s.replies := rfl
@[simp] theorem State.withNoticesC_requests (x : Notices) : (s.withNoticesC x).requests = s.requests := rfl
@[simp] theorem State.withNoticesC_pending (x : Notices) : (s.withNoticesC x).pending = s.pending := rfl

@[simp] theorem State.withMail_site (x : Mail) : (s.withMail x).site = s.site := rfl
@[simp] theorem State.withMail_cmu (x : Mail) : (s.withMail x).cmu = s.cmu := rfl
@[simp] theorem State.withMail_lsu (x : Mail) : (s.withMail x).lsu = s.lsu := rfl
@[simp] theorem State.withMail_bau (x : Mail) : (s.withMail x).bau = s.bau := rfl
@[simp] theorem State.withMail_alu (x : Mail) : (s.withMail x).alu = s.alu := rfl
@[simp] theorem State.withMail_flc (x : Mail) : (s.withMail x).flc = s.flc := rfl
@[simp] theorem State.withMail_ssu (x : Mail) : (s.withMail x).ssu = s.ssu := rfl
@[simp] theorem State.withMail_tfu (x : Mail) : (s.withMail x).tfu = s.tfu := rfl
@[simp] theorem State.withMail_rlg (x : Mail) : (s.withMail x).rlg = s.rlg := rfl
@[simp] theorem State.withMail_noticesS (x : Mail) : (s.withMail x).noticesS = s.noticesS := rfl
@[simp] theorem State.withMail_noticesC (x : Mail) : (s.withMail x).noticesC = s.noticesC := rfl
@[simp] theorem State.withMail_mail (x : Mail) : (s.withMail x).mail = x := rfl
@[simp] theorem State.withMail_frameErrors (x : Mail) : (s.withMail x).frameErrors = s.frameErrors := rfl
@[simp] theorem State.withMail_replies (x : Mail) : (s.withMail x).replies = s.replies := rfl
@[simp] theorem State.withMail_requests (x : Mail) : (s.withMail x).requests = s.requests := rfl
@[simp] theorem State.withMail_pending (x : Mail) : (s.withMail x).pending = s.pending := rfl

@[simp] theorem State.withFrameErrors_site (x : FrameErrors) : (s.withFrameErrors x).site = s.site := rfl
@[simp] theorem State.withFrameErrors_cmu (x : FrameErrors) : (s.withFrameErrors x).cmu = s.cmu := rfl
@[simp] theorem State.withFrameErrors_lsu (x : FrameErrors) : (s.withFrameErrors x).lsu = s.lsu := rfl
@[simp] theorem State.withFrameErrors_bau (x : FrameErrors) : (s.withFrameErrors x).bau = s.bau := rfl
@[simp] theorem State.withFrameErrors_alu (x : FrameErrors) : (s.withFrameErrors x).alu = s.alu := rfl
@[simp] theorem State.withFrameErrors_flc (x : FrameErrors) : (s.withFrameErrors x).flc = s.flc := rfl
@[simp] theorem State.withFrameErrors_ssu (x : FrameErrors) : (s.withFrameErrors x).ssu = s.ssu := rfl
@[simp] theorem State.withFrameErrors_tfu (x : FrameErrors) : (s.withFrameErrors x).tfu = s.tfu := rfl
@[simp] theorem State.withFrameErrors_rlg (x : FrameErrors) : (s.withFrameErrors x).rlg = s.rlg := rfl
@[simp] theorem State.withFrameErrors_noticesS (x : FrameErrors) : (s.withFrameErrors x).noticesS = s.noticesS := rfl
@[simp] theorem State.withFrameErrors_noticesC (x : FrameErrors) : (s.withFrameErrors x).noticesC = s.noticesC := rfl
@[simp] theorem State.withFrameErrors_mail (x : FrameErrors) : (s.withFrameErrors x).mail = s.mail := rfl
@[simp] theorem State.withFrameErrors_frameErrors (x : FrameErrors) : (s.withFrameErrors x).frameErrors = x := rfl
@[simp] theorem State.withFrameErrors_replies (x : FrameErrors) : (s.withFrameErrors x).replies = s.replies := rfl
@[simp] theorem State.withFrameErrors_requests (x : FrameErrors) : (s.withFrameErrors x).requests = s.requests := rfl
@[simp] theorem State.withFrameErrors_pending (x : FrameErrors) : (s.withFrameErrors x).pending = s.pending := rfl

@[simp] theorem State.withReplies_site (x : Replies) : (s.withReplies x).site = s.site := rfl
@[simp] theorem State.withReplies_cmu (x : Replies) : (s.withReplies x).cmu = s.cmu := rfl
@[simp] theorem State.withReplies_lsu (x : Replies) : (s.withReplies x).lsu = s.lsu := rfl
@[simp] theorem State.withReplies_bau (x : Replies) : (s.withReplies x).bau = s.bau := rfl
@[simp] theorem State.withReplies_alu (x : Replies) : (s.withReplies x).alu = s.alu := rfl
@[simp] theorem State.withReplies_flc (x : Replies) : (s.withReplies x).flc = s.flc := rfl
@[simp] theorem State.withReplies_ssu (x : Replies) : (s.withReplies x).ssu = s.ssu := rfl
@[simp] theorem State.withReplies_tfu (x : Replies) : (s.withReplies x).tfu = s.tfu := rfl
@[simp] theorem State.withReplies_rlg (x : Replies) : (s.withReplies x).rlg = s.rlg := rfl
@[simp] theorem State.withReplies_noticesS (x : Replies) : (s.withReplies x).noticesS = s.noticesS := rfl
@[simp] theorem State.withReplies_noticesC (x : Replies) : (s.withReplies x).noticesC = s.noticesC := rfl
@[simp] theorem State.withReplies_mail (x : Replies) : (s.withReplies x).mail = s.mail := rfl
@[simp] theorem State.withReplies_frameErrors (x : Replies) : (s.withReplies x).frameErrors = s.frameErrors := rfl
@[simp] theorem State.withReplies_replies (x : Replies) : (s.withReplies x).replies = x := rfl
@[simp] theorem State.withReplies_requests (x : Replies) : (s.withReplies x).requests = s.requests := rfl
@[simp] theorem State.withReplies_pending (x : Replies) : (s.withReplies x).pending = s.pending := rfl

@[simp] theorem State.withRequests_site (x : List Request) : (s.withRequests x).site = s.site := rfl
@[simp] theorem State.withRequests_cmu (x : List Request) : (s.withRequests x).cmu = s.cmu := rfl
@[simp] theorem State.withRequests_lsu (x : List Request) : (s.withRequests x).lsu = s.lsu := rfl
@[simp] theorem State.withRequests_bau (x : List Request) : (s.withRequests x).bau = s.bau := rfl
@[simp] theorem State.withRequests_alu (x : List Request) : (s.withRequests x).alu = s.alu := rfl
@[simp] theorem State.withRequests_flc (x : List Request) : (s.withRequests x).flc = s.flc := rfl
@[simp] theorem State.withRequests_ssu (x : List Request) : (s.withRequests x).ssu = s.ssu := rfl
@[simp] theorem State.withRequests_tfu (x : List Request) : (s.withRequests x).tfu = s.tfu := rfl
@[simp] theorem State.withRequests_rlg (x : List Request) : (s.withRequests x).rlg = s.rlg := rfl
@[simp] theorem State.withRequests_noticesS (x : List Request) : (s.withRequests x).noticesS = s.noticesS := rfl
@[simp] theorem State.withRequests_noticesC (x : List Request) : (s.withRequests x).noticesC = s.noticesC := rfl
@[simp] theorem State.withRequests_mail (x : List Request) : (s.withRequests x).mail = s.mail := rfl
@[simp] theorem State.withRequests_frameErrors (x : List Request) : (s.withRequests x).frameErrors = s.frameErrors := rfl
@[simp] theorem State.withRequests_replies (x : List Request) : (s.withRequests x).replies = s.replies := rfl
@[simp] theorem State.withRequests_requests (x : List Request) : (s.withRequests x).requests = x := rfl
@[simp] theorem State.withRequests_pending (x : List Request) : (s.withRequests x).pending = s.pending := rfl

@[simp] theorem State.withPending_site (x : List Instr) : (s.withPending x).site = s.site := rfl
@[simp] theorem State.withPending_cmu (x : List Instr) : (s.withPending x).cmu = s.cmu := rfl
@[simp] theorem State.withPending_lsu (x : List Instr) : (s.withPending x).lsu = s.lsu := rfl
@[simp] theorem State.withPending_bau (x : List Instr) : (s.withPending x).bau = s.bau := rfl
@[simp] theorem State.withPending_alu (x : List Instr) : (s.withPending x).alu = s.alu := rfl
@[simp] theorem State.withPending_flc (x : List Instr) : (s.withPending x).flc = s.flc := rfl
@[simp] theorem State.withPending_ssu (x : List Instr) : (s.withPending x).ssu = s.ssu := rfl
@[simp] theorem State.withPending_tfu (x : List Instr) : (s.withPending x).tfu = s.tfu := rfl
@[simp] theorem State.withPending_rlg (x : List Instr) : (s.withPending x).rlg = s.rlg := rfl
@[simp] theorem State.withPending_noticesS (x : List Instr) : (s.withPending x).noticesS = s.noticesS := rfl
@[simp] theorem State.withPending_noticesC (x : List Instr) : (s.withPending x).noticesC = s.noticesC := rfl
@[simp] theorem State.withPending_mail (x : List Instr) : (s.withPending x).mail = s.mail := rfl
@[simp] theorem State.withPending_frameErrors (x : List Instr) : (s.withPending x).frameErrors = s.frameErrors := rfl
@[simp] theorem State.withPending_replies (x : List Instr) : (s.withPending x).replies = s.replies := rfl
@[simp] theorem State.withPending_requests (x : List Instr) : (s.withPending x).requests = s.requests := rfl
@[simp] theorem State.withPending_pending (x : List Instr) : (s.withPending x).pending = x := rfl

end Sys2Proof.Machine
end

