-- ==== Sys2Proof/Laws/Frames.lean ====
section
/-! SUPPORT. What each shared operation may change: one lemma per operation, in the terms of Safety.lean. -/

namespace Sys2Proof.Machine

open Sys2Proof

set_option Elab.async false

variable {fs gs : List Field} {s t u : State}

/-! ## How frames compose -/

theorem State.onlyChanges_refl : s.onlyChanges fs s := by
  intro f _; cases f <;> rfl

theorem State.onlyChanges_trans (h : s.onlyChanges fs t) (k : t.onlyChanges fs u) : s.onlyChanges fs u := by
  intro f hf
  have a := h f hf
  have b := k f hf
  cases f <;> exact b.trans a

theorem State.onlyChanges_mono (h : s.onlyChanges fs t) (sub : ∀ f ∈ fs, f ∈ gs := by decide) :
    s.onlyChanges gs t :=
  fun f hf => h f (fun m => hf (sub f m))

/-- Two steps with their own frames inside one. -/
theorem State.onlyChanges_then {hs : List Field} (h : s.onlyChanges fs t) (k : t.onlyChanges gs u)
    (a : ∀ f ∈ fs, f ∈ hs := by decide) (b : ∀ f ∈ gs, f ∈ hs := by decide) : s.onlyChanges hs u :=
  onlyChanges_trans (onlyChanges_mono h a) (onlyChanges_mono k b)

/-- A choice between two states with one frame. -/
theorem State.onlyChanges_ite {b : Prop} [Decidable b] (h : s.onlyChanges fs t) (k : s.onlyChanges fs u) :
    s.onlyChanges fs (if b then t else u) := by
  split
  · exact h
  · exact k

/-- A fold whose steps have a frame has that frame. -/
theorem State.onlyChanges_foldl {α : Type} {g : State → α → State}
    (h : ∀ (v : State) a, v.onlyChanges fs (g v a)) (as : List α) :
    s.onlyChanges fs (as.foldl g s) := by
  induction as generalizing s with
  | nil => exact onlyChanges_refl
  | cons a as ih => exact onlyChanges_trans (h s a) ih

/-! ## One unit replaced -/

theorem State.withSite_only (x : Site) : s.onlyChanges [.site] (s.withSite x) := by
  intro f hf; cases f <;> first | rfl | simp at hf
theorem State.withCmu_only (x : Cmu) : s.onlyChanges [.cmu] (s.withCmu x) := by
  intro f hf; cases f <;> first | rfl | simp at hf
theorem State.withLsu_only (x : Lsu) : s.onlyChanges [.lsu] (s.withLsu x) := by
  intro f hf; cases f <;> first | rfl | simp at hf
theorem State.withBau_only (x : Bau) : s.onlyChanges [.bau] (s.withBau x) := by
  intro f hf; cases f <;> first | rfl | simp at hf
theorem State.withAlu_only (x : Alu) : s.onlyChanges [.alu] (s.withAlu x) := by
  intro f hf; cases f <;> first | rfl | simp at hf
theorem State.withFlc_only (x : Flc) : s.onlyChanges [.flc] (s.withFlc x) := by
  intro f hf; cases f <;> first | rfl | simp at hf
theorem State.withSsu_only (x : Ssu) : s.onlyChanges [.ssu] (s.withSsu x) := by
  intro f hf; cases f <;> first | rfl | simp at hf
theorem State.withTfu_only (x : Tfu) : s.onlyChanges [.tfu] (s.withTfu x) := by
  intro f hf; cases f <;> first | rfl | simp at hf
theorem State.withRlg_only (x : Rlg) : s.onlyChanges [.rlg] (s.withRlg x) := by
  intro f hf; cases f <;> first | rfl | simp at hf
theorem State.withMail_only (x : Mail) : s.onlyChanges [.mail] (s.withMail x) := by
  intro f hf; cases f <;> first | rfl | simp at hf
theorem State.withFrameErrors_only (x : FrameErrors) : s.onlyChanges [.frameErrors] (s.withFrameErrors x) := by
  intro f hf; cases f <;> first | rfl | simp at hf
theorem State.withReplies_only (x : Replies) : s.onlyChanges [.replies] (s.withReplies x) := by
  intro f hf; cases f <;> first | rfl | simp at hf
theorem State.withRequests_only (x : List Request) : s.onlyChanges [.requests] (s.withRequests x) := by
  intro f hf; cases f <;> first | rfl | simp at hf
theorem State.withPending_only (x : List Instr) : s.onlyChanges [.pending] (s.withPending x) := by
  intro f hf; cases f <;> first | rfl | simp at hf
theorem State.withNotices_only (p : Port) (x : Notices) : s.onlyChanges [noticeField p] (s.withNotices p x) := by
  intro f hf; cases p <;> cases f <;> first | rfl | simp [noticeField] at hf

theorem State.withNode_only (n : Fin 26) (x : Node) : s.onlyChanges [.flc] (s.withNode n x) := withFlc_only _
theorem State.withSession_only (p : Point) (x : Session) : s.onlyChanges [.ssu] (s.withSession p x) := withSsu_only _
theorem State.appendQueue_only (p : Point) : s.onlyChanges [.alu] (s.appendQueue p) := withAlu_only _
theorem State.removeQueue_only (p : Point) : s.onlyChanges [.alu] (s.removeQueue p) := withAlu_only _
theorem State.send_only (r : Request) : s.onlyChanges [.requests] (s.send r) := withRequests_only _
theorem State.takeRequest_only (r : Request) : s.onlyChanges [.requests] (s.takeRequest r) := withRequests_only _

theorem State.sendRecompute_only : s.onlyChanges [.requests] s.sendRecompute := by
  unfold sendRecompute; split
  · exact send_only _
  · exact onlyChanges_refl

/-! ## Replies and notices -/

theorem State.reply_only (p : Port) (r : Reply) : s.onlyChanges [.replies] (s.reply p r) := by
  cases p <;> exact withReplies_only _
theorem State.ok_only (p : Port) (c : Bool) (r : List Byte) : s.onlyChanges [.replies] (s.ok p c r) := reply_only _ _
theorem State.accepted_only (p : Port) (r : List Byte) : s.onlyChanges [.replies] (s.accepted p r) := reply_only _ _
theorem State.turnDown_only (p : Port) (a : Status) (b : Reason) : s.onlyChanges [.replies] (s.turnDown p a b) :=
  reply_only _ _
theorem State.wrongPort_only (p : Port) : s.onlyChanges [.replies] (s.wrongPort p) := reply_only _ _
theorem State.unknown_only (p : Port) : s.onlyChanges [.replies] (s.unknown p) := reply_only _ _
theorem State.clearReply_only (p : Port) : s.onlyChanges [.replies] (s.clearReply p) := by
  cases p <;> exact withReplies_only _

theorem State.raise_only (p : Port) (k : NoticeKind) (ns : List Nat) :
    s.onlyChanges [noticeField p] (s.raise p k ns) := withNotices_only _ _

theorem State.raiseBoth_only (k : NoticeKind) (ns : List Nat) :
    s.onlyChanges [.noticesS, .noticesC] (s.raiseBoth k ns) :=
  onlyChanges_then (raise_only .s k ns) (raise_only .c k ns)

/-! ## Staging -/

theorem State.handValues_only (want : Point → Nat × Nat) : s.onlyChanges [.alu, .flc] (s.handValues want) :=
  onlyChanges_then (withAlu_only _) (withFlc_only _)

theorem State.handValue_only (p : Point) (v w : Nat) : s.onlyChanges [.alu, .flc] (s.handValue p v w) :=
  handValues_only _

theorem State.releaseRaises_only : s.onlyChanges [.alu, .flc] s.releaseRaises :=
  onlyChanges_then (handValues_only _) (withAlu_only _)

theorem State.stagingTest_only : s.onlyChanges [.alu, .flc] s.stagingTest := by
  unfold stagingTest
  split
  · exact onlyChanges_refl
  split
  · exact onlyChanges_mono (withAlu_only _)
  split
  · exact releaseRaises_only
  · exact onlyChanges_mono (withAlu_only _)

theorem State.leaveOnline_only (p : Point) : s.onlyChanges [.alu, .flc] (s.leaveOnline p) :=
  onlyChanges_then (onlyChanges_then (handValue_only p 0 0) (withAlu_only _) (hs := [.alu, .flc])) stagingTest_only

theorem State.acknowledge_only (p : Point) : s.onlyChanges [.alu, .flc] (s.acknowledge p) :=
  onlyChanges_then (withAlu_only _) stagingTest_only

theorem State.stageReduction_only (p : Point) : s.onlyChanges [.alu, .flc] (s.stageReduction p) :=
  onlyChanges_then (handValue_only p 0 0) (withAlu_only _)

theorem State.allZeroRequest_only : s.onlyChanges [.alu, .flc] s.allZeroRequest :=
  onlyChanges_then (onlyChanges_then (handValues_only _) (withAlu_only _) (hs := [.alu, .flc])) (withFlc_only _)

/-! ## Sessions -/

theorem State.enterWaiting_only (p : Point) : s.onlyChanges [.ssu, .alu] (s.enterWaiting p) :=
  onlyChanges_then (withSession_only p _) (appendQueue_only p)

theorem State.withdraw_only (p : Point) : s.onlyChanges [.alu, .requests] (s.withdraw p) := by
  unfold withdraw
  split
  · exact onlyChanges_mono (removeQueue_only p)
  · exact onlyChanges_mono (send_only _)
  · exact onlyChanges_refl

theorem State.enterDone_only (p : Point) : s.onlyChanges [.ssu, .alu, .requests, .noticesC] (s.enterDone p) :=
  onlyChanges_then (onlyChanges_then (withdraw_only p) (withSession_only p _) (hs := [.ssu, .alu, .requests]))
    (raise_only .c _ _)

theorem State.applyStop_only (p : Point) : s.onlyChanges [.ssu, .alu, .requests] (s.applyStop p) := by
  unfold applyStop
  dsimp only
  split
  · split <;> first
      | exact onlyChanges_then (withdraw_only p) (withSession_only p _)
      | exact onlyChanges_refl
  · split
    · exact onlyChanges_mono (enterWaiting_only p)
    · exact onlyChanges_refl

theorem State.startClose_only (p : Point) (r : EndReason) :
    s.onlyChanges [.ssu, .alu, .requests] (s.startClose p r) :=
  onlyChanges_then (withdraw_only p) (withSession_only p _)

theorem State.faultClose_only (p : Point) : s.onlyChanges [.ssu, .alu, .requests] (s.faultClose p) := by
  unfold faultClose
  split
  · exact startClose_only p _
  split
  · exact onlyChanges_mono (withSession_only p _)
  · exact onlyChanges_refl

theorem State.faultCloseAll_only : s.onlyChanges [.ssu, .alu, .requests] s.faultCloseAll :=
  onlyChanges_foldl (fun _ a => faultClose_only a) _

theorem State.enqueue_only (q : ProgramRequest) : s.onlyChanges [.rlg] (s.enqueue q) := withRlg_only _

theorem State.endFinalWait_only (p : Point) : s.onlyChanges [.ssu, .rlg] (s.endFinalWait p) :=
  onlyChanges_then (withSession_only p _) (enqueue_only _)

theorem State.finalWaitTick_only (p : Point) : s.onlyChanges [.ssu, .rlg] (s.finalWaitTick p) := by
  unfold finalWaitTick
  dsimp only
  split
  · split
    · exact onlyChanges_mono (withSession_only p _)
    · exact onlyChanges_then (withSession_only p _) (endFinalWait_only p)
  · exact onlyChanges_refl

theorem State.finalWaitTicks_only : s.onlyChanges [.ssu, .rlg] s.finalWaitTicks :=
  onlyChanges_foldl (fun _ a => finalWaitTick_only a) _

theorem State.freeSession_only (p : Point) : s.onlyChanges [.ssu, .tfu] (s.freeSession p) :=
  onlyChanges_then (withTfu_only _) (withSession_only p _)

theorem State.openingCompleted_only (p : Point) :
    s.onlyChanges [.ssu, .alu, .requests, .noticesC] (s.openingCompleted p) := by
  unfold openingCompleted
  split
  · exact onlyChanges_then (enterWaiting_only p) (raise_only .c _ _)
  · exact onlyChanges_then (startClose_only p _) (raise_only .c _ _)

theorem State.openingFailed_only (p : Point) : s.onlyChanges [.ssu, .tfu, .noticesC] (s.openingFailed p) :=
  onlyChanges_then (freeSession_only p) (raise_only .c _ _)

theorem State.closingCompleted_only (p : Point) : s.onlyChanges [.ssu, .tfu, .noticesC] (s.closingCompleted p) :=
  onlyChanges_then (freeSession_only p) (raise_only .c _ _)

/-! ## The receipt log -/

theorem State.eraseTest_only : s.onlyChanges [.rlg, .noticesS, .noticesC] s.eraseTest := by
  unfold eraseTest
  dsimp only
  split
  · exact onlyChanges_then (withRlg_only _) (raiseBoth_only _ _)
  · exact onlyChanges_mono (withRlg_only _)

theorem State.endRequest_only : s.onlyChanges [.rlg, .noticesS, .noticesC] s.endRequest := by
  unfold endRequest
  dsimp only
  split
  · exact onlyChanges_then (withRlg_only _) (onlyChanges_then (withRlg_only _) eraseTest_only
      (hs := [.rlg, .noticesS, .noticesC]))
  · exact onlyChanges_mono (withRlg_only _)

theorem State.retryHead_only (q : ProgramRequest) : s.onlyChanges [.rlg] (s.retryHead q) := withRlg_only _

theorem State.enterFault_only : s.onlyChanges [.rlg, .ssu, .alu, .requests] s.enterFault :=
  onlyChanges_then (withRlg_only _) faultCloseAll_only

/-- The fields a third failure may change. -/
def faultFields : List Field := [.rlg, .ssu, .alu, .requests, .noticesS, .noticesC]

theorem State.thirdFailure_only (ns : List Nat) : s.onlyChanges faultFields (s.thirdFailure ns) := by
  unfold thirdFailure
  dsimp only
  split
  · exact onlyChanges_mono (raiseBoth_only _ _)
  · exact onlyChanges_then (raiseBoth_only _ _) enterFault_only

theorem State.failHead_only (ns : List Nat) : s.onlyChanges faultFields (s.failHead ns) := by
  have h : s.onlyChanges faultFields
      ((s.withRlg { s.rlg with queue := s.rlg.queue.tail, programming := false }).thirdFailure ns) :=
    onlyChanges_then (withRlg_only _) (thirdFailure_only ns)
  unfold failHead
  dsimp only
  split
  · exact onlyChanges_then h (onlyChanges_then (withRlg_only _) eraseTest_only (hs := faultFields))
  · exact h

theorem State.markBad_only (slot : Nat) (ms : List MarkResult) :
    s.onlyChanges [.rlg, .noticesS, .noticesC] (s.markBad slot ms) :=
  onlyChanges_then (withRlg_only _) eraseTest_only

theorem State.reserveWith_only {r : Option (Nat × Rlg)} {slot : Nat} (h : s.reserveWith r = some (slot, t)) :
    s.onlyChanges [.rlg, .noticesS, .noticesC] t := by
  unfold reserveWith at h
  cases r with
  | none => simp at h
  | some x =>
    simp only [Option.map_some, Option.some.injEq, Prod.mk.injEq] at h
    rw [← h.2]
    exact onlyChanges_then (withRlg_only _) eraseTest_only

/-- The two ends of a relocation attempt: the record moved and the erase test, or a slot marked BAD. -/
theorem State.relocateEnd_only (b : Prop) [Decidable b] (r r' : Rlg) (x y : Relocated) (slot : Nat) (ms : List MarkResult) :
    s.onlyChanges [.rlg, .noticesS, .noticesC]
      (if b then ((s.withRlg r).eraseTest, x) else ((s.withRlg r').markBad slot ms, y)).1 := by
  split
  · exact onlyChanges_then (withRlg_only _) eraseTest_only
  · exact onlyChanges_then (withRlg_only _) (markBad_only _ _)

theorem State.relocate_only (part : ClosingPart) (q : ProgramRequest) (o : ProgramOutcome) :
    s.onlyChanges [.rlg, .noticesS, .noticesC] (s.relocate part q o).1 := by
  unfold relocate
  split
  · exact onlyChanges_refl
  · next h => exact onlyChanges_trans (reserveWith_only h) (relocateEnd_only _ _ _ _ _ _ _)

/-! ## The limit supervisor -/

theorem State.republishAndAsk_only : s.onlyChanges [.lsu, .requests] s.republishAndAsk := by
  unfold republishAndAsk
  dsimp only
  split
  · exact onlyChanges_mono (withLsu_only _)
  · exact onlyChanges_then (withLsu_only _) sendRecompute_only

theorem State.lapse_only : s.onlyChanges [.lsu, .requests, .noticesS] s.lapse :=
  onlyChanges_then (onlyChanges_then (withLsu_only _) (raise_only .s _ _) (hs := [.lsu, .noticesS]))
    republishAndAsk_only

theorem State.leaseTick_only : s.onlyChanges [.lsu, .requests, .noticesS] s.leaseTick := by
  unfold leaseTick
  split
  · split
    · exact lapse_only
    · exact onlyChanges_mono (withLsu_only _)
  · exact onlyChanges_refl
  · exact onlyChanges_refl

theorem State.lineEdge_only : s.onlyChanges [.lsu, .requests, .noticesS] s.lineEdge :=
  onlyChanges_then (onlyChanges_then (withLsu_only _) (raise_only .s _ _) (hs := [.lsu, .noticesS]))
    sendRecompute_only

theorem State.escalate_only (e : Escalation) : s.onlyChanges [.lsu, .noticesS, .noticesC] (s.escalate e) :=
  onlyChanges_then (withLsu_only _) (raiseBoth_only _ _)

/-- The fields the escalation machine may change. -/
def machineFields : List Field := [.lsu, .alu, .flc, .ssu, .noticesS, .noticesC]

theorem State.enterShed_only : s.onlyChanges machineFields s.enterShed :=
  onlyChanges_then (escalate_only _) allZeroRequest_only

theorem State.enterTripped_only : s.onlyChanges machineFields s.enterTripped :=
  onlyChanges_then
    (onlyChanges_then (onlyChanges_then (escalate_only _) (raiseBoth_only _ _) (hs := machineFields))
      (onlyChanges_then (withLsu_only _) allZeroRequest_only (hs := machineFields)) (hs := machineFields))
    (withSsu_only _)

theorem State.completeRelease_only : s.onlyChanges [.lsu, .noticesS, .noticesC] s.completeRelease :=
  onlyChanges_then (escalate_only _) (withLsu_only _)

theorem State.countClean_only (e : Escalation) : s.onlyChanges [.lsu, .noticesS, .noticesC] (s.countClean e) := by
  unfold countClean
  split
  · exact escalate_only e
  · exact onlyChanges_mono (withLsu_only _)

theorem State.judgeCurtail_only (j : Judgement) : s.onlyChanges machineFields (s.judgeCurtail j) := by
  cases j
  · exact onlyChanges_refl
  · exact onlyChanges_mono (countClean_only _)
  · exact enterShed_only
  · exact onlyChanges_refl

theorem State.judgeShed_only (j : Judgement) : s.onlyChanges machineFields (s.judgeShed j) := by
  unfold judgeShed
  split
  · exact onlyChanges_mono (withLsu_only _)
  · cases j
    · exact onlyChanges_refl
    · exact onlyChanges_mono (countClean_only _)
    · exact enterTripped_only
    · exact onlyChanges_refl

theorem State.judgeTripped_only (j : Judgement) : s.onlyChanges machineFields (s.judgeTripped j) := by
  unfold judgeTripped
  split
  · exact onlyChanges_mono (withLsu_only _)
  · split
    · exact onlyChanges_mono completeRelease_only
    · exact onlyChanges_refl
  · exact onlyChanges_refl
  · exact onlyChanges_refl

theorem State.applyJudgement_only (j : Judgement) : s.onlyChanges machineFields (s.applyJudgement j) := by
  unfold applyJudgement
  split
  · exact onlyChanges_refl
  · split
    · exact onlyChanges_refl
    · split
      · exact onlyChanges_mono (escalate_only _)
      · exact onlyChanges_refl
    · exact judgeCurtail_only j
    · exact judgeShed_only j
    · exact judgeTripped_only j

theorem State.configure_only (n : Nat) : s.onlyChanges [.lsu, .noticesS, .noticesC] (s.configure n) := by
  unfold configure
  split
  · split
    · exact escalate_only _
    · exact onlyChanges_refl
  · split
    · exact onlyChanges_mono (withLsu_only _)
    · exact escalate_only _

/-! ## Balance, allocation, link, periods, sessions -/

theorem State.computeRecord_only (r : Reading) (b : Bool) : s.onlyChanges [.bau, .requests] (s.computeRecord r b) :=
  onlyChanges_then (withBau_only _) (send_only _)

theorem State.countMissing_only (r : Reading) : s.onlyChanges [.bau, .noticesS] (s.countMissing r) := by
  unfold countMissing
  split
  · exact onlyChanges_then (withBau_only _) (raise_only .s _ _)
  · exact onlyChanges_mono (withBau_only _)
  · exact onlyChanges_mono (withBau_only _)

theorem State.formSet_only (ps : List Point) (b : Nat) : s.onlyChanges [.alu, .flc] (s.formSet ps b) :=
  onlyChanges_then (onlyChanges_then (handValues_only _) (withAlu_only _) (hs := [.alu, .flc])) stagingTest_only

theorem State.allocate_only (b : Nat) (r : Bool) : s.onlyChanges [.alu, .flc, .ssu] (s.allocate b r) :=
  onlyChanges_then (onlyChanges_then (formSet_only _ b) (withSsu_only _) (hs := [.alu, .flc, .ssu])) (withAlu_only _)

theorem State.sendFrame_only (n : Fin 26) (bs : List Byte) (x : Node) : s.onlyChanges [.flc] (s.sendFrame n bs x) :=
  onlyChanges_then (withNode_only n x) (withFlc_only _)

theorem State.reportRequests_only (n : Fin 26) (e : Byte) (r : Report) : s.onlyChanges [.requests]
    (match nodePoint n with
      | some p => (s.send (.reportToAllocator p e r)).send (.reportToSession p e r)
      | none => s) := by
  split
  · exact onlyChanges_then (send_only _) (send_only _)
  · exact onlyChanges_refl

theorem State.takeReport_only (n : Fin 26) (e : Byte) (r : Report) :
    s.onlyChanges [.flc, .noticesS, .requests] (s.takeReport n e r) := by
  refine onlyChanges_then (fs := [.flc, .noticesS]) ?_ (reportRequests_only n e r)
  exact onlyChanges_ite (onlyChanges_then (withNode_only n _) (raise_only .s _ _)) (onlyChanges_mono (withNode_only n _))

theorem State.declareLost_only (n : Fin 26) :
    s.onlyChanges [.flc, .alu, .ssu, .noticesS, .noticesC] (s.declareLost n) := by
  have h : s.onlyChanges [.flc, .alu, .ssu, .noticesS, .noticesC]
      ((s.withNode n { s.node n with state := .lost }).raiseBoth .nodeLost [n.val]) :=
    onlyChanges_then (withNode_only n _) (raiseBoth_only _ _)
  unfold declareLost
  dsimp only
  split
  · exact onlyChanges_trans h (onlyChanges_then (leaveOnline_only _) (withSession_only _ _))
  · exact h

theorem State.takeMiss_only (n : Fin 26) (e : Bool) :
    s.onlyChanges [.flc, .alu, .ssu, .noticesS, .noticesC] (s.takeMiss n e) := by
  unfold takeMiss
  dsimp only
  split
  · exact onlyChanges_then (withNode_only n _) (declareLost_only n)
  · exact onlyChanges_mono (withNode_only n _)

/-- The fields the end of an exchange may change. -/
def exchangeFields : List Field := [.flc, .alu, .ssu, .noticesS, .noticesC, .requests]

theorem State.endExchange_only (x : Exchange) (e : ExchangeEnd) : s.onlyChanges exchangeFields (s.endExchange x e) := by
  have h : s.onlyChanges exchangeFields
      (if x.removed then s else
        match e with
        | .noReply => s.takeMiss x.node false
        | .error => s.takeMiss x.node true
        | .valid echo report => s.takeReport x.node echo report) := by
    split
    · exact onlyChanges_refl
    · cases e
      · exact onlyChanges_mono (takeMiss_only _ _)
      · exact onlyChanges_mono (takeMiss_only _ _)
      · exact onlyChanges_mono (takeReport_only _ _ _)
  exact onlyChanges_then h (withFlc_only _)

theorem State.cutExchange_only (e : ExchangeEnd) : s.onlyChanges exchangeFields (s.cutExchange e) := by
  unfold cutExchange
  split
  · exact endExchange_only _ e
  · exact onlyChanges_refl

theorem State.configurePoint_only (p : Point) (k : NodeKind) (l : PointLimits) :
    s.onlyChanges [.flc, .alu] (s.configurePoint p k l) := by
  unfold configurePoint
  dsimp only
  split
  · exact onlyChanges_mono (withNode_only _ _)
  split
  · exact onlyChanges_mono (withNode_only _ _)
  split
  · exact onlyChanges_then (onlyChanges_then (withNode_only _ _) (withFlc_only _) (hs := [.flc, .alu]))
      (leaveOnline_only p)
  · exact onlyChanges_then (withNode_only _ _) (withFlc_only _)

theorem State.leaveIfOnline_only (n : Fin 26) : s.onlyChanges [.flc, .alu] (s.leaveIfOnline n) := by
  unfold leaveIfOnline
  split
  · split
    · exact onlyChanges_mono (leaveOnline_only _)
    · exact onlyChanges_refl
  · exact onlyChanges_refl

theorem State.removeNode_only (n : Fin 26) : s.onlyChanges [.flc, .alu] (s.removeNode n) :=
  onlyChanges_then (onlyChanges_then (leaveIfOnline_only n) (withNode_only n _) (hs := [.flc, .alu])) (withFlc_only _)

theorem State.enrol_only (n : Fin 26) : s.onlyChanges [.flc] (s.enrol n) := by
  unfold enrol
  split
  · exact withNode_only n _
  · exact onlyChanges_refl

/-- The fields a period close may change. -/
def closeFields : List Field := [.cmu, .lsu, .alu, .flc, .ssu, .rlg, .noticesS, .noticesC, .requests]

theorem State.closePeriod_only (r : Reading) : s.onlyChanges closeFields (s.closePeriod r) := by
  have h : s.onlyChanges closeFields
      (((s.withCmu (s.cmu.close s.site.tBal r (s.lsu.judge r))).applyJudgement (s.lsu.judge r)).send
        (.newReading r)) :=
    onlyChanges_then (onlyChanges_then (withCmu_only _) (applyJudgement_only _) (hs := closeFields)) (send_only _)
  exact onlyChanges_then (onlyChanges_then h (onlyChanges_then (withLsu_only _) finalWaitTicks_only
    (hs := closeFields)) (hs := closeFields)) (withFlc_only _)

/-- The fields a report may change at the session unit. -/
def reportFields : List Field := [.ssu, .alu, .rlg, .noticesC, .requests]

theorem State.accountReport_only (p : Point) (r : Word32) : s.onlyChanges [.ssu] (s.accountReport p r) := by
  unfold accountReport
  split
  · exact withSession_only p _
  · exact onlyChanges_refl

theorem State.finalTest_only (p : Point) (e : Byte) : s.onlyChanges [.ssu, .rlg] (s.finalTest p e) := by
  unfold finalTest
  split
  · exact endFinalWait_only p
  · exact onlyChanges_refl

theorem State.plugTest_only (p : Point) (b : Bool) : s.onlyChanges [.ssu, .alu, .requests] (s.plugTest p b) := by
  unfold plugTest
  split
  · exact onlyChanges_refl
  split
  · exact startClose_only p _
  split
  · exact onlyChanges_mono (withSession_only p _)
  · exact onlyChanges_refl

theorem State.countRequest_only (p : Point) (n : Nat) :
    s.onlyChanges [.ssu, .alu, .requests, .noticesC] (s.countRequest p n) := by
  unfold countRequest
  split
  · exact onlyChanges_mono (withSession_only p _)
  split
  · exact enterDone_only p
  · exact onlyChanges_mono (withSession_only p _)

theorem State.requestTest_only (p : Point) (n : Nat) : s.onlyChanges [.ssu, .alu, .requests, .noticesC] (s.requestTest p n) := by
  unfold requestTest
  split <;> first
    | exact countRequest_only p n
    | exact onlyChanges_refl
    | (split <;> first | exact onlyChanges_mono (enterWaiting_only p) | exact onlyChanges_refl)

theorem State.sessionReport_only (p : Point) (e : Byte) (r : Word32) (n : Nat) (b : Bool) :
    s.onlyChanges reportFields (s.sessionReport p e r n b) :=
  onlyChanges_then
    (onlyChanges_then (onlyChanges_then (accountReport_only p r) (finalTest_only p e) (hs := reportFields))
      (plugTest_only p b) (hs := reportFields))
    (requestTest_only p n)

theorem State.openSession_only (p : Point) (slot : Nat) (o : OpeningPart) :
    s.onlyChanges [.ssu, .tfu, .rlg] (s.openSession p slot o) :=
  onlyChanges_then (onlyChanges_then (withSession_only p _) (withTfu_only _) (hs := [.ssu, .tfu])) (enqueue_only _)

/-- The notice that ends a scan with orphans. -/
theorem State.raiseOrphans_only :
    s.onlyChanges [.noticesC] (if s.rlg.orphans.isEmpty then s else s.raise .c .orphansFound s.rlg.orphanPoints) :=
  onlyChanges_ite onlyChanges_refl (raise_only .c _ _)

theorem State.scan_only (xs : List ScanResult) : s.onlyChanges faultFields (s.scan xs) :=
  onlyChanges_then
    (onlyChanges_then
      (onlyChanges_then (withRlg_only _) (onlyChanges_ite (thirdFailure_only _) onlyChanges_refl) (hs := faultFields))
      eraseTest_only (hs := faultFields))
    raiseOrphans_only

end Sys2Proof.Machine
end

