-- ==== Sys2Proof/Laws/Link.lean ====
section
/-! SUPPORT. How the poll round moves on: the node it comes to next, and what the end of an exchange leaves (R106). -/

namespace Sys2Proof.Machine

open Sys2Proof

theorem mem_nodeNumbers (m : Fin 26) : m ∈ List.ofFn (id : Fin 26 → Fin 26) := List.mem_ofFn.mpr ⟨m, rfl⟩

/-- The first node from a number on that is not ABSENT. -/
theorem Flc.firstFrom_some {x : Flc} {k : Nat} {n : Fin 26} (h : x.firstFrom k = some n) :
    k ≤ n.val ∧ x.nodes[n].state ≠ .absent ∧ ∀ m : Fin 26, k ≤ m.val → m < n → x.nodes[m].state = .absent := by
  unfold Flc.firstFrom at h
  obtain ⟨hp, as, bs, he, ha⟩ := List.find?_eq_some_iff_append.mp h
  simp only [Bool.and_eq_true, decide_eq_true_eq, bne_iff_ne, ne_eq] at hp
  refine ⟨hp.1, hp.2, fun m hk hm => ?_⟩
  have sorted : (List.ofFn (id : Fin 26 → Fin 26)).Pairwise (· < ·) := by decide
  have mem := mem_nodeNumbers m
  rw [he] at sorted mem
  rcases List.mem_append.mp mem with l | l
  · have := ha m l
    simpa [hk] using this
  · have := (List.pairwise_append.mp sorted).2.1
    rcases List.mem_cons.mp l with e | e
    · omega
    · have := List.rel_of_pairwise_cons this e
      omega

theorem Flc.firstFrom_none {x : Flc} {k : Nat} (h : x.firstFrom k = none) :
    ∀ m : Fin 26, k ≤ m.val → x.nodes[m].state = .absent := by
  intro m hk
  unfold Flc.firstFrom at h
  have := List.find?_eq_none.mp h m (mem_nodeNumbers m)
  simpa [hk] using this

theorem Flc.firstFrom_eq {x : Flc} {k : Nat} {n : Fin 26} (hk : k ≤ n.val) (hn : x.nodes[n].state ≠ .absent)
    (hm : ∀ m : Fin 26, k ≤ m.val → m < n → x.nodes[m].state = .absent) : x.firstFrom k = some n := by
  rcases h : x.firstFrom k with _ | m
  · exact absurd (Flc.firstFrom_none h n hk) hn
  · obtain ⟨a, b, c⟩ := Flc.firstFrom_some h
    rcases lt_trichotomy m n with l | l | l
    · exact absurd (hm m a l) b
    · rw [l]
    · exact absurd (c n hk l) hn

theorem Flc.firstFrom_eq_none {x : Flc} {k : Nat}
    (hm : ∀ m : Fin 26, k ≤ m.val → x.nodes[m].state = .absent) : x.firstFrom k = none := by
  rcases h : x.firstFrom k with _ | m
  · rfl
  · obtain ⟨a, b, c⟩ := Flc.firstFrom_some h
    exact absurd (hm m a) b

/-- The node the round would poll is the one R104 and R106 say. -/
theorem Flc.toPoll_iff {x : Flc} {n : Fin 26} : x.toPoll = some n ↔ x.Polls n := by
  unfold Flc.toPoll
  constructor
  · intro h
    split at h
    · rename_i c
      obtain ⟨a, b, d⟩ := Flc.firstFrom_some h
      exact ⟨c.1, c.2.1, c.2.2, a, b, d⟩
    · cases h
  · rintro ⟨a, b, c, d, e, f⟩
    rw [if_pos ⟨a, b, c⟩]
    exact Flc.firstFrom_eq d e f

/-- All that a round moving on does. -/
theorem Flc.advance_moved (x : Flc) : x.RoundMoved x.advance := by
  refine ⟨fun h => ?_, fun h n hk hn hm => ?_, fun h hm hs => ?_, fun h hm hs => ?_⟩
  · simp [Flc.advance, h]
  · simp [Flc.advance, h, Flc.firstFrom_eq hk hn hm]
  · simp [Flc.advance, h, Flc.firstFrom_eq_none hm, hs]
  · simp only [Flc.advance, h, Flc.firstFrom_eq_none hm, hs, if_true]
    refine ⟨?_, ?_, fun ha => ?_, fun n hn hm => ?_⟩
    · unfold Flc.beginRound; split <;> rfl
    · unfold Flc.beginRound; split <;> rfl
    · simp [Flc.beginRound, Flc.firstFrom_eq_none (k := 0) (fun m _ => ha m)]
    · simp [Flc.beginRound, Flc.firstFrom_eq (k := 0) (Nat.zero_le _) hn (fun m _ l => hm m l)]

/-- What a round moving on leaves. -/
theorem Flc.advance_kept (x : Flc) :
    x.advance.held = x.held ∧ x.advance.overruns = x.overruns ∧
      x.advance.broadcastPending = x.broadcastPending ∧ x.advance.line = x.line ∧
      x.advance.exchange = x.exchange ∧ x.advance.nodes = x.nodes := by
  unfold Flc.advance Flc.beginRound; repeat' split
  all_goals simp

/-- How a round moves on depends on which nodes are ABSENT, on the round's own fields and on the held settings. -/
theorem Flc.roundMoved_congr {a b t : Flc} (h : a.RoundMoved t) (h1 : b.running = a.running)
    (h2 : b.nextNode = a.nextNode) (h3 : b.startPending = a.startPending) (h4 : b.inForce = a.inForce)
    (h5 : b.held = a.held) (h6 : ∀ n : Fin 26, (b.nodes[n].state = .absent ↔ a.nodes[n].state = .absent)) :
    b.RoundMoved t := by
  obtain ⟨x, y, z, w⟩ := h
  constructor
  · rw [h1, h3, h4]; exact x
  · rw [h1, h2, h3, h4]; simpa only [ne_eq, h6] using y
  · rw [h1, h2, h3, h4]; simpa only [h6] using z
  · rw [h1, h2, h3, h5]; simpa only [ne_eq, h6] using w

/-- The end of an exchange, from a state that differs from `s` in node entries but not in which are ABSENT. -/
theorem State.closeExchange_ended {s u : State} (a : u.flc = { s.flc with nodes := u.flc.nodes })
    (b : ∀ n, (u.node n).state = .absent ↔ (s.node n).state = .absent) :
    s.flc.ExchangeEnded u.closeExchange.flc := by
  have e : u.closeExchange.flc = Flc.advance { u.flc with exchange := none, replyTimer := 0 } := rfl
  rw [e]
  obtain ⟨h1, h2, h3, h4, h5, h6⟩ := Flc.advance_kept { u.flc with exchange := none, replyTimer := 0 }
  refine ⟨h5, ⟨?_, ?_, ?_, ?_⟩, ?_⟩
  · rw [h1, a]
  · rw [h2, a]
  · rw [h3, a]
  · rw [h4, a]
  · refine Flc.roundMoved_congr (Flc.advance_moved _) ?_ ?_ ?_ ?_ ?_ ?_
    · rw [a]
    · rw [a]
    · rw [a]
    · rw [a]
    · rw [a]
    · intro n; exact (b n).symm

theorem State.closeExchange_node (u : State) (n : Fin 26) : u.closeExchange.node n = u.node n := by
  have e : u.closeExchange.flc = Flc.advance { u.flc with exchange := none, replyTimer := 0 } := rfl
  unfold State.node
  rw [e, (Flc.advance_kept _).2.2.2.2.2]

end Sys2Proof.Machine
end

