-- ==== Sys2Proof/Laws/Memory.lean ====
section
/-! SUPPORT. The sparse maps and the receipt array: what a read gives after a write, and that every operation on the array
keeps the canonical form. -/

namespace Sys2Proof.Machine

open Sys2Proof

variable {β : Type} {dflt v : β} {m : List (Nat × β)} {k a : Nat} {r : Rlg}

/-! ## Sparse maps -/

theorem sparseGet_filter_other (h : a ≠ k) : sparseGet dflt (m.filter (fun e => e.1 != k)) a = sparseGet dflt m a := by
  induction m with
  | nil => rfl
  | cons e m ih =>
    by_cases hk : e.1 = k
    · have : e.1 ≠ a := fun q => h (q ▸ hk)
      simp [hk, sparseGet, ih, Ne.symm h]
    · simp [hk, sparseGet, ih]

theorem sparseGet_filter_same : sparseGet dflt (m.filter (fun e => e.1 != k)) k = dflt := by
  induction m with
  | nil => rfl
  | cons e m ih =>
    by_cases hk : e.1 = k <;> simp [hk, sparseGet, ih]

theorem sparseGet_insert_other (h : a ≠ k) : sparseGet dflt (sparseInsert k v m) a = sparseGet dflt m a := by
  induction m with
  | nil => simp [sparseInsert, sparseGet, Ne.symm h]
  | cons e m ih =>
    obtain ⟨k', v'⟩ := e
    unfold sparseInsert
    split
    · simp [sparseGet, Ne.symm h]
    · simp [sparseGet, ih]

theorem sparseGet_insert_same (h : ∀ e ∈ m, e.1 ≠ k) : sparseGet dflt (sparseInsert k v m) k = v := by
  induction m with
  | nil => simp [sparseInsert, sparseGet]
  | cons e m ih =>
    obtain ⟨k', v'⟩ := e
    unfold sparseInsert
    split
    · simp [sparseGet]
    · have : k' ≠ k := h (k', v') (by simp)
      simp only [sparseGet, this, if_false]
      exact ih (fun e he => h e (by simp [he]))

/-- A read of the key written gives the value written. -/
theorem sparseGet_sparseSet_same [DecidableEq β] : sparseGet dflt (sparseSet dflt m k v) k = v := by
  unfold sparseSet
  split
  · next h => rw [sparseGet_filter_same, h]
  · exact sparseGet_insert_same (by simp)

/-- A read of any other key gives what it gave before. -/
theorem sparseGet_sparseSet_other [DecidableEq β] (h : a ≠ k) :
    sparseGet dflt (sparseSet dflt m k v) a = sparseGet dflt m a := by
  unfold sparseSet
  split
  · exact sparseGet_filter_other h
  · rw [sparseGet_insert_other h, sparseGet_filter_other h]

theorem sparseInsert_mem {e : Nat × β} (h : e ∈ sparseInsert k v m) : e = (k, v) ∨ e ∈ m := by
  induction m with
  | nil => simpa [sparseInsert] using h
  | cons x m ih =>
    obtain ⟨k', v'⟩ := x
    unfold sparseInsert at h
    split at h
    · simpa using h
    · rcases List.mem_cons.1 h with h | h
      · exact .inr (by simp [h])
      · rcases ih h with h | h
        · exact .inl h
        · exact .inr (by simp [h])

theorem sparseInsert_rising (h : (m.map Prod.fst).Pairwise (· < ·)) (n : ∀ e ∈ m, e.1 ≠ k) :
    ((sparseInsert k v m).map Prod.fst).Pairwise (· < ·) := by
  induction m with
  | nil => simp [sparseInsert]
  | cons x m ih =>
    obtain ⟨k', v'⟩ := x
    rw [List.map_cons, List.pairwise_cons] at h
    have hk : k' ≠ k := n (k', v') (by simp)
    unfold sparseInsert
    split
    · next lt =>
      simp only [List.map_cons, List.pairwise_cons]
      refine ⟨?_, h.1, h.2⟩
      intro b hb
      rcases List.mem_cons.1 hb with hb | hb
      · exact hb ▸ lt
      · exact lt_trans lt (h.1 b hb)
    · next lt =>
      simp only [List.map_cons, List.pairwise_cons]
      refine ⟨?_, ih h.2 (fun e he => n e (by simp [he]))⟩
      intro b hb
      obtain ⟨e, he, rfl⟩ := List.mem_map.1 hb
      rcases sparseInsert_mem he with rfl | he
      · exact lt_of_le_of_ne (not_lt.1 lt) hk
      · exact h.1 _ (List.mem_map.2 ⟨e, he, rfl⟩)

theorem sparseWf_iff [DecidableEq β] :
    sparseWf dflt m = true ↔ (m.map Prod.fst).Pairwise (· < ·) ∧ ∀ e ∈ m, e.2 ≠ dflt := by
  simp [sparseWf]

/-- Leaving entries out keeps the canonical form. -/
theorem sparseWf_filter [DecidableEq β] (p : Nat × β → Bool) (h : sparseWf dflt m = true) :
    sparseWf dflt (m.filter p) = true := by
  rw [sparseWf_iff] at *
  refine ⟨?_, fun e he => h.2 e (List.mem_of_mem_filter he)⟩
  exact h.1.sublist (List.Sublist.map _ List.filter_sublist)

/-- A write keeps the canonical form. -/
theorem sparseWf_sparseSet [DecidableEq β] (h : sparseWf dflt m = true) : sparseWf dflt (sparseSet dflt m k v) = true := by
  unfold sparseSet
  split
  · exact sparseWf_filter _ h
  · next hv =>
    have f := sparseWf_filter (dflt := dflt) (fun e => e.1 != k) h
    rw [sparseWf_iff] at *
    refine ⟨sparseInsert_rising f.1 (by simp), fun e he => ?_⟩
    rcases sparseInsert_mem he with rfl | he
    · exact hv
    · exact f.2 e he

/-! ## The array -/

/-- The byte written is the byte the array holds. -/
theorem Rlg.rawByte_storeByte_same {b : Byte} : (r.storeByte a b).rawByte a = b := sparseGet_sparseSet_same

/-- The array holds at any other address what it held before. -/
theorem Rlg.rawByte_storeByte_other {b : Byte} {c : Nat} (h : c ≠ a) :
    (r.storeByte a b).rawByte c = r.rawByte c := sparseGet_sparseSet_other h

/-- Outside a stored range the array holds what it held before. -/
theorem Rlg.rawByte_storeBytes_other {bs : List Byte} {c : Nat} (h : c < a ∨ a + bs.length ≤ c) :
    (r.storeBytes a bs).rawByte c = r.rawByte c := by
  induction bs generalizing r a with
  | nil => rfl
  | cons b bs ih =>
    simp only [List.length_cons] at h
    rw [storeBytes, ih (by omega), rawByte_storeByte_other (by omega)]

theorem Rlg.codes_storeBytes {bs : List Byte} : (r.storeBytes a bs).codes = r.codes := by
  induction bs generalizing r a with
  | nil => rfl
  | cons b bs ih => exact ih

/-- The check code set is the check code there. -/
theorem Rlg.codeAt_withCode_same {x : CheckCode} : (r.withCode a x).codeAt a = x := sparseGet_sparseSet_same

/-- Any other check code is as it was. -/
theorem Rlg.codeAt_withCode_other {x : CheckCode} {c : Nat} (h : c ≠ a) :
    (r.withCode a x).codeAt c = r.codeAt c := sparseGet_sparseSet_other h

/-- A byte reads as before when the array holds the same byte and its check code is the same. -/
theorem Rlg.readByte_congr {t : Rlg} (h : t.rawByte a = r.rawByte a)
    (k : t.codeAt (codeAddress a) = r.codeAt (codeAddress a)) : t.readByte a = r.readByte a := by
  simp only [readByte, correction, h, k]

/-- A byte whose check code is CLEAN or DAMAGED reads as the array holds it. -/
theorem Rlg.readByte_clean (h : r.codeAt (codeAddress a) = .clean ∨ r.codeAt (codeAddress a) = .damaged) :
    r.readByte a = r.rawByte a := by
  rcases h with h | h <;> simp [readByte, correction, h]

/-- The check code of a byte of another word begins elsewhere. -/
theorem codeAddress_other {w c : Nat} (h : c / 8 ≠ w) : codeAddress c ≠ 8 * w := by
  unfold codeAddress
  split
  · intro e
    exact h (by omega)
  · omega

/-- Storing a word leaves what every byte of the other words reads. -/
theorem Rlg.readByte_storeWord_other {w c : Nat} {x : ArrayResult} (h : c / 8 ≠ w) :
    (r.storeWord w x).readByte c = r.readByte c := by
  have n : (leBytes 8 x.value.toNat).length = 8 := by simp [leBytes]
  refine readByte_congr ?_ ?_
  · exact rawByte_storeBytes_other (by rw [n]; omega)
  · have k := codeAt_withCode_other (r := r.storeBytes (8 * w) (leBytes 8 x.value.toNat)) (x := x.code)
      (codeAddress_other h)
    rw [storeWord, k, codeAt, codes_storeBytes]
    rfl

/-- Storing a mark byte leaves what every other byte reads. -/
theorem Rlg.readByte_storeMarkByte_other {c : Nat} {x : ArrayResult} (m : isMarkWord (a / 8) = true) (h : c ≠ a) :
    (r.storeMarkByte a x).readByte c = r.readByte c := by
  refine readByte_congr (rawByte_storeByte_other h) (codeAt_withCode_other ?_)
  unfold codeAddress
  split
  · exact h
  · next n =>
    intro e
    apply n
    have : c / 8 = a / 8 := by omega
    rw [this]
    exact m

/-- The array of a receipt log is in canonical form: its bytes and its check codes. -/
def Rlg.arrayWf (r : Rlg) : Prop := Memory.wf r.cells = true ∧ sparseWf CheckCode.clean r.codes = true

theorem Rlg.storeByte_wf {b : Byte} (h : r.arrayWf) : (r.storeByte a b).arrayWf := ⟨sparseWf_sparseSet h.1, h.2⟩

theorem Rlg.withCode_wf {x : CheckCode} (h : r.arrayWf) : (r.withCode a x).arrayWf :=
  ⟨h.1, sparseWf_sparseSet h.2⟩

theorem Rlg.storeBytes_wf {bs : List Byte} (h : r.arrayWf) : (r.storeBytes a bs).arrayWf := by
  induction bs generalizing r a with
  | nil => exact h
  | cons b bs ih => exact ih (storeByte_wf h)

theorem Rlg.storeWord_wf {w : Nat} {x : ArrayResult} (h : r.arrayWf) : (r.storeWord w x).arrayWf :=
  withCode_wf (storeBytes_wf h)

theorem Rlg.storeMarkByte_wf {x : ArrayResult} (h : r.arrayWf) : (r.storeMarkByte a x).arrayWf :=
  withCode_wf (storeByte_wf h)

theorem Rlg.programWord_wf {w : Nat} {x : Word64} {o : Option ArrayResult} (h : r.arrayWf) :
    (r.programWord w x o).1.arrayWf := storeWord_wf h

theorem Rlg.programByte_wf {o : Option ArrayResult} (h : r.arrayWf) : (r.programByte a o).1.arrayWf :=
  storeMarkByte_wf h

theorem Rlg.programMark_wf {slot : Nat} {x : Mark} {ms : List MarkResult} (h : r.arrayWf) :
    (r.programMark slot x ms).1.arrayWf := programByte_wf h

theorem Rlg.programWords_wf {slot first : Nat} {ws : List WordResult} {xs : List Word64} (h : r.arrayWf) :
    (Rlg.programWords slot ws first xs r).1.arrayWf := by
  induction xs generalizing r first with
  | nil => exact h
  | cons x xs ih => exact ih (programWord_wf h)

theorem Rlg.programTries_wf {program : Rlg → Option ArrayResult → Rlg × Bool}
    (g : ∀ (t : Rlg) o, t.arrayWf → (program t o).1.arrayWf) {n : Nat} {xs : List ArrayResult} (h : r.arrayWf) :
    (Rlg.programTries program n xs r).1.arrayWf := by
  induction n generalizing r xs with
  | zero => exact h
  | succ n ih =>
    unfold programTries
    dsimp only
    split
    · exact g r _ h
    · exact ih (g r _ h)

theorem Rlg.eraseSector_wf {x : Fin 16} (h : r.arrayWf) : (r.eraseSector x).arrayWf :=
  ⟨sparseWf_filter _ h.1, sparseWf_filter _ h.2⟩

theorem Rlg.programHeader_wf {x : Fin 16} {o : HeaderOutcome} (h : r.arrayWf) : (r.programHeader x o).1.arrayWf :=
  programTries_wf (fun _ _ k => programWord_wf k) h

theorem Rlg.countWord_cells {w : Nat} : (r.countWord w).cells = r.cells ∧ (r.countWord w).codes = r.codes := by
  unfold countWord
  split <;> exact ⟨rfl, rfl⟩

theorem Rlg.countWord_wf {w : Nat} (h : r.arrayWf) : (r.countWord w).arrayWf := by
  unfold arrayWf
  rw [countWord_cells.1, countWord_cells.2]
  exact h

theorem Rlg.countWords_wf {w n : Nat} (h : r.arrayWf) : (r.countWords w n).arrayWf := by
  induction n generalizing r w with
  | zero => exact h
  | succ n ih => exact ih (countWord_wf h)

theorem Rlg.foldl_countWord_wf {ws : List Nat} (h : r.arrayWf) : (ws.foldl Rlg.countWord r).arrayWf := by
  induction ws generalizing r with
  | nil => exact h
  | cons w ws ih => exact ih (countWord_wf h)

theorem Rlg.scanTo_wf {place : Nat} (h : r.arrayWf) : (r.scanTo place).arrayWf := foldl_countWord_wf h

theorem Rlg.scanProgram_wf {next : Nat} {xs : List ScanResult} {t : ScanTarget} (h : r.arrayWf) :
    (r.scanProgram next xs t).1.arrayWf := by
  unfold scanProgram
  split <;> first
    | exact programTries_wf (fun _ _ k => programWord_wf k) h
    | exact programTries_wf (fun _ _ k => programByte_wf k) h

theorem Rlg.scanPrograms_wf {next : Nat} {xs : List ScanResult} {ts : List ScanTarget} (h : r.arrayWf) :
    (Rlg.scanPrograms next xs ts r).1.arrayWf := by
  induction ts generalizing r with
  | nil => exact h
  | cons t ts ih => exact ih (scanProgram_wf h)

theorem Rlg.storeAt_wf {x : ArrayResult} {place : ArrayPlace} (h : r.arrayWf) : (r.storeAt x place).arrayWf := by
  unfold storeAt
  split <;> first | exact storeWord_wf h | exact storeMarkByte_wf h

theorem Rlg.applyResidue_wf {before : Rlg} {x : Residue} (h : r.arrayWf) : (r.applyResidue before x).arrayWf := by
  unfold applyResidue
  dsimp only
  repeat' (first | exact h | exact storeAt_wf h | exact storeAt_wf (storeWord_wf h) | split)

/-- A new part's array is in canonical form. -/
theorem State.reset_arrayWf : State.reset.rlg.arrayWf := ⟨rfl, rfl⟩

end Sys2Proof.Machine
end

