-- ==== Sys2Proof/Laws/Replies.lean ====
section
/-! SUPPORT. Bytes written one field after the other are read back as those fields, and the replies that show the state are
the bytes of their layouts (R55, R179, R184 to R187). -/

namespace Sys2Proof.Machine

open Sys2Proof

theorem length_leBytes (k n : Nat) : (leBytes k n).length = k := by
  induction k generalizing n with
  | zero => rfl
  | succ k ih => rw [leBytes, List.length_cons, ih]

theorem leNat_leBytes (k n : Nat) : leNat (leBytes k n) = n % 256 ^ k := by
  induction k generalizing n with
  | zero => simp [leBytes, leNat, Nat.mod_one]
  | succ k ih =>
    rw [leBytes, leNat, ih, BitVec.toNat_ofNat, Nat.pow_succ' (m := 256), Nat.mod_mul]

/-- A field written before other bytes. -/
theorem carries_cons {k v : Nat} {bytes : List Byte} {rest : List (Nat × Nat)} (h : carries bytes rest) :
    carries (leBytes k v ++ bytes) ((k, v) :: rest) := by
  have n := length_leBytes k v
  refine ⟨?_, ?_⟩
  · show leNat (((leBytes k v ++ bytes).drop 0).take k) = _
    rw [List.drop_zero, List.take_left' n, leNat_leBytes]
  · rw [List.drop_left' n]; exact h

/-- Two runs of fields, one after the other. -/
theorem carries_append {a b : List Byte} {xs ys : List (Nat × Nat)} (h : carries a xs) (k : carries b ys)
    (l : a.length = (xs.map Prod.fst).sum) : carries (a ++ b) (xs ++ ys) := by
  induction xs generalizing a with
  | nil =>
    rw [show a = [] from h]
    exact k
  | cons x xs ih =>
    obtain ⟨w, v⟩ := x
    obtain ⟨h1, h2⟩ := h
    rw [List.map_cons, List.sum_cons] at l
    have n : w ≤ a.length := by omega
    refine ⟨?_, ?_⟩
    · rw [← h1]
      unfold fieldAt
      rw [List.drop_zero, List.drop_zero, List.take_append_of_le_length n]
    · rw [List.drop_append_of_le_length n]
      exact ih h2 (by rw [List.length_drop]; omega)

/-- The bytes of a layout. -/
def layoutBytes : List (Nat × Nat) → List Byte
  | [] => []
  | (k, v) :: rest => leBytes k v ++ layoutBytes rest

theorem layoutBytes_carries (xs : List (Nat × Nat)) : carries (layoutBytes xs) xs := by
  induction xs with
  | nil => rfl
  | cons x xs ih => exact carries_cons ih

theorem layoutBytes_append (xs ys : List (Nat × Nat)) : layoutBytes (xs ++ ys) = layoutBytes xs ++ layoutBytes ys := by
  induction xs with
  | nil => rfl
  | cons x xs ih =>
    obtain ⟨k, v⟩ := x
    show leBytes k v ++ layoutBytes (xs ++ ys) = (leBytes k v ++ layoutBytes xs) ++ layoutBytes ys
    rw [ih, List.append_assoc]

theorem length_layoutBytes (xs : List (Nat × Nat)) : (layoutBytes xs).length = (xs.map Prod.fst).sum := by
  induction xs with
  | nil => rfl
  | cons x xs ih =>
    obtain ⟨k, v⟩ := x
    show (leBytes k v ++ layoutBytes xs).length = _
    rw [List.length_append, length_leBytes, ih, List.map_cons, List.sum_cons]

/-! ## The bytes of the replies as their layouts -/

/-- The codes are those of the table (R184). -/
theorem replyCodes : ReplyCodes := by constructor <;> rfl

theorem leBytesInt_four (i : Int) : leBytesInt 4 i = leBytes 4 (signed32 i) := rfl

/-- The margin in force is that of R10's table. -/
theorem Lsu.marginInForce_eq (l : Lsu) : l.marginInForce = l.marginFor := by
  unfold Lsu.marginInForce Lsu.marginFor; cases l.esc <;> simp

theorem State.limitBytes_eq (s : State) : s.limitBytes = layoutBytes s.limitLayout := by
  simp [State.limitBytes, State.limitLayout, layoutBytes, markByte, flagCode, leBytesInt_four, Lsu.marginInForce_eq]

theorem queuePlaces_eq (queue : List Point) :
    queuePlaces queue = layoutBytes ((List.range 24).map (fun k => (1, (queue[k]?).elim 255 (·.val)))) := by
  unfold queuePlaces
  generalize List.range 24 = xs
  induction xs with
  | nil => rfl
  | cons x xs ih =>
    rw [List.map_cons, List.map_cons, ih]
    show _ = leBytes 1 _ ++ _
    cases queue[x]? <;> simp [leBytes]

theorem State.allocationBytes_eq (s : State) : s.escalationBytes ++ s.allocationBytes = layoutBytes s.allocationLayout := by
  unfold State.allocationLayout
  rw [layoutBytes_append, ← queuePlaces_eq]
  simp [State.escalationBytes, State.allocationBytes, layoutBytes, markByte, flagCode, State.sinceAck, top32]

theorem State.linkBytes_eq (s : State) : s.linkBytes = layoutBytes s.linkLayout := by
  have e : [if s.flc.running then BitVec.ofNat 8 s.flc.nextNode else Config.idleNextNode] =
      leBytes 1 (if s.flc.running then s.flc.nextNode else Config.idleNextNode.toNat) := by
    split <;> simp [leBytes]
  simp only [State.linkBytes, State.linkLayout, e]
  simp [layoutBytes, markByte, flagCode]

theorem heldBytes_eq (h : Option HeldEdition) : heldBytes h = layoutBytes (tariffLayout h) := by
  cases h <;> simp [heldBytes, tariffLayout, layoutBytes, markByte, flagCode]

theorem Tfu.currentBand_eq (u : Tfu) : u.currentBand = u.bandByte := by
  unfold Tfu.currentBand Tfu.bandByte Tfu.bandInForce
  cases u.current with
  | none => rfl
  | some h => dsimp only; split <;> rfl

theorem State.settingBytes_eq (s : State) (p : Port) :
    s.policyBytes ++ s.siteBytes ++ s.portBytes p = layoutBytes (s.settingLayout p) := by
  cases p <;>
    simp [State.policyBytes, State.siteBytes, State.portBytes, State.settingLayout, layoutBytes, markByte, flagCode,
      FrameErrors.of]

theorem sectorBytes_eq (sectors : Vector SectorState 16) : sectors.toList.flatMap (fun x => leBytes 1 x.code) =
    layoutBytes ((List.ofFn (id : Fin 16 → Fin 16)).map (fun k => (1, sectors[k].code))) := by
  have e : sectors.toList = (List.ofFn (id : Fin 16 → Fin 16)).map (fun k => sectors[k]) := by
    apply List.ext_getElem
    · simp
    · intro i h1 h2
      rw [List.getElem_map, List.getElem_ofFn]; rfl
  rw [e]
  generalize List.ofFn (id : Fin 16 → Fin 16) = ks
  induction ks with
  | nil => rfl
  | cons k ks ih => rw [List.map_cons, List.flatMap_cons, ih]; rfl

theorem State.logBytes_eq (s : State) : s.logBytes = layoutBytes s.rlg.layout := by
  unfold State.logBytes Rlg.layout
  by_cases c : s.rlg.logState = .starting
  · have e : s.rlg.erase.elim [(1, 255), (2, 0), (1, 0)] (fun _ => [(1, 255), (2, 0), ((1 : Nat), (0 : Nat))]) =
        [(1, 255), (2, 0), (1, 0)] := by cases s.rlg.erase <;> rfl
    simp only [c, if_true, Rlg.startingBytes, e]
    simp [layoutBytes, markByte, flagCode, Rlg.portRequests, leBytes]
  · simp only [c, if_false, Rlg.bytes, layoutBytes_append, ← sectorBytes_eq]
    cases e : s.rlg.erase <;> simp [layoutBytes, markByte, flagCode, Rlg.portRequests, Rlg.eraseBytes, e]

/-- The bytes of STATUS (R185). -/
theorem State.statusBytes_eq (s : State) (p : Port) : s.statusBytes p = layoutBytes (s.statusLayout p) := by
  have a := State.allocationBytes_eq s
  have b := State.settingBytes_eq s p
  unfold State.statusBytes State.statusLayout
  simp only [layoutBytes_append, ← State.limitBytes_eq, ← a, ← State.linkBytes_eq, ← State.logBytes_eq, ← b,
    ← Tfu.currentBand_eq]
  simp [State.tariffBytes, layoutBytes, heldBytes_eq]

theorem Session.presence_eq (x : Session) : x.presence = x.presenceBits := by
  unfold Session.presence Session.presenceBits flagCode
  split
  · rfl
  · split <;> split <;> split <;> split <;> split <;> rfl

theorem accountBytes_eq (a : Accounts) : accountBytes a = layoutBytes a.layout := by
  simp [accountBytes, bandBytes, Accounts.layout, layoutBytes, List.ofFn_succ]

/-- The bytes of READ SESSION (R55). -/
theorem Session.bytes_eq (x : Session) (now : Nat) : x.bytes now = layoutBytes (x.layout now) := by
  have f : flagBits x.meterSuspect x.nodeLostSeen x.tripSeen =
      (if x.meterSuspect then 1 else 0) + (if x.nodeLostSeen then 2 else 0) + (if x.tripSeen then 4 else 0) := by
    cases x.meterSuspect <;> cases x.nodeLostSeen <;> cases x.tripSeen <;> rfl
  unfold Session.bytes Session.layout
  simp only [layoutBytes_append, ← accountBytes_eq, Session.presence_eq, f]
  cases x.lastReport <;> cases x.ending <;> cases x.priced <;> cases x.pendingClose <;>
    simp [layoutBytes, markByte, flagCode, top32]

theorem reportBytes_eq (x : Option Report) : reportBytes x = layoutBytes (reportLayout x) := by
  rcases x with _ | (_ | _ | _) <;> simp [reportBytes, reportLayout, layoutBytes, markByte, flagCode, leBytesInt_four, leBytes]

/-- The bytes of READ NODE (R187). -/
theorem State.nodeBytes_eq (s : State) (n : Fin 26) :
    (s.node n).bytes ++ s.allocatorBytes n ++ leBytes 1 (flagCode (s.node n).echoed) = layoutBytes (s.nodeLayout n) := by
  unfold Node.bytes State.allocatorBytes State.nodeLayout Node.echoed Node.latestReport
  simp only [layoutBytes_append, ← reportBytes_eq]
  by_cases h : n.val < 24 <;> cases (s.node n).lastEcho <;> cases (s.node n).report <;>
    simp [layoutBytes, markByte, flagCode, leBytesInt_four, leBytes, h]

end Sys2Proof.Machine
end

