-- ==== Sys2Proof/Laws/Scan.lean ====
section
/-! SUPPORT. What the start-up scan reads and derives (R174, R175): used slots, empty sectors, interrupted erases, slot states,
origins set aside, gaps, the run of sectors and the numbers. -/

namespace Sys2Proof.Machine

open Sys2Proof

/-! ## Words, slots and sectors -/

theorem sparseGet_not_mem {β : Type} {d : β} {m : List (Nat × β)} {a : Nat} (h : ∀ e ∈ m, e.1 ≠ a) :
    sparseGet d m a = d := by
  induction m with
  | nil => rfl
  | cons e m ih =>
    obtain ⟨k, v⟩ := e
    rw [sparseGet, if_neg (h _ (List.mem_cons_self ..))]
    exact ih (fun x hx => h x (List.mem_cons_of_mem _ hx))

theorem Rlg.readBytes_eq (r : Rlg) (k : Nat) : ∀ a, r.readBytes a k = (List.range k).map (fun i => r.readByte (a + i)) := by
  induction k with
  | zero => intro a; rfl
  | succ k ih =>
    intro a
    rw [Rlg.readBytes, ih, List.range_succ_eq_map, List.map_cons, List.map_map]
    refine congrArg _ (List.map_congr_left fun i _ => ?_)
    show r.readByte _ = r.readByte _
    congr 1
    omega

theorem codeAddress_div (a : Nat) : codeAddress a / 8 = a / 8 := by
  unfold codeAddress; split <;> omega

/-- A word with no byte and no check code listed reads erased. -/
theorem Rlg.wordErased_of_untouched {r : Rlg} {w : Nat} (h : w ∉ r.touchedWords) : r.wordErased w = true := by
  simp only [Rlg.touchedWords, List.mem_append, List.mem_map, not_or, not_exists, not_and] at h
  obtain ⟨hb, hc⟩ := h
  have raw : ∀ a, a / 8 = w → r.rawByte a = erasedByte := fun a ha =>
    sparseGet_not_mem (fun e he x => hb e he (by rw [x, ha]))
  have code : ∀ a, a / 8 = w → r.codeAt a = .clean := fun a ha =>
    sparseGet_not_mem (fun e he x => hc e he (by rw [x, ha]))
  have read : ∀ a, a / 8 = w → r.readByte a = erasedByte := fun a ha => by
    rw [Rlg.readByte_clean (.inl (code _ (by rw [codeAddress_div, ha]))), raw a ha]
  have clean : r.code w = .clean := by
    unfold Rlg.code
    split
    · have : (List.range 8).map (fun i => integrityOf (r.codeAt (8 * w + i))) = List.replicate 8 .clean := by
        refine List.eq_replicate_iff.mpr ⟨by simp, fun x hx => ?_⟩
        obtain ⟨i, hi, rfl⟩ := List.mem_map.mp hx
        rw [code _ (by have := List.mem_range.mp hi; omega)]
        rfl
      rw [this]; rfl
    · rw [code _ (by omega)]; rfl
  rw [Rlg.wordErased, Rlg.readBytes_eq, clean]
  simp only [Bool.and_eq_true, List.all_eq_true, List.mem_map, List.mem_range]
  refine ⟨?_, rfl⟩
  rintro _ ⟨i, hi, rfl⟩
  rw [read _ (by omega)]
  rfl

/-- A slot is used when some word of it does not read erased. -/
theorem Rlg.slotUsed_iff {r : Rlg} {slot : Nat} :
    r.slotUsed slot = true ↔ ∃ w : Fin 16, r.wordErased (16 * slot + w.val) = false := by
  simp only [Rlg.slotUsed, List.any_eq_true, Bool.and_eq_true, beq_iff_eq, Bool.not_eq_true']
  constructor
  · rintro ⟨w, -, hs, he⟩
    refine ⟨⟨w % 16, by omega⟩, ?_⟩
    have : 16 * slot + w % 16 = w := by omega
    simpa [this] using he
  · rintro ⟨w, he⟩
    refine ⟨16 * slot + w.val, ?_, by omega, he⟩
    by_contra h
    rw [Rlg.wordErased_of_untouched h] at he
    cases he

theorem Rlg.slotUsed_false {r : Rlg} {slot : Nat} :
    r.slotUsed slot = false ↔ ∀ w : Fin 16, r.wordErased (16 * slot + w.val) = true := by
  rw [← Bool.not_eq_true, Rlg.slotUsed_iff]; simp

theorem mem_sectorSlots {k : Fin 16} {slot : Nat} : slot ∈ sectorSlots k ↔ slot / 128 = k.val := by
  simp only [sectorSlots, List.mem_map, List.mem_range]
  constructor
  · rintro ⟨i, hi, rfl⟩; omega
  · intro h; exact ⟨slot % 128, by omega, by omega⟩

theorem slotSector_eq {slot : Nat} {k : Fin 16} (h : slot < 2048) : slotSector slot = k ↔ slot / 128 = k.val := by
  rw [slotSector, Fin.ext_iff, Fin.val_ofNat]
  omega

theorem Rlg.sectorFree_iff {r : Rlg} {k : Fin 16} : r.sectorFree k = true ↔ r.isEmpty k := by
  simp only [Rlg.sectorFree, Bool.not_eq_true', List.any_eq_false, mem_sectorSlots, Bool.not_eq_true, Rlg.slotUsed_false,
    Rlg.isEmpty]
  constructor
  · intro h i w; exact h _ (by omega) w
  · intro h slot hs w
    have := h ⟨slot % 128, by omega⟩ w
    have e : 128 * k.val + slot % 128 = slot := by omega
    simpa [e] using this

theorem Rlg.sectorFree_false {r : Rlg} {k : Fin 16} : r.sectorFree k = false ↔ ¬r.isEmpty k := by
  rw [← Bool.not_eq_true, Rlg.sectorFree_iff]

theorem Rlg.interrupted_iff {r : Rlg} {k : Fin 16} :
    r.interrupted k = true ↔ r.wordErased (32768 + k.val) = true ∧ ¬r.isEmpty k := by
  rw [← Rlg.sectorFree_iff, Rlg.sectorFree, Rlg.interrupted]
  simp

theorem mem_allSectors (k : Fin 16) : k ∈ allSectors := List.mem_ofFn.mpr ⟨k, rfl⟩

theorem Rlg.mem_slotsRead {r : Rlg} {slot : Nat} :
    slot ∈ r.slotsRead ↔ slot < 2048 ∧ r.interrupted (slotSector slot) = false ∧ r.slotUsed slot = true := by
  simp only [Rlg.slotsRead, List.mem_flatMap, List.mem_filter, mem_allSectors, true_and, Bool.not_eq_true', mem_sectorSlots]
  constructor
  · rintro ⟨k, hk, hs, hu⟩
    have l : slot < 2048 := by omega
    exact ⟨l, by rw [(slotSector_eq l).mpr hs]; exact hk, hu⟩
  · rintro ⟨l, hi, hu⟩
    exact ⟨slotSector slot, hi, (slotSector_eq l).mp rfl, hu⟩

/-- A slot with every word erased has no mark set. -/
theorem Rlg.markSet_erased {r : Rlg} {slot : Nat} (h : r.slotUsed slot = false) (m : Mark) : r.markSet slot m = false := by
  have w := Rlg.slotUsed_false.mp h 15
  simp only [Rlg.wordErased, Bool.and_eq_true, Rlg.readBytes_eq, List.all_eq_true, List.mem_map, List.mem_range] at w
  have e : slotAddress slot + markOffset m = 8 * (16 * slot + (15 : Fin 16).val) + (markOffset m - 120) := by
    have : 120 ≤ markOffset m := by cases m <;> decide
    show 128 * slot + markOffset m = 8 * (16 * slot + 15) + (markOffset m - 120)
    omega
  have b := w.1 _ ⟨markOffset m - 120, by cases m <;> decide, rfl⟩
  rw [← e] at b
  simpa [Rlg.markSet] using b

/-! ## Numbers -/

theorem Rlg.numberWords_eq (r : Rlg) (slot : Nat) :
    r.numberWords slot = ([0, 3, 14].filter (fun w => r.givesValue (16 * slot + w))).map (r.numberIn slot) := by
  have e : ∀ w o, o = (if w = 0 then 0 else if w = 3 then 24 else 114) →
      r.numberWord slot w o = if r.givesValue (16 * slot + w) then some (r.numberIn slot w) else none := by
    intro w o ho
    unfold Rlg.numberWord Rlg.givesValue Rlg.numberIn Rlg.longField
    rw [ho]
    by_cases a : r.wordErased (16 * slot + w) = true <;> by_cases b : r.code (16 * slot + w) = .damaged <;> simp [a, b]
  rw [Rlg.numberWords, e 0 0 rfl, e 3 24 rfl, e 14 114 rfl, Nat.add_zero]
  simp only [List.filter_cons, List.filter_nil, Nat.add_zero]
  cases r.givesValue (16 * slot) <;> cases r.givesValue (16 * slot + 3) <;>
    cases r.givesValue (16 * slot + 14) <;> rfl

theorem Rlg.slotNumber_eq (r : Rlg) (slot : Nat) : r.slotNumber slot = r.numberRead slot := by
  rw [Rlg.slotNumber, Rlg.numberWords_eq, Rlg.numberRead]

theorem Rlg.givesValue_used {r : Rlg} {slot w : Nat} (hw : w < 16) (h : r.givesValue (16 * slot + w) = true) :
    r.slotUsed slot = true := by
  simp only [Rlg.givesValue, Bool.and_eq_true, Bool.not_eq_true'] at h
  exact Rlg.slotUsed_iff.mpr ⟨⟨w, hw⟩, h.1⟩

theorem Rlg.headerValue_eq (r : Rlg) (k : Fin 16) : r.headerValue k =
    if r.givesValue (32768 + k.val) then some (r.headerHolds k) else none := by
  unfold Rlg.headerValue Rlg.givesValue Rlg.headerHolds
  by_cases a : r.wordErased (32768 + k.val) = true <;> by_cases b : r.code (32768 + k.val) = .damaged <;> simp [a, b]

theorem Rlg.mem_numbers {r : Rlg} {n : Nat} :
    n ∈ r.slotsRead.flatMap r.numberWords ++ allSectors.filterMap r.headerValue ↔ r.takesPart n := by
  simp only [List.mem_append, List.mem_flatMap, List.mem_filterMap, mem_allSectors, true_and, Rlg.mem_slotsRead,
    Rlg.numberWords_eq, Rlg.headerValue_eq, List.mem_map, List.mem_filter, Rlg.takesPart]
  refine or_congr ?_ ?_
  · constructor
    · rintro ⟨slot, ⟨a, b, -⟩, w, ⟨hw, hg⟩, rfl⟩
      exact ⟨slot, a, b, w, by simpa using hw, hg, rfl⟩
    · rintro ⟨slot, a, b, w, hw, hg, rfl⟩
      exact ⟨slot, ⟨a, b, Rlg.givesValue_used (by omega) hg⟩, w, ⟨by simpa using hw, hg⟩, rfl⟩
  · constructor
    · rintro ⟨k, hk⟩
      split at hk
      · rename_i hg; exact ⟨k, hg, by simpa using hk.symm⟩
      · cases hk
    · rintro ⟨k, hg, rfl⟩; exact ⟨k, by rw [if_pos hg]⟩

theorem foldl_max_eq {xs : List Nat} {h : Nat} (m : h ∈ xs) (l : ∀ n ∈ xs, n ≤ h) : xs.foldl max 0 = h := by
  have a : ∀ (ys : List Nat) (b : Nat), b ≤ ys.foldl max b ∧ (∀ n ∈ ys, n ≤ ys.foldl max b) ∧
      (ys.foldl max b = b ∨ ys.foldl max b ∈ ys) := by
    intro ys
    induction ys with
    | nil => intro b; simp
    | cons y ys ih =>
      intro b
      obtain ⟨p, q, s⟩ := ih (max b y)
      simp only [List.foldl_cons]
      refine ⟨by omega, fun n hn => ?_, ?_⟩
      · rcases List.mem_cons.mp hn with e | e
        · omega
        · exact q n e
      · rcases s with s | s
        · rcases Nat.le_total b y with z | z
          · exact .inr (by rw [s, Nat.max_eq_right z]; exact List.mem_cons_self ..)
          · exact .inl (by rw [s, Nat.max_eq_left z])
        · exact .inr (List.mem_cons_of_mem _ s)
  obtain ⟨p, q, s⟩ := a xs 0
  rcases s with s | s
  · have := q h m; omega
  · have := q h m; have := l _ s; omega

theorem Rlg.unreadable_eq {r : Rlg} {slot : Nat} (h : r.interrupted (slotSector slot) = false) :
    r.unreadable slot = r.numberLost slot := by
  unfold Rlg.unreadable Rlg.numberLost
  rw [Rlg.numberWords_eq, h]
  cases a : r.givesValue (16 * slot) <;> cases b : r.givesValue (16 * slot + 3) <;>
    cases c : r.givesValue (16 * slot + 14) <;> simp [a, b, c, Bool.or_assoc]

theorem range_sectors : List.range 2048 = allSectors.flatMap sectorSlots := by decide +kernel

theorem Rlg.skip_eq (r : Rlg) : r.skip = r.skipIs := by
  unfold Rlg.skip Rlg.skipIs
  have e : r.slotsRead.filter r.unreadable = (List.range 2048).filter r.numberLost := by
    rw [range_sectors]
    unfold Rlg.slotsRead
    have m : ∀ ks : List (Fin 16), ((ks.filter (fun k => !r.interrupted k)).flatMap
        (fun k => (sectorSlots k).filter r.slotUsed)).filter r.unreadable =
        (ks.flatMap sectorSlots).filter r.numberLost := by
      intro ks
      induction ks with
      | nil => rfl
      | cons k ks ih =>
        have sec : ∀ slot ∈ sectorSlots k, slotSector slot = k := fun slot hs => by
          have := mem_sectorSlots.mp hs
          exact (slotSector_eq (by omega)).mpr this
        rw [List.flatMap_cons, List.filter_append, ← ih]
        by_cases i : r.interrupted k = true
        · rw [List.filter_cons_of_neg (by simp [i])]
          have z : (sectorSlots k).filter r.numberLost = [] :=
            List.filter_eq_nil_iff.mpr fun slot hs => by simp [Rlg.numberLost, sec slot hs, i]
          rw [z, List.nil_append]
        · rw [List.filter_cons_of_pos (by simp [i]), List.flatMap_cons, List.filter_append, List.filter_filter]
          congr 1
          refine List.filter_congr fun slot hs => ?_
          have j : r.interrupted (slotSector slot) = false := by rw [sec slot hs]; simpa using i
          rw [Rlg.unreadable_eq j]
          by_cases u : r.slotUsed slot = true
          · simp [u]
          · have w := Rlg.slotUsed_false.mp (by simpa using u)
            have d : ∀ x : Fin 16, r.code (16 * slot + x.val) ≠ .damaged := fun x => by
              have := w x
              simp only [Rlg.wordErased, Bool.and_eq_true, bne_iff_ne] at this
              exact this.2
            have d0 := d 0; have d3 := d 3; have d14 := d 14
            simp at d0 d3 d14
            simp [Rlg.numberLost, d0, d3, d14]
    exact m allSectors
  rw [e]; rfl

/-- The next number the scan sets (R175). -/
theorem Rlg.scannedNext_eq {r : Rlg} {h : Nat} (m : r.takesPart h) (l : ∀ n, r.takesPart n → n ≤ h)
    (top : h + 1 + r.skipIs < 4294967296) : r.scannedNext = h + 1 + r.skipIs := by
  have e : r.highestNumber = h := foldl_max_eq (Rlg.mem_numbers.mpr m) (fun n hn => l n (Rlg.mem_numbers.mp hn))
  rw [Rlg.scannedNext, e, Rlg.skip_eq, numberAfter, if_pos (by omega)]
  omega

/-! ## Marks and states -/

theorem Rlg.markState_opened {r : Rlg} {slot : Nat} : r.markState slot = .opened ↔ r.openedByMarks slot := by
  unfold Rlg.markState Rlg.openedByMarks
  cases r.markSet slot .bad <;> cases r.markSet slot .superseded <;> cases r.markSet slot .opened <;>
    cases r.markSet slot .closed <;> cases r.markSet slot .collected <;> simp
  split <;> simp

theorem Rlg.readState_done {r : Rlg} {slot : Nat} : r.readState slot = .closed ∨ r.readState slot = .collected ↔
    r.markSet slot .bad = false ∧ r.markSet slot .superseded = false ∧ r.markSet slot .opened = true ∧
      r.markSet slot .closed = true ∧ r.numberRead slot ≠ none := by
  unfold Rlg.readState Rlg.markState
  rw [Rlg.slotNumber_eq]
  cases r.markSet slot .bad <;> cases r.markSet slot .superseded <;> cases r.markSet slot .opened <;>
    cases r.markSet slot .closed <;> cases r.markSet slot .collected <;> cases r.numberRead slot <;>
    cases r.slotUsed slot <;> simp <;> split <;> simp

theorem Rlg.mem_origins {r : Rlg} {origin : Nat} : origin ∈ r.origins ↔ ∃ new, r.SetsAside new origin := by
  simp only [Rlg.origins, List.mem_filterMap, Rlg.mem_slotsRead]
  constructor
  · rintro ⟨new, ⟨l, i, u⟩, h⟩
    unfold Rlg.originOf at h
    simp only at h
    split at h
    · rename_i c
      obtain ⟨c1, c2, c3, c4, c5, c6⟩ := c
      obtain ⟨d1, d2, d3, d4, d5⟩ := Rlg.readState_done.mp c1
      have e := Option.some.inj h
      rw [Rlg.slotNumber_eq, Rlg.slotNumber_eq] at c6
      obtain ⟨n, hn⟩ := Option.ne_none_iff_exists'.mp d5
      rw [e] at c3 c4 c5 c6
      exact ⟨new, ⟨l, c3⟩, ⟨i, c4⟩, ⟨d1, d2, d3, d4⟩, c2, e, Rlg.markState_opened.mp c5, n, hn, c6.trans hn⟩
    · cases h
  · rintro ⟨new, ⟨l, l'⟩, ⟨i, i'⟩, ⟨d1, d2, d3, d4⟩, c2, e, o, n, hn, hm⟩
    refine ⟨new, ⟨l, i, ?_⟩, ?_⟩
    · by_contra u
      rw [Rlg.markSet_erased (by simpa using u)] at d3
      cases d3
    · unfold Rlg.originOf
      simp only [e, Rlg.slotNumber_eq]
      rw [if_pos ⟨Rlg.readState_done.mpr ⟨d1, d2, d3, d4, by rw [hn]; simp⟩, c2, l', i', Rlg.markState_opened.mpr o, by rw [hn, hm]⟩]

theorem sparseGet_range {β : Type} [DecidableEq β] (d : β) (f : Nat → β) (n a : Nat) (h : a < n) :
    sparseGet d (((List.range n).map (fun i => (i, f i))).filter (fun e => e.2 != d)) a = f a := by
  have g : ∀ xs : List Nat, xs.Nodup → a ∈ xs →
      sparseGet d ((xs.map (fun i => (i, f i))).filter (fun e => e.2 != d)) a = f a := by
    intro xs
    induction xs with
    | nil => intro _ m; cases m
    | cons x xs ih =>
      intro nd m
      obtain ⟨n1, n2⟩ := List.nodup_cons.mp nd
      rw [List.map_cons]
      by_cases e : x = a
      · subst e
        by_cases z : f x = d
        · rw [List.filter_cons_of_neg (by simpa using z), z]
          refine sparseGet_not_mem fun e he => ?_
          obtain ⟨i, hi, rfl⟩ := List.mem_map.mp (List.mem_filter.mp he).1
          exact fun q => n1 (q ▸ hi)
        · rw [List.filter_cons_of_pos (by simpa using z), sparseGet, if_pos rfl]
      · have m' : a ∈ xs := (List.mem_cons.mp m).resolve_left (fun q => e q.symm)
        by_cases z : f x = d
        · rw [List.filter_cons_of_neg (by simpa using z)]; exact ih n2 m'
        · rw [List.filter_cons_of_pos (by simpa using z), sparseGet, if_neg e]; exact ih n2 m'
  exact g _ List.nodup_range (List.mem_range.mpr h)

/-- The state the scan leaves a slot in. -/
def Rlg.scannedState (r : Rlg) (slot : Nat) : SlotState :=
  if r.gaps.contains slot then .bad else r.foundState r.origins slot

theorem Rlg.sparseGet_scannedStates {r : Rlg} {slot : Nat} (h : slot < 2048) :
    sparseGet .erased (r.scannedStates r.origins r.gaps) slot = r.scannedState slot :=
  sparseGet_range _ (fun slot => r.scannedState slot) _ _ h

theorem Rlg.mem_gaps {r : Rlg} {slot : Nat} : slot ∈ r.gaps ↔ slot < 2048 ∧ ¬r.isEmpty (slotSector slot) ∧
    r.interrupted (slotSector slot) = false ∧ r.slotUsed slot = false ∧
    (slotSector slot ≠ r.lastOfRun ∨ slot < r.newestUsed) := by
  simp only [Rlg.gaps, List.mem_flatMap, List.mem_filter, mem_allSectors, true_and, Bool.and_eq_true, Bool.not_eq_true',
    Rlg.sectorFree_false, mem_sectorSlots, Bool.or_eq_true, decide_eq_true_eq]
  constructor
  · rintro ⟨k, ⟨e, i⟩, s, u, g⟩
    have l : slot < 2048 := by omega
    have q := (slotSector_eq l).mpr s
    rw [q]; exact ⟨l, e, i, u, g⟩
  · rintro ⟨l, e, i, u, g⟩
    exact ⟨slotSector slot, ⟨e, i⟩, (slotSector_eq l).mp rfl, u, g⟩

theorem Rlg.scannedState_interrupted {r : Rlg} {slot : Nat} (i : r.interrupted (slotSector slot) = true) :
    r.scannedState slot = .bad := by
  unfold Rlg.scannedState Rlg.foundState
  rw [if_pos i]; split <;> rfl

theorem Rlg.scannedState_used {r : Rlg} {slot : Nat} (i : r.interrupted (slotSector slot) = false)
    (u : r.slotUsed slot = true) :
    r.scannedState slot = if r.origins.contains slot then .superseded else r.readState slot := by
  unfold Rlg.scannedState Rlg.foundState
  rw [if_neg (by rw [List.contains_iff_mem, Rlg.mem_gaps, u]; simp), i]; rfl

theorem Rlg.readState_unused {r : Rlg} {slot : Nat} (u : r.slotUsed slot = false) : r.readState slot = .erased := by
  simp [Rlg.readState, Rlg.markState, Rlg.markSet_erased u, u]

theorem Rlg.scannedState_unused {r : Rlg} {slot : Nat} (i : r.interrupted (slotSector slot) = false)
    (u : r.slotUsed slot = false) : r.scannedState slot = if r.gaps.contains slot then .bad else .erased := by
  unfold Rlg.scannedState Rlg.foundState
  rw [i, Rlg.readState_unused u, if_neg (c := false = true) (by simp), if_neg (c := r.origins.contains slot = true)]
  rw [List.contains_iff_mem, Rlg.mem_origins]
  rintro ⟨new, h⟩
  have := h.opened.2.2.1
  rw [Rlg.markSet_erased u] at this
  cases this

theorem Rlg.opening_damaged {r : Rlg} {slot : Nat} :
    r.status (16 * slot) 4 = .damaged ↔ ∃ i : Fin 4, r.code (16 * slot + i.val) = .damaged := by
  unfold Rlg.status worst
  constructor
  · intro h
    split at h
    · rename_i c
      obtain ⟨i, hi, e⟩ := List.mem_map.mp (List.contains_iff_mem.mp c)
      exact ⟨⟨i, List.mem_range.mp hi⟩, e⟩
    · split at h <;> cases h
  · rintro ⟨i, e⟩
    rw [if_pos]
    exact List.contains_iff_mem.mpr (List.mem_map.mpr ⟨i.val, List.mem_range.mpr i.isLt, e⟩)

/-- The scan classifies the slots outside the interrupted erases as R174's table has it. -/
theorem Rlg.scannedState_classified {r : Rlg} {slot : Nat}
    (i : r.interrupted (slotSector slot) = false) : r.Classified slot (r.scannedState slot) := by
  by_cases u : r.slotUsed slot = true
  · rw [Rlg.scannedState_used i u]
    have o : r.origins.contains slot = true ↔ ∃ new, r.SetsAside new slot := by
      rw [List.contains_iff_mem, Rlg.mem_origins]
    have n : ¬r.openedByMarks slot → r.origins.contains slot = false := fun h => by
      rw [← Bool.not_eq_true, o]; rintro ⟨new, q⟩; exact h q.opened
    constructor
    · intro h
      rw [n (fun q => by rw [q.1] at h; cases h)]
      simp [Rlg.readState, Rlg.markState, h]
    · intro h1 h2
      rw [n (fun q => by rw [q.2.1] at h2; cases h2)]
      simp [Rlg.readState, Rlg.markState, h1, h2]
    · intro h1 h2 h3
      rw [n (fun q => by obtain ⟨-, -, a, b, c⟩ := q; rw [a, b, c] at h3; simp at h3)]
      revert h3
      simp only [Rlg.readState, Rlg.markState, h1, h2]
      cases r.markSet slot .opened <;> cases r.markSet slot .closed <;> cases r.markSet slot .collected <;> simp
    · intro h1 h2 h3 h4
      rw [n (fun q => by have := q.2.2.2.1; rw [h4] at this; cases this)]
      simp only [Rlg.readState, Rlg.markState, h1, h2, h3, h4, Rlg.slotNumber_eq]
      cases r.markSet slot .collected <;> cases r.numberRead slot <;> simp
    · intro _ h2
      rw [o.mpr h2]; rfl
    · intro h1 h2
      rw [if_neg (fun q => h2 (o.mp q)), Rlg.readState, Rlg.markState_opened.mpr h1, Rlg.slotNumber_eq]
      simp only [Bool.or_eq_true, beq_iff_eq, Rlg.opening_damaged, Option.isNone_iff_eq_none]
    · intro h1 h2
      rw [n (fun q => by have := q.2.2.1; rw [h1] at this; cases this)]
      simp [Rlg.readState, Rlg.markState, h1, u]
  · have u' : r.slotUsed slot = false := by simpa using u
    constructor <;> intros <;> simp_all [Rlg.markSet_erased u', Rlg.openedByMarks, Rlg.slotUsed_false]

/-! ## The run of sectors -/

theorem foldl_max_le {xs : List Nat} {b h : Nat} (l : ∀ n ∈ xs, n ≤ h) (z : b ≤ h) : xs.foldl max b ≤ h := by
  induction xs generalizing b with
  | nil => exact z
  | cons x xs ih =>
    exact ih (fun n hn => l n (List.mem_cons_of_mem _ hn)) (Nat.max_le.mpr ⟨z, l x (List.mem_cons_self ..)⟩)

theorem le_foldl_max {xs : List Nat} {b n : Nat} (m : n ∈ xs) : n ≤ xs.foldl max b := by
  have g : ∀ (ys : List Nat) (c : Nat), c ≤ ys.foldl max c := by
    intro ys
    induction ys with
    | nil => intro c; exact Nat.le_refl _
    | cons y ys ih => intro c; exact Nat.le_trans (Nat.le_max_left c y) (ih _)
  induction xs generalizing b with
  | nil => cases m
  | cons x xs ih =>
    rcases List.mem_cons.mp m with e | e
    · rw [e, List.foldl_cons]; exact Nat.le_trans (Nat.le_max_right b x) (g xs _)
    · exact ih e

theorem find_unique {α : Type} {xs : List α} {p : α → Bool} {a : α} (m : a ∈ xs) (h : p a = true)
    (u : ∀ b ∈ xs, p b = true → b = a) : xs.find? p = some a := by
  rcases e : xs.find? p with _ | b
  · have := List.find?_eq_none.mp e a m; simp [h] at this
  · rw [u b (List.mem_of_find?_eq_some e) (List.find?_some e)]

/-- The first value that a function gives over a range. -/
theorem findSome_range {α : Type} {f : Nat → Option α} {n i : Nat} (h : i < n) (s : (f i).isSome = true) :
    ∃ j, j ≤ i ∧ (f j).isSome = true ∧ (List.range n).findSome? f = f j := by
  induction n with
  | zero => omega
  | succ n ih =>
    rw [List.range_succ, List.findSome?_append]
    by_cases e : i = n
    · subst e
      rcases q : (List.range i).findSome? f with _ | a
      · exact ⟨i, Nat.le_refl i, s, by rcases p : f i with _ | v <;> simp [p] at s ⊢⟩
      · obtain ⟨j, hj, fj⟩ := List.exists_of_findSome?_eq_some q
        exact ⟨j, Nat.le_of_lt (List.mem_range.mp hj), by rw [fj]; rfl, by rw [fj]; rfl⟩
    · obtain ⟨j, a, b, c⟩ := ih (by omega)
      refine ⟨j, a, b, ?_⟩
      rw [c]
      rcases q : f j with _ | v
      · simp [q] at b
      · rfl

theorem Rlg.numberRead_mem {r : Rlg} {slot n : Nat} (h : r.numberRead slot = some n) :
    ∃ w, (w = 0 ∨ w = 3 ∨ w = 14) ∧ r.givesValue (16 * slot + w) = true ∧ n = r.numberIn slot w := by
  have m := List.mem_of_mem_head? h
  obtain ⟨w, hw, e⟩ := List.mem_map.mp m
  obtain ⟨a, b⟩ := List.mem_filter.mp hw
  exact ⟨w, by simpa using a, b, e.symm⟩

theorem Rlg.slot127_used {r : Rlg} {k : Fin 16} : r.slotUsed (128 * k.val + 127) = false ↔
    ∀ w : Fin 16, r.wordErased (16 * (128 * k.val + 127) + w.val) = true := Rlg.slotUsed_false

/-- What the header of a sector that gives a value holds against that of the sector erased last. -/
theorem Rlg.ErasedLast.le {r : Rlg} {last k : Fin 16} (h : r.ErasedLast last) (g : r.givesValue (32768 + k.val) = true) :
    r.headerHolds k ≤ r.headerHolds last := by
  have o : ∀ a b : Fin 16, a + 1 + (b - (a + 1)) = b := by decide
  have e : ∀ a : Fin 16, a + 1 + 15 = a := by decide
  have q := h.rising (k - (last + 1)) 15 (Fin.le_last _)
  rw [o, e] at q
  exact q g h.reads

/-- The highest header value is that of the sector erased last. -/
theorem Rlg.ErasedLast.top {r : Rlg} {last : Fin 16} (h : r.ErasedLast last) : r.topHeader = r.headerHolds last := by
  refine foldl_max_eq (List.mem_filterMap.mpr ⟨last, mem_allSectors last, ?_⟩) fun m hm => ?_
  · rw [Rlg.headerValue_eq, if_pos h.reads]
  · obtain ⟨k, -, hk⟩ := List.mem_filterMap.mp hm
    rw [Rlg.headerValue_eq] at hk
    by_cases g : r.givesValue (32768 + k.val) = true
    · rw [if_pos g] at hk
      cases hk
      exact h.le g
    · rw [if_neg g] at hk; cases hk

/-- The next header value around the ring from a sector, where some sector before it in the ring holds one. -/
theorem Rlg.nextHeader {r : Rlg} {k m : Fin 16} (n : m ≠ k) (g : r.givesValue (32768 + m.val) = true) :
    ∃ j : Fin 16, j ≤ m - (k + 1) ∧ r.givesValue (32768 + (k + 1 + j).val) = true ∧
      (List.range 15).findSome? (fun i => r.headerValue (k + 1 + Fin.ofNat 16 i)) = some (r.headerHolds (k + 1 + j)) := by
  have c : ∀ a b : Fin 16, a ≠ b → (a - (b + 1)).val < 15 := by decide
  have o : ∀ a b : Fin 16, a + 1 + (b - (a + 1)) = b := by decide
  have v : Fin.ofNat 16 (m - (k + 1)).val = m - (k + 1) := Fin.ext (Nat.mod_eq_of_lt (m - (k + 1)).isLt)
  obtain ⟨j, a, b, e⟩ := findSome_range (f := fun i => r.headerValue (k + 1 + Fin.ofNat 16 i)) (c m k n) (by
    rw [v, o, Rlg.headerValue_eq, if_pos g]; rfl)
  have l : j < 16 := by omega
  have w : Fin.ofNat 16 j = ⟨j, l⟩ := Fin.ext (Nat.mod_eq_of_lt l)
  rw [w, Rlg.headerValue_eq] at b e
  by_cases q : r.givesValue (32768 + (k + 1 + ⟨j, l⟩).val) = true
  · exact ⟨⟨j, l⟩, a, q, by rw [e, if_pos q]⟩
  · rw [if_neg q] at b; cases b

/-- Only the sector erased last passes the test of its header; it passes it where a header holds less. -/
theorem Rlg.erasedLast_iff {r : Rlg} {last : Fin 16} (h : r.ErasedLast last) :
    (∀ k, r.erasedLast k = true → k = last) ∧
    ((∃ k : Fin 16, r.givesValue (32768 + k.val) = true ∧ r.headerHolds k < r.headerHolds last) →
      r.erasedLast last = true) := by
  have o : ∀ a b : Fin 16, a + 1 + (b - (a + 1)) = b := by decide
  refine ⟨fun k q => ?_, fun ⟨k, g, l⟩ => ?_⟩
  · by_contra n
    unfold Rlg.erasedLast at q
    rw [h.top, Rlg.headerValue_eq] at q
    simp only [Bool.and_eq_true, beq_iff_eq, bne_iff_ne] at q
    obtain ⟨q1, q2⟩ := q
    by_cases g : r.givesValue (32768 + k.val) = true
    · rw [if_pos g, Option.some.injEq] at q1
      obtain ⟨j, a, b, e⟩ := r.nextHeader (k := k) (m := last) (fun x => n x.symm) h.reads
      rw [e] at q2
      refine q2 (congrArg some (Nat.le_antisymm (h.le b) ?_))
      have ring : ∀ k last j : Fin 16, j ≤ last - (k + 1) → k ≠ last →
          k - (last + 1) ≤ k + 1 + j - (last + 1) := by decide
      have z := h.rising (k - (last + 1)) (k + 1 + j - (last + 1)) (ring k last j a n)
      rw [o, o, q1] at z
      exact z g b
    · rw [if_neg g] at q1; cases q1
  · unfold Rlg.erasedLast
    rw [h.top, Rlg.headerValue_eq, if_pos h.reads]
    have n : k ≠ last := fun x => by rw [x] at l; omega
    obtain ⟨j, a, b, e⟩ := r.nextHeader (k := last) n g
    have z := h.rising j (k - (last + 1)) a b
    rw [o] at z
    have z' := z g
    rw [e]
    simp only [beq_self_eq_true, Bool.true_and, bne_iff_ne, ne_eq, Option.some.injEq]
    omega

/-- Where the run of non-FREE sectors ends. -/
theorem Rlg.lastOfRun_eq {r : Rlg} {last : Fin 16} (h : r.EndsRun last) : r.lastOfRun = last := by
  have none_free : (∀ k, ¬r.isEmpty k) →
      allSectors.find? (fun k => !r.sectorFree k && r.sectorFree (nextSector k)) = none := fun a => by
    refine List.find?_eq_none.mpr fun k _ => ?_
    rw [Rlg.sectorFree_false.mpr (a (nextSector k))]; simp
  unfold Rlg.lastOfRun
  rcases h with ⟨a, b, c⟩ | ⟨a, b, c⟩ | ⟨a, b, c⟩
  · rw [find_unique (mem_allSectors last)]
    · simp [Rlg.sectorFree_false.mpr a, nextSector, Rlg.sectorFree_iff.mpr b]
    · intro k _ q
      simp only [Bool.and_eq_true, Bool.not_eq_true', Rlg.sectorFree_false, Rlg.sectorFree_iff] at q
      exact c k q.1 q.2
  · rw [none_free a, find_unique (mem_allSectors (last + 1)) b (fun k _ => c k)]
    exact add_sub_cancel_right last 1
  · have i : allSectors.find? r.interrupted = none := List.find?_eq_none.mpr fun k _ => by simp [b k]
    obtain ⟨u, v⟩ := Rlg.erasedLast_iff c
    rw [none_free a, i]
    rcases c.falls with rfl | e
    · rcases q : allSectors.find? r.erasedLast with _ | k
      · rfl
      · exact u k (List.find?_some q)
    · rw [find_unique (mem_allSectors last) (v e) (fun k _ => u k)]; rfl

theorem Rlg.newestUsed_eq {r : Rlg} {last : Fin 16} {newest : Nat} (h : r.EndsRun last) (n : r.NewestIs last newest) :
    r.newestUsed = newest := by
  obtain ⟨sec, int, used, later⟩ := n
  unfold Rlg.newestUsed
  rw [Rlg.lastOfRun_eq h]
  by_cases i : r.interrupted last = true
  · rw [if_pos i]; have := int i; omega
  · rw [if_neg i]
    have i' : r.interrupted last = false := by simpa using i
    refine foldl_max_eq (List.mem_filter.mpr ⟨mem_sectorSlots.mpr sec, Rlg.slotUsed_iff.mpr (used i')⟩) (fun m hm => ?_)
    obtain ⟨a, b⟩ := List.mem_filter.mp hm
    by_contra q
    rw [Rlg.slotUsed_false.mpr (later i' m (mem_sectorSlots.mp a) (by omega))] at b
    cases b

theorem Rlg.isEmpty_slot {r : Rlg} {slot : Nat} (l : slot < 2048) (h : r.isEmpty (slotSector slot)) :
    r.slotUsed slot = false := by
  refine Rlg.slotUsed_false.mpr fun w => ?_
  have e := (slotSector_eq l).mp rfl
  have := h ⟨slot % 128, by omega⟩ w
  have q : 128 * (slotSector slot).val + slot % 128 = slot := by omega
  simpa [q] using this

theorem Rlg.isEmpty_uninterrupted {r : Rlg} {k : Fin 16} (h : r.isEmpty k) : r.interrupted k = false := by
  rw [← Bool.not_eq_true, Rlg.interrupted_iff]; exact fun q => q.2 h

theorem Rlg.EndsRun.nonempty {r : Rlg} {last : Fin 16} (h : r.EndsRun last) : ¬r.isEmpty last := by
  rcases h with ⟨a, -⟩ | ⟨a, -⟩ | ⟨a, -⟩
  · exact a
  all_goals exact a last

theorem Rlg.allFree_iff {r : Rlg} : r.allFree = true ↔ ∀ k, r.isEmpty k := by
  simp [Rlg.allFree, mem_allSectors, Rlg.sectorFree_iff]

theorem Rlg.hasTail_iff {r : Rlg} {last : Fin 16} {newest : Nat} (n : r.NewestIs last newest) :
    r.hasTail last = true ↔ newest % 128 ≠ 127 := by
  obtain ⟨sec, int, used, later⟩ := n
  unfold Rlg.hasTail
  by_cases i : r.interrupted last = true
  · simp [i, int i]
  · have i' : r.interrupted last = false := by simpa using i
    rw [i', Bool.not_false, Bool.true_and, Bool.not_eq_true']
    constructor
    · intro h e
      obtain ⟨w, hw⟩ := used i'
      have q : newest = 128 * last.val + 127 := by omega
      rw [q, Rlg.slotUsed_false.mp h w] at hw
      cases hw
    · intro h
      exact Rlg.slotUsed_false.mpr (later i' _ (by omega) (by omega))

/-- The ACTIVE sector and the fill position that a run leaves (R174). -/
theorem Rlg.scannedActive_eq {r : Rlg} {last : Fin 16} {newest : Nat} (h : r.EndsRun last) (n : r.NewestIs last newest) :
    (newest % 128 ≠ 127 → r.scannedActive = some (last, newest + 1)) ∧
    (newest % 128 = 127 → r.isEmpty (last + 1) → r.scannedActive = some (last + 1, 128 * (last + 1).val)) ∧
    (newest % 128 = 127 → ¬r.isEmpty (last + 1) → r.scannedActive = none) := by
  have a : ¬r.allFree = true := fun q => h.nonempty (Rlg.allFree_iff.mp q last)
  unfold Rlg.scannedActive
  rw [if_neg a, Rlg.lastOfRun_eq h, Rlg.newestUsed_eq h n]
  refine ⟨fun t => ?_, fun t e => ?_, fun t e => ?_⟩
  · rw [if_pos ((Rlg.hasTail_iff n).mpr t)]
  · rw [if_neg (fun q => (Rlg.hasTail_iff n).mp q t), if_pos (by exact Rlg.sectorFree_iff.mpr e)]; rfl
  · rw [if_neg (fun q => (Rlg.hasTail_iff n).mp q t), if_neg (by simpa [nextSector] using fun q => e (Rlg.sectorFree_iff.mp q))]

theorem Rlg.scannedState_empty {r : Rlg} {slot : Nat} (l : slot < 2048) (h : r.isEmpty (slotSector slot)) :
    r.scannedState slot = .erased := by
  rw [Rlg.scannedState_unused (Rlg.isEmpty_uninterrupted h) (Rlg.isEmpty_slot l h), if_neg]
  rw [List.contains_iff_mem, Rlg.mem_gaps]
  exact fun q => q.2.1 h

theorem Rlg.scannedState_gap {r : Rlg} {last : Fin 16} {newest slot : Nat} (h : r.EndsRun last) (n : r.NewestIs last newest)
    (l : slot < 2048) (i : r.interrupted (slotSector slot) = false) (e : ¬r.isEmpty (slotSector slot))
    (u : ∀ w : Fin 16, r.wordErased (16 * slot + w.val) = true) (g : slotSector slot ≠ last ∨ slot < newest) :
    r.scannedState slot = .bad := by
  rw [Rlg.scannedState_unused i (Rlg.slotUsed_false.mpr u), if_pos]
  rw [List.contains_iff_mem, Rlg.mem_gaps, Rlg.lastOfRun_eq h, Rlg.newestUsed_eq h n]
  exact ⟨l, e, i, Rlg.slotUsed_false.mpr u, g⟩

theorem Rlg.scannedState_ahead {r : Rlg} {last : Fin 16} {newest slot : Nat} (h : r.EndsRun last) (n : r.NewestIs last newest)
    (s : slot / 128 = last.val) (g : newest < slot) : r.scannedState slot = .erased := by
  have l : slot < 2048 := by omega
  have q := (slotSector_eq l).mpr s
  have i : r.interrupted last = false := by
    rw [← Bool.not_eq_true]; intro i; have := n.interrupted i; have := n.sector; omega
  have u := Rlg.slotUsed_false.mpr (n.later i slot s g)
  rw [Rlg.scannedState_unused (q ▸ i) u, if_neg]
  rw [List.contains_iff_mem, Rlg.mem_gaps, Rlg.lastOfRun_eq h, Rlg.newestUsed_eq h n]
  rintro ⟨-, -, -, -, x⟩
  rcases x with x | x
  · exact x q
  · omega

theorem Rlg.scannedSector_eq (r : Rlg) (k : Fin 16) : (r.scannedSector k = .active ∧ ∃ f, r.scannedActive = some (k, f)) ∨
    (r.scannedSector k = .free ∧ r.isEmpty k ∧ ∀ f, r.scannedActive ≠ some (k, f)) ∨
    (r.scannedSector k = .full ∧ ¬r.isEmpty k ∧ ∀ f, r.scannedActive ≠ some (k, f)) := by
  unfold Rlg.scannedSector
  rcases e : r.scannedActive with _ | ⟨j, f⟩
  · simp only [Option.any_none, Bool.false_eq_true, if_false]
    by_cases q : r.sectorFree k = true
    · simp [q, Rlg.sectorFree_iff.mp q]
    · simp [q, Rlg.sectorFree_false.mp (by simpa using q)]
  · by_cases c : j = k
    · subst c; simp
    · by_cases q : r.sectorFree k = true
      · simp [q, Rlg.sectorFree_iff.mp q, c]
      · simp [q, Rlg.sectorFree_false.mp (by simpa using q), c]

/-! ## The scan's own programs -/

theorem Rlg.rawBytes_congr {r t : Rlg} {a k : Nat} (h : ∀ c, a ≤ c → c < a + k → t.rawByte c = r.rawByte c) :
    t.rawBytes a k = r.rawBytes a k := by
  induction k generalizing a with
  | zero => rfl
  | succ k ih =>
    rw [Rlg.rawBytes, Rlg.rawBytes, h a (by omega) (by omega), ih (fun c x y => h c (by omega) (by omega))]

theorem Rlg.rawBytes_storeBytes {r : Rlg} {a : Nat} (bs : List Byte) : (r.storeBytes a bs).rawBytes a bs.length = bs := by
  induction bs generalizing r a with
  | nil => rfl
  | cons b bs ih =>
    rw [Rlg.storeBytes, List.length_cons, Rlg.rawBytes, ih, Rlg.rawByte_storeBytes_other (by omega),
      Rlg.rawByte_storeByte_same]

theorem Rlg.rawWord_storeWord {r : Rlg} {w : Nat} {x : ArrayResult} : (r.storeWord w x).rawWord w = x.value := by
  have e := Rlg.rawBytes_storeBytes (r := r) (a := 8 * w) (leBytes 8 x.value.toNat)
  have n : (leBytes 8 x.value.toNat).length = 8 := rfl
  rw [n] at e
  show BitVec.ofNat 64 (leNat ((r.storeBytes (8 * w) (leBytes 8 x.value.toNat)).rawBytes (8 * w) 8)) = x.value
  rw [e, leNat_leBytes]
  exact BitVec.eq_of_toNat_eq (by rw [BitVec.toNat_ofNat]; have := x.value.isLt; omega)

/-- What several tries at a program keep, and what a good verify of one of them says. -/
theorem Rlg.programTries_ind {program : Rlg → Option ArrayResult → Rlg × Bool} (keeps : Rlg → Rlg → Prop)
    (good : Rlg → Prop) (refl : ∀ r, keeps r r) (trans : ∀ a b c, keeps a b → keeps b c → keeps a c)
    (one : ∀ r x, keeps r (program r x).1) (ok : ∀ r x, (program r x).2 = true → good (program r x).1) :
    ∀ k xs r, keeps r (Rlg.programTries program k xs r).1 ∧
      ((Rlg.programTries program k xs r).2 = true → good (Rlg.programTries program k xs r).1) := by
  intro k
  induction k with
  | zero => intro xs r; exact ⟨refl r, fun h => by cases h⟩
  | succ k ih =>
    intro xs r
    simp only [Rlg.programTries]
    by_cases c : (program r xs.head?).2 = true
    · rw [if_pos c]; exact ⟨one _ _, fun _ => ok _ _ c⟩
    · rw [if_neg c]; exact ⟨trans _ _ _ (one _ _) (ih _ _).1, (ih _ _).2⟩

/-- The bytes a program of the scan may change. -/
def targetHas (t : ScanTarget) (a : Nat) : Prop :=
  match t with
  | .header k => a / 8 = 32768 + k.val
  | .superseded slot => a = slotAddress slot + 124
  | .gap slot => a = slotAddress slot + 123

/-- The program of the scan has taken. -/
def Rlg.targetHolds (r : Rlg) (next : Nat) (t : ScanTarget) : Prop :=
  match t with
  | .header k => r.rawWord (32768 + k.val) = BitVec.ofNat 64 next
  | .superseded slot => r.rawByte (slotAddress slot + 124) = 0
  | .gap slot => r.rawByte (slotAddress slot + 123) = 0

/-- What programming may do to the array: the bytes outside the target are as before, and a mark byte that holds 0 keeps
it. -/
def Rlg.programKeeps (t : ScanTarget) (r u : Rlg) : Prop :=
  ∀ a, (¬targetHas t a → u.rawByte a = r.rawByte a ∧ u.readByte a = r.readByte a) ∧
    (a < 262144 → r.rawByte a = 0 → u.rawByte a = 0)

theorem Rlg.programByte_keeps {r : Rlg} {a : Nat} (m : isMarkWord (a / 8) = true) (x : Option ArrayResult) :
    (∀ c, c ≠ a → (r.programByte a x).1.rawByte c = r.rawByte c ∧ (r.programByte a x).1.readByte c = r.readByte c) ∧
    (r.rawByte a = 0 → (r.programByte a x).1.rawByte a = 0) ∧
    ((r.programByte a x).2 = true → (r.programByte a x).1.rawByte a = 0) := by
  have e : (r.programByte a x).1.rawByte a =
      ((r.rawByte a).zeroExtend 64 &&& (x.getD ⟨0, .clean⟩).value).truncate 8 := Rlg.rawByte_storeByte_same
  refine ⟨fun c h => ⟨Rlg.rawByte_storeByte_other h, Rlg.readByte_storeMarkByte_other m h⟩, fun h => ?_, fun h => ?_⟩
  · rw [e, h]; simp
  · rw [e]
    have : ((r.rawByte a).zeroExtend 64 &&& (x.getD ⟨0, .clean⟩).value) = 0 := by simpa [Rlg.programByte] using h
    rw [this]; rfl

theorem Rlg.programWord_keeps {r : Rlg} {w : Nat} (asked : Word64) (x : Option ArrayResult) :
    (∀ c, c / 8 ≠ w → (r.programWord w asked x).1.rawByte c = r.rawByte c ∧
      (r.programWord w asked x).1.readByte c = r.readByte c) ∧
    ((r.programWord w asked x).2 = true → (r.programWord w asked x).1.rawWord w = asked) := by
  refine ⟨fun c h => ⟨?_, Rlg.readByte_storeWord_other h⟩, fun h => ?_⟩
  · exact Rlg.rawByte_storeBytes_other (by have : ∀ n, (leBytes 8 n).length = 8 := fun _ => rfl; rw [this]; omega)
  · show (r.storeWord w _).rawWord w = asked
    rw [Rlg.rawWord_storeWord]
    simpa [Rlg.programWord] using h

theorem Rlg.programKeeps_refl (t : ScanTarget) (r : Rlg) : Rlg.programKeeps t r r := fun _ => ⟨fun _ => ⟨rfl, rfl⟩, fun _ h => h⟩

theorem Rlg.programKeeps_trans {t : ScanTarget} {r u v : Rlg} (h : Rlg.programKeeps t r u) (k : Rlg.programKeeps t u v) :
    Rlg.programKeeps t r v := fun a =>
  ⟨fun n => ⟨((k a).1 n).1.trans ((h a).1 n).1, ((k a).1 n).2.trans ((h a).1 n).2⟩, fun l z => (k a).2 l ((h a).2 l z)⟩

theorem Rlg.programKeeps_word {r : Rlg} {k : Fin 16} {asked : Word64} (x : Option ArrayResult) :
    Rlg.programKeeps (.header k) r (r.programWord (32768 + k.val) asked x).1 := fun a =>
  ⟨(Rlg.programWord_keeps asked x).1 a, fun l z => by
    rw [((Rlg.programWord_keeps asked x).1 a (by omega)).1]; exact z⟩

/-- What one program of the scan, with its retries, keeps, and what its good verify says. -/
theorem Rlg.scanProgram_spec {r : Rlg} {next : Nat} {fs : List ScanResult} {t : ScanTarget} :
    Rlg.programKeeps t r (r.scanProgram next fs t).1 ∧
      ((r.scanProgram next fs t).2 = true → (r.scanProgram next fs t).1.targetHolds next t) := by
  have mark : ∀ (slot : Fin 2048) (o : Nat), 120 ≤ o → o < 128 → isMarkWord ((slotAddress slot + o) / 8) = true := by
    intro slot o h1 h2
    have e : (slotAddress slot + o) / 8 = 16 * slot.val + 15 := by unfold slotAddress; omega
    rw [e, isMarkWord]
    simp; omega
  have byte : ∀ {t : ScanTarget} {a : Nat}, (∀ c, targetHas t c ↔ c = a) → isMarkWord (a / 8) = true →
      ∀ r x, Rlg.programKeeps t r (Rlg.programByte r a x).1 := by
    intro t a h m r x c
    obtain ⟨p, q, -⟩ := Rlg.programByte_keeps (r := r) m x
    refine ⟨fun n => p c (fun e => n ((h c).mpr e)), fun _ z => ?_⟩
    by_cases e : c = a
    · subst e; exact q z
    · rw [(p c e).1]; exact z
  cases t with
  | header k =>
    exact Rlg.programTries_ind (program := fun u => u.programWord (32768 + k.val) (BitVec.ofNat 64 next))
      (Rlg.programKeeps (.header k)) (fun u => u.rawWord (32768 + k.val) = BitVec.ofNat 64 next)
      (Rlg.programKeeps_refl _) (fun _ _ _ => Rlg.programKeeps_trans) (fun _ x => Rlg.programKeeps_word x)
      (fun _ x h => (Rlg.programWord_keeps _ x).2 h) 3 _ r
  | superseded slot =>
    have m := mark slot 124 (by decide) (by decide)
    exact Rlg.programTries_ind (program := fun u => u.programByte (slotAddress slot + 124))
      (Rlg.programKeeps (.superseded slot)) (fun u => u.rawByte (slotAddress slot + 124) = 0)
      (Rlg.programKeeps_refl _) (fun _ _ _ => Rlg.programKeeps_trans) (byte (fun _ => Iff.rfl) m)
      (fun _ x h => (Rlg.programByte_keeps m x).2.2 h) 3 _ r
  | gap slot =>
    have m := mark slot 123 (by decide) (by decide)
    exact Rlg.programTries_ind (program := fun u => u.programByte (slotAddress slot + 123))
      (Rlg.programKeeps (.gap slot)) (fun u => u.rawByte (slotAddress slot + 123) = 0)
      (Rlg.programKeeps_refl _) (fun _ _ _ => Rlg.programKeeps_trans) (byte (fun _ => Iff.rfl) m)
      (fun _ x h => (Rlg.programByte_keeps m x).2.2 h) 3 _ r

/-- What the scan's programs in turn leave: bytes of no target as before, mark bytes at 0 kept, and with every verify good
every target programmed, if no header stands twice in the list. -/
theorem Rlg.scanPrograms_spec {next : Nat} {fs : List ScanResult} : ∀ (ts : List ScanTarget) (r : Rlg),
    (∀ a, (∀ t ∈ ts, ¬targetHas t a) → (Rlg.scanPrograms next fs ts r).1.rawByte a = r.rawByte a ∧
      (Rlg.scanPrograms next fs ts r).1.readByte a = r.readByte a) ∧
    (∀ a, a < 262144 → r.rawByte a = 0 → (Rlg.scanPrograms next fs ts r).1.rawByte a = 0) ∧
    ((Rlg.scanPrograms next fs ts r).2 = true → (∀ k, ts.count (.header k) ≤ 1) →
      ∀ t ∈ ts, (Rlg.scanPrograms next fs ts r).1.targetHolds next t) := by
  intro ts
  induction ts with
  | nil => intro r; exact ⟨fun _ _ => ⟨rfl, rfl⟩, fun _ _ h => h, fun _ _ _ h => by cases h⟩
  | cons t ts ih =>
    intro r
    obtain ⟨p, q⟩ := Rlg.scanProgram_spec (r := r) (next := next) (fs := fs) (t := t)
    obtain ⟨x, y, z⟩ := ih (r.scanProgram next fs t).1
    simp only [Rlg.scanPrograms]
    refine ⟨fun a h => ?_, fun a l h => y a l ((p a).2 l h), fun h once u hu => ?_⟩
    · obtain ⟨x1, x2⟩ := x a (fun u hu => h u (List.mem_cons_of_mem _ hu))
      obtain ⟨p1, p2⟩ := (p a).1 (h t (List.mem_cons_self ..))
      exact ⟨x1.trans p1, x2.trans p2⟩
    · obtain ⟨h1, h2⟩ := Bool.and_eq_true_iff.mp h
      have once' : ∀ k, ts.count (.header k) ≤ 1 := fun k => Nat.le_trans List.count_le_count_cons (once k)
      rcases List.mem_cons.mp hu with rfl | hu
      · have g := q h1
        cases u with
        | header k =>
          have no : ScanTarget.header k ∉ ts := fun m => by
            have := once k; rw [List.count_cons_self] at this
            have := List.count_pos_iff.mpr m; omega
          show Rlg.rawWord _ _ = _
          rw [← show Rlg.rawWord _ _ = _ from g]
          unfold Rlg.rawWord
          rw [Rlg.rawBytes_congr]
          intro c c1 c2
          refine (x c fun u hu hc => ?_).1
          cases u with
          | header j =>
            have : j = k := Fin.ext (by have : c / 8 = 32768 + j.val := hc; omega)
            exact no (this ▸ hu)
          | superseded slot => have : c = slotAddress slot + 124 := hc; unfold slotAddress at this; omega
          | gap slot => have : c = slotAddress slot + 123 := hc; unfold slotAddress at this; omega
        | superseded slot => exact y _ (by unfold slotAddress; omega) g
        | gap slot => exact y _ (by unfold slotAddress; omega) g
      · exact z h2 once' u hu

/-! ## The end of the scan -/

section Scanned

variable (fs : List ScanResult) (r : Rlg)

@[simp] theorem Rlg.scanned_cells : (r.scanned fs).cells = (r.scanWrites fs).1.cells := by
  unfold Rlg.scanned; dsimp only
@[simp] theorem Rlg.scanned_codes : (r.scanned fs).codes = (r.scanWrites fs).1.codes := by
  unfold Rlg.scanned; dsimp only
@[simp] theorem Rlg.scanned_slotStates : (r.scanned fs).slotStates = r.scannedStates r.origins r.gaps := by
  unfold Rlg.scanned; dsimp only
@[simp] theorem Rlg.scanned_sectors : (r.scanned fs).sectors = Vector.ofFn r.scannedSector := by
  unfold Rlg.scanned; dsimp only
@[simp] theorem Rlg.scanned_fill : (r.scanned fs).fill = r.scannedActive.map (·.2) := by
  unfold Rlg.scanned; dsimp only
@[simp] theorem Rlg.scanned_lastActive :
    (r.scanned fs).lastActive = (r.scannedActive.map (·.1)).getD r.lastOfRun := by
  unfold Rlg.scanned; dsimp only
@[simp] theorem Rlg.scanned_index : (r.scanned fs).index = r.scannedIndex := by
  unfold Rlg.scanned; dsimp only
@[simp] theorem Rlg.scanned_nextNumber : (r.scanned fs).nextNumber = r.scannedNext := by
  unfold Rlg.scanned; dsimp only
@[simp] theorem Rlg.scanned_orphans : (r.scanned fs).orphans = r.scannedOrphans := by
  unfold Rlg.scanned; dsimp only

end Scanned

/-- The two logs agree in the array and in what the scan derives, but for an erase that may have started in a FULL sector. -/
structure Rlg.SameScan (r t : Rlg) : Prop where
  array : t.cells = r.cells ∧ t.codes = r.codes
  slots : t.slotStates = r.slotStates
  index : t.index = r.index
  next : t.nextNumber = r.nextNumber
  orphans : t.orphans = r.orphans
  fill : t.fill = r.fill ∧ t.lastActive = r.lastActive
  sectors : ∀ k : Fin 16, t.sectors[k] = r.sectors[k] ∨ r.sectors[k] = .full ∧ t.sectors[k] = .erasing

theorem State.raise_rlg (s : State) (p : Port) (k : NoticeKind) (ns : List Nat) : (s.raise p k ns).rlg = s.rlg := by
  cases p <;> rfl

theorem State.raiseBoth_rlg (s : State) (k : NoticeKind) (ns : List Nat) : (s.raiseBoth k ns).rlg = s.rlg := by
  rw [State.raiseBoth, State.raise_rlg, State.raise_rlg]

theorem Rlg.oldestFull_full {r : Rlg} {k : Fin 16} (h : r.oldestFull = some k) : r.sectors[k] = .full := by
  have := List.find?_some h
  simpa using this

theorem State.eraseTest_rlg (s : State) : Rlg.SameScan s.rlg s.eraseTest.rlg ∧ s.eraseTest.rlg.logState = s.rlg.logState ∧
    s.eraseTest.rlg.queue = s.rlg.queue := by
  have e : s.eraseTest.rlg = { (match s.rlg.eraseDue, s.rlg.queue with
      | some k, [] => s.rlg.startErase k
      | _, _ => s.rlg) with spaceLow := s.rlg.spaceIsLow } := by
    simp only [State.eraseTest]
    split
    · rw [State.raiseBoth_rlg]; rfl
    · rfl
  rw [e]
  split
  · rename_i k hd hq
    have f : s.rlg.sectors[k] = .full := by
      unfold Rlg.eraseDue at hd
      split at hd
      · split at hd
        · split at hd
          · rename_i o _ ; cases hd; exact Rlg.oldestFull_full o
          · cases hd
        · cases hd
      · cases hd
    refine ⟨⟨⟨rfl, rfl⟩, rfl, rfl, rfl, rfl, ⟨rfl, rfl⟩, fun j => ?_⟩, rfl, rfl⟩
    show (s.rlg.sectors.set k .erasing)[j] = _ ∨ _ ∧ (s.rlg.sectors.set k .erasing)[j] = _
    by_cases c : j = k
    · subst c; right; exact ⟨f, by simp⟩
    · left; simp [Fin.val_ne_of_ne (fun q => c q.symm)]
  · exact ⟨⟨⟨rfl, rfl⟩, rfl, rfl, rfl, rfl, ⟨rfl, rfl⟩, fun _ => .inl rfl⟩, rfl, rfl⟩

theorem Rlg.SameScan.refl (r : Rlg) : Rlg.SameScan r r :=
  ⟨⟨rfl, rfl⟩, rfl, rfl, rfl, rfl, ⟨rfl, rfl⟩, fun _ => .inl rfl⟩

theorem Rlg.SameScan.trans {a b c : Rlg} (h : Rlg.SameScan a b) (k : Rlg.SameScan b c) : Rlg.SameScan a c := by
  obtain ⟨h1, h2, h3, h4, h5, h6, h7⟩ := h
  obtain ⟨k1, k2, k3, k4, k5, k6, k7⟩ := k
  refine ⟨⟨k1.1.trans h1.1, k1.2.trans h1.2⟩, k2.trans h2, k3.trans h3, k4.trans h4, k5.trans h5,
    ⟨k6.1.trans h6.1, k6.2.trans h6.2⟩, fun j => ?_⟩
  rcases h7 j with x | ⟨x, y⟩ <;> rcases k7 j with z | ⟨z, w⟩
  · left; rw [z, x]
  · right; exact ⟨x ▸ z, w⟩
  · right; exact ⟨x, z.trans y⟩
  · rw [y] at z; cases z

theorem State.thirdFailure_rlg (s : State) (ns : List Nat) : Rlg.SameScan s.rlg (s.thirdFailure ns).rlg := by
  unfold State.thirdFailure
  split
  · rw [State.raiseBoth_rlg]; exact .refl _
  · unfold State.enterFault
    have e : ∀ v : State, v.faultCloseAll.rlg = v.rlg := fun v => State.faultCloseAll_only (s := v) .rlg (by decide)
    rw [e, State.withRlg_rlg, State.raiseBoth_rlg]
    exact ⟨⟨rfl, rfl⟩, rfl, rfl, rfl, rfl, ⟨rfl, rfl⟩, fun _ => .inl rfl⟩

/-- What the end of the scan leaves of what the scan derived. -/
theorem State.scan_rlg (fs : List ScanResult) (s : State) : Rlg.SameScan (s.rlg.scanned fs) (s.scan fs).rlg := by
  generalize hr : s.rlg.scanned fs = x
  have a : ∀ v : State, v = s.withRlg { x with logState := .ready } → Rlg.SameScan x v.rlg := by
    rintro v rfl
    exact ⟨⟨rfl, rfl⟩, rfl, rfl, rfl, rfl, ⟨rfl, rfl⟩, fun _ => .inl rfl⟩
  simp only [State.scan, hr]
  generalize hv : s.withRlg { x with logState := .ready } = v
  have b : Rlg.SameScan x ((if s.rlg.scanFails fs then v.thirdFailure [] else v).eraseTest).rlg := by
    refine (a v hv.symm).trans ?_
    split
    · exact (State.thirdFailure_rlg _ _).trans (State.eraseTest_rlg _).1
    · exact (State.eraseTest_rlg _).1
  generalize (if s.rlg.scanFails fs then v.thirdFailure [] else v).eraseTest = u at b ⊢
  split
  · exact b
  · rw [State.raise_rlg]; exact b

end Sys2Proof.Machine
end

