-- ==== Sys2Proof/Laws/Staging.lean ====
section
/-! SUPPORT. What handing values out does, what the staging test and the release do, and what a point's loss of ONLINE and an
ALL-ZERO request leave (R89 to R95). -/

namespace Sys2Proof.Machine

open Sys2Proof

theorem State.withFlc_node (s : State) (x : Flc) (n : Fin 26) : (s.withFlc x).node n = x.nodes[n] := rfl

theorem State.withAlu_node (s : State) (x : Alu) (n : Fin 26) : (s.withAlu x).node n = s.node n := rfl

theorem State.handValues_point (s : State) (want : Point → Nat × Nat) (p : Point) :
    (s.handValues want).node (pointNode p) =
      if (want p).1 = s.alu.points[p].value then s.node (pointNode p)
      else { s.node (pointNode p) with sequence := (s.node (pointNode p)).sequence + 1 } := by
  have h : (pointNode p).val < 24 := p.isLt
  simp [State.handValues, State.node, Flc.mapPoints, pointNode, State.withFlc, State.withAlu]

theorem State.handValues_other (s : State) (want : Point → Nat × Nat) (n : Fin 26) (h : 24 ≤ n.val) :
    (s.handValues want).node n = s.node n := by
  have h' : ¬ n.val < 24 := by omega
  simp [State.handValues, State.node, Flc.mapPoints, State.withFlc, State.withAlu, h']

theorem State.handValues_flc (s : State) (want : Point → Nat × Nat) :
    (s.handValues want).flc = { s.flc with nodes := (s.handValues want).flc.nodes } := rfl

theorem State.handValues_alu (s : State) (want : Point → Nat × Nat) :
    (s.handValues want).alu = { s.alu with points := (s.handValues want).alu.points } := rfl

theorem State.handValues_points (s : State) (want : Point → Nat × Nat) (p : Point) :
    (s.handValues want).alu.points[p] = s.alu.points[p].hand (s.online p) (want p).1 (want p).2 := by
  simp [State.handValues, State.withFlc, State.withAlu]

theorem node_cases (n : Fin 26) : (∃ p : Point, pointNode p = n) ∨ 24 ≤ n.val := by
  by_cases h : n.val < 24
  · exact .inl ⟨⟨n.val, h⟩, rfl⟩
  · exact .inr (by omega)

/-- Every node keeps all but its sequence. -/
theorem State.handValues_node (s : State) (want : Point → Nat × Nat) (n : Fin 26) :
    { (s.handValues want).node n with sequence := 0 } = { s.node n with sequence := 0 } := by
  rcases node_cases n with ⟨p, rfl⟩ | h
  · rw [State.handValues_point]; split <;> rfl
  · rw [State.handValues_other s want n h]

theorem Alu.anyPending_iff (a : Alu) : a.anyPending = true ↔ ∃ p : Point, a.points[p].pendingReduction = true := by
  simp only [Alu.anyPending, List.any_eq_true, Vector.mem_toList_iff]
  constructor
  · rintro ⟨x, hx, h⟩
    obtain ⟨i, hi, rfl⟩ := Vector.mem_iff_getElem.mp hx
    exact ⟨⟨i, hi⟩, h⟩
  · rintro ⟨p, h⟩
    exact ⟨_, Vector.getElem_mem p.isLt, h⟩

theorem State.releaseRaises_eq (s : State) : s.releaseRaises =
    (s.handValues s.releasedValues).withAlu
      { (s.handValues s.releasedValues).alu with staging := .released, k := s.alu.set.budget } := rfl

/-- What the release does to the allocator (R91). -/
theorem State.releaseRaises_alu (s : State) : s.alu.Released s.online s.releaseRaises.alu := by
  refine ⟨?_, rfl, rfl, fun p => ?_⟩
  · rw [State.releaseRaises_eq, State.withAlu_alu, State.handValues_alu]
  · rw [State.releaseRaises_eq, State.withAlu_alu, State.handValues_points]
    unfold State.releasedValues
    simp only [SendValue.hand]
    by_cases h : s.alu.set.entries[p].mark = .raised ∧ s.alu.set.entries[p].leftOnline = false
    · simp only [if_pos h]
      by_cases e : s.alu.set.entries[p].target = s.alu.points[p].value
      · rw [if_pos e, if_neg (fun x => x.2.2 e)]
      · rw [if_neg e, if_pos ⟨h.1, h.2, e⟩]
    · simp only [if_neg h]
      rw [if_pos trivial, if_neg]
      exact fun x => h ⟨x.1, x.2.1⟩

/-- All that the release does (R91). -/
theorem State.releaseRaises_into (s : State) : s.ReleasedInto s.releaseRaises := by
  refine ⟨s.releaseRaises_alu, ?_, fun n h => ?_, fun p => ?_⟩
  · rw [State.releaseRaises_eq, State.withAlu_flc]
    exact State.handValues_flc _ _
  · rw [State.releaseRaises_eq, State.withAlu_node, State.handValues_other s _ n h]
  · rw [State.releaseRaises_eq, State.withAlu_node, State.handValues_point, State.withAlu_alu, State.handValues_points]
    unfold State.releasedValues
    unfold SendValue.hand
    by_cases h : s.alu.set.entries[p].mark = .raised ∧ s.alu.set.entries[p].leftOnline = false
    · simp only [if_pos h]
      by_cases e : s.alu.set.entries[p].target = s.alu.points[p].value
      · simp only [if_pos e, if_true]
      · simp only [if_neg e]
    · simp only [if_neg h, if_true]

/-! The four cases of the staging test (R90). -/

theorem State.stagingTest_released {v : State} (h : v.alu.staging = .released) : v.stagingTest = v := if_pos h

theorem State.stagingTest_reducing {v : State} (h : v.alu.staging ≠ .released) (a : v.alu.anyPending = true) :
    v.stagingTest = v.withAlu { v.alu with staging := .reducing } := by
  rw [State.stagingTest, if_neg h, if_pos a]

theorem State.stagingTest_release {v : State} (h : v.alu.staging ≠ .released) (a : ¬v.alu.anyPending = true)
    (d : v.dwellPassed = true) :
    v.stagingTest = v.releaseRaises := by
  rw [State.stagingTest, if_neg h, if_neg a, if_pos d]

theorem State.stagingTest_dwelling {v : State} (h : v.alu.staging ≠ .released) (a : ¬v.alu.anyPending = true)
    (d : ¬v.dwellPassed = true) :
    v.stagingTest = v.withAlu { v.alu with staging := .dwelling } := by
  rw [State.stagingTest, if_neg h, if_neg a, if_neg d]

theorem State.allZeroRequest_alu (s : State) : s.allZeroRequest.alu =
    Alu.restage { s.alu with
      points := (s.handValues (fun _ => (0, 0))).alu.points
      set := { s.alu.set with entries := s.zeroedEntries } } := by
  unfold State.allZeroRequest
  simp only [State.withFlc_alu, State.withAlu_alu]
  rw [State.handValues_alu]

theorem Alu.restage_eq (a : Alu) : a.restage =
    { a with staging := if a.staging ≠ .released ∧ a.anyPending = true then .reducing else a.staging } := by
  unfold Alu.restage; split <;> rfl

theorem State.allZeroRequest_node (s : State) (n : Fin 26) : s.allZeroRequest.node n =
    ((s.handValues (fun _ => (0, 0))).flc.mapPoints (fun _ n =>
        if n.state = .absent then n else { n with sentValue := 0, sentPower := 0 })).nodes[n] := by
  unfold State.allZeroRequest
  simp only [State.withFlc_node]

theorem Flc.mapPoints_node (x : Flc) (f : Point → Node → Node) (n : Fin 26) :
    (x.mapPoints f).nodes[n] =
      if h : n.val < 24 then f ⟨n.val, h⟩ x.nodes[n] else x.nodes[n] := by
  simp [Flc.mapPoints]

/-- All that an ALL-ZERO broadcast request does (R94; log entry 18). -/
theorem State.allZeroRequest_into (s : State) : s.ZeroedInto s.allZeroRequest := by
  have pp : ∀ p : Point, (s.handValues (fun _ => (0, 0))).alu.points[p] = s.alu.points[p].hand (s.online p) 0 0 :=
    fun p => State.handValues_points _ _ p
  have ha := State.allZeroRequest_alu s
  rw [Alu.restage_eq] at ha
  generalize (s.handValues (fun _ => (0, 0))).alu.points = P at ha pp
  have hP : s.allZeroRequest.alu.points = P := by rw [ha]
  have hE : s.allZeroRequest.alu.set.entries = s.zeroedEntries := by rw [ha]
  refine ⟨rfl, ?_, ?_, ?_, ?_, ?_, ?_⟩
  · rw [ha]
  · rw [hP, ha]
    simp only [Alu.anyPending_iff]
  · intro p
    rw [hP, pp]
    unfold SendValue.hand
    by_cases z : s.alu.points[p].value = 0
    · rw [if_pos z.symm]; exact ⟨z, (if_pos z).symm, by simp only [z]; simp⟩
    · rw [if_neg (fun x => z x.symm)]; refine ⟨rfl, (if_neg z).symm, ?_⟩
      show (_ || (_ && _)) = (_ || (_ && _))
      rw [Bool.and_comm]
  · intro p
    rw [hE]; simp [State.zeroedEntries]
  · intro p
    have h : (pointNode p).val < 24 := p.isLt
    rw [State.allZeroRequest_node, Flc.mapPoints_node, dif_pos h]
    have q := State.handValues_point s (fun _ => (0, 0)) p
    change (s.handValues (fun _ => (0, 0))).flc.nodes[pointNode p] = _ at q
    by_cases z : s.alu.points[p].value = 0
    · rw [q.trans (if_pos z.symm)]
      by_cases c : (s.node (pointNode p)).state = .absent
      · rw [if_pos c]; dsimp only; rw [if_pos c, if_pos c]; split
        · simp
        · rename_i w; exact absurd z w
      · rw [if_neg c]; dsimp only; rw [if_neg c, if_neg c]; split
        · simp
        · rename_i w; exact absurd z w
    · rw [q.trans (if_neg (fun x => z x.symm))]
      by_cases c : (s.node (pointNode p)).state = .absent
      · rw [if_pos c]; dsimp only; rw [if_pos c, if_pos c]; split
        · rename_i w; exact absurd w z
        · rfl
      · rw [if_neg c]; dsimp only; rw [if_neg c, if_neg c]; split
        · rename_i w; exact absurd w z
        · rfl
  · intro n h
    rw [State.allZeroRequest_node, Flc.mapPoints_node, dif_neg (by omega)]
    exact State.handValues_other s _ n h

/-- The staging test changes nothing of the link but sequences. -/
theorem State.stagingTest_flc (s : State) : s.stagingTest.flc = { s.flc with nodes := s.stagingTest.flc.nodes } ∧
    ∀ n, { s.stagingTest.node n with sequence := 0 } = { s.node n with sequence := 0 } := by
  by_cases a : s.alu.staging = .released
  · rw [State.stagingTest_released a]; exact ⟨rfl, fun _ => rfl⟩
  · by_cases b : s.alu.anyPending = true
    · rw [State.stagingTest_reducing a b]; exact ⟨rfl, fun _ => rfl⟩
    · by_cases c : s.dwellPassed = true
      · rw [State.stagingTest_release a b c, State.releaseRaises_eq]
        exact ⟨by rw [State.withAlu_flc]; exact State.handValues_flc _ _,
          fun n => by rw [State.withAlu_node]; exact State.handValues_node _ _ n⟩
      · rw [State.stagingTest_dwelling a b c]; exact ⟨rfl, fun _ => rfl⟩

theorem State.leaveOnline_eq (p : Point) (s : State) : s.leaveOnline p = (s.dropPoint p).stagingTest := rfl

theorem State.dropPoint_node (p : Point) (s : State) (n : Fin 26) :
    (s.dropPoint p).node n = (s.handValue p 0 0).node n := by
  unfold State.dropPoint; exact State.withAlu_node _ _ _

theorem State.dropPoint_flc (p : Point) (s : State) : (s.dropPoint p).flc = (s.handValue p 0 0).flc := by
  unfold State.dropPoint; exact State.withAlu_flc _ _

theorem State.handValue_flc (p : Point) (s : State) :
    (s.handValue p 0 0).flc = { s.flc with nodes := (s.handValue p 0 0).flc.nodes } := by
  unfold State.handValue; exact State.handValues_flc _ _

/-- The staging test leaves a point whose node has left ONLINE as it stands (R95). -/
theorem State.stagingTest_point {v : State} {p : Point} (h : v.alu.set.entries[p].leftOnline = true) :
    v.stagingTest.alu.points[p] = v.alu.points[p] ∧ v.stagingTest.node (pointNode p) = v.node (pointNode p) ∧
    v.stagingTest.alu.set = v.alu.set := by
  by_cases a : v.alu.staging = .released
  · rw [State.stagingTest_released a]; exact ⟨rfl, rfl, rfl⟩
  · by_cases b : v.alu.anyPending = true
    · rw [State.stagingTest_reducing a b]; exact ⟨rfl, rfl, rfl⟩
    · by_cases c : v.dwellPassed = true
      · rw [State.stagingTest_release a b c]
        obtain ⟨⟨k, _, _, x⟩, _, _, y⟩ := State.releaseRaises_into v
        have z : v.releaseRaises.alu.set = v.alu.set := by rw [k]
        have q := x p
        have w : ¬(v.alu.set.entries[p].mark = .raised ∧ v.alu.set.entries[p].leftOnline = false ∧
            v.alu.set.entries[p].target ≠ v.alu.points[p].value) := by
          rw [h]; simp
        have q' := q.trans (if_neg w)
        have y' := y p
        rw [q'] at y'
        exact ⟨q', y'.trans (if_pos rfl), z⟩
      · rw [State.stagingTest_dwelling a b c]; exact ⟨rfl, rfl, rfl⟩

theorem State.handValue_point (s : State) (p : Point) (q : Point) : (s.handValue p 0 0).node (pointNode q) =
    if q = p ∧ s.alu.points[p].value ≠ 0
    then { s.node (pointNode q) with sequence := (s.node (pointNode q)).sequence + 1 }
    else s.node (pointNode q) := by
  rw [State.handValue, State.handValues_point]
  by_cases h : q = p
  · subst h
    dsimp only
    by_cases z : s.alu.points[q].value = 0
    · rw [if_pos (by rw [if_pos rfl]; exact z.symm), if_neg (fun x => x.2 z)]
    · rw [if_neg (by rw [if_pos rfl]; exact fun x => z x.symm), if_pos ⟨rfl, z⟩]
  · dsimp only; rw [if_pos (by rw [if_neg h]), if_neg (fun x => h x.1)]

theorem State.dropPoint_alu (p : Point) (s : State) : (s.dropPoint p).alu = s.alu.without p := by
  have h : (s.handValue p 0 0).alu.points.set p { (s.handValue p 0 0).alu.points[p] with pendingReduction := false } =
      s.alu.points.set p
        { value := 0, power := if s.alu.points[p].value = 0 then s.alu.points[p].power else 0, pendingReduction := false } := by
    ext1 i hi
    by_cases e : (p : Nat) = i
    · subst e
      simp only [Vector.getElem_set_self]
      have q := State.handValues_points s (fun q => if q = p then (0, 0) else (s.alu.points[q].value, s.alu.points[q].power)) p
      change (s.handValue p 0 0).alu.points[p] = _ at q
      rw [q, if_pos rfl]
      simp only [SendValue.hand]
      by_cases z : s.alu.points[p].value = 0
      · rw [if_pos z.symm, if_pos z]; exact congrArg (fun v => SendValue.mk v _ _) z
      · rw [if_neg (fun x => z x.symm), if_neg z]
    · rw [Vector.getElem_set_ne _ _ e, Vector.getElem_set_ne _ _ e]
      have q := State.handValues_points s (fun q => if q = p then (0, 0) else (s.alu.points[q].value, s.alu.points[q].power)) ⟨i, hi⟩
      change (s.handValue p 0 0).alu.points[i] = _ at q
      have n : (⟨i, hi⟩ : Point) ≠ p := fun x => e (congrArg Fin.val x.symm)
      rw [q, if_neg n]
      exact if_pos rfl
  have k : (s.handValue p 0 0).alu = { s.alu with points := (s.handValue p 0 0).alu.points } := State.handValues_alu _ _
  unfold State.dropPoint Alu.without
  simp only [State.withAlu_alu]
  rw [h, k]

/-- All that a point's loss of ONLINE does to the point and to the link (R95). -/
theorem State.leaveOnline_all (p : Point) (s : State) :
    (s.leaveOnline p).flc = { s.flc with nodes := (s.leaveOnline p).flc.nodes } ∧
    (∀ n, { (s.leaveOnline p).node n with sequence := 0 } = { s.node n with sequence := 0 }) ∧
    (s.leaveOnline p).alu.points[p].value = 0 ∧ (s.leaveOnline p).alu.points[p].pendingReduction = false ∧
    (s.leaveOnline p).alu.set.entries[p].leftOnline = true ∧
    ((s.leaveOnline p).node (pointNode p)).sequence =
      (s.node (pointNode p)).sequence + (if s.alu.points[p].value = 0 then 0 else 1) := by
  have h : (s.dropPoint p).alu.set.entries[p].leftOnline = true := by simp [State.dropPoint]
  obtain ⟨a, b, c⟩ := State.stagingTest_point h
  obtain ⟨d, e⟩ := State.stagingTest_flc (s.dropPoint p)
  have m1 : (s.dropPoint p).alu.points[p] =
      { (s.handValue p 0 0).alu.points[p] with pendingReduction := false } := by simp [State.dropPoint]
  rw [State.leaveOnline_eq]
  refine ⟨?_, ?_, ?_, ?_, ?_, ?_⟩
  · rw [d, State.dropPoint_flc, State.handValue_flc]
  · intro n
    rw [e n, State.dropPoint_node, State.handValue]
    exact State.handValues_node _ _ n
  · rw [a, m1]
    dsimp only
    rw [State.handValue, State.handValues_points]
    simp only [if_true, SendValue.hand]
    split
    · rename_i w; exact w.symm
    · rfl
  · rw [a, m1]
  · rw [c]; exact h
  · rw [b, State.dropPoint_node, State.handValue_point]
    by_cases z : s.alu.points[p].value = 0
    · rw [if_neg (fun x => x.2 z), if_pos z]; simp
    · rw [if_pos ⟨rfl, z⟩, if_neg z]

theorem Alu.without_pending (a : Alu) (p : Point) : (a.without p).anyPending = true ↔
    ∃ q : Point, q ≠ p ∧ a.points[q].pendingReduction = true := by
  rw [Alu.anyPending_iff]
  refine exists_congr fun q => ?_
  by_cases e : q = p
  · subst e; simp [Alu.without]
  · have n : (p : Nat) ≠ q := fun x => e (Fin.ext x.symm)
    simp [Alu.without, e, Vector.getElem_set_ne _ _ n]

theorem State.dropPoint_online (p : Point) (s : State) : (s.dropPoint p).online = s.online := by
  funext q
  have e : ((s.dropPoint p).node (pointNode q)).state = (s.node (pointNode q)).state := by
    have same : ∀ a b : Node, { a with sequence := 0 } = { b with sequence := 0 } → a.state = b.state :=
      fun _ _ h => by simpa using congrArg Node.state h
    rw [State.dropPoint_node, State.handValue]
    exact same _ _ (State.handValues_node s _ (pointNode q))
  unfold State.online
  rw [e]

theorem State.dropPoint_now (p : Point) (s : State) : (s.dropPoint p).now = s.now := by
  simp only [State.dropPoint, State.handValue, State.handValues, State.now, State.withAlu_ssu, State.withFlc_ssu]

theorem State.dwellPassed_iff (s : State) : s.dwellPassed = true ↔
    s.alu.dwellOver = true ∨ ∀ ack ∈ s.alu.lastAck, ack + s.alu.dwellLength ≤ s.now := by
  unfold State.dwellPassed
  rcases s.alu.lastAck with _ | ack <;> simp

/-- The sequences and the allocator's values move together in the staging test (R108). -/
theorem State.stagingTest_sequences (v : State) (q : Point) : v.stagingTest.node (pointNode q) =
    if v.stagingTest.alu.points[q].value = v.alu.points[q].value then v.node (pointNode q)
    else { v.node (pointNode q) with sequence := (v.node (pointNode q)).sequence + 1 } := by
  by_cases a : v.alu.staging = .released
  · rw [State.stagingTest_released a, if_pos rfl]
  · by_cases b : v.alu.anyPending = true
    · rw [State.stagingTest_reducing a b]; exact (if_pos rfl).symm
    · by_cases c : v.dwellPassed = true
      · rw [State.stagingTest_release a b c]; exact v.releaseRaises_into.sequences q
      · rw [State.stagingTest_dwelling a b c]; exact (if_pos rfl).symm

theorem State.stagingTest_others (v : State) (n : Fin 26) (h : 24 ≤ n.val) : v.stagingTest.node n = v.node n := by
  by_cases a : v.alu.staging = .released
  · rw [State.stagingTest_released a]
  · by_cases b : v.alu.anyPending = true
    · rw [State.stagingTest_reducing a b]; rfl
    · by_cases c : v.dwellPassed = true
      · rw [State.stagingTest_release a b c]; exact v.releaseRaises_into.others n h
      · rw [State.stagingTest_dwelling a b c]; rfl

/-- All that a point's loss of ONLINE does to the allocator and to the sequences (R89, R90, R95; log entry 17). -/
theorem State.leaveOnline_into (p : Point) (s : State) : s.LeftOnline p (s.leaveOnline p) := by
  have hv := State.dropPoint_alu p s
  have hs : (s.dropPoint p).alu.staging = s.alu.staging := by rw [hv]; rfl
  have hp : (s.dropPoint p).alu.anyPending = true ↔ ∃ q : Point, q ≠ p ∧ s.alu.points[q].pendingReduction = true := by
    rw [hv]; exact Alu.without_pending _ _
  have quiet : (∀ q : Point, q ≠ p → s.alu.points[q].pendingReduction = false) → ¬(s.dropPoint p).alu.anyPending = true :=
    fun h x => by
      obtain ⟨q, e, d⟩ := hp.mp x
      rw [h q e] at d; cases d
  have hd : (s.dropPoint p).dwellPassed = true ↔
      s.alu.dwellOver = true ∨ ∀ ack ∈ s.alu.lastAck, ack + s.alu.dwellLength ≤ s.now := by
    rw [State.dwellPassed_iff, State.dropPoint_now, hv, Alu.without]
  rw [State.leaveOnline_eq]
  refine ⟨fun a => ?_, fun a b => ?_, fun a b c ack d e => ?_, fun a b c => ?_, fun q => ?_, fun n h => ?_⟩
  · rw [State.stagingTest_released (hs.trans a), hv]
  · rw [State.stagingTest_reducing (by rw [hs]; exact a) (hp.mpr b), State.withAlu_alu, hv]
  · rw [State.stagingTest_dwelling (by rw [hs]; exact a) (quiet b), State.withAlu_alu, hv]
    rw [hd, c, d]
    intro x
    rcases x with x | x
    · cases x
    · have := x ack rfl; omega
  · rw [State.stagingTest_release (by rw [hs]; exact a) (quiet b) (hd.mpr c), ← hv, ← State.dropPoint_online p s]
    exact State.releaseRaises_alu _
  · rw [State.stagingTest_sequences, State.dropPoint_node, State.handValue_point]
    have m : (s.dropPoint p).alu.points[q].value = if q = p then 0 else s.alu.points[q].value := by
      rw [hv]
      by_cases e : q = p
      · subst e; simp [Alu.without]
      · have n : (p : Nat) ≠ q := fun x => e (Fin.ext x.symm)
        simp [Alu.without, e, Vector.getElem_set_ne _ _ n]
    rw [m]
    by_cases e : q = p
    · subst e
      have z : (s.dropPoint q).stagingTest.alu.points[q].value = 0 := by
        have h : (s.dropPoint q).alu.set.entries[q].leftOnline = true := by rw [hv]; simp [Alu.without]
        rw [(State.stagingTest_point h).1, m, if_pos rfl]
      rw [z, if_pos rfl, if_pos rfl]
      by_cases w : s.alu.points[q].value = 0
      · rw [if_neg (fun x => x.2 w), if_pos w.symm]; simp
      · rw [if_pos ⟨rfl, w⟩, if_neg (fun x => w x.symm)]
    · simp only [e, false_and, if_false]
      split
      · simp
      · rfl
  · rw [State.stagingTest_others _ n h, State.dropPoint_node]
    exact State.handValues_other s _ n h

/-- A release reads which nodes are ONLINE only for points that have not left ONLINE since the formation. -/
theorem Alu.Released.congr {a b : Alu} {f g : Point → Bool} (p : Point) (hl : a.set.entries[p].leftOnline = true)
    (h : ∀ q, q ≠ p → f q = g q) (r : a.Released f b) : a.Released g b := by
  obtain ⟨x, y, z, w⟩ := r
  refine ⟨x, y, z, fun q => ?_⟩
  by_cases e : q = p
  · subst e; have := w q; simp only [hl] at this ⊢; simpa using this
  · have := w q; rw [h q e] at this; exact this

/-- A point's loss of ONLINE between two states is one between any two states that the link alone sets apart from them. -/
theorem State.LeftOnline.congr {s w t u : State} (p : Point) (l : w.LeftOnline p t) (ha : w.alu = s.alu) (hn : w.now = s.now)
    (ho : ∀ q, q ≠ p → w.online q = s.online q) (hq : ∀ n : Fin 26, (w.node n).sequence = (s.node n).sequence)
    (hs : ∀ n : Fin 26, 24 ≤ n.val → w.node n = s.node n) (ua : u.alu = t.alu)
    (uq : ∀ n, (u.node n).sequence = (t.node n).sequence) (us : ∀ n : Fin 26, 24 ≤ n.val → u.node n = t.node n) :
    s.LeftOnline p u := by
  obtain ⟨a, b, c, d, e, f⟩ := l
  rw [ha] at a b c d
  simp only [hn] at c d
  refine ⟨fun x => ua.trans (a x), fun x y => ua.trans (b x y), fun x y z k l m => ua.trans (c x y z k l m),
    fun x y z => ?_, fun q => ?_, fun n hh => ?_⟩
  · rw [ua]; exact (d x y z).congr p (by simp [Alu.without]) ho
  · rw [uq, e q, hq, ua, ha]
  · rw [us n hh, f n hh, hs n hh]

end Sys2Proof.Machine
end

