-- ==== Sys2Proof/Tests/Slice0.lean ====
section
/-! SUPPORT. Tests: the checks of WellFormed, frames and words written out from the spec, the spec's worked examples, and
for every statement a state and operands that meet its hypotheses. -/

namespace Sys2Proof.Tests

open Sys2Proof Sys2Proof.Machine

set_option Elab.async false

/-! ## Small states -/

/-- The outcome is a next state with the property. -/
def gives (o : Host.Outcome State Fault Refusal) (p : State → Bool) : Bool :=
  match o with
  | .next t => p t
  | .fault _ => false
  | .refused _ => false

/-- Limits set, NORMAL. -/
def normal : State :=
  { State.reset with
    lsu := { State.reset.lsu with
      lImp := 100000, lRed := 50000, lExp := 20000, margin := 1000, limitsValid := true, lEff := 100000
      checkLimit := 100000, esc := .normal }
    cmu := { State.reset.cmu with readingExists := true, reading := ⟨1, 60000, .good⟩, judgement := .clean } }

/-- The same in another escalation state. -/
def inState (e : Escalation) : State :=
  { normal with lsu := { normal.lsu with esc := e, trip := e == .tripped } }

/-- An AC3 charger that is ONLINE, plugged, with a request. -/
def charger : Node :=
  { Node.reset .ac3 with
    state := .online, maximum := 320, minimum := 60, report := some (.chargePoint 1000 0 22000 true 0)
    lastEcho := some 0 }

/-- Edition 12 of section 8.7, with bands 1 and 2 as it gives them. -/
def edition12 : Edition :=
  { number := 12, bands := #v[⟨50, 40, false⟩, ⟨45, 30, true⟩, ⟨28, 20, true⟩, ⟨60, 10, false⟩]
    schedule := [⟨360, 1⟩, ⟨1320, 2⟩], sessionFee := 50, idleFee := 10, idleGrace := 15, idleCap := 500 }

/-- A log that is READY with sector 0 ACTIVE and the fill position at slot 5. -/
def readyLog : Rlg :=
  { Rlg.reset [] [] with
    logState := .ready, sectors := (Vector.replicate 16 .free).set 0 .active, fill := some 5, nextNumber := 30 }

/-- Point 0 configured, an edition loaded, the calendar set, the log READY. -/
def site : State :=
  { normal with
    flc := { normal.flc with nodes := normal.flc.nodes.set 0 charger }
    tfu := { normal.tfu with current := some ⟨edition12, 1⟩, calendar := 86400, calendarValid := true }
    rlg := readyLog }

/-- A session record of number 7 in slot 3. -/
def record (state : SessionState) : Session :=
  { Session.free with
    state, number := 7, slot := 3, edition := 12, openTime := 80000, meterStart := 1000, lastMeter := 1000 }

/-- Point 0 with a session. -/
def withRecord (x : Session) : State :=
  { site with
    ssu := { site.ssu with sessions := site.ssu.sessions.set 0 x }
    alu := { site.alu with queue := if x.state = .waiting then [0] else [] } }

/-- Point 0 with a session in a state. -/
def session (state : SessionState) : State := withRecord (record state)

/-- The log with a program request at the head, slot 3 in a state. -/
def queued (kind : ProgramKind) (attempts : Nat) (x : SlotState) (s : State) : State :=
  { s with rlg := { s.rlg with queue := [⟨kind, 7, 3, attempts⟩], slotStates := [(3, x)], index := [(7, 3)] } }

/-- An erase of sector 9 in progress. -/
def erasing : State :=
  { site with rlg := { readyLog with
    sectors := readyLog.sectors.set 9 .erasing, erase := some ⟨9, 40, 25, 40, false⟩
    queue := [⟨.collect, 7, 3, 0⟩] } }

/-! ## Commands that cannot occur -/

theorem test_wellFormed_stretch : WellFormed (.periodClose ⟨0, 5⟩) = false := by decide
theorem test_wellFormed_stretch_of_validity : WellFormed (.frontEndValidity true false ⟨0, -5⟩) = false := by decide
theorem test_wellFormed_residue :
    WellFormed (.deviceReset [⟨.word 32784, ⟨0, .clean⟩⟩]) = false ∧
      WellFormed (.deviceReset [⟨.word 15, ⟨0, .clean⟩⟩]) = false ∧
      WellFormed (.deviceReset [⟨.markByte 2048 0, ⟨0, .clean⟩⟩]) = false := by decide
theorem test_wellFormed_words :
    WellFormed (.openingProgram ⟨[⟨3, ⟨5, .clean⟩⟩, ⟨3, ⟨6, .clean⟩⟩], []⟩) = false := by decide
theorem test_wellFormed_marks :
    WellFormed (.closingProgram ⟨[], [⟨.closed, ⟨0, .clean⟩⟩, ⟨.closed, ⟨1, .clean⟩⟩]⟩) = false := by decide
theorem test_wellFormed_relocation :
    WellFormed (.relocation ⟨[⟨0, ⟨5, .clean⟩⟩, ⟨0, ⟨6, .clean⟩⟩], []⟩) = false := by decide
theorem test_wellFormed_collect :
    WellFormed (.collectProgram ⟨[], [⟨.bad, ⟨0, .clean⟩⟩, ⟨.bad, ⟨1, .clean⟩⟩]⟩) = false := by decide
theorem test_wellFormed_orphan :
    WellFormed (.orphanClosing ⟨[⟨9, ⟨5, .clean⟩⟩, ⟨9, ⟨6, .clean⟩⟩], []⟩) = false := by decide
theorem test_wellFormed_reply_short : WellFormed (.replyReceived [0xC5, 0, 0x20, 1, 0, 0]) = false := by decide
theorem test_wellFormed_reply_long :
    WellFormed (.replyReceived (0xC5 :: 0 :: 0x20 :: 17 :: List.replicate 19 0)) = false := by decide
theorem test_wellFormed_scan :
    WellFormed (.startupScan [⟨.header 3, []⟩, ⟨.header 3, []⟩]) = false ∧
      WellFormed (.startupScan [⟨.gap 3, List.replicate 4 ⟨1, .clean⟩⟩]) = false := by decide
theorem test_wellFormed_eraseComplete :
    WellFormed (.eraseComplete ⟨List.replicate 4 ⟨0, .clean⟩⟩) = false := by decide
theorem test_wellFormed_unknown : WellFormed (.unknownCommand .s 0x21) = false := by decide

/-! ## Frames written out from R183 -/

theorem test_frame_status : decodeFrame .s [0x01] 0 = some (.status .s) := by decide
theorem test_frame_readReceipt :
    decodeFrame .c [0x05, 0xB5, 0x9C, 0x00, 0x00] 0 = some (.readReceipt .c 40117) := by decide
theorem test_frame_setNoticeMask :
    decodeFrame .c [0x09, 0xFE, 0xFF, 0x05] 0 = some (.setNoticeMask .c 0xFFFE 5) := by decide
theorem test_frame_setSite :
    decodeFrame .s [0x20, 0xE8, 0x03, 0xE6, 0x00, 0x02, 0x0A] 0 = some (.setSite .s 1000 230 2 10) := by decide
theorem test_frame_setLimits :
    decodeFrame .s
      [0x21, 0x80, 0x1A, 0x06, 0x00, 0x40, 0x0D, 0x03, 0x00, 0x50, 0xC3, 0x00, 0x00, 0x10, 0x27, 0x00, 0x00, 0xA0, 0x86,
        0x01, 0x00, 0x3C, 0x00] 0 =
      some (.setLimits .s ⟨400000, 200000, 50000, 10000, 100000, 60⟩) := by decide
theorem test_frame_setBattery :
    decodeFrame .s [0x23, 0xA0, 0x86, 0x01, 0x00, 0x40, 0x0D, 0x03, 0x00, 0xC8, 0x00, 0x84, 0x03] 0 =
      some (.setBattery .s 100000 200000 200 900) := by decide
theorem test_frame_configurePoint :
    decodeFrame .s [0x25, 0x0E, 0x02, 0x40, 0x01, 0, 0, 0x3C, 0, 0, 0, 0x50, 0, 0, 0] 0 =
      some (.configurePoint .s 14 2 320 60 80) := by decide
theorem test_frame_setPolicy :
    decodeFrame .s [0x28, 0x01, 0x2C, 0x01, 0x58, 0x02, 0xD0, 0x07, 0x1E, 0x03, 0x50, 0xC3, 0, 0] 0 =
      some (.setPolicy .s ⟨1, 300, 600, 2000, 30, 3, 50000⟩) := by decide
theorem test_frame_openSession :
    decodeFrame .c [0x41, 0x03, 0x04, 0x03, 0x02, 0x01, 0x01] 0 = some (.openSession .c 3 0x01020304 1) := by decide
theorem test_frame_closeOrphan :
    decodeFrame .c [0x48, 0xB5, 0x9C, 0x00, 0x00, 0xFC, 0x9B, 0x12, 0x00] 0 = some (.closeOrphan .c 40117 1219580) := by
  decide
theorem test_frame_loadTariff :
    (match decodeFrame .c
        ([0x40, 0x0C, 0x00, 1, 0, 2, 0, 0, 3, 0, 4, 0, 1, 5, 0, 6, 0, 1, 7, 0, 8, 0, 0, 2, 0x68, 0x01, 1, 0x28, 0x05, 2] ++
          List.replicate 18 0 ++ [50, 0, 10, 0, 15, 0xF4, 0x01]) 7 with
      | some (.loadTariff .c t) =>
        decide (t.edition = 12 ∧ t.bands[1] = ⟨3, 4, 1⟩ ∧ t.bands[3] = ⟨7, 8, 0⟩ ∧ t.count = 2 ∧
          t.places[0] = ⟨360, 1⟩ ∧ t.places[1] = ⟨1320, 2⟩ ∧ t.sessionFee = 50 ∧ t.idleFee = 10 ∧ t.idleGrace = 15 ∧
          t.idleCap = 500)
      | _ => false) = true := by decide
/-- PRESUMED: the check value of this CRC over the digits 1 to 9, from outside the spec. -/
theorem test_crc_check_value :
    crc16 [0x31, 0x32, 0x33, 0x34, 0x35, 0x36, 0x37, 0x38, 0x39] = 0x29B1 := by decide +kernel
/-- A SET frame is 13 bytes, a CFG frame 24, a CAP frame 15, a BATT frame 11, a ZERO frame 6 (R104). -/
theorem test_frame_lengths :
    (setFrame 2 41 250 80).length = 13 ∧ (cfgFrame 2 41 .ac3 320 60 80).length = 24 ∧ (capFrame 24 1 5 5).length = 15 ∧
      (battFrame 25 1 (-5)).length = 11 ∧ zeroFrame.length = 6 := by decide +kernel
theorem test_battFrame_order_signed : ((battFrame 25 1 (-2)).drop 4).take 5 = [1, 0xFE, 0xFF, 0xFF, 0xFF] := by decide

/-! ## Worked examples of the spec -/

/-- Section 8.7: energy 460, idle 180, total 690. -/
theorem test_receipt_amount :
    let x := { record .closing with
      accounts := ⟨#v[0, 3200000, 0, 0], #v[0, 6850500, 0, 0], #v[0, 0, 2000250, 0]⟩, idleSeconds := 1930 }
    site.tfu.price x = ⟨1000, 460, 180, 690⟩ := by decide +kernel
/-- Section 8.7: the cap holds the idle amount at 500. -/
theorem test_idle_cap : idleAmount edition12 3960 = 500 ∧ idleAmount edition12 3900 = 500 ∧ idleAmount edition12 900 = 0 := by
  decide
/-- Section 8.8: the orphan of point 3. -/
theorem test_orphan_amount :
    orphanEnergyAmount 1204880 1219580 45 = 662 ∧ totalAmount 50 662 0 = 712 ∧
      (orphanAccounts 1204880 1219580).grid[0] = 14700000 := by decide
/-- Section 7.7: the parts of a delta and the plausibility limit. -/
theorem test_delta_parts :
    share 7 60000 120000 = 3500 ∧ share 6 30000 100000 = 1800 ∧ share 6 45000 100000 = 2700 ∧
      share 7 40000 119500 = 2343 ∧ share 7 45000 119500 = 2635 := by decide
/-- R86: with ph 3 and V_nom 230, 22,000 W gives 318 dA and 22,080 W gives 320. -/
theorem test_target_current :
    charger.targetOf 230 22000 = 318 ∧ charger.targetOf 230 22080 = 320 ∧ setPointPower .ac3 230 318 = 21942 := by
  decide +kernel

/-! ## Witnesses: states that meet the hypotheses of each statement -/

theorem test_DeviceResetGivesResetValues :
    (∀ x ∈ [(⟨.word 32783, ⟨0, .clean⟩⟩ : Residue), ⟨.markByte 2047 7, ⟨0, .clean⟩⟩], inArray x.place) ∧
      (∃ x ∈ [(⟨.word 32784, ⟨0, .clean⟩⟩ : Residue)], ¬inArray x.place) ∧ ¬inArray (.word 31) ∧
      gives (exec (.deviceReset [⟨.word 32783, ⟨0, .clean⟩⟩]) normal) (fun t => t.lsu.esc == .unconfigured) = true := by
  refine ⟨?_, ?_, ?_, ?_⟩
  · simp [inArray]
  · simp [inArray]
  · simp [inArray]
  · decide +kernel

theorem test_DeviceResetKeepsTheArray :
    site.rlg.eraseReaches 0 = false ∧ site.rlg.programReaches 0 = false ∧ erasing.rlg.eraseReaches 18431 = false ∧
      erasing.rlg.eraseReaches 18432 = true := by decide +kernel

/-- The average truncates toward zero and saturates above 8,000,000 W (R3). -/
theorem test_PeriodCloseFormsTheReading :
    gives (exec (.periodClose ⟨1000, -1500⟩) normal) (fun t => t.cmu.reading == ⟨1, -1, .good⟩) = true ∧
      gives (exec (.periodClose ⟨1000, 8000001000⟩) normal) (fun t => t.cmu.reading == ⟨1, 8000000, .saturated⟩) = true ∧
      gives (exec (.periodClose ⟨0, 0⟩) normal) (fun t => t.cmu.judgement == .missing) = true ∧
      gives (exec (.frontEndValidity true false ⟨10, 500⟩) normal) (fun t => t.cmu.validTime == 10) = true := by
  decide +kernel

theorem test_JudgementsMoveTheEscalationMachine :
    gives (exec (.periodClose ⟨1000, 100001000⟩) normal) (fun t => t.lsu.esc == .curtail) = true ∧
      gives (exec (.periodClose ⟨1000, 100001000⟩) (inState .curtail)) (fun t => t.lsu.esc == .shed) = true ∧
      gives (exec (.periodClose ⟨1000, 100001000⟩)
        { inState .shed with lsu := { (inState .shed).lsu with graceCount := 3 } })
        (fun t => t.lsu.esc == .tripped && t.lsu.trip) = true ∧
      gives (exec (.periodClose ⟨1000, 100001000⟩)
          { inState .curtail with
            flc := { site.flc with nodes := site.flc.nodes.set 0 { charger with sentValue := 318, sentPower := 21942 } }
            alu := { normal.alu with staging := .dwelling, points := normal.alu.points.set 0 ⟨318, 21942, false⟩ } })
        (fun t => t.alu.points[0] == ⟨0, 0, true⟩ && t.alu.staging == .reducing && (t.node 0).sequence == 1 &&
          (t.node 0).sentValue == 0 && t.alu.set.entries[0].mark == .reduction) = true ∧
      gives (exec (.periodClose ⟨1000, 100000000⟩) normal) (fun t => t.lsu.esc == .normal) = true := by
  decide +kernel

/-- A session whose final-meter wait has the count. -/
def waits (k : Nat) : State :=
  withRecord { record .closing with finalWait := some k, ending := some ⟨.customer, 80100⟩ }

theorem test_FinalMeterWaitCountsCloses :
    ((waits 3).session 0).finalWait = some 3 ∧ ((waits 4).session 0).finalWait = some 4 ∧
      ((waits 4).session 0).waitRuns = true ∧ ((session .done).session 0).waitRuns = false ∧
      gives (exec (.periodClose ⟨0, 0⟩) (waits 4)) (fun t => (t.session 0).priced.isSome) = true := by decide +kernel

theorem test_LimitRequestLineDebouncesAndLowersTheLimit :
    (if State.reset.lsu.limreqLow then Line.asserted else .released) = State.reset.lsu.line ∧
      gives (exec .limitLineEdge { normal with lsu := { normal.lsu with limreqLow := true } })
        (fun t => t.lsu.lEff == 50000 && t.lsu.checkLimit == 100000) = true ∧
      gives (exec (.limreqNChange true) { normal with lsu := { normal.lsu with debounce := 7 } })
        (fun t => t.lsu.debounce == 0) = true := by decide +kernel

/-- A lease with a count. -/
def leased (lease : Lease) (count : Nat) : State :=
  { normal with lsu := { normal.lsu with lease, leaseCount := count, tLive := 5, lFb := 30000 } }

theorem test_SecondTickCountsTheLeaseDown :
    (leased .live 1).lsu.leaseCount ≤ 1 ∧ 1 < (leased .live 2).lsu.leaseCount ∧ normal.lsu.lease ≠ .live ∧
      gives (exec .secondTick (leased .live 1)) (fun t => t.lsu.lEff == 30000 && t.requests == [.recompute]) = true ∧
      gives (exec .leaseLapse (leased .live 4)) (fun t => t.lsu.lease == .lapsed) = true ∧
      gives (exec .secondTick (session .done)) (fun t => (t.session 0).idleSeconds == 1) = true := by decide +kernel

theorem test_RenewLimitReloadsTheLease :
    State.reset.lsu.limitsValid = false ∧ (leased .live 1).lsu.limitsValid = true ∧ (leased .lapsed 0).lsu.lease = .lapsed ∧
      normal.lsu.lease = .off ∧
      (leased .lapsed 0).lsu.limitFor .released .live ≠ 30000 ∧
      gives (exec (.renewLimit .s) (leased .lapsed 0)) (fun t => t.lsu.lease == .live && t.lsu.leaseCount == 5) = true := by
  decide +kernel

theorem test_SetLimitsReplacesTheLimitSet :
    (inState .tripped).lsu.esc = .tripped ∧
      gives (exec (.setLimits .s ⟨0, 0, 0, 0, 0, 0⟩) (inState .tripped)) (fun t => t.lsu.esc == .tripped) = true ∧
      gives (exec (.setLimits .s ⟨4000001, 4000001, 0, 200001, 0, 3601⟩) State.reset)
        (fun t => t.lsu.lImp == 4000000 && t.lsu.lRed == 4000000 && t.lsu.margin == 200000 && t.lsu.tLive == 3600 &&
          t.lsu.esc == .normal && t.replies.s == some ⟨1, 1, []⟩) = true := by decide +kernel

/-- TRIPPED with a latch of port S. -/
def latched : State := { inState .tripped with lsu := { (inState .tripped).lsu with latchS := true } }

theorem test_ReleaseTripNeedsBothPortsAndACleanReading :
    normal.lsu.esc ≠ .tripped ∧ (inState .tripped).lsu.latchS = false ∧ latched.cmu.judgement = .clean ∧
      gives (exec (.releaseTrip .s) (inState .tripped)) (fun t => t.lsu.latchS && t.lsu.trip) = true ∧
      gives (exec (.releaseTrip .c) latched) (fun t => t.lsu.esc == .curtail && !t.lsu.trip) = true := by decide +kernel

/-- A battery that is ONLINE at 550, with an order in the record. -/
def battery (qo : Int) : State :=
  { normal with
    bau := { normal.bau with
      record := { normal.bau.record with qo := qo }, pBdMax := 100000, pBcMax := 90000, socHi := 900, socLo := 200 },
    flc := { normal.flc with nodes := (normal.flc.nodes.set 25
      { Node.reset .battery with state := .online, report := some (.battery 0 550 0) }) } }

theorem test_BalanceInputsComeFromTheTables :
    ((battery 45000).node 25).report = some (.battery 0 550 0) ∧
      (battery 45000).batteryOrder = 45000 ∧ (battery 200000).batteryOrder = 100000 ∧
      (battery (-95000)).batteryOrder = -90000 ∧ (battery 0).availableCharge = 90000 ∧
      edition12.schedule ≠ [] ∧ (edition12.schedule.map (·.minute)).Pairwise (· < ·) ∧
      bandAt edition12.schedule 359 = 2 ∧ bandAt edition12.schedule 360 = 1 ∧
      ({ Node.reset .dc with maximum := 22150, minimum := 1450 } : Node).rating 230 = 22100 ∧
      ({ Node.reset .dc with maximum := 22150, minimum := 1450 } : Node).minPower 230 = 1500 := by decide +kernel

/-- A reading waits for the balance unit. -/
def reads (q : Quality) (s : State) : State :=
  { s with requests := [.newReading ⟨2, 60000, q⟩], cmu := { s.cmu with reading := ⟨2, 60000, q⟩ } }

theorem test_MeasuredReadingsGiveFullRecords :
    (reads .good normal).readingToTake = some ⟨2, 60000, .good⟩ ∧ normal.cmu.readingExists = true ∧
      gives (exec .newReading (reads .saturated normal)) (fun t => t.bau.record.a == 39000) = true ∧
      gives (exec .newReading (reads .good (inState .tripped))) (fun t => t.bau.record.b == 0) = true ∧
      gives (exec .recomputeRequest normal) (fun t => t.bau.record.recomputed) = true := by decide +kernel

theorem test_MissingReadingsCarryTheLastRecord :
    (reads .missing normal).readingToTake = some ⟨2, 60000, .missing⟩ ∧ State.reset.readingToTake = none ∧
      (reads .missing normal).cmu.readingExists = true ∧ State.reset.cmu.readingExists = false ∧
      gives (exec .newReading (reads .missing { normal with bau := { normal.bau with missingCount := 255 } }))
        (fun t => t.bau.missingCount == 255) = true := by decide +kernel

/-- A budget of 100,000 W waits for the allocator. -/
def budgeted (s : State) : State := { s with requests := [.budget 100000 true] }

theorem test_AllocationFormsANewGrantSet :
    gives (exec .allocation (budgeted (session .waiting)))
      (fun t => t.alu.set.entries[0].target == 318 && t.alu.set.entries[0].mark == .raised && t.alu.points[0].value == 318 &&
        t.alu.staging == .released && t.alu.k == 100000) = true := by decide +kernel

theorem test_groups :
    (session .waiting).Groups [] [] [0] ∧ (session .charging).Groups [] [0] [] ∧ State.reset.Groups [] [] [] := by
  refine ⟨⟨?_, ?_, ?_, ?_, ?_⟩, ⟨?_, ?_, ?_, ?_, ?_⟩, ⟨?_, ?_, ?_, ?_, ?_⟩⟩ <;> decide +kernel

theorem test_AllocationMovesTheSessions :
    (session .waiting).admitted 4140 = [0] ∧ (session .waiting).admitted 4139 = [] ∧
      (session .charging).eligible 0 = true ∧
      gives (exec .allocation (budgeted (session .waiting))) (fun t => (t.session 0).state == .charging) = true ∧
      gives (exec .allocation { session .charging with requests := [.budget 4139 false] })
        (fun t => (t.session 0).state == .waiting) = true := by decide +kernel

theorem test_AllocationStaysWithinTheBudget : (0 : Point) ∈ (session .charging).admitted 4140 := by decide +kernel

theorem test_TheWaterLevelIsTheLargestThatFits :
    (session .charging).alu.mode = .shared ∧
      (((session .charging).admitted 22000).map (session .charging).shareCeiling).sum ≤ 22000 ∧
      21999 < (((session .charging).admitted 21999).map (session .charging).shareCeiling).sum ∧
      gives (exec .allocation { session .charging with
          requests := [.budget 21999 true], alu := { (session .charging).alu with mode := .priority } })
        (fun t => (t.session 0).grant == 21999) = true := by decide +kernel

theorem test_TargetsAreTheLargestSetPointsTheGrantCovers :
    0 < (session .charging).site.vNom ∧ (session .charging).online 0 = true ∧
      (session .charging).grantOf [0] 22000 0 = 22000 ∧ (session .charging).grantOf [] 22000 0 = 0 := by decide +kernel

/-- A set that waits for a reduction of point 0, whose report has its echo. -/
def reducing (staging : Staging) (dwell : Nat) : State :=
  { session .charging with
    alu := { (session .charging).alu with
      staging, tDwell := dwell, points := (session .charging).alu.points.set 0 ⟨0, 0, true⟩ } }

theorem test_AcknowledgementsAndTheDwellReleaseTheRaises :
    (reducing .reducing 0).alu.anyPending = true ∧ normal.alu.anyPending = false ∧
      gives (exec .dwellEnd { normal with alu := { normal.alu with staging := .dwelling } })
        (fun t => t.alu.staging == .released) = true ∧
      gives (exec (.reductionAcknowledgement 0) (reducing .reducing 0)) (fun t => t.alu.staging == .released) = true ∧
      gives (exec (.reductionAcknowledgement 0) (reducing .reducing 1)) (fun t => t.alu.staging == .dwelling) = true ∧
      gives (exec (.reductionAcknowledgement 0) (reducing .released 1)) (fun t => !t.alu.anyPending) = true ∧
      (reducing .released 1).allocatorReport 0 = some (0, .chargePoint 1000 0 22000 true 0) ∧
      normal.allocatorReport 0 = none := by
  decide +kernel

/-- A REPORT of another echo that was handed on first is the one the allocator takes (R112). -/
theorem test_first_handed_report_is_taken :
    gives (exec (.reductionAcknowledgement 0)
        { reducing .released 1 with requests := [.reportToAllocator 0 9 (.chargePoint 0 0 0 true 0)] })
      (fun t => t.alu.anyPending && t.requests == []) = true := by decide +kernel

theorem test_ReductionRequestsStageOnePointToZero :
    gives (exec (.reductionRequest 0)
      { site with alu := { site.alu with points := site.alu.points.set 0 ⟨318, 21942, false⟩ } })
      (fun t => t.alu.points[0] == ⟨0, 0, true⟩) = true := by decide +kernel

/-- A round that considers the node next. -/
def rounds (n : Nat) (s : State) : State := { s with flc := { s.flc with running := true, nextNode := n } }

/-- Nodes 24 and 25 in a state. -/
def stations (x : NodeState) : State :=
  { normal with flc := { normal.flc with nodes :=
    (normal.flc.nodes.set 24 { Node.reset .canopy with state := x }).set 25 { Node.reset .battery with state := x } } }

theorem test_FramesCarryTheValuesInForce :
    (¬∃ n, normal.flc.Polls n) ∧ (rounds 0 site).flc.Polls 0 ∧ (rounds 24 (stations .online)).flc.Polls 24 ∧
      (rounds 25 (stations .joining)).flc.Polls 25 ∧
      gives (exec .frameSend (rounds 0 site)) (fun t => t.flc.line.take 44 == linkBits [0xC5, 0, 0x12, 7]) = true ∧
      gives (exec .frameSend (rounds 25 (stations .joining))) (fun t => t.flc.line.take 66 ==
        linkBits [0xC5, 25, 0x11, 18, 0, 5]) = true := by
  simp only [← Flc.toPoll_iff]
  decide +kernel

/-- R103: 0xC5 and 0x13 as characters, least significant bit first, the ones of data and parity even in number. -/
theorem test_characters :
    linkBits [0xC5, 0x13] =
      [.start, .data true, .data false, .data true, .data false, .data false, .data false, .data true, .data true,
        .parity false, .stop,
        .start, .data true, .data true, .data false, .data false, .data true, .data false, .data false, .data false,
        .parity true, .stop] := by decide +kernel

theorem test_TheZeroFrameClearsTheBroadcastMark :
    gives (exec .zeroFrame { normal with flc := { normal.flc with broadcastPending := true } })
      (fun t => !t.flc.broadcastPending && t.flc.line.length == 66) = true := by decide +kernel

/-- An exchange with a node. -/
def polls (n : Fin 26) (s : State) : State := { s with flc := { s.flc with exchange := some ⟨n, false, false⟩ } }

theorem test_ValidReportsUpdateTheEntry :
    (polls 0 site).flc.exchange = some ⟨pointNode 0, false, false⟩ ∧ (polls 24 normal).flc.exchange = some ⟨24, false, false⟩ ∧
      gives (exec (.replyReceived (linkFrame 0 0x20
          ([1, 5] ++ leBytes 4 70000 ++ leBytes 4 9000 ++ leBytes 4 22000 ++ [1, 0]))) (polls 0 site))
        (fun t => (t.node 0).report == some (.chargePoint 70000 9000 22000 true 0)) = true ∧
      gives (exec (.replyReceived (linkFrame 25 0x20 ([3, 5] ++ leBytes 4 0xFFFFFFFE ++ leBytes 2 550 ++ [0]))) (polls 25 normal))
        (fun t => (t.node 25).report == some (.battery (-2) 550 0)) = true := by decide +kernel

/-- Point 0 has missed twice. -/
def twice : State :=
  { site with flc := { site.flc with exchange := some ⟨0, false, false⟩, nodes := site.flc.nodes.set 0 { charger with misses := 2 } } }

theorem test_MissesAreCountedAndTheThirdLosesTheNode :
    normal.flc.exchange = none ∧ twice.flc.exchange = some ⟨0, false, false⟩ ∧
      WellFormed (.replyReceived [0xC5, 1, 0x20, 0, 0, 0]) = true ∧ replyFails ⟨0, false, false⟩ [0xC5, 1, 0x20, 0, 0, 0] ∧
      gives (exec .replyTimeout twice) (fun t => (t.node 0).state == .lost && (t.node 0).frameErrors == 0) = true ∧
      gives (exec .replySilence (polls 0 site)) (fun t => (t.node 0).misses == 1 && (t.node 0).frameErrors == 1) = true := by
  refine ⟨?_, ?_, ?_, .inr (.inr (.inl ?_)), ?_, ?_⟩ <;> decide +kernel

/-- R110 check 7: the variant, the length and the plug state; R102: the reply of a removed node changes no count. -/
theorem test_wrong_variant_length_and_plug_state :
    gives (exec (.replyReceived (linkFrame 0 0x20 ([2, 5] ++ List.replicate 14 0))) (polls 0 site))
        (fun t => (t.node 0).misses == 1) = true ∧
      gives (exec (.replyReceived (linkFrame 0 0x20 ([1, 5] ++ List.replicate 13 0))) (polls 0 site))
        (fun t => (t.node 0).misses == 1) = true ∧
      gives (exec (.replyReceived (linkFrame 0 0x20 ([1, 5] ++ List.replicate 12 0 ++ [2, 0]))) (polls 0 site))
        (fun t => (t.node 0).misses == 1) = true ∧
      gives (exec (.replyReceived [0xC5, 1, 0x20, 0, 0, 0])
          { site with flc := { site.flc with exchange := some ⟨0, true, false⟩ } })
        (fun t => (t.node 0).misses == 0 && t.flc.exchange == none) = true := by decide +kernel

theorem test_ConfigurePointEnrolsOrChangesACharger :
    kindOperand 2 = some .ac3 ∧ (site.node 0).kind ≠ .dc ∧ (normal.node 0).state = .absent ∧
      ((session .done).session 0).state ≠ .free ∧
      gives (exec (.configurePoint .s 0 2 801 59 900) normal)
        (fun t => (t.node 0).maximum == 800 && (t.node 0).minimum == 60 && (t.node 0).failsafe == 800) = true ∧
      gives (exec (.configurePoint .s 24 2 0 0 0) normal) (fun t => t.replies.s == some ⟨4, 10, []⟩) = true ∧
      gives (exec (.configurePoint .s 0 3 5000 0 0) (polls 0 site))
        (fun t => t.flc.exchange == some ⟨0, false, true⟩ && (t.node 0).state == .joining) = true := by
  decide +kernel

theorem test_RemovePointClearsTheEntry :
    (normal.node 0).state = .absent ∧ ((session .done).session 0).state ≠ .free ∧
      gives (exec (.removePoint .s 0) (polls 0 site))
        (fun t => (t.node 0).state == .absent && t.flc.exchange == some ⟨0, true, false⟩) = true ∧
      gives (exec (.removePoint .s 0) (rounds 0 site)) (fun t => !t.flc.running) = true ∧
      gives (exec (.removePoint .s 26) site) (fun t => t.replies.s == some ⟨4, 10, []⟩) = true := by decide +kernel

/-- A set in staging at the removal of point 0, another point with or without a mark, after an acknowledgement or none. -/
def leaving (x : Staging) (marked : Bool) (ack : Option Nat) : State :=
  { site with alu := { site.alu with
      staging := x, points := site.alu.points.set 1 ⟨0, 0, marked⟩, lastAck := ack, dwellLength := 5, dwellOver := false } }

/-- R90, R95: the four cases of the staging test when a node leaves ONLINE. -/
theorem test_staging_when_a_node_leaves :
    (site.node 0).state = .online ∧ (leaving .reducing false (some 0)).now < 5 ∧
      gives (exec (.removePoint .s 0) (leaving .released true none)) (fun t => t.alu.staging == .released) = true ∧
      gives (exec (.removePoint .s 0) (leaving .dwelling true none)) (fun t => t.alu.staging == .reducing) = true ∧
      gives (exec (.removePoint .s 0) (leaving .reducing false (some 0)))
        (fun t => t.alu.staging == .dwelling && t.alu.lastAck == some 0) = true ∧
      gives (exec (.removePoint .s 0) (leaving .reducing false none))
        (fun t => t.alu.staging == .released && t.alu.k == t.alu.set.budget) = true := by decide +kernel

theorem test_SetBatteryAndSetCanopyEnrolTheirNodes :
    gives (exec (.setBattery .s 5 5 1000 1001) normal) (fun t => t.replies.s == some ⟨4, 10, []⟩) = true ∧
      gives (exec (.setBattery .s 2000001 5 200 900) normal)
        (fun t => t.bau.pBdMax == 2000000 && (t.node 25).state == .joining) = true ∧
      gives (exec (.setCanopy .s 1000000 1000001) normal) (fun t => (t.node 24).failsafe == 1000000) = true := by
  decide +kernel

theorem test_SetSiteHoldsTheNewPeriodAndLinkSettings :
    rateOperand 3 = some .b230400 ∧
      gives (exec (.setSite .s 1049 199 3 51) normal)
        (fun t => t.site == ⟨1000, 200⟩ && t.flc.held == ⟨.b230400, 50⟩ && t.flc.inForce.tReply == 10) = true ∧
      gives (exec (.setSite .s 1000 230 4 10) normal) (fun t => t.replies.s == some ⟨4, 10, []⟩) = true := by
  decide +kernel

theorem test_APeriodCloseStartsAPollRound :
    (rounds 3 site).flc.running = true ∧ site.flc.running = false ∧ (site.node 0).state ≠ .absent ∧
      (∀ n, (normal.node n).state = .absent) ∧
      gives (exec (.periodClose ⟨0, 0⟩) (rounds 3 site)) (fun t => t.flc.overruns == 1 && t.flc.startPending) = true ∧
      gives (exec (.periodClose ⟨0, 0⟩) (stations .online)) (fun t => t.flc.nextNode == 24) = true := by decide +kernel

/-- Point 0 reports a register. -/
def reporting (register : Word32) (request : Nat) (plugged : Bool) (x : Session) : State :=
  { withRecord x with
    flc := { site.flc with nodes := (site.flc.nodes.set 0
      { charger with report := some (.chargePoint register 0 request plugged 0) }) } }

/-- R123: at 22,080 W, 1,000 ms without a report before allow 9 Wh. -/
theorem test_ReportsAreAccountedOnce :
    (record .charging).state = .charging ∧
      (reporting 1009 5 true (record .charging)).reportToTake 0 = some (0, .chargePoint 1009 0 5 true 0) ∧
      (reporting 1009 0 true (record .charging)).reportLimit 0 = 9 ∧
      gives (exec (.sessionReport 0) (reporting 1009 0 true (record .charging)))
        (fun t => (t.session 0).accounts.grid[2] == 9000) = true ∧
      gives (exec (.sessionReport 0) (reporting 1010 0 true (record .charging)))
        (fun t => (t.session 0).disputed == 10 && (t.session 0).meterSuspect) = true ∧
      gives (exec (.sessionReport 0) (reporting 999 0 true (record .charging)))
        (fun t => (t.session 0).lastMeter == 1000 && (t.session 0).meterSuspect) = true := by decide +kernel

theorem test_band_of_a_delta_is_known :
    (reporting 1009 0 true (record .charging)).bandKnown (record .charging) :=
  ⟨by decide +kernel, ⟨edition12, 1⟩, by decide +kernel, by decide +kernel, by decide +kernel, by decide +kernel⟩

theorem test_ReportsMoveTheSession :
    (normal.session 0).state = .free ∧ normal.reportToTake 0 = none ∧ ((waits 0).session 0).waitRuns = true ∧
      gives (exec (.sessionReport 0) (reporting 1000 5 false (record .stopped)))
        (fun t => (t.session 0).ending == some ⟨.unplugged, 86400⟩) = true ∧
      gives (exec (.sessionReport 0) (reporting 1000 5 false (record .opening)))
        (fun t => (t.session 0).pendingClose == some .unplugged) = true ∧
      gives (exec (.sessionReport 0) (reporting 1000 0 true { record .charging with zeroRequests := 1 }))
        (fun t => (t.session 0).state == .charging) = true ∧
      gives (exec (.sessionReport 0) (reporting 1000 0 true { record .charging with zeroRequests := 2 }))
        (fun t => (t.session 0).state == .done && t.requests == [.reduction 0]) = true ∧
      gives (exec (.sessionReport 0) (reporting 1000 5 true (record .done)))
        (fun t => (t.session 0).state == .waiting && t.alu.queue == [0]) = true := by decide +kernel

/-- Of two REPORTs handed on, the plug state of the first is acted on although the table shows the second (R112). -/
theorem test_reports_are_taken_in_order :
    gives (exec (.sessionReport 0) { reporting 1001 5 true (record .charging) with
        requests := [.reportToSession 0 0 (.chargePoint 1000 0 5 false 0), .reportToSession 0 0 (.chargePoint 1001 0 5 true 0)] })
      (fun t => (t.session 0).state == .closing && (t.session 0).lastMeter == 1000 &&
        t.requests == [.reportToSession 0 0 (.chargePoint 1001 0 5 true 0), .reduction 0]) = true := by decide +kernel

theorem test_PauseAndHoldApplyTheStopRule :
    gives (exec (.pauseSession .c 0 1) (session .waiting)) (fun t => (t.session 0).state == .stopped && t.alu.queue == []) =
        true ∧
      gives (exec (.holdPoint .s 0 0) (withRecord { record .stopped with hold := true }))
        (fun t => (t.session 0).state == .waiting) = true ∧
      gives (exec (.holdPoint .s 0 0) (withRecord { record .stopped with pause := true }))
        (fun t => (t.session 0).state == .stopped) = true ∧
      gives (exec (.pauseSession .c 24 1) site) (fun t => t.replies.c == some ⟨4, 10, []⟩) = true ∧
      gives (exec (.pauseSession .c 0 1) site) (fun t => t.replies.c == some ⟨4, 12, []⟩) = true := by decide +kernel

theorem test_SetClassWritesTheClassOfAnOpenSession :
    gives (exec (.setClass .c 0 1) (session .closing)) (fun t => (t.session 0).cls == .priority) = true ∧
      gives (exec (.setClass .c 0 2) (session .closing)) (fun t => t.replies.c == some ⟨4, 10, []⟩) = true ∧
      gives (exec (.setClass .c 0 1) site) (fun t => t.replies.c == some ⟨4, 12, []⟩) = true := by decide +kernel

theorem test_OpenSessionChecksInOrderAndFillsTheRecord :
    4 < site.rlg.erasedCount ∧ site.rlg.fill = some 5 ∧ site.tfu.current = some ⟨edition12, 1⟩ ∧
      gives (exec (.openSession .c 0 99 1) site)
        (fun t => (t.session 0).number == 30 && t.rlg.nextNumber == 31 && (t.session 0).slot == 5 &&
          t.replies.c == some ⟨2, 0, [30, 0, 0, 0]⟩) = true ∧
      gives (exec (.openSession .c 1 99 1) site) (fun t => t.replies.c == some ⟨4, 2, []⟩) = true ∧
      gives (exec (.openSession .c 0 99 0) State.reset) (fun t => t.replies.c == some ⟨3, 1, []⟩) = true := by
  decide +kernel

theorem test_CloseSessionStartsTheClose :
    gives (exec (.closeSession .c 0) (session .charging))
        (fun t => (t.session 0).finalWait == some 0 && t.requests == [.reduction 0] &&
          t.replies.c == some ⟨2, 0, [7, 0, 0, 0]⟩) = true ∧
      gives (exec (.closeSession .c 0) (session .closing)) (fun t => t.replies.c == some ⟨4, 12, []⟩) = true := by
  decide +kernel

/-- An edition to load, with its number, first minute and count. -/
def tariff (number minute count : Nat) : TariffOperand :=
  { edition := BitVec.ofNat 16 number, bands := Vector.replicate 4 ⟨40, 41, 1⟩, count := BitVec.ofNat 8 count
    places := (Vector.replicate 8 ⟨1439, 3⟩).set 0 ⟨BitVec.ofNat 16 minute, 1⟩, sessionFee := 5, idleFee := 5
    idleGrace := 240, idleCap := 0 }

theorem test_LoadTariffChecksInOrderAndPlacesTheEdition :
    gives (exec (.loadTariff .c (tariff 13 1438 2)) site)
        (fun t => t.tfu.previous == some ⟨edition12, 1⟩ && t.replies.c == some ⟨1, 1, []⟩) = true ∧
      gives (exec (.loadTariff .c (tariff 12 1438 2)) site) (fun t => t.replies.c == some ⟨4, 10, []⟩) = true ∧
      gives (exec (.loadTariff .c (tariff 13 1439 2)) site) (fun t => t.replies.c == some ⟨4, 11, []⟩) = true ∧
      gives (exec (.loadTariff .c (tariff 13 1438 2)) { site with tfu := { site.tfu with previous := some ⟨edition12, 1⟩ } })
        (fun t => t.replies.c == some ⟨4, 9, []⟩) = true := by decide +kernel

theorem test_TheEndOfTheWaitPricesTheSession :
    ((waits 0).session 0).waitRuns = true ∧ (waits 0).tfu.editionOf ((waits 0).session 0) = some edition12 := by
  decide +kernel

theorem test_SettingCommandsReplaceTheirSettings :
    erasing.rlg.erase.isSome = true ∧ State.reset.rlg.erase = none ∧ State.reset.rlg.logState = .starting ∧
      gives (exec (.setPolicy .s ⟨1, 0, 0, 10001, 4, 31, 4000001⟩) normal)
        (fun t => t.alu.tFair == 1 && t.alu.tDwell == 10000 && t.lsu.tClear == 5 && t.lsu.tGrace == 30 &&
          t.bau.bSafe == 4000000) = true ∧
      gives (exec (.setTime .s 5) State.reset) (fun t => t.tfu.calendarValid && t.tfu.calendar == 5) = true ∧
      gives (exec (.setRetention .s 1025) erasing) (fun t => t.rlg.heldRet == some 1024 && t.rlg.rRet == 0) = true := by
  decide +kernel

/-- A log whose sector 1 is FULL and erasable, with few slots left. -/
def crowded : State :=
  { site with rlg := { readyLog with
    sectors := ((Vector.replicate 16 .full).set 0 .active), fill := some 5
    slotStates := (List.range 128).map (fun i => (128 + i, .bad)) } }

theorem test_retention_starts_a_due_erase :
    crowded.rlg.erasedCount < 256 ∧ crowded.rlg.oldestFull = some 1 ∧
      gives (exec (.setRetention .s 0) crowded)
        (fun t => t.rlg.erase.map (fun e => (e.sector, e.progress, e.sinceResume)) == some (1, 0, 0)) = true := by
  decide +kernel

/-- R57 step 1, R170: the erase test of a reservation sees the window that ends with the new number. -/
theorem test_open_session_numbers_before_it_tests :
    let s := { crowded with rlg := { crowded.rlg with
      slotStates := (List.range 128).map (fun i => (128 + i, .collected)), index := [(29, 128)], rRet := 1 } }
    s.rlg.eraseDue = none ∧
      gives (exec (.openSession .c 0 99 1) s) (fun t => t.rlg.erase.map (·.sector) == some 1 && !t.rlg.spaceLow) = true := by
  decide +kernel

theorem test_ProgramsAndErasesShareTheArray :
    erasing.rlg.erasing = true ∧ site.rlg.erasing = false ∧ erasing.rlg.queue ≠ [] ∧
      heldAfter [⟨28, .clean⟩] 30 1 = 28 ∧ heldAfter [] 30 1 = 30 ∧
      gives (exec .programStart (queued .collect 0 .closed site)) (fun t => t.rlg.programming) = true ∧
      gives (exec .eraseSuspend erasing) (fun t => t.rlg.sectors[9] == .eraseSuspended) = true ∧
      gives (exec (.eraseComplete ⟨[⟨31, .damaged⟩, ⟨31, .damaged⟩]⟩) erasing)
        (fun t => t.rlg.sectors[9] == .free && t.rlg.readByte 262216 == 30) = true ∧
      gives (exec (.eraseComplete ⟨[⟨28, .clean⟩]⟩) erasing)
        (fun t => t.rlg.logState == .fault && t.rlg.readByte 262216 == 28) = true := by
  decide +kernel

/-- Sector 9's erase is suspended, one request waits. -/
def suspended : State :=
  { queued .collect 0 .closed site with rlg := { (queued .collect 0 .closed site).rlg with
    sectors := readyLog.sectors.set 9 .eraseSuspended, erase := some ⟨9, 40, 25, 900, false⟩ } }

/-- R171: the erase resumes with the empty queue, waits 20 ms for its next suspension, completes at its time, and is not
suspended for a request that joined with less than 20 ms remaining. -/
theorem test_erase_resumes_and_completes :
    gives (exec (.collectProgram ⟨[], []⟩) suspended)
        (fun t => t.rlg.sectors[9] == .erasing && t.rlg.erase == some ⟨9, 40, 0, 900, false⟩) = true ∧
      gives (exec .eraseSuspend { erasing with rlg := { erasing.rlg with erase := some ⟨9, 40, 19, 900, false⟩ } })
        (fun t => t.rlg.sectors[9] == .erasing) = true ∧
      gives (exec (.eraseComplete ⟨[]⟩) { erasing with rlg := { erasing.rlg with erase := some ⟨9, 40, 19, 41, false⟩ } })
        (fun t => t.rlg.sectors[9] == .erasing) = true ∧
      gives (exec (.collectReceipt .c 7) { erasing with rlg := { erasing.rlg with
          queue := [], erase := some ⟨9, 881, 25, 900, false⟩, index := [(7, 3)], slotStates := [(3, .closed)] } })
        (fun t => t.rlg.erase == some ⟨9, 881, 25, 900, true⟩) = true ∧
      gives (exec .eraseSuspend { erasing with rlg := { erasing.rlg with erase := some ⟨9, 881, 25, 900, true⟩ } })
        (fun t => t.rlg.sectors[9] == .erasing) = true := by decide +kernel

/-- An event of R170 is followed by its test. -/
theorem test_erase_test_follows_a_collect :
    gives (exec (.collectProgram ⟨[], []⟩) { queued .collect 0 .closed site with rlg := { (queued .collect 0 .closed site).rlg with
        sectors := (Vector.replicate 16 .full).set 0 .active } }) (fun t => t.rlg.spaceLow && t.noticesS.pending.getLsbD 3) =
      true := by decide +kernel

/-- The opening part of receipt 7. -/
def opening : OpeningPart := ⟨7, 0, .standard, 12, 99, 80000, 1000, 45, 50⟩

/-- A closing part of receipt 7. -/
def closing : ClosingPart :=
  { closeTime := 81000, meterEnd := 1009, reason := .customer, meterSuspect := false, nodeLostSeen := false
    tripSeen := false, disputed := 0, accounts := ⟨#v[0, 0, 0, 0], #v[0, 0, 0, 0], #v[0, 0, 9000, 0]⟩, idleSeconds := 0
    energy := 0, idle := 0, total := 50 }

/-- R153: a program turns bits from 1 to 0 only, and a read corrects the bit its check code names (R166). -/
theorem test_programs_and_reads_of_a_word :
    let r := (readyLog.storeWord 0 ⟨0xFD, .clean⟩).withCode 0 (.corrected (some 1))
    r.rawByte 0 = 0xFD ∧ r.readByte 0 = 0xFF ∧ (r.programWord 0 0x0F none).2 = false ∧
      (r.programWord 0 0x0D none).2 = true ∧ (readyLog.programWord 0 0x0D (some ⟨0x0C, .clean⟩)).2 = false := by
  decide +kernel

/-- R153: each byte of the mark word has its own check code. -/
theorem test_mark_bytes_have_their_own_codes :
    let r := (readyLog.programMark 3 .opened [⟨.opened, ⟨0, .damaged⟩⟩]).1
    r.code 63 = .damaged ∧ (r.programMark 3 .closed []).1.codeAt 505 = .clean ∧ r.codeAt 504 = .damaged := by
  decide +kernel

theorem test_OpeningProgramsOpenTheSlotOrTakeAnother :
    let s := queued (.opening 0 opening) 1 .reserved (session .opening)
    s.rlg.erasing = false ∧ s.rlg.canReserve 5 ∧ s.rlg.Verifies 3 0 4 (openingBytes opening) [.opened] ⟨[], []⟩ ∧
      ¬s.rlg.Verifies 3 0 4 (openingBytes opening) [.opened] ⟨[⟨3, ⟨0, .clean⟩⟩], []⟩ ∧
      gives (exec (.openingProgram ⟨[], []⟩) s)
        (fun t => t.rlg.slotState 3 == .opened && (t.session 0).state == .waiting && t.rlg.readByte 384 == 7) = true ∧
      gives (exec (.openingProgram ⟨[⟨3, ⟨0, .clean⟩⟩], [⟨.bad, ⟨0x0F, .damaged⟩⟩]⟩) s)
        (fun t => t.rlg.slotState 3 == .bad && (t.session 0).slot == 5 && t.rlg.fill == some 6 &&
          t.rlg.rawByte 507 == 0x0F && t.rlg.codeAt 507 == .damaged) = true := by
  refine ⟨?_, ⟨?_, ?_⟩, ⟨?_, ?_⟩, fun h => absurd (h.words 3 (by decide)) ?_, ?_, ?_⟩ <;> decide +kernel

theorem test_third_opening_failure :
    gives (exec (.openingProgram ⟨[], [⟨.opened, ⟨0xFF, .clean⟩⟩]⟩) (queued (.opening 0 opening) 2 .reserved (session .opening)))
      (fun t => t.rlg.logState == .fault && (t.session 0).state == .free) = true := by decide +kernel

theorem test_ClosingProgramsWriteInPlaceFirst :
    let s := queued (.closing 0 closing) 0 .opened (session .closing)
    s.rlg.erasing = false ∧
      gives (exec (.closingProgram ⟨[], []⟩) s)
        (fun t => t.rlg.slotState 3 == .closed && (t.session 0).state == .free && t.rlg.readByte 426 == 0) = true ∧
      gives (exec (.closingProgram ⟨[⟨14, ⟨0xFF, .clean⟩⟩], []⟩) s)
        (fun t => t.rlg.slotState 3 == .opened && t.rlg.queue.map (·.attempts) == [1]) = true := by decide +kernel

theorem test_RelocationsMoveTheRecordToAFreshSlot :
    let s := queued (.closing 0 closing) 1 .opened (session .closing)
    s.rlg.erasing = false ∧ s.rlg.code 48 ≠ .damaged ∧
      gives (exec (.relocation ⟨[], [⟨.superseded, ⟨0xF0, .clean⟩⟩]⟩) s)
        (fun t => t.rlg.slotState 5 == .closed && t.rlg.slotState 3 == .superseded && t.rlg.readByte 682 == 1 &&
          t.rlg.readByte 752 == 3 && t.rlg.readByte 508 == 0xF0) = true ∧
      gives (exec (.relocation ⟨[⟨0, ⟨0, .clean⟩⟩], []⟩) s)
        (fun t => t.rlg.slotState 5 == .bad && t.rlg.readByte 763 == 0) = true := by
  decide +kernel

theorem test_relocation_without_a_slot :
    let s := queued (.closing 0 closing) 1 .opened (session .closing)
    let full := { s with rlg := { s.rlg with sectors := Vector.replicate 16 .full, fill := none } }
    full.rlg.erasedCount = 0 ∧
      gives (exec (.relocation ⟨[], []⟩) full) (fun t => t.rlg.logState == .fault && t.rlg.queue == []) = true := by
  decide +kernel

/-- Receipt 7 is an orphan. -/
def orphaned (attempts : Nat) : State :=
  let s := queued (.orphanClosing 0 closing) attempts .opened site
  { s with rlg := { s.rlg with orphans := [7] } }

theorem test_OrphanClosingsEndTheOrphan :
    (orphaned 0).rlg.erasing = false ∧ (orphaned 0).rlg.closingErased 3 = true ∧
      gives (exec (.orphanClosing ⟨[], []⟩) (orphaned 0)) (fun t => t.rlg.slotState 3 == .closed && t.rlg.orphans == []) =
        true ∧
      gives (exec (.orphanClosing ⟨[], []⟩) (orphaned 1)) (fun t => t.rlg.slotState 5 == .closed && t.rlg.orphans == []) =
        true ∧
      gives (exec (.orphanClosing ⟨[⟨4, ⟨0, .clean⟩⟩], []⟩) (orphaned 2))
        (fun t => t.rlg.logState == .fault && t.rlg.orphans == [7]) = true := by decide +kernel

theorem test_CollectProgramsSetTheCollectedMark :
    gives (exec (.collectProgram ⟨[], []⟩) (queued .collect 0 .closed site))
        (fun t => t.rlg.slotState 3 == .collected && t.rlg.readByte 506 == 0) = true ∧
      gives (exec (.collectProgram ⟨[], [⟨.collected, ⟨0xFF, .clean⟩⟩]⟩) (queued .collect 1 .closed site))
        (fun t => t.rlg.slotState 3 == .closed && t.rlg.queue.map (·.attempts) == [2]) = true ∧
      gives (exec (.collectProgram ⟨[], [⟨.collected, ⟨0xFE, .clean⟩⟩]⟩) (queued .collect 2 .closed site))
        (fun t => t.rlg.slotState 3 == .collected && t.rlg.logState == .fault) = true := by decide +kernel

theorem test_TheScanRebuildsTheLog :
    State.reset.rlg.logState = .starting ∧ site.rlg.logState ≠ .starting ∧
      State.reset.rlg.slotUsed 2047 = false ∧ State.reset.rlg.headerValue 15 = none := by decide +kernel

/-- Sector 0 holds an origin, OPENED by its marks, and the CLOSED slot into which it was relocated. -/
def relocated : Rlg :=
  Rlg.reset [(0, 7), (1, 0), (2, 0), (3, 0), (120, 0), (128, 7), (129, 0), (130, 0), (131, 0), (170, 1), (240, 0), (241, 0),
    (242, 7), (243, 0), (244, 0), (245, 0), (248, 0), (249, 0), (262144, 5), (262145, 0), (262146, 0), (262147, 0)] []

/-- R174, R175: the run ends in sector 0 with slot 1, the origin is set aside, 7 is the highest number. -/
theorem test_the_scan_of_a_relocation :
    relocated.EndsRun 0 ∧ relocated.NewestIs 0 1 ∧ relocated.SetsAside 1 0 ∧ relocated.takesPart 7 ∧
      (∀ n, relocated.takesPart n → n ≤ 7) ∧
      relocated.originOf 1 = some 0 ∧ relocated.readState 1 = .closed := by
  refine ⟨.inl ?_, ⟨by decide, by decide +kernel, fun _ => by decide +kernel, fun _ slot h l => ?_⟩, ?_, ?_, fun n h => ?_, ?_⟩
  · simp only [← Rlg.sectorFree_iff]
    decide +kernel
  · have : ∀ i : Fin 128, 1 < i.val → relocated.slotUsed i.val = false := by decide +kernel
    exact Rlg.slotUsed_false.mp (this ⟨slot, by have : slot / 128 = 0 := h; omega⟩ l)
  · exact ⟨by decide, by decide +kernel, by decide +kernel, by decide +kernel, by decide +kernel,
      by unfold Rlg.openedByMarks; decide +kernel, 7, by decide +kernel, by decide +kernel⟩
  · exact Rlg.mem_numbers.mp (by decide +kernel)
  · have m := Rlg.mem_numbers.mpr h
    have a : ∀ n ∈ relocated.slotsRead.flatMap relocated.numberWords ++ allSectors.filterMap relocated.headerValue, n ≤ 7 := by
      decide +kernel
    exact a n m
  · decide +kernel

/-- No sector is FREE. Sectors 4 and 5 both end in ERASED slots: slot 127 of sector 4 was reserved and lost, sector 5 holds one
slot. Sector 5 was erased last. -/
def fullRing : Rlg :=
  Rlg.reset
    [(0, 7), (16384, 7), (32768, 7), (49152, 7), (65536, 9), (81920, 3), (98304, 7), (114688, 7), (131072, 7), (147456, 7),
      (163840, 7), (180224, 7), (196608, 7), (212992, 7), (229376, 7), (245760, 7),
      (262144, 40), (262152, 40), (262160, 50), (262168, 50), (262176, 60), (262184, 60), (262192, 20), (262200, 20),
      (262208, 20), (262216, 20), (262224, 20), (262232, 20), (262240, 20), (262248, 30), (262256, 30), (262264, 30)] []

/-- R174, log entry 41: the run ends in sector 5, slot 127 of sector 4 is a gap, and the fill position is slot 641. -/
theorem test_the_run_of_a_full_ring :
    fullRing.lastOfRun = 5 ∧ fullRing.scannedActive = some (5, 641) ∧ fullRing.gaps.contains 639 = true ∧
      allSectors.all (fun k => !fullRing.sectorFree k && !fullRing.interrupted k) = true ∧ fullRing.ErasedLast 5 := by
  refine ⟨?_, ?_, ?_, ?_, ⟨?_, ?_, .inr ⟨6, ?_, ?_⟩⟩⟩ <;> decide +kernel

/-- In STARTING the words read so far are counted: the header of sector 0 first, then its slots (R166, R178). -/
theorem test_counts_of_the_scan_so_far :
    let r := (Rlg.reset [] [(8, .damaged)]).storeWord 32768 ⟨5, .corrected none⟩
    (r.scanTo 1).secCount = 1 ∧ (r.scanTo 2).dedCount = 0 ∧ (r.scanTo 3).dedCount = 1 ∧
      ((r.scanTo 3).scanTo 9).dedCount = 1 := by decide +kernel

/-- R166: a number word that reads all 0xFF after correction reads erased. -/
theorem test_corrected_number_word_reads_erased :
    let r := (readyLog.storeWord 48 ⟨BitVec.allOnes 64 ^^^ 4, .corrected (some 2)⟩)
    r.wordErased 48 = true ∧ r.numberWord 3 0 0 = none := by decide +kernel

theorem test_PortRequestsAreCheckedInOrderAndQueued :
    let s := queued .collect 0 .closed site
    let free := { s with rlg := { s.rlg with queue := [] } }
    let o := { orphaned 0 with rlg := { (orphaned 0).rlg with queue := [] } }
    free.rlg.slotOf 7 = some 3 ∧ (7 : Nat) ∈ o.rlg.orphans ∧
      gives (exec (.collectReceipt .c 7) free) (fun t => t.rlg.queue.length == 1) = true ∧
      gives (exec (.collectReceipt .c 7) s) (fun t => t.replies.c == some ⟨4, 16, []⟩) = true ∧
      gives (exec (.collectReceipt .c 8) s) (fun t => t.replies.c == some ⟨4, 15, []⟩) = true ∧
      gives (exec (.closeOrphan .c 7 5000) o) (fun t => t.rlg.queue.map (·.slot) == [3]) = true ∧
      gives (exec (.closeOrphan .c 8 5000) o) (fun t => t.replies.c == some ⟨4, 15, []⟩) = true := by decide +kernel

/-- Eight port requests stand in the queue. -/
def full : State :=
  { site with rlg := { readyLog with
    queue := List.replicate 8 ⟨.collect, 9, 9, 0⟩, index := [(7, 3)], slotStates := [(3, .closed)] } }

theorem test_ninth_port_request_is_refused :
    gives (exec (.collectReceipt .c 7) full) (fun t => t.replies.c == some ⟨3, 13, []⟩) = true := by decide +kernel

theorem test_ReceiptReadsReturnTheSlotAndCountItsWords :
    let s := queued .collect 0 .closed site
    let free := { s with rlg := { s.rlg with queue := [], codes := [(504, .damaged)] } }
    free.rlg.slotOf 7 = some 3 ∧
      gives (exec (.readReceipt .s 7) free)
        (fun t => t.rlg.dedCount == 1 &&
          (t.replies.s.map (fun r => (r.result.length, r.result.take 4, r.result.getLast?))) ==
            some (133, [3, 0, 3, 0], some 2)) = true ∧
      gives (exec (.readNextReceipt .c) free) (fun t => (t.replies.c.map (·.status)) == some 1) = true ∧
      gives (exec (.readNextReceipt .c) s) (fun t => t.replies.c == some ⟨4, 15, []⟩) = true ∧
      gives (exec (.readNextOrphan .c) (orphaned 0)) (fun t => (t.replies.c.map (·.result.length)) == some 41) = true := by
  decide +kernel

theorem test_ReadsShowTheStateAndChangeOnlyTheReply :
    gives (exec (.readNode .c 26) site) (fun t => t.replies.c == some ⟨4, 10, []⟩) = true ∧
      gives (exec (.readNode .c 0) site) (fun t => (t.replies.c.map (fun r => (r.result.take 6, r.result[28]?))) == some ([2, 2, 64, 1, 0, 0], some 1)) = true ∧
      gives (exec (.readSession .s 24) site) (fun t => t.replies.s == some ⟨4, 10, []⟩) = true ∧
      gives (exec (.readSession .s 0) (session .done)) (fun t => (t.replies.s.map (·.result.take 4)) == some [5, 1, 0, 7]) =
        true ∧
      gives (exec (.readTime .s) site) (fun t => t.replies.s == some ⟨1, 0, [0x80, 0x51, 1, 0, 1, 0, 0]⟩) = true := by
  decide +kernel

theorem test_UnknownAndForeignCommandsChangeNothing :
    commandRow 0xFF = none ∧ commandRow 0x22 = some ⟨.siteOnly, 0, 0⟩ ∧ Issuers.siteOnly.allows .c = false ∧
      encodeFrame (.renewLimit .c) = some (.c, [0x22]) ∧ decodeFrame .c [0x22, 9] 0 = some (.renewLimit .c) ∧
      gives (exec (.unknownCommand .s 0xFF) normal) (fun t => t.replies.s == some ⟨6, 0, []⟩) = true := by decide +kernel

/-- Section 10.4's sequence on port C, from the take of NODE_LOST on. -/
theorem test_NoticeCommandsMoveKindsThroughService :
    let n := ((Notices.reset.mask 0xFFFF 5).raise 5 [3]).raise 10 [9]
    let s := { State.reset with noticesC := n }
    n.alert = true ∧ n.pending.getLsbD 10 = true ∧
      gives (exec (.takeNotice .c) s)
        (fun t => t.replies.c == some ⟨1, 0, [10, 0, 2, 0, 0]⟩ && !t.noticesC.alert &&
          ((t.noticesC.raise 8 [7]).raise 14 []).alert) = true ∧
      gives (exec (.endNotice .c) s) (fun t => t.replies.c == some ⟨4, 14, []⟩) = true ∧
      gives (exec (.endNotice .c) { s with noticesC := n.takeRank 10 })
        (fun t => t.replies.c == some ⟨1, 0, [10]⟩) = true ∧
      gives (exec (.setNoticeMask .c 0xFFFF 16) s) (fun t => t.noticesC.threshold == 15 && !t.noticesC.alert) = true := by
  decide +kernel

theorem test_MailAndPortResetActOnTheirBoxes :
    gives (exec (.sendMail .s 5) State.reset) (fun t => t.mail == ⟨some 5, none⟩ && t.noticesC.alert) = true ∧
      gives (exec (.sendMail .s 6) { State.reset with mail := ⟨some 5, none⟩ })
        (fun t => t.replies.s == some ⟨4, 13, []⟩) = true ∧
      gives (exec (.readMail .c) { State.reset with mail := ⟨some 5, none⟩ }) (fun t => t.mail == ⟨none, none⟩) = true ∧
      gives (exec (.portReset .c) { State.reset with mail := ⟨some 5, some 6⟩ }) (fun t => t.mail == ⟨none, some 6⟩) =
        true := by decide +kernel

theorem test_CommandsTurnedAwayChangeNothing :
    commandPort (.renewLimit .c) = some .c ∧ WellFormed (.renewLimit .c) = true ∧
      gives (exec (.shortFrame .s) { State.reset with frameErrors := ⟨65535, 0⟩ })
        (fun t => t.frameErrors == ⟨65535, 0⟩ && t.replies.s == none) = true := by decide +kernel

theorem test_FramesDecodeToTheirCommands :
    encodeFrame (.closeSession .c 3) = some (.c, [0x42, 3]) ∧ decodeFrame .c [0x42] 0 = some (.shortFrame .c) ∧
      decodeFrame .c [] 1 = some (.shortFrame .c) ∧ decodeFrame .c [0x42, 3] 7 = some (.closeSession .c 3) := by decide

/-- The reply comes out after the turnaround bytes of the frame, zeros before and after it (R179, R180). -/
theorem test_sdo_bytes :
    (List.range 8).map (sdoByte 1 (some ⟨1, 0, [5]⟩)) = [0, 0, 0, 0, 1, 0, 5, 0] ∧ sdoByte 1 none 5 = 0 := by decide

theorem test_AStepRunsTheFrontCommand :
    let s := { normal with pending := [.setTime .s 9, .secondTick] }
    s.pending = .setTime .s 9 :: [.secondTick] ∧ normal.pending = [] ∧
      gives (step s) (fun t => t.tfu.calendar == 9 && t.pending == [.secondTick]) = true ∧
      gives (step normal) (fun t => t.ssu.timeBase == 1) = true ∧
      gives (step { polls 0 site with lsu := { normal.lsu with limreqLow := true } })
        (fun t => t.flc.replyTimer == 1 && t.lsu.debounce == 1) = true ∧
      gives (step { erasing with rlg := { erasing.rlg with erase := some ⟨9, 30, 10, 40, false⟩ } })
        (fun t => t.rlg.erase == some ⟨9, 31, 11, 40, false⟩) = true ∧
      State.reset.rlg.logState = .starting ∧ site.rlg.logState ≠ .starting ∧ site.rlg.erase = none := by decide +kernel

/-! ### States that meet the invariants -/

theorem test_TheTripLineFollowsTheEscalationState :
    ((inState .tripped).lsu.trip = true ↔ (inState .tripped).lsu.esc = .tripped) ∧
      gives (step { inState .tripped with pending := [.secondTick] }) (fun t => t.lsu.trip) = true := by decide +kernel

theorem test_LimitsAndEscalationStayConsistent : LimitsInv (leased .live 5) ∧ EscalationInv (leased .live 5) := by
  refine ⟨⟨?_, ?_, ?_, ?_, ?_, ?_, ?_, ?_, ?_, ?_⟩, ⟨?_, ?_, ?_, ?_, ?_⟩⟩ <;> decide +kernel

theorem test_AlertLinesAndTheArrayFormAreKept :
    let s := { erasing with noticesS := Notices.reset.raise 14 [], rlg := erasing.rlg.storeByte 5 0 }
    AlertInv s ∧ ArrayInv s := by
  refine ⟨⟨⟨?_, ?_, ?_⟩, ⟨?_, ?_, ?_⟩⟩, ⟨?_, ?_, ?_⟩⟩ <;> decide +kernel

theorem test_sessions_hold_their_slots_and_editions :
    let s := queued (.closing 0 closing) 1 .opened (session .closing)
    TariffInv s ∧ SlotsInv s ∧ s.Apart := by
  refine ⟨⟨?_, ?_⟩, ⟨?_, ?_, ?_, ?_, ?_, ?_, ?_, ?_, ?_⟩, ⟨?_, ?_⟩⟩
  · intro k; cases k <;> decide +kernel
  · intro p h
    refine ⟨⟨edition12, 1⟩, ?_⟩
    revert p
    decide +kernel
  · decide +kernel
  · decide +kernel
  · decide +kernel
  · decide +kernel
  · intro f h
    cases h
    decide +kernel
  · intro f h slot a b
    cases h
    have : slot ≠ 3 := by omega
    simp [Rlg.slotState, queued, sparseGet, Ne.symm this]
  · intro k h slot a
    have : slot ≠ 3 := by
      rintro rfl
      have : k = 0 := Fin.ext (by omega)
      subst this
      revert h
      decide +kernel
    simp [Rlg.slotState, queued, sparseGet, Ne.symm this]
  · intro e h; cases h
  · intro h; revert h; decide +kernel
  · decide +kernel
  · intro e h; cases h

theorem test_QueuesAndAccountsAgreeWithTheSessions :
    QueueInv (session .waiting) ∧ BalanceInv (session .waiting) ∧ AccountsInv (session .waiting) := by
  refine ⟨⟨?_, ?_, ?_, ?_⟩, ⟨?_, ?_, ?_⟩, ⟨?_, ?_⟩⟩
  · decide +kernel
  · decide +kernel
  · intro q h; cases h
  · decide +kernel
  · decide +kernel
  · decide +kernel
  · decide +kernel
  · decide +kernel
  · simp only [Session.balanced]; decide +kernel

theorem test_StagingNeverRaisesBeforeTheRelease : StagingInv (session .charging) := by
  refine ⟨?_, ?_, ?_, ?_, ?_⟩ <;> decide +kernel

end Sys2Proof.Tests
end

section
/-! SUPPORT. What each command may change: one frame per command, and the table of them. -/

namespace Sys2Proof.Machine

open Sys2Proof State

set_option Elab.async false

variable {fs : List Field} {s t u : State}

/-! ## Answers to a port -/

/-- An operation followed by its reply OK. -/
theorem State.ok_after {hs : List Field} (p : Port) (b : Bool) (r : List Byte) (h : s.onlyChanges fs t)
    (sub : ∀ f ∈ fs, f ∈ hs := by decide) (mem : .replies ∈ hs := by decide) : s.onlyChanges hs (t.ok p b r) :=
  onlyChanges_then h (ok_only p b r) sub (by simpa using mem)

/-- An operation followed by its reply ACCEPTED. -/
theorem State.accepted_after {hs : List Field} (p : Port) (r : List Byte) (h : s.onlyChanges fs t)
    (sub : ∀ f ∈ fs, f ∈ hs := by decide) (mem : .replies ∈ hs := by decide) : s.onlyChanges hs (t.accepted p r) :=
  onlyChanges_then h (accepted_only p r) sub (by simpa using mem)

theorem State.turnDown_within (p : Port) (a : Status) (b : Reason) (mem : .replies ∈ fs := by decide) :
    s.onlyChanges fs (s.turnDown p a b) :=
  onlyChanges_mono (turnDown_only p a b) (by simpa using mem)

/-- A port S command changes what its operation changes; from port C, only the reply (R182). -/
theorem State.onSite_only {f : State → State} (p : Port) (h : s.onlyChanges fs (f s))
    (mem : .replies ∈ fs := by decide) : s.onlyChanges fs (s.onSite p f) := by
  cases p
  · exact h
  · exact onlyChanges_mono (wrongPort_only .c) (by simpa using mem)

/-- A port C command changes what its operation changes; from port S, only the reply (R182). -/
theorem State.onCharge_only {f : State → State} (p : Port) (h : s.onlyChanges fs (f s))
    (mem : .replies ∈ fs := by decide) : s.onlyChanges fs (s.onCharge p f) := by
  cases p
  · exact onlyChanges_mono (wrongPort_only .s) (by simpa using mem)
  · exact h

/-! ## Reset, periods, limits -/

/-- Every field but the queue of commands. -/
def resetFields : List Field :=
  [.site, .cmu, .lsu, .bau, .alu, .flc, .ssu, .tfu, .rlg, .noticesS, .noticesC, .mail, .frameErrors, .replies,
    .requests]

theorem execDeviceReset_next {left : List Residue} (h : execDeviceReset left s = .next t) : t = s.deviceReset left := by
  unfold execDeviceReset at h
  split at h
  · exact (Host.Outcome.next.inj h).symm
  · nomatch h

theorem State.deviceReset_only (left : List Residue) : s.onlyChanges resetFields (s.deviceReset left) := by
  intro f hf
  cases f with
  | pending => rfl
  | _ => exact absurd (by decide) hf

theorem execPeriodClose_only {x : Stretch} (h : execPeriodClose x s = .next t) : s.onlyChanges closeFields t := by
  obtain rfl := Host.Outcome.next.inj h
  exact onlyChanges_then (withCmu_only _) (closePeriod_only _)

theorem execFinalWaitExpiry_only {p : Point} (h : execFinalWaitExpiry p s = .next t) :
    s.onlyChanges [.ssu, .rlg] t := by
  obtain rfl := Host.Outcome.next.inj h
  exact onlyChanges_ite (onlyChanges_then (withSession_only p _) (endFinalWait_only p)) onlyChanges_refl

theorem execLimreqNChange_only {low : Bool} (h : execLimreqNChange low s = .next t) : s.onlyChanges [.lsu] t := by
  obtain rfl := Host.Outcome.next.inj h
  exact onlyChanges_ite onlyChanges_refl (withLsu_only _)

theorem execLimitLineEdge_only (h : execLimitLineEdge s = .next t) :
    s.onlyChanges [.lsu, .requests, .noticesS] t := by
  obtain rfl := Host.Outcome.next.inj h
  exact onlyChanges_ite onlyChanges_refl lineEdge_only

theorem execSecondTick_only (h : execSecondTick s = .next t) :
    s.onlyChanges [.lsu, .ssu, .tfu, .noticesS, .requests] t := by
  obtain rfl := Host.Outcome.next.inj h
  exact onlyChanges_then (onlyChanges_then (withTfu_only _) (withSsu_only _) (hs := [.tfu, .ssu])) leaseTick_only

theorem execLeaseLapse_only (h : execLeaseLapse s = .next t) : s.onlyChanges [.lsu, .requests, .noticesS] t := by
  obtain rfl := Host.Outcome.next.inj h
  split
  · exact lapse_only
  · exact onlyChanges_refl
  · exact onlyChanges_refl

/-- An accepted SET LIMITS, before its reply: the limit set, the escalation state, L_eff, the recompute request. -/
def State.acceptLimits (c : ClampedLimits) (s : State) : State :=
  let t := (s.withLsu (s.lsu.withLimits c)).configure c.lImp
  (t.withLsu t.lsu.republish).sendRecompute

theorem State.acceptLimits_only (c : ClampedLimits) :
    s.onlyChanges [.lsu, .noticesS, .noticesC, .requests] (s.acceptLimits c) :=
  onlyChanges_then
    (onlyChanges_then (onlyChanges_then (withLsu_only _) (configure_only _) (hs := [.lsu, .noticesS, .noticesC]))
      (withLsu_only _) (hs := [.lsu, .noticesS, .noticesC]))
    sendRecompute_only

theorem setLimitsOp_only (x : LimitsOperand) :
    s.onlyChanges [.lsu, .noticesS, .noticesC, .requests, .replies] (setLimitsOp x s) :=
  onlyChanges_ite (turnDown_within _ _ _) (ok_after _ _ _ (acceptLimits_only (clampLimits x)))

theorem renewLimitOp_only : s.onlyChanges [.lsu, .requests, .replies] (renewLimitOp s) := by
  unfold renewLimitOp
  split
  · exact turnDown_within _ _ _
  split
  · exact ok_after _ _ _ (withLsu_only _)
  · exact ok_after _ _ _ (onlyChanges_then (withLsu_only _) republishAndAsk_only (hs := [.lsu, .requests]))
  · exact onlyChanges_mono (ok_only _ _ _)

theorem releaseTripOp_only (p : Port) :
    s.onlyChanges [.lsu, .noticesS, .noticesC, .requests, .replies] (releaseTripOp p s) := by
  unfold releaseTripOp
  split
  · exact onlyChanges_ite
      (ok_after _ _ _ (onlyChanges_then
        (onlyChanges_then (withLsu_only _) completeRelease_only (hs := [.lsu, .noticesS, .noticesC]))
        sendRecompute_only (hs := [.lsu, .noticesS, .noticesC, .requests])))
      (accepted_after _ _ (withLsu_only _))
  · exact turnDown_within _ _ _

theorem setPolicyOp_only (x : PolicyOperand) : s.onlyChanges [.alu, .lsu, .bau, .replies] (setPolicyOp x s) := by
  unfold setPolicyOp
  split
  · exact turnDown_within _ _ _
  · exact ok_after _ _ _ (onlyChanges_then (onlyChanges_then (withAlu_only _) (withLsu_only _) (hs := [.alu, .lsu]))
      (withBau_only _) (hs := [.alu, .lsu, .bau]))

/-! ## Balance, allocation, staging -/

theorem execNewReading_only (h : execNewReading s = .next t) : s.onlyChanges [.bau, .noticesS, .requests] t := by
  obtain rfl := Host.Outcome.next.inj h
  split
  · exact onlyChanges_then
      (onlyChanges_then (takeRequest_only _) (countMissing_only _) (hs := [.bau, .noticesS, .requests]))
      (computeRecord_only _ _)
  · exact onlyChanges_refl

theorem execRecomputeRequest_only (h : execRecomputeRequest s = .next t) : s.onlyChanges [.bau, .requests] t := by
  obtain rfl := Host.Outcome.next.inj h
  exact onlyChanges_ite (onlyChanges_then (takeRequest_only _) (computeRecord_only _ _)) onlyChanges_refl

theorem execAllocation_only (h : execAllocation s = .next t) : s.onlyChanges [.alu, .flc, .ssu, .requests] t := by
  obtain rfl := Host.Outcome.next.inj h
  exact onlyChanges_then (takeRequest_only _) (allocate_only _ _)

theorem execDwellEnd_only (h : execDwellEnd s = .next t) : s.onlyChanges [.alu, .flc] t := by
  obtain rfl := Host.Outcome.next.inj h
  exact onlyChanges_then (withAlu_only _) stagingTest_only

theorem execReductionAcknowledgement_only {p : Point} (h : execReductionAcknowledgement p s = .next t) :
    s.onlyChanges [.alu, .flc, .requests] t := by
  obtain rfl := Host.Outcome.next.inj h
  split
  · exact onlyChanges_then (takeRequest_only _) (onlyChanges_ite (acknowledge_only p) onlyChanges_refl)
  · exact onlyChanges_refl

theorem execReductionRequest_only {p : Point} (h : execReductionRequest p s = .next t) :
    s.onlyChanges [.alu, .flc, .requests] t := by
  obtain rfl := Host.Outcome.next.inj h
  exact onlyChanges_then (takeRequest_only _) (stageReduction_only p)

/-! ## The field link -/

theorem execFrameSend_only (h : execFrameSend s = .next t) : s.onlyChanges [.flc] t := by
  obtain rfl := Host.Outcome.next.inj h
  split
  · split
    · exact sendFrame_only _ _ _
    · exact onlyChanges_refl
  · exact onlyChanges_refl

theorem execZeroFrame_only (h : execZeroFrame s = .next t) : s.onlyChanges [.flc] t := by
  obtain rfl := Host.Outcome.next.inj h
  exact onlyChanges_ite (withFlc_only _) onlyChanges_refl

theorem execReplyReceived_only {bs : List Byte} (h : execReplyReceived bs s = .next t) :
    s.onlyChanges exchangeFields t := by
  obtain rfl := Host.Outcome.next.inj h
  split
  · split
    · exact endExchange_only _ _
    · exact onlyChanges_refl
  · exact onlyChanges_refl

theorem execLinkCharacterError_only {e : CharacterError} (h : execLinkCharacterError e s = .next t) :
    s.onlyChanges exchangeFields t := by
  obtain rfl := Host.Outcome.next.inj h
  cases e <;> exact cutExchange_only .error

theorem configurePointOp_only (p k : Byte) (a b c : Word32) :
    s.onlyChanges [.flc, .alu, .replies] (configurePointOp p k a b c s) := by
  unfold configurePointOp
  split
  · exact onlyChanges_ite (turnDown_within _ _ _) (ok_after _ _ _ (configurePoint_only _ _ _))
  · exact turnDown_within _ _ _

theorem removePointOp_only (n : Byte) : s.onlyChanges [.flc, .alu, .replies] (removePointOp n s) := by
  unfold removePointOp
  split
  · exact turnDown_within _ _ _
  · exact onlyChanges_ite (turnDown_within _ _ _)
      (onlyChanges_ite (onlyChanges_mono (ok_only _ _ _)) (ok_after _ _ _ (removeNode_only _)))

theorem setSiteOp_only (bal v : Word16) (rate reply : Byte) :
    s.onlyChanges [.site, .flc, .replies] (setSiteOp bal v rate reply s) := by
  unfold setSiteOp
  split
  · exact turnDown_within _ _ _
  · exact ok_after _ _ _ (onlyChanges_then (withSite_only _) (withFlc_only _) (hs := [.site, .flc]))

theorem setBatteryOp_only (d c : Word32) (lo hi : Word16) :
    s.onlyChanges [.bau, .flc, .replies] (setBatteryOp d c lo hi s) :=
  onlyChanges_ite (turnDown_within _ _ _)
    (ok_after _ _ _ (onlyChanges_then (withBau_only _) (enrol_only _) (hs := [.bau, .flc])))

theorem setCanopyOp_only (r f : Word32) : s.onlyChanges [.bau, .flc, .replies] (setCanopyOp r f s) :=
  ok_after _ _ _ (onlyChanges_then (onlyChanges_then (withBau_only _) (enrol_only _) (hs := [.bau, .flc]))
    (withNode_only _ _) (hs := [.bau, .flc]))

/-! ## Sessions and tariffs -/

theorem execSessionReport_only {p : Point} (h : execSessionReport p s = .next t) : s.onlyChanges reportFields t := by
  obtain rfl := Host.Outcome.next.inj h
  split
  · dsimp only
    split
    · exact onlyChanges_then (takeRequest_only _)
        (onlyChanges_ite onlyChanges_refl (sessionReport_only _ _ _ _ _) (fs := reportFields))
    · exact onlyChanges_mono (takeRequest_only _)
    · exact onlyChanges_mono (takeRequest_only _)
  · exact onlyChanges_refl

theorem openSessionOp_only (p : Byte) (n : Word32) (c : Byte) :
    s.onlyChanges [.ssu, .tfu, .rlg, .noticesS, .noticesC, .replies] (openSessionOp p n c s) := by
  unfold openSessionOp
  split
  · dsimp only
    split
    · exact turnDown_within _ _ _
    · next h =>
      exact accepted_after _ _ (onlyChanges_then
        (onlyChanges_then (withRlg_only _) (reserveWith_only h) (hs := [.rlg, .noticesS, .noticesC]))
        (openSession_only _ _ _) (hs := [.ssu, .tfu, .rlg, .noticesS, .noticesC]))
    · exact turnDown_within _ _ _
    · exact turnDown_within _ _ _
  · exact turnDown_within _ _ _

theorem closeSessionOp_only (p : Byte) : s.onlyChanges [.ssu, .alu, .requests, .replies] (closeSessionOp p s) := by
  unfold closeSessionOp
  split
  · exact turnDown_within _ _ _
  · exact onlyChanges_ite (accepted_after _ _ (startClose_only _ _)) (turnDown_within _ _ _)

theorem State.flagCommand_only (port : Port) (p on : Byte) (write : Session → Bool → Session) :
    s.onlyChanges [.ssu, .alu, .requests, .replies] (s.flagCommand port p on write) := by
  unfold flagCommand
  split
  · exact onlyChanges_ite
      (ok_after _ _ _ (onlyChanges_then (withSession_only _ _) (applyStop_only _) (hs := [.ssu, .alu, .requests])))
      (turnDown_within _ _ _)
  · exact turnDown_within _ _ _

theorem setClassOp_only (p c : Byte) : s.onlyChanges [.ssu, .replies] (setClassOp p c s) := by
  unfold setClassOp
  split
  · exact onlyChanges_ite (turnDown_within _ _ _) (ok_after _ _ _ (withSession_only _ _))
  · exact turnDown_within _ _ _

theorem loadTariffOp_only (x : TariffOperand) : s.onlyChanges [.ssu, .tfu, .replies] (loadTariffOp x s) :=
  onlyChanges_ite (turnDown_within _ _ _) (onlyChanges_ite (turnDown_within _ _ _)
    (onlyChanges_ite (turnDown_within _ _ _) (onlyChanges_ite (turnDown_within _ _ _)
      (ok_after _ _ _ (onlyChanges_then (withTfu_only _) (withSsu_only _) (hs := [.ssu, .tfu]))))))

/-! ## Programs of the receipt log -/

/-- The fields the end of a program, of an erase or of the scan may change. -/
def programFields : List Field := [.rlg, .ssu, .alu, .tfu, .requests, .noticesS, .noticesC]

theorem execProgramStart_only (h : execProgramStart s = .next t) : s.onlyChanges [.rlg] t := by
  obtain rfl := Host.Outcome.next.inj h
  exact onlyChanges_ite onlyChanges_refl (withRlg_only _)

theorem State.openingAttemptFailed_only (p : Point) (q : ProgramRequest) (ms : List MarkResult) :
    s.onlyChanges programFields (s.openingAttemptFailed p q ms) := by
  unfold openingAttemptFailed
  dsimp only
  refine onlyChanges_then (markBad_only q.slot ms) ?_ (gs := programFields)
  split
  · next slot u h =>
    have reserved : (s.markBad q.slot ms).onlyChanges [.rlg, .noticesS, .noticesC] u := by
      split at h
      · exact reserveWith_only h
      · nomatch h
    exact onlyChanges_then
      (onlyChanges_then reserved (withSession_only p _) (hs := [.rlg, .ssu, .noticesS, .noticesC]))
      (retryHead_only _)
  · exact onlyChanges_then (openingFailed_only p) (failHead_only _)

theorem State.openingAttempt_only (p : Point) (part : OpeningPart) (q : ProgramRequest) (o : ProgramOutcome) :
    s.onlyChanges programFields (s.openingAttempt p part q o) :=
  onlyChanges_ite
    (onlyChanges_then (onlyChanges_then (withRlg_only _) (openingCompleted_only p) (hs := programFields))
      endRequest_only)
    (onlyChanges_then (withRlg_only _) (openingAttemptFailed_only p q _))

theorem execOpeningProgram_only {o : ProgramOutcome} (h : execOpeningProgram o s = .next t) :
    s.onlyChanges programFields t := by
  obtain rfl := Host.Outcome.next.inj h
  refine onlyChanges_ite onlyChanges_refl ?_
  split
  · split
    · exact openingAttempt_only _ _ _ _
    · exact onlyChanges_refl
  · exact onlyChanges_refl

/-- The two ends of an in-place closing. -/
theorem State.withRlgEither_only (b : Prop) [Decidable b] (r r' : Rlg) :
    s.onlyChanges [.rlg] (if b then (s.withRlg r, true) else (s.withRlg r', false)).1 := by
  split
  · exact withRlg_only r
  · exact withRlg_only r'

theorem State.closeInPlace_only (part : ClosingPart) (q : ProgramRequest) (o : ProgramOutcome) :
    s.onlyChanges [.rlg] (s.closeInPlace part q o).1 :=
  withRlgEither_only _ _ _

theorem execClosingProgram_only {o : ProgramOutcome} (h : execClosingProgram o s = .next t) :
    s.onlyChanges programFields t := by
  obtain rfl := Host.Outcome.next.inj h
  refine onlyChanges_ite onlyChanges_refl ?_
  split
  · split
    · exact onlyChanges_ite
        (onlyChanges_then
          (onlyChanges_then (closeInPlace_only _ _ o) (closingCompleted_only _) (hs := programFields)) endRequest_only)
        (onlyChanges_then (closeInPlace_only _ _ o) (retryHead_only _))
    · exact onlyChanges_refl
  · exact onlyChanges_refl

/-- The state a relocation attempt leaves, however it ended. -/
theorem State.relocate_only_of_eq {part : ClosingPart} {q : ProgramRequest} {o : ProgramOutcome} {x : Relocated}
    (h : s.relocate part q o = (t, x)) : s.onlyChanges [.rlg, .noticesS, .noticesC] t := by
  simpa [h] using relocate_only (s := s) part q o

theorem execRelocation_only {o : ProgramOutcome} (h : execRelocation o s = .next t) :
    s.onlyChanges programFields t := by
  obtain rfl := Host.Outcome.next.inj h
  refine onlyChanges_ite onlyChanges_refl ?_
  split
  · split
    · split
      · next moved =>
        exact onlyChanges_then
          (onlyChanges_then (onlyChanges_then (relocate_only_of_eq moved) (withSession_only _ _) (hs := programFields))
            (closingCompleted_only _) (hs := programFields))
          endRequest_only
      · next failed =>
        exact onlyChanges_then (relocate_only_of_eq failed)
          (onlyChanges_ite (onlyChanges_mono (retryHead_only _)) (failHead_only _))
      · next noSlot => exact onlyChanges_then (relocate_only_of_eq noSlot) (failHead_only _)
    · exact onlyChanges_refl
  · exact onlyChanges_refl

theorem execCollectProgram_only {o : ProgramOutcome} (h : execCollectProgram o s = .next t) :
    s.onlyChanges programFields t := by
  obtain rfl := Host.Outcome.next.inj h
  refine onlyChanges_ite onlyChanges_refl ?_
  split
  · split
    · refine onlyChanges_ite ?_ (onlyChanges_ite ?_ ?_)
      · exact onlyChanges_then
          (onlyChanges_then (withRlg_only _) eraseTest_only (hs := [.rlg, .noticesS, .noticesC])) endRequest_only
      · exact onlyChanges_then (withRlg_only _) (retryHead_only _)
      · exact onlyChanges_then (onlyChanges_then (withRlg_only _) (failHead_only _) (hs := faultFields))
          (onlyChanges_ite (onlyChanges_then (withRlg_only _) eraseTest_only) onlyChanges_refl (fs := faultFields))
    · exact onlyChanges_refl
  · exact onlyChanges_refl

theorem State.orphanClosed_only (n : Nat) : s.onlyChanges [.rlg, .noticesS, .noticesC] (s.orphanClosed n) :=
  onlyChanges_then (withRlg_only _) endRequest_only

theorem State.orphanRelocation_only (n : Nat) (part : ClosingPart) (q : ProgramRequest) (o : ProgramOutcome) :
    s.onlyChanges faultFields (s.orphanRelocation n part q o) := by
  unfold orphanRelocation
  split
  · next moved => exact onlyChanges_then (relocate_only_of_eq moved) (orphanClosed_only _)
  · next failed =>
    exact onlyChanges_then (relocate_only_of_eq failed)
      (onlyChanges_ite (onlyChanges_mono (retryHead_only _)) (failHead_only _))
  · next noSlot => exact onlyChanges_then (relocate_only_of_eq noSlot) (failHead_only _)

theorem execOrphanClosing_only {o : ProgramOutcome} (h : execOrphanClosing o s = .next t) :
    s.onlyChanges faultFields t := by
  obtain rfl := Host.Outcome.next.inj h
  refine onlyChanges_ite onlyChanges_refl ?_
  split
  · next q _ _ =>
    split
    · refine onlyChanges_ite (onlyChanges_then (withRlg_only (s.rlg.countWords (16 * q.slot + 4) 11)) ?_
        (gs := faultFields)) (orphanRelocation_only _ _ _ _)
      refine onlyChanges_ite ?_ (orphanRelocation_only _ _ _ _)
      exact onlyChanges_ite (onlyChanges_then (closeInPlace_only _ _ o) (orphanClosed_only _))
        (onlyChanges_then (closeInPlace_only _ _ o) (retryHead_only _))
    · exact onlyChanges_refl
  · exact onlyChanges_refl

theorem execEraseSuspend_only (h : execEraseSuspend s = .next t) : s.onlyChanges [.rlg] t := by
  obtain rfl := Host.Outcome.next.inj h
  split
  · exact onlyChanges_ite (withRlg_only _) onlyChanges_refl
  · exact onlyChanges_refl

theorem execEraseComplete_only {o : HeaderOutcome} (h : execEraseComplete o s = .next t) :
    s.onlyChanges faultFields t := by
  obtain rfl := Host.Outcome.next.inj h
  split
  · next e _ =>
    refine onlyChanges_ite (onlyChanges_trans (?_ : s.onlyChanges faultFields _)
      (onlyChanges_then (withRlg_only _) eraseTest_only)) onlyChanges_refl
    exact onlyChanges_ite (onlyChanges_mono (withRlg_only _)) (onlyChanges_then (withRlg_only _) (thirdFailure_only _))
  · exact onlyChanges_refl

theorem execStartupScan_only {xs : List ScanResult} (h : execStartupScan xs s = .next t) :
    s.onlyChanges faultFields t := by
  obtain rfl := Host.Outcome.next.inj h
  exact onlyChanges_ite (scan_only xs) onlyChanges_refl

/-! ## Port commands that read, notices, mail, receipts -/

theorem execShortFrame_only {p : Port} (h : execShortFrame p s = .next t) :
    s.onlyChanges [.frameErrors, .replies] t := by
  obtain rfl := Host.Outcome.next.inj h
  exact onlyChanges_then (withFrameErrors_only _) (clearReply_only p)

theorem execUnknownCommand_only {p : Port} {code : Byte} (h : execUnknownCommand p code s = .next t) :
    s.onlyChanges [.replies] t := by
  obtain rfl := Host.Outcome.next.inj h
  split
  · exact unknown_only p
  · exact onlyChanges_ite onlyChanges_refl (wrongPort_only p)

theorem execReadSession_only {p : Port} {point : Byte} (h : execReadSession p point s = .next t) :
    s.onlyChanges [.replies] t := by
  obtain rfl := Host.Outcome.next.inj h
  split
  · exact turnDown_only _ _ _
  · exact ok_only _ _ _

theorem execReadNode_only {p : Port} {node : Byte} (h : execReadNode p node s = .next t) :
    s.onlyChanges [.replies] t := by
  obtain rfl := Host.Outcome.next.inj h
  split
  · exact turnDown_only _ _ _
  · exact ok_only _ _ _

/-- The fields a change of a port's notices may change. -/
def noticeFields (p : Port) : List Field := [noticeField p, .replies]

theorem State.notices_then_ok (p : Port) (n : Notices) (b : Bool) (r : List Byte) :
    s.onlyChanges (noticeFields p) ((s.withNotices p n).ok p b r) :=
  ok_after p b r (withNotices_only p n) (by simp [noticeFields]) (by simp [noticeFields])

theorem execTakeNotice_only {p : Port} (h : execTakeNotice p s = .next t) : s.onlyChanges (noticeFields p) t := by
  obtain rfl := Host.Outcome.next.inj h
  exact onlyChanges_ite (onlyChanges_mono (ok_only _ _ _) (by simp [noticeFields])) (notices_then_ok _ _ _ _)

theorem execEndNotice_only {p : Port} (h : execEndNotice p s = .next t) : s.onlyChanges (noticeFields p) t := by
  obtain rfl := Host.Outcome.next.inj h
  exact onlyChanges_ite (turnDown_within _ _ _ (by simp [noticeFields])) (notices_then_ok _ _ _ _)

theorem execSendMail_only {p : Port} {m : BitVec 256} (h : execSendMail p m s = .next t) :
    s.onlyChanges [noticeField (otherPort p), .mail, .replies] t := by
  obtain rfl := Host.Outcome.next.inj h
  refine onlyChanges_ite (turnDown_within _ _ _ (by simp)) (ok_after _ _ _ ?_ (by simp) (by simp)
    (fs := [noticeField (otherPort p), .mail]))
  exact onlyChanges_then (withMail_only _) (raise_only _ _ _) (by simp) (by simp)

theorem execReadMail_only {p : Port} (h : execReadMail p s = .next t) : s.onlyChanges [.mail, .replies] t := by
  obtain rfl := Host.Outcome.next.inj h
  split
  · exact turnDown_within _ _ _
  · exact ok_after _ _ _ (withMail_only _)

theorem execPortReset_only {p : Port} (h : execPortReset p s = .next t) :
    s.onlyChanges [noticeField p, .mail, .replies] t := by
  obtain rfl := Host.Outcome.next.inj h
  exact ok_after _ _ _ (onlyChanges_then (withNotices_only _ _) (withMail_only _) (by simp) (by simp)
    (hs := [noticeField p, .mail])) (by simp) (by simp)

theorem State.giveReceipt_only (p : Port) (number slot : Nat) :
    s.onlyChanges [.rlg, .replies] (s.giveReceipt p number slot) :=
  ok_after _ _ _ (withRlg_only _)

theorem execReadReceipt_only {p : Port} {number : Word32} (h : execReadReceipt p number s = .next t) :
    s.onlyChanges [.rlg, .replies] t := by
  obtain rfl := Host.Outcome.next.inj h
  refine onlyChanges_ite (turnDown_within _ _ _) ?_
  split
  · exact turnDown_within _ _ _
  · exact onlyChanges_ite (turnDown_within _ _ _) (giveReceipt_only _ _ _)

theorem readNextReceiptOp_only : s.onlyChanges [.rlg, .replies] (readNextReceiptOp s) := by
  refine onlyChanges_ite (turnDown_within _ _ _) ?_
  split
  · exact turnDown_within _ _ _
  · exact giveReceipt_only _ _ _

theorem collectReceiptOp_only (number : Nat) : s.onlyChanges [.rlg, .replies] (collectReceiptOp number s) := by
  refine onlyChanges_ite (turnDown_within _ _ _) (onlyChanges_ite (turnDown_within _ _ _) ?_)
  split
  · exact turnDown_within _ _ _
  · exact onlyChanges_ite (turnDown_within _ _ _) (onlyChanges_ite (turnDown_within _ _ _)
      (onlyChanges_ite (turnDown_within _ _ _) (ok_after _ _ _ (enqueue_only _))))

theorem setRetentionOp_only (n : Nat) :
    s.onlyChanges [.rlg, .noticesS, .noticesC, .replies] (setRetentionOp n s) := by
  refine ok_after _ _ _ (fs := [.rlg, .noticesS, .noticesC]) ?_
  exact onlyChanges_ite (onlyChanges_mono (withRlg_only _))
    (onlyChanges_ite (onlyChanges_mono (withRlg_only _)) (onlyChanges_then (withRlg_only _) eraseTest_only))

theorem readNextOrphanOp_only : s.onlyChanges [.rlg, .replies] (readNextOrphanOp s) := by
  refine onlyChanges_ite (turnDown_within _ _ _) ?_
  split
  · exact turnDown_within _ _ _
  · exact ok_after _ _ _ (withRlg_only _)

theorem closeOrphanOp_only (number : Nat) (register : Word32) :
    s.onlyChanges [.rlg, .replies] (closeOrphanOp number register s) :=
  onlyChanges_ite (turnDown_within _ _ _) (onlyChanges_ite (turnDown_within _ _ _)
    (onlyChanges_ite (turnDown_within _ _ _) (onlyChanges_ite (turnDown_within _ _ _)
      (onlyChanges_ite (turnDown_within _ _ _)
        (ok_after _ _ _ (onlyChanges_then (withRlg_only _) (enqueue_only _) (hs := [.rlg])))))))

/-! ## The table -/

/-- The fields a command may change. -/
def commandFields : Instr → List Field
  | .deviceReset _ => resetFields
  | .frontEndValidity _ _ _ => [.cmu]
  | .periodClose _ => closeFields
  | .finalWaitExpiry _ => [.ssu, .rlg]
  | .limreqNChange _ => [.lsu]
  | .limitLineEdge | .leaseLapse => [.lsu, .requests, .noticesS]
  | .secondTick => [.lsu, .ssu, .tfu, .noticesS, .requests]
  | .newReading => [.bau, .noticesS, .requests]
  | .recomputeRequest => [.bau, .requests]
  | .allocation => [.alu, .flc, .ssu, .requests]
  | .dwellEnd => [.alu, .flc]
  | .reductionAcknowledgement _ | .reductionRequest _ => [.alu, .flc, .requests]
  | .frameSend | .zeroFrame => [.flc]
  | .replyReceived _ | .replyTimeout | .replySilence | .linkCharacterError _ | .lengthFieldAbove16 => exchangeFields
  | .sessionReport _ => reportFields
  | .programStart | .eraseSuspend => [.rlg]
  | .openingProgram _ | .closingProgram _ | .relocation _ | .collectProgram _ => programFields
  | .orphanClosing _ | .eraseComplete _ | .startupScan _ => faultFields
  | .shortFrame _ => [.frameErrors, .replies]
  | .unknownCommand _ _ | .status _ | .readBalance _ | .readSession _ _ | .readNode _ _ | .readTime _ => [.replies]
  | .takeNotice p | .endNotice p | .setNoticeMask p _ _ => noticeFields p
  | .sendMail p _ => [noticeField (otherPort p), .mail, .replies]
  | .readMail _ => [.mail, .replies]
  | .portReset p => [noticeField p, .mail, .replies]
  | .releaseTrip _ | .setLimits _ _ => [.lsu, .noticesS, .noticesC, .requests, .replies]
  | .renewLimit _ => [.lsu, .requests, .replies]
  | .setPolicy _ _ => [.alu, .lsu, .bau, .replies]
  | .setSite _ _ _ _ _ => [.site, .flc, .replies]
  | .setBattery _ _ _ _ _ | .setCanopy _ _ _ => [.bau, .flc, .replies]
  | .configurePoint _ _ _ _ _ _ | .removePoint _ _ => [.flc, .alu, .replies]
  | .holdPoint _ _ _ | .pauseSession _ _ _ | .closeSession _ _ => [.ssu, .alu, .requests, .replies]
  | .openSession _ _ _ _ => [.ssu, .tfu, .rlg, .noticesS, .noticesC, .replies]
  | .setClass _ _ _ => [.ssu, .replies]
  | .setTime _ _ => [.tfu, .replies]
  | .loadTariff _ _ => [.ssu, .tfu, .replies]
  | .setRetention _ _ => [.rlg, .noticesS, .noticesC, .replies]
  | .readReceipt _ _ | .readNextReceipt _ | .collectReceipt _ _ | .readNextOrphan _ | .closeOrphan _ _ _ =>
    [.rlg, .replies]

/-- What `exec` answers is what the command's operation gives: a frame of the one is a frame of the other. -/
theorem State.onlyChanges_of_next (h : (.next u : Host.Outcome State Fault Refusal) = .next t)
    (k : s.onlyChanges fs u) : s.onlyChanges fs t := by
  obtain rfl := Host.Outcome.next.inj h
  exact k

/-- Every command changes only the fields that the table lists. -/
theorem exec_only {c : Instr} (h : exec c s = .next t) : s.onlyChanges (commandFields c) t := by
  cases c with
  | deviceReset left => exact execDeviceReset_next h ▸ deviceReset_only left
  | frontEndValidity _ _ _ => exact onlyChanges_of_next h (withCmu_only _)
  | periodClose _ => exact execPeriodClose_only h
  | finalWaitExpiry _ => exact execFinalWaitExpiry_only h
  | limreqNChange _ => exact execLimreqNChange_only h
  | limitLineEdge => exact execLimitLineEdge_only h
  | secondTick => exact execSecondTick_only h
  | leaseLapse => exact execLeaseLapse_only h
  | newReading => exact execNewReading_only h
  | recomputeRequest => exact execRecomputeRequest_only h
  | allocation => exact execAllocation_only h
  | dwellEnd => exact execDwellEnd_only h
  | reductionAcknowledgement _ => exact execReductionAcknowledgement_only h
  | reductionRequest _ => exact execReductionRequest_only h
  | frameSend => exact execFrameSend_only h
  | zeroFrame => exact execZeroFrame_only h
  | replyReceived _ => exact execReplyReceived_only h
  | replyTimeout => exact onlyChanges_of_next h (cutExchange_only .noReply)
  | replySilence => exact onlyChanges_of_next h (cutExchange_only .error)
  | linkCharacterError _ => exact execLinkCharacterError_only h
  | lengthFieldAbove16 => exact onlyChanges_of_next h (cutExchange_only .error)
  | sessionReport _ => exact execSessionReport_only h
  | programStart => exact execProgramStart_only h
  | openingProgram _ => exact execOpeningProgram_only h
  | closingProgram _ => exact execClosingProgram_only h
  | relocation _ => exact execRelocation_only h
  | collectProgram _ => exact execCollectProgram_only h
  | orphanClosing _ => exact execOrphanClosing_only h
  | eraseSuspend => exact execEraseSuspend_only h
  | eraseComplete _ => exact execEraseComplete_only h
  | startupScan _ => exact execStartupScan_only h
  | shortFrame _ => exact execShortFrame_only h
  | unknownCommand _ _ => exact execUnknownCommand_only h
  | status _ => exact onlyChanges_of_next h (ok_only _ _ _)
  | readBalance _ => exact onlyChanges_of_next h (ok_only _ _ _)
  | readSession _ _ => exact execReadSession_only h
  | readNode _ _ => exact execReadNode_only h
  | readReceipt _ _ => exact execReadReceipt_only h
  | readTime _ => exact onlyChanges_of_next h (ok_only _ _ _)
  | takeNotice _ => exact execTakeNotice_only h
  | endNotice _ => exact execEndNotice_only h
  | setNoticeMask _ _ _ => exact onlyChanges_of_next h (notices_then_ok _ _ _ _)
  | sendMail _ _ => exact execSendMail_only h
  | readMail _ => exact execReadMail_only h
  | releaseTrip p => exact onlyChanges_of_next h (releaseTripOp_only p)
  | portReset _ => exact execPortReset_only h
  | setSite p _ _ _ _ => exact (onlyChanges_of_next h (onSite_only p (setSiteOp_only _ _ _ _)) :)
  | setLimits p _ => exact (onlyChanges_of_next h (onSite_only p (setLimitsOp_only _)) :)
  | renewLimit p => exact (onlyChanges_of_next h (onSite_only p renewLimitOp_only) :)
  | setBattery p _ _ _ _ => exact (onlyChanges_of_next h (onSite_only p (setBatteryOp_only _ _ _ _)) :)
  | setCanopy p _ _ => exact (onlyChanges_of_next h (onSite_only p (setCanopyOp_only _ _)) :)
  | configurePoint p _ _ _ _ _ => exact (onlyChanges_of_next h (onSite_only p (configurePointOp_only _ _ _ _ _)) :)
  | removePoint p _ => exact (onlyChanges_of_next h (onSite_only p (removePointOp_only _)) :)
  | holdPoint p _ _ => exact (onlyChanges_of_next h (onSite_only p (flagCommand_only _ _ _ _)) :)
  | setPolicy p _ => exact (onlyChanges_of_next h (onSite_only p (setPolicyOp_only _)) :)
  | setTime p _ =>
    exact (onlyChanges_of_next h (onSite_only p (ok_after _ _ _ (withTfu_only _) (hs := [.tfu, .replies]))) :)
  | setRetention p _ => exact (onlyChanges_of_next h (onSite_only p (setRetentionOp_only _)) :)
  | loadTariff p _ => exact (onlyChanges_of_next h (onCharge_only p (loadTariffOp_only _)) :)
  | openSession p _ _ _ => exact (onlyChanges_of_next h (onCharge_only p (openSessionOp_only _ _ _)) :)
  | closeSession p _ => exact (onlyChanges_of_next h (onCharge_only p (closeSessionOp_only _)) :)
  | pauseSession p _ _ => exact (onlyChanges_of_next h (onCharge_only p (flagCommand_only _ _ _ _)) :)
  | setClass p _ _ => exact (onlyChanges_of_next h (onCharge_only p (setClassOp_only _ _)) :)
  | readNextReceipt p => exact (onlyChanges_of_next h (onCharge_only p readNextReceiptOp_only) :)
  | collectReceipt p _ => exact (onlyChanges_of_next h (onCharge_only p (collectReceiptOp_only _)) :)
  | readNextOrphan p => exact (onlyChanges_of_next h (onCharge_only p readNextOrphanOp_only) :)
  | closeOrphan p _ _ => exact (onlyChanges_of_next h (onCharge_only p (closeOrphanOp_only _ _)) :)

end Sys2Proof.Machine
end

section
/-! SUPPORT. What the limit supervisor's operations do: replies, requests, L_eff, limit set (Chapter 1). -/

namespace Sys2Proof.Machine

open Sys2Proof State

set_option Elab.async false

variable {s t : State}

/-! ## Replies and requests -/

@[simp] theorem State.ok_site (p : Port) (b : Bool) (r : List Byte) : (s.ok p b r).site = s.site :=
  ok_only p b r .site (by decide)

@[simp] theorem State.ok_lsu (p : Port) (b : Bool) (r : List Byte) : (s.ok p b r).lsu = s.lsu :=
  ok_only p b r .lsu (by decide)

@[simp] theorem State.ok_flc (p : Port) (b : Bool) (r : List Byte) : (s.ok p b r).flc = s.flc :=
  ok_only p b r .flc (by decide)

@[simp] theorem State.ok_noticesS (p : Port) (b : Bool) (r : List Byte) : (s.ok p b r).noticesS = s.noticesS :=
  ok_only p b r .noticesS (by decide)

@[simp] theorem State.ok_noticesC (p : Port) (b : Bool) (r : List Byte) : (s.ok p b r).noticesC = s.noticesC :=
  ok_only p b r .noticesC (by decide)

@[simp] theorem State.ok_requests (p : Port) (b : Bool) (r : List Byte) : (s.ok p b r).requests = s.requests :=
  ok_only p b r .requests (by decide)

/-- A reply OK after changes that leave the replies alone. -/
theorem State.ok_answered (p : Port) (b : Bool) (r : List Byte) (h : t.replies = s.replies) :
    s.answered p (okReply b r) (t.ok p b r) := by
  cases p
  · exact ⟨rfl, (congrArg Replies.c h : t.replies.c = s.replies.c)⟩
  · exact ⟨rfl, (congrArg Replies.s h : t.replies.s = s.replies.s)⟩

theorem State.turnDown_turnedAway (p : Port) (a : Status) (b : Reason) : s.turnedAway p a b (s.turnDown p a b) := by
  refine ⟨?_, turnDown_only p a b⟩
  cases p <;> exact ⟨rfl, rfl⟩

@[simp] theorem State.raise_lsu (p : Port) (k : NoticeKind) (ns : List Nat) : (s.raise p k ns).lsu = s.lsu :=
  raise_only p k ns .lsu (by cases p <;> decide)

@[simp] theorem State.raiseBoth_lsu (k : NoticeKind) (ns : List Nat) : (s.raiseBoth k ns).lsu = s.lsu :=
  raiseBoth_only k ns .lsu (by decide)

@[simp] theorem State.sendRecompute_lsu : s.sendRecompute.lsu = s.lsu := sendRecompute_only .lsu (by decide)

/-- A recompute request waits exactly when a reading exists (R16). -/
theorem State.sendRecompute_requests :
    s.sendRecompute.requests = if s.cmu.readingExists then s.requests ++ [.recompute] else s.requests := by
  unfold sendRecompute
  split
  · rfl
  · rfl

/-- The recompute request counts as sent from any earlier state with the same meter and the same requests. -/
theorem State.sendRecompute_asks (hc : t.cmu = s.cmu) (hr : t.requests = s.requests) :
    s.asksRecompute t.sendRecompute := by
  unfold asksRecompute
  rw [sendRecompute_requests, hc, hr]

theorem State.asksRecompute_ok {p : Port} {b : Bool} {r : List Byte} (h : s.asksRecompute t) :
    s.asksRecompute (t.ok p b r) :=
  (ok_requests p b r).trans h

/-! ## L_eff -/

/-- L_eff is what R10's table gives for the line and lease states. -/
theorem Lsu.effective_eq_limitFor (l : Lsu) : l.effective = l.limitFor l.line l.lease := by
  unfold effective limitFor base
  cases l.lease <;> cases l.line <;> rfl

/-- The republished limits: L_eff by R10, the check limit by R14. -/
theorem Lsu.republish_eq (l : Lsu) :
    l.republish = { l with lEff := l.effective, checkLimit := l.checkAfter l.effective } := by
  unfold republish checkAfter
  split
  · next h => rw [h]
  · rfl

@[simp] theorem Lsu.republish_lEff (l : Lsu) : l.republish.lEff = l.effective := by
  rw [republish_eq]

theorem State.republishAndAsk_lsu : s.republishAndAsk.lsu = s.lsu.republish := by
  unfold republishAndAsk
  dsimp only
  split
  · rfl
  · exact sendRecompute_lsu

/-- A recompute request follows a change of L_eff, and only a change (R12, R13). -/
theorem State.republishAndAsk_requests :
    s.republishAndAsk.requests = if s.lsu.effective = s.lsu.lEff then s.requests else s.sendRecompute.requests := by
  unfold republishAndAsk
  simp only [withLsu_lsu, Lsu.republish_lEff]
  split
  · rfl
  · rw [sendRecompute_requests, sendRecompute_requests, withLsu_cmu, withLsu_requests]

/-! ## The limit set -/

/-- The escalation state after an accepted SET LIMITS with the given L_imp (R21). -/
def Lsu.escFor (l : Lsu) (imp : Nat) : Escalation :=
  if imp = 0 then .unconfigured else if l.esc = .unconfigured then .normal else l.esc

theorem State.escalate_lsu (e : Escalation) :
    (s.escalate e).lsu = { s.lsu with esc := e, trip := e == .tripped, cleanCount := 0, graceCount := 0 } := rfl

theorem State.configure_lsu (imp : Nat) :
    (s.configure imp).lsu = { s.lsu with
      esc := s.lsu.escFor imp
      trip := if s.lsu.escFor imp = s.lsu.esc then s.lsu.trip else false
      cleanCount := if imp = 0 ∨ s.lsu.escFor imp ≠ s.lsu.esc then 0 else s.lsu.cleanCount
      graceCount := if imp = 0 ∨ s.lsu.escFor imp ≠ s.lsu.esc then 0 else s.lsu.graceCount } := by
  unfold configure Lsu.escFor
  rcases Nat.eq_zero_or_pos imp with rfl | pos
  · by_cases h : s.lsu.esc = .unconfigured
    · simp [h]
    · simp [h, escalate_lsu, Ne.symm h]
  · by_cases h : s.lsu.esc = .unconfigured
    · simp [h, pos, escalate_lsu, Nat.ne_of_gt pos]
    · simp [h, pos, Nat.ne_of_gt pos]

/-- The move of the escalation state raises ESCALATION on both ports, and only a move does (R31). -/
theorem State.configure_notices (imp : Nat) :
    (s.lsu.escFor imp = s.lsu.esc →
      (s.configure imp).noticesS = s.noticesS ∧ (s.configure imp).noticesC = s.noticesC) ∧
    (s.lsu.escFor imp ≠ s.lsu.esc →
      (s.configure imp).noticesS = s.noticesS.raise 14 [] ∧ (s.configure imp).noticesC = s.noticesC.raise 14 []) := by
  have moved : ∀ e, (s.escalate e).noticesS = s.noticesS.raise 14 [] ∧
      (s.escalate e).noticesC = s.noticesC.raise 14 [] :=
    fun _ => ⟨rfl, rfl⟩
  unfold configure Lsu.escFor
  rcases Nat.eq_zero_or_pos imp with rfl | pos
  · by_cases h : s.lsu.esc = .unconfigured
    · simp [h]
    · simp [h, moved, Ne.symm h]
  · by_cases h : s.lsu.esc = .unconfigured
    · simp [h, pos, moved, Nat.ne_of_gt pos]
    · simp [h, pos, Nat.ne_of_gt pos]

/-- The limit supervisor after an accepted SET LIMITS (R6, R7, R10, R11, R14, R21). -/
def Lsu.afterSetLimits (l : Lsu) (c : ClampedLimits) : Lsu :=
  let e := if l.line = .asserted then c.lRed else c.lImp
  let esc := l.escFor c.lImp
  { l with
    lImp := c.lImp, lRed := c.lRed, lExp := c.lExp, margin := c.margin, lFb := c.lFb, tLive := c.tLive
    limitsValid := decide (0 < c.lImp)
    lease := if 0 < c.lImp ∧ 0 < c.tLive then .live else .off
    leaseCount := if 0 < c.lImp then c.tLive else 0
    lEff := e
    checkLimit := l.checkAfter e
    esc
    trip := if esc = l.esc then l.trip else false
    cleanCount := if c.lImp = 0 ∨ esc ≠ l.esc then 0 else l.cleanCount
    graceCount := if c.lImp = 0 ∨ esc ≠ l.esc then 0 else l.graceCount }

/-- The limit set replaced and the lease restarted, in one record (R7, R11). -/
theorem Lsu.withLimits_eq (l : Lsu) (c : ClampedLimits) :
    l.withLimits c = { l with
      lImp := c.lImp, lRed := c.lRed, lExp := c.lExp, margin := c.margin, lFb := c.lFb, tLive := c.tLive
      limitsValid := decide (0 < c.lImp)
      lease := if 0 < c.lImp ∧ 0 < c.tLive then .live else .off
      leaseCount := if 0 < c.lImp then c.tLive else 0 } := by
  unfold withLimits restartLease
  rcases Nat.eq_zero_or_pos c.lImp with h | h
  · simp [h]
  · rcases Nat.eq_zero_or_pos c.tLive with k | k
    · simp [h, k]
    · simp [h, k]

/-- A lease just restarted is not LAPSED: L_eff is the base limit (R10). -/
theorem Lsu.limitFor_restarted (l : Lsu) (line : Line) (b : Prop) [Decidable b] :
    l.limitFor line (if b then .live else .off) = if line = .asserted then l.lRed else l.lImp := by
  unfold limitFor
  split
  · rfl
  · rfl

end Sys2Proof.Machine
end

section
/-! SUPPORT. The commands of Chapter 1 and SET SITE, settled: LIMREQ_N, SET LIMITS, RENEW LIMIT, SET SITE. -/

namespace Sys2Proof.Machine

open Sys2Proof State

set_option Elab.async false

variable {s t : State}

/-! ## The limit request line -/

/-- An edge leaves the new line state with L_eff and check limit by R10 and R14. -/
theorem State.lineEdge_lsu :
    s.lineEdge.lsu = { s.lsu with
      line := lineOf s.lsu.limreqLow, debounce := 0
      lEff := s.lsu.limitFor (lineOf s.lsu.limreqLow) s.lsu.lease
      checkLimit := s.lsu.checkAfter (s.lsu.limitFor (lineOf s.lsu.limreqLow) s.lsu.lease) } := by
  unfold lineEdge
  rw [sendRecompute_lsu, raise_lsu, withLsu_lsu, Lsu.republish_eq, Lsu.effective_eq_limitFor]
  rfl

theorem State.lineEdge_noticesS : s.lineEdge.noticesS = s.noticesS.raise 11 [] :=
  sendRecompute_only .noticesS (by decide)

theorem State.lineEdge_asks : s.asksRecompute s.lineEdge :=
  sendRecompute_asks rfl rfl

/-! ## SET LIMITS -/

theorem setLimitsOp_refused {x : LimitsOperand} (h : (clampLimits x).lImp = 0 ∧ s.lsu.esc = .tripped) :
    setLimitsOp x s = s.turnDown .s .refused .state := if_pos h

theorem setLimitsOp_accepted {x : LimitsOperand} (h : ¬((clampLimits x).lImp = 0 ∧ s.lsu.esc = .tripped)) :
    setLimitsOp x s = (s.acceptLimits (clampLimits x)).ok .s (limitsClamped x) [] := if_neg h

theorem State.acceptLimits_lsu (c : ClampedLimits) : (s.acceptLimits c).lsu = s.lsu.afterSetLimits c := by
  unfold acceptLimits Lsu.afterSetLimits
  dsimp only
  rw [sendRecompute_lsu, withLsu_lsu, Lsu.republish_eq, Lsu.effective_eq_limitFor, configure_lsu, withLsu_lsu,
    Lsu.withLimits_eq, Lsu.limitFor_restarted]
  rfl

theorem State.acceptLimits_asks (c : ClampedLimits) : s.asksRecompute (s.acceptLimits c) := by
  have only := configure_only (s := s.withLsu (s.lsu.withLimits c)) c.lImp
  exact sendRecompute_asks (only .cmu (by decide)) (only .requests (by decide))

/-- ESCALATION is raised on both ports by a move of the escalation state and by nothing else (R31). -/
theorem State.acceptLimits_notices (c : ClampedLimits) :
    (s.lsu.escFor c.lImp = s.lsu.esc →
      (s.acceptLimits c).noticesS = s.noticesS ∧ (s.acceptLimits c).noticesC = s.noticesC) ∧
    (s.lsu.escFor c.lImp ≠ s.lsu.esc →
      (s.acceptLimits c).noticesS = s.noticesS.raise 14 [] ∧
      (s.acceptLimits c).noticesC = s.noticesC.raise 14 []) := by
  have esc : (s.lsu.withLimits c).escFor c.lImp = s.lsu.escFor c.lImp := by rw [Lsu.withLimits_eq]; rfl
  have same : (s.lsu.withLimits c).esc = s.lsu.esc := by rw [Lsu.withLimits_eq]
  have moved := configure_notices (s := s.withLsu (s.lsu.withLimits c)) c.lImp
  rw [withLsu_lsu, esc, same] at moved
  unfold acceptLimits
  dsimp only
  rw [sendRecompute_only .noticesS (by decide), sendRecompute_only .noticesC (by decide)]
  exact moved

/-- The clamps of R6 in their order: L_red and L_fb fall under the clamped L_imp, which is at most the greatest
limit. -/
theorem clampLimits_eq (x : LimitsOperand) :
    clampLimits x =
      { lImp := min x.lImp.toNat 4000000
        lRed := min x.lRed.toNat (min x.lImp.toNat 4000000)
        lExp := min x.lExp.toNat 4000000
        margin := min x.margin.toNat 200000
        lFb := min x.lFb.toNat (min x.lImp.toNat 4000000)
        tLive := min x.tLive.toNat 3600 } := by
  have top (a b : Nat) : min (min a limitMax) (min b limitMax) = min a (min b 4000000) := by
    unfold limitMax; omega
  simp only [clampLimits, top]
  rfl

theorem limitsClamped_eq (x : LimitsOperand) :
    limitsClamped x = decide (¬(x.lImp.toNat = (clampLimits x).lImp ∧ x.lRed.toNat = (clampLimits x).lRed ∧
      x.lExp.toNat = (clampLimits x).lExp ∧ x.margin.toNat = (clampLimits x).margin ∧
      x.lFb.toNat = (clampLimits x).lFb ∧ x.tLive.toNat = (clampLimits x).tLive)) := by
  unfold limitsClamped
  generalize clampLimits x = c
  obtain ⟨_, _, _, _, _, _⟩ := c
  rw [bne, beq_eq_decide, ← decide_not, decide_eq_decide, ClampedLimits.mk.injEq]
  simp only [eq_comm]

/-! ## RENEW LIMIT -/

theorem renewLimitOp_refused (h : s.lsu.limitsValid = false) :
    renewLimitOp s = s.turnDown .s .refused .state := if_pos h

/-- A LIVE lease is reloaded (R13). -/
theorem renewLimitOp_live (h : s.lsu.limitsValid = true) (l : s.lsu.lease = .live) :
    renewLimitOp s = (s.withLsu { s.lsu with leaseCount := s.lsu.tLive }).ok .s false [] := by
  simp [renewLimitOp, h, l]

/-- A LAPSED lease is revived (R13). -/
theorem renewLimitOp_lapsed (h : s.lsu.limitsValid = true) (l : s.lsu.lease = .lapsed) :
    renewLimitOp s =
      ((s.withLsu { s.lsu with lease := .live, leaseCount := s.lsu.tLive }).republishAndAsk).ok .s false [] := by
  simp [renewLimitOp, h, l]

/-- Without a lease there is nothing to reload (R13). -/
theorem renewLimitOp_off (h : s.lsu.limitsValid = true) (l : s.lsu.lease = .off) :
    renewLimitOp s = s.ok .s false [] := by
  simp [renewLimitOp, h, l]

/-- An accepted RENEW LIMIT is answered OK, whatever the lease. -/
theorem renewLimitOp_answered (h : s.lsu.limitsValid = true) : s.answered .s (okReply false []) (renewLimitOp s) := by
  cases l : s.lsu.lease with
  | off => rw [renewLimitOp_off h l]; exact ok_answered _ _ _ rfl
  | live => rw [renewLimitOp_live h l]; exact ok_answered _ _ _ rfl
  | lapsed =>
    rw [renewLimitOp_lapsed h l]
    exact ok_answered _ _ _ (republishAndAsk_only .replies (by decide))

/-- The limit supervisor with a LAPSED lease revived (R13, R10, R14). -/
def Lsu.revived (l : Lsu) : Lsu :=
  { l with
    lease := .live, leaseCount := l.tLive
    lEff := l.limitFor l.line .live, checkLimit := l.checkAfter (l.limitFor l.line .live) }

theorem renewLimitOp_lapsed_lsu (h : s.lsu.limitsValid = true) (l : s.lsu.lease = .lapsed) :
    (renewLimitOp s).lsu = s.lsu.revived := by
  rw [renewLimitOp_lapsed h l, ok_lsu, republishAndAsk_lsu, withLsu_lsu, Lsu.republish_eq, Lsu.effective_eq_limitFor]
  rfl

/-- A revived lease asks for a recompute when L_eff changes (R13, R16). -/
theorem renewLimitOp_lapsed_requests (h : s.lsu.limitsValid = true) (l : s.lsu.lease = .lapsed) :
    (s.lsu.limitFor s.lsu.line .live = s.lsu.lEff → (renewLimitOp s).requests = s.requests) ∧
    (s.lsu.limitFor s.lsu.line .live ≠ s.lsu.lEff → s.asksRecompute (renewLimitOp s)) := by
  have requests := republishAndAsk_requests (s := s.withLsu { s.lsu with lease := .live, leaseCount := s.lsu.tLive })
  rw [withLsu_lsu, Lsu.effective_eq_limitFor] at requests
  rw [renewLimitOp_lapsed h l]
  constructor
  · intro same
    rw [ok_requests, requests]
    exact if_pos same
  · intro changed
    refine asksRecompute_ok (requests.trans ((if_neg changed).trans ?_))
    exact sendRecompute_asks rfl rfl

/-! ## SET SITE -/

theorem rateOperand_none {b : Byte} (h : b ≠ 1 ∧ b ≠ 2 ∧ b ≠ 3) : rateOperand b = none := by
  obtain ⟨h1, h2, h3⟩ := h
  rw [rateOperand, if_neg h1, if_neg h2, if_neg h3]

theorem setSiteOp_refused {bal v : Word16} {rate reply : Byte} (h : rateOperand rate = none) :
    setSiteOp bal v rate reply s = s.turnDown .s .refused .badValue := by
  simp only [setSiteOp, h]

theorem setSiteOp_accepted {bal v : Word16} {rate reply : Byte} {r : BitRate} (h : rateOperand rate = some r) :
    setSiteOp bal v rate reply s =
      ((s.withSite ⟨clampBalancePeriod bal.toNat, clampTo 200 260 v.toNat⟩).withFlc
        { s.flc with held := ⟨r, clampTo 2 50 reply.toNat⟩ }).ok .s
        (decide (¬(bal.toNat = clampBalancePeriod bal.toNat ∧ v.toNat = clampTo 200 260 v.toNat ∧
          reply.toNat = clampTo 2 50 reply.toNat))) [] := by
  have flag : (Site.mk (clampBalancePeriod bal.toNat) (clampTo 200 260 v.toNat) != ⟨bal.toNat, v.toNat⟩ ||
      clampTo 2 50 reply.toNat != reply.toNat) =
      decide (¬(bal.toNat = clampBalancePeriod bal.toNat ∧ v.toNat = clampTo 200 260 v.toNat ∧
        reply.toNat = clampTo 2 50 reply.toNat)) := by
    rw [bne, bne, beq_eq_decide, beq_eq_decide, ← Bool.not_and, ← Bool.decide_and, ← decide_not, decide_eq_decide,
      Site.mk.injEq, and_assoc]
    simp only [eq_comm]
  simp only [setSiteOp, h, flag]

end Sys2Proof.Machine
end

section
/-! SUPPORT. The statements of Chapter 1 about the contact, SET LIMITS, RENEW LIMIT, and of SET SITE. -/

open Sys2Proof Sys2Proof.Machine Sys2Proof.Machine.State

set_option Elab.async false

/-- Settles O6: the debounce restarts with the level, and an edge is the one case of LIMIT_LINE_EDGE that acts. -/
theorem limitRequestLineDebouncesAndLowersTheLimit : Obligations.LimitRequestLineDebouncesAndLowersTheLimit := by
  refine ⟨fun low s => ⟨_, rfl, execLimreqNChange_only rfl, ?_⟩, fun s => ⟨_, rfl, ?_, ?_, ?_⟩⟩
  · split
    · next same => subst same; rfl
    · rfl
  · exact onlyChanges_mono (execLimitLineEdge_only rfl)
  · exact fun same => if_pos same
  · intro edge
    rw [if_neg (show lineOf s.lsu.limreqLow ≠ s.lsu.line from edge)]
    exact ⟨lineEdge_lsu, lineEdge_noticesS, lineEdge_asks⟩

/-- Settles O8, by the lease state a RENEW LIMIT finds. -/
theorem renewLimitReloadsTheLease : Obligations.RenewLimitReloadsTheLease := by
  refine fun s => ⟨renewLimitOp s, rfl, fun invalid => ?_, fun valid => ?_⟩
  · rw [renewLimitOp_refused invalid]
    exact turnDown_turnedAway .s .refused .state
  · refine ⟨renewLimitOp_answered valid, renewLimitOp_only, fun live => ?_, fun lapsed => ?_, fun off => ?_⟩
    · rw [renewLimitOp_live valid live, ok_lsu, ok_requests]
      exact ⟨rfl, rfl⟩
    · exact ⟨renewLimitOp_lapsed_lsu valid lapsed, renewLimitOp_lapsed_requests valid lapsed⟩
    · rw [renewLimitOp_off valid off, ok_lsu, ok_requests]
      exact ⟨rfl, rfl⟩

/-- Settles O9: the refusal, or the limit set placed with what follows from it. -/
theorem setLimitsReplacesTheLimitSet : Obligations.SetLimitsReplacesTheLimitSet := by
  intro x s
  have clamps := clampLimits_eq x
  refine ⟨setLimitsOp x s, rfl, fun refused => ?_, fun accepted => ?_⟩
  · rw [setLimitsOp_refused (by rw [clamps]; exact refused)]
    exact turnDown_turnedAway .s .refused .state
  · have answer := ok_answered .s (limitsClamped x) []
      (acceptLimits_only (s := s) (clampLimits x) .replies (by decide))
    have only := setLimitsOp_only (s := s) x
    have notices := acceptLimits_notices (s := s) (clampLimits x)
    rw [setLimitsOp_accepted (by rw [clamps]; exact accepted)] at only ⊢
    rw [ok_lsu, ok_noticesS, ok_noticesC, acceptLimits_lsu]
    rw [limitsClamped_eq, clamps] at answer only ⊢
    rw [clamps] at notices
    exact ⟨answer, only, rfl, asksRecompute_ok (acceptLimits_asks _), notices⟩

/-- Settles O28: the rate code refused, or the period and voltage placed and the link settings held. -/
theorem setSiteHoldsTheNewPeriodAndLinkSettings : Obligations.SetSiteHoldsTheNewPeriodAndLinkSettings := by
  intro bal v rate reply s
  refine ⟨setSiteOp bal v rate reply s, rfl, fun unknown => ?_, fun r known => ?_⟩
  · rw [setSiteOp_refused (rateOperand_none unknown)]
    exact turnDown_turnedAway .s .refused .badValue
  · have only := setSiteOp_only (s := s) bal v rate reply
    rw [setSiteOp_accepted known] at only ⊢
    refine ⟨ok_answered _ _ _ rfl, only, ?_, ?_⟩
    · rw [ok_site]; rfl
    · rw [ok_flc]; rfl

end

section
/-! SUPPORT. A period close at the meter and at the limit supervisor (R2, R3, R14, R15, R20 to R30). -/

namespace Sys2Proof.Machine

open Sys2Proof State

set_option Elab.async false

variable {s t : State}

/-! ## What a judgement does to the limit supervisor -/

/-- The limit supervisor after a judgement: the machine by `machineAfter`, TRIP by the state it moves to (R27). -/
def Lsu.judged (l : Lsu) (j : Judgement) : Lsu :=
  let m := l.machineAfter j
  { l with
    esc := m.esc, cleanCount := m.clean, graceCount := m.grace, latchS := m.latchS, latchC := m.latchC
    trip := if m.esc = l.esc then l.trip else m.esc == .tripped }

theorem State.enterShed_lsu : s.enterShed.lsu = (s.escalate .shed).lsu := allZeroRequest_only .lsu (by decide)

theorem State.enterTripped_lsu :
    s.enterTripped.lsu = { (s.escalate .tripped).lsu with latchS := false, latchC := false } := by
  unfold enterTripped
  dsimp only
  rw [withSsu_lsu, allZeroRequest_only .lsu (by decide), withLsu_lsu, raiseBoth_lsu]

theorem State.completeRelease_lsu :
    s.completeRelease.lsu = { (s.escalate .curtail).lsu with latchS := false, latchC := false } := rfl

/-- A move to another escalation state, with the latches as they stand. -/
theorem Lsu.judged_of_entered {l : Lsu} {j : Judgement} {e : Escalation}
    (m : l.machineAfter j = ⟨e, 0, 0, l.latchS, l.latchC⟩) (ne : e ≠ l.esc) :
    l.judged j = { l with esc := e, trip := e == .tripped, cleanCount := 0, graceCount := 0 } := by
  simp [judged, m, ne]

/-- A judgement that leaves the machine as it stands. -/
theorem Lsu.judged_of_stays {l : Lsu} {j : Judgement} (m : l.machineAfter j = l.machine) : l.judged j = l := by
  simp [judged, m, machine]

theorem State.countClean_lsu (e : Escalation) :
    (s.countClean e).lsu =
      if s.lsu.tClear ≤ s.lsu.cleanCount + 1 then (s.escalate e).lsu
      else { s.lsu with cleanCount := min 255 (s.lsu.cleanCount + 1) } := by
  unfold countClean
  split
  · rfl
  · rfl

theorem State.judgeCurtail_lsu (h : s.lsu.esc = .curtail) (j : Judgement) :
    (s.judgeCurtail j).lsu = s.lsu.judged j := by
  cases j with
  | unjudged => exact (Lsu.judged_of_stays (l := s.lsu) (by simp [Lsu.machineAfter])).symm
  | clean =>
    rw [judgeCurtail, countClean_lsu]
    split
    · next full => exact (Lsu.judged_of_entered (by simp [Lsu.machineAfter, h, full]) (by simp [h])).symm
    · next short => simp [Lsu.judged, Lsu.machineAfter, Lsu.machine, h, short]
  | excess =>
    exact enterShed_lsu.trans (Lsu.judged_of_entered (by simp [Lsu.machineAfter, h]) (by simp [h])).symm
  | missing => exact (Lsu.judged_of_stays (l := s.lsu) (by simp [Lsu.machineAfter, h])).symm

theorem State.judgeShed_lsu (h : s.lsu.esc = .shed) {j : Judgement} (judged : j ≠ .unjudged) :
    (s.judgeShed j).lsu = s.lsu.judged j := by
  unfold judgeShed
  split
  · next grace => cases j <;> simp_all [Lsu.judged, Lsu.machineAfter, Lsu.machine]
  · next passed =>
    cases j with
    | unjudged => exact absurd rfl judged
    | clean =>
      rw [countClean_lsu]
      split
      · next full => exact (Lsu.judged_of_entered (by simp [Lsu.machineAfter, h, passed, full]) (by simp [h])).symm
      · next short => simp [Lsu.judged, Lsu.machineAfter, Lsu.machine, h, passed, short]
    | excess => simp [enterTripped_lsu, escalate_lsu, Lsu.judged, Lsu.machineAfter, h, passed]
    | missing => exact (Lsu.judged_of_stays (l := s.lsu) (by simp [Lsu.machineAfter, h, passed])).symm

theorem State.judgeTripped_lsu (h : s.lsu.esc = .tripped) (j : Judgement) :
    (s.judgeTripped j).lsu = s.lsu.judged j := by
  cases j with
  | unjudged => exact (Lsu.judged_of_stays (l := s.lsu) (by simp [Lsu.machineAfter])).symm
  | clean =>
    unfold judgeTripped
    dsimp only
    split
    · next both =>
      obtain ⟨latchS, latchC⟩ := Bool.and_eq_true_iff.mp both
      simp [completeRelease_lsu, escalate_lsu, Lsu.judged, Lsu.machineAfter, h, latchS, latchC]
    · next one =>
      have one : ¬(s.lsu.latchS = true ∧ s.lsu.latchC = true) := by rwa [← Bool.and_eq_true]
      exact (Lsu.judged_of_stays (l := s.lsu) (by simp only [Lsu.machineAfter, h, if_neg one])).symm
  | excess => simp [judgeTripped, Lsu.judged, Lsu.machineAfter, Lsu.machine, h]
  | missing => exact (Lsu.judged_of_stays (l := s.lsu) (by simp [Lsu.machineAfter, h])).symm

/-- A judgement moves the limit supervisor as the table of `machineAfter` says (R20, R22, R24, R26, R27, R29, R30). -/
theorem State.applyJudgement_lsu (j : Judgement) : (s.applyJudgement j).lsu = s.lsu.judged j := by
  unfold applyJudgement
  split
  · next unjudged =>
    subst unjudged
    exact (Lsu.judged_of_stays (l := s.lsu) (by unfold Lsu.machineAfter; split <;> simp_all)).symm
  · next judged =>
    cases h : s.lsu.esc with
    | unconfigured =>
      exact (Lsu.judged_of_stays (l := s.lsu) (by cases j <;> simp [Lsu.machineAfter, h])).symm
    | normal =>
      dsimp only
      split
      · next excess =>
        exact (Lsu.judged_of_entered (by simp [Lsu.machineAfter, h, excess]) (by simp [h])).symm
      · next fine =>
        exact (Lsu.judged_of_stays (l := s.lsu) (by cases j <;> simp_all [Lsu.machineAfter])).symm
    | curtail => exact judgeCurtail_lsu h j
    | shed => exact judgeShed_lsu h judged
    | tripped => exact judgeTripped_lsu h j

/-! ## The close -/

/-- The limit supervisor after a close: judged, with the check limit of the next period (R14, R20). -/
theorem State.closePeriod_lsu (r : Reading) :
    (s.closePeriod r).lsu = { s.lsu.judged (s.lsu.judge r) with checkLimit := s.lsu.lEff } := by
  unfold closePeriod
  dsimp only
  rw [withFlc_lsu, finalWaitTicks_only .lsu (by decide), withLsu_lsu, send_only _ .lsu (by decide),
    applyJudgement_lsu, withCmu_lsu]
  rfl

theorem State.closePeriod_cmu (r : Reading) :
    (s.closePeriod r).cmu = s.cmu.close s.site.tBal r (s.lsu.judge r) := by
  unfold closePeriod
  dsimp only
  rw [withFlc_cmu, finalWaitTicks_only .cmu (by decide), withLsu_cmu, send_only _ .cmu (by decide),
    applyJudgement_only _ .cmu (by decide), withCmu_cmu]

/-- The reading is handed to the balance unit, and nothing else is (R4). -/
theorem State.closePeriod_requests (r : Reading) : (s.closePeriod r).requests = s.requests ++ [.newReading r] := by
  unfold closePeriod
  dsimp only
  rw [withFlc_requests, finalWaitTicks_only .requests (by decide), withLsu_requests]
  unfold send
  rw [withRequests_requests, applyJudgement_only _ .requests (by decide), withCmu_requests]

/-! ## The running average and the reading -/

/-- A stretch counts in both parts of the running average exactly while the front end reports nothing (R2). -/
theorem Cmu.accumulate_eq (x : Cmu) (y : Stretch) :
    x.accumulate y = { x with
      energy := if x.lossOfReference || x.converterFault then x.energy else x.energy + y.energy
      validTime := if x.lossOfReference || x.converterFault then x.validTime else x.validTime + y.ms } := by
  unfold accumulate
  split
  · rfl
  · rfl

/-- A reading carries the number of the period that closes (R3). -/
theorem Cmu.formReading_period (x : Cmu) : x.formReading.period = x.periodNumber + 1 := by
  unfold formReading
  dsimp only
  split_ifs <;> rfl

/-- The quality of a reading decides its judgement only by MISSING (R15). -/
theorem Lsu.judge_eq (l : Lsu) (r : Reading) :
    l.judge r =
      if l.limitsValid = false then .unjudged
      else if r.quality = .missing then .missing
      else if (l.checkLimit : Int) < r.pGrid then .excess
      else .clean := by
  unfold judge
  cases h : r.quality <;> simp

/-- The stretch that ends the period counted in it, then the close. -/
theorem execPeriodClose_eq (x : Stretch) (s : State) :
    execPeriodClose x s =
      .next ((s.withCmu (s.cmu.accumulate x)).closePeriod (s.cmu.accumulate x).formReading) := rfl

end Sys2Proof.Machine
end

section
/-! SUPPORT. The statement of Chapter 1 about the meter. -/

open Sys2Proof Sys2Proof.Machine Sys2Proof.Machine.State

set_option Elab.async false

/-- Settles O3: the running average, then the close with the reading it forms. -/
theorem periodCloseFormsTheReading : Obligations.PeriodCloseFormsTheReading := by
  refine ⟨fun l c x s => ⟨_, rfl, withCmu_only _, ?_⟩, fun x s => ⟨_, rfl, execPeriodClose_only rfl, ?_⟩⟩
  · rw [withCmu_cmu, Cmu.accumulate_eq]
  · dsimp only
    rw [closePeriod_cmu, closePeriod_lsu, closePeriod_requests, Lsu.judge_eq, withCmu_cmu, withCmu_lsu, withCmu_site,
      withCmu_requests, Cmu.accumulate_eq]
    refine ⟨?_, rfl, rfl, rfl⟩
    unfold Cmu.close
    rw [Cmu.formReading_period]
    rfl
end

section
/-! SUPPORT. The limits, the lease and the escalation machine stay consistent: what each operation keeps, then each
command. -/

namespace Sys2Proof.Machine

open Sys2Proof State

set_option Elab.async false

variable {s t : State} {l : Lsu} {j k : Judgement}

/-! ## Limits and lease -/

/-- `LimitsInv` but for the value of L_eff: what a change of limits, line or lease must meet before L_eff is
formed again. -/
structure Lsu.LimitsSound (l : Lsu) : Prop where
  red : l.lRed ≤ l.lImp
  fallback : l.lFb ≤ l.lImp
  top : l.lImp ≤ 4000000
  valid : l.limitsValid = decide (0 < l.lImp)
  configured : l.esc = .unconfigured ↔ l.limitsValid = false
  check : l.lEff ≤ l.checkLimit ∧ l.checkLimit ≤ 4000000
  leased : l.lease ≠ .off → 0 < l.tLive ∧ l.limitsValid = true
  counted : l.lease = .live → 0 < l.leaseCount ∧ l.leaseCount ≤ l.tLive
  idle : l.lease ≠ .live → l.leaseCount = 0

theorem LimitsInv.sound (h : LimitsInv s) : s.lsu.LimitsSound :=
  ⟨h.red, h.fallback, h.top, h.valid, h.configured, h.check, h.leased, h.counted, h.idle⟩

theorem Lsu.LimitsSound.limitsInv (h : s.lsu.LimitsSound) (e : s.lsu.lEff = s.lsu.effective) : LimitsInv s :=
  ⟨h.red, h.fallback, h.top, h.valid, h.configured, e, h.check, h.leased, h.counted, h.idle⟩

/-- Every limit R10 can choose is at most L_imp. -/
theorem Lsu.LimitsSound.effective_le (h : l.LimitsSound) : l.effective ≤ l.lImp := by
  have base : l.base ≤ l.lImp := by
    unfold Lsu.base
    split
    · exact h.red
    · exact Nat.le_refl _
  unfold Lsu.effective
  split
  · exact Nat.le_trans (Nat.min_le_left _ _) base
  · exact base
  · exact base

/-- L_eff formed again leaves the check limit between L_eff and the greatest limit (R14). -/
theorem Lsu.LimitsSound.republish (h : l.LimitsSound) : l.republish.LimitsSound := by
  have le := h.effective_le
  have top := h.top
  have check := h.check
  rw [Lsu.republish_eq]
  refine { h with check := ?_ }
  show l.effective ≤ l.checkAfter l.effective ∧ l.checkAfter l.effective ≤ 4000000
  unfold Lsu.checkAfter
  split <;> omega

/-- Sound limits whose L_eff has just been formed meet the invariant. -/
theorem LimitsInv.of_republish (h : l.LimitsSound) (e : t.lsu = l.republish) : LimitsInv t := by
  refine Lsu.LimitsSound.limitsInv (e ▸ h.republish) ?_
  rw [e, Lsu.republish_lEff, Lsu.republish_eq]
  rfl

theorem LimitsInv.of_lsu (h : LimitsInv s) (e : t.lsu = s.lsu) : LimitsInv t :=
  (e ▸ h.sound).limitsInv (e ▸ h.effective)

/-! ## The escalation machine -/

/-- `EscalationInv` but for the trip line, of a machine beside the judgement of the latest reading. -/
structure MachineState.Consistent (m : MachineState) (j : Judgement) : Prop where
  latches : m.esc ≠ .tripped → m.latchS = false ∧ m.latchC = false
  clean : m.esc = .curtail ∨ m.esc = .shed ∨ m.clean = 0
  grace : m.esc = .shed ∨ m.grace = 0
  release : ¬(m.esc = .tripped ∧ m.latchS = true ∧ m.latchC = true ∧ j = .clean)

theorem EscalationInv.consistent (h : EscalationInv s) : s.lsu.machine.Consistent s.cmu.judgement :=
  ⟨h.latches, h.clean, h.grace, h.release⟩

theorem MachineState.Consistent.escalationInv (h : s.lsu.machine.Consistent s.cmu.judgement)
    (trip : s.lsu.trip = true ↔ s.lsu.esc = .tripped) : EscalationInv s :=
  ⟨trip, h.latches, h.clean, h.grace, h.release⟩

/-- What moves neither the machine, the trip line nor the judgement keeps the invariant. -/
theorem EscalationInv.of_machine (h : EscalationInv s) (machine : t.lsu.machine = s.lsu.machine)
    (trip : t.lsu.trip = s.lsu.trip) (judgement : t.cmu.judgement = s.cmu.judgement) : EscalationInv t := by
  have esc : t.lsu.esc = s.lsu.esc := congrArg MachineState.esc machine
  refine MachineState.Consistent.escalationInv ?_ ?_
  · rw [machine, judgement]; exact h.consistent
  · rw [trip, esc]; exact h.trip

/-- A state just entered, with its counts and latches clear. -/
theorem MachineState.consistent_entered (e : Escalation) (j : Judgement) :
    MachineState.Consistent ⟨e, 0, 0, false, false⟩ j :=
  ⟨fun _ => ⟨rfl, rfl⟩, .inr (.inr rfl), .inr rfl, fun h => Bool.noConfusion h.2.1⟩

/-- Outside TRIPPED the latches are clear, so a move from there enters its state with them clear. -/
theorem MachineState.Consistent.entered (h : l.machine.Consistent k) (ne : l.esc ≠ .tripped) (e : Escalation)
    (j : Judgement) : MachineState.Consistent ⟨e, 0, 0, l.latchS, l.latchC⟩ j := by
  obtain ⟨latchS, latchC⟩ : l.latchS = false ∧ l.latchC = false := h.latches ne
  rw [latchS, latchC]
  exact consistent_entered e j

/-- Outside TRIPPED the judgement does not matter. -/
theorem MachineState.Consistent.rejudged {m : MachineState} (h : m.Consistent k) (ne : m.esc ≠ .tripped)
    (j : Judgement) : m.Consistent j :=
  { h with release := fun x => ne x.1 }

/-- The clean count may run in CURTAIL and SHED (R22, R24). -/
theorem MachineState.Consistent.withClean {m : MachineState} (h : m.Consistent k)
    (counts : m.esc = .curtail ∨ m.esc = .shed) (n : Nat) (j : Judgement) : { m with clean := n }.Consistent j where
  latches := h.latches
  clean := counts.imp_right .inl
  grace := h.grace
  release x := by rcases counts with e | e <;> simp [e] at x

/-- The grace count may run in SHED (R24). -/
theorem MachineState.Consistent.withGrace {m : MachineState} (h : m.Consistent k) (shed : m.esc = .shed) (n : Nat)
    (j : Judgement) : { m with grace := n }.Consistent j where
  latches := h.latches
  clean := h.clean
  grace := .inl shed
  release x := by simp [shed] at x

/-- Both latches cleared: no release is left open (R30). -/
theorem MachineState.Consistent.unlatched {m : MachineState} (h : m.Consistent k) (j : Judgement) :
    { m with latchS := false, latchC := false }.Consistent j where
  latches _ := ⟨rfl, rfl⟩
  clean := h.clean
  grace := h.grace
  release x := Bool.noConfusion x.2.1

/-- A judgement keeps the machine consistent, beside the judgement itself (R20, R22, R24, R26, R29, R30). -/
theorem Lsu.machineAfter_consistent (h : l.machine.Consistent k) (j : Judgement) : (l.machineAfter j).Consistent j := by
  have stays (ne : l.esc ≠ .tripped) : l.machine.Consistent j := h.rejudged ne j
  unfold machineAfter
  split
  · exact { h with release := fun x => nomatch x.2.2.2 }
  · next esc _ => exact stays (by simp [esc])
  · next esc => exact h.entered (by simp [esc]) _ _
  · next esc _ _ => exact stays (by simp [esc])
  · next esc => exact h.entered (by simp [esc]) _ _
  · next esc =>
    split
    · exact h.entered (by simp [esc]) _ _
    · exact h.withClean (.inl esc) _ _
  · next esc => exact stays (by simp [esc])
  · next esc _ =>
    split
    · exact h.withGrace esc _ _
    split
    · exact MachineState.consistent_entered _ _
    · split
      · exact h.entered (by simp [esc]) _ _
      · exact h.withClean (.inr esc) _ _
    · exact stays (by simp [esc])
  · exact h.unlatched _
  · split
    · exact MachineState.consistent_entered _ _
    · next one => exact { h with release := fun x => one ⟨x.2.1, x.2.2.1⟩ }
  · exact { h with release := fun x => nomatch x.2.2.2 }

/-- A judgement configures nothing: UNCONFIGURED is neither entered nor left (R21). -/
theorem Lsu.machineAfter_unconfigured (l : Lsu) (j : Judgement) :
    (l.machineAfter j).esc = .unconfigured ↔ l.esc = .unconfigured := by
  unfold machineAfter
  split <;> grind [machine]

theorem Lsu.judged_trip (h : l.trip = true ↔ l.esc = .tripped) (j : Judgement) :
    (l.judged j).trip = true ↔ (l.judged j).esc = .tripped := by
  show (if (l.machineAfter j).esc = l.esc then l.trip else (l.machineAfter j).esc == .tripped) = true ↔
    (l.machineAfter j).esc = .tripped
  split
  · next same => rw [same]; exact h
  · exact beq_iff_eq

/-! ## The operations -/

/-- The two invariants of the limit supervisor. -/
def State.Governed (s : State) : Prop := LimitsInv s ∧ EscalationInv s

/-- Of the meter only the judgement counts. -/
theorem State.Governed.of_meter (h : s.Governed) (lsu : t.lsu = s.lsu)
    (judgement : t.cmu.judgement = s.cmu.judgement) : t.Governed :=
  ⟨h.1.of_lsu lsu, h.2.of_machine (by rw [lsu]) (by rw [lsu]) judgement⟩

/-- What leaves the limit supervisor and the meter alone keeps both. -/
theorem State.Governed.of_only {fs : List Field} (h : s.Governed) (o : s.onlyChanges fs t)
    (lsu : .lsu ∉ fs := by decide) (cmu : .cmu ∉ fs := by decide) : t.Governed :=
  h.of_meter (o .lsu lsu) (congrArg Cmu.judgement (o .cmu cmu))

theorem State.Governed.ok (h : s.Governed) (p : Port) (b : Bool) (r : List Byte) : (s.ok p b r).Governed :=
  h.of_only (ok_only p b r)

theorem State.Governed.accepted (h : s.Governed) (p : Port) (r : List Byte) : (s.accepted p r).Governed :=
  h.of_only (accepted_only p r)

theorem State.Governed.turnDown (h : s.Governed) (p : Port) (a : Status) (b : Reason) : (s.turnDown p a b).Governed :=
  h.of_only (turnDown_only p a b)

/-- L_eff formed again over sound limits, with the machine as it stands. -/
theorem State.Governed.of_republish (h : s.Governed) (sound : l.LimitsSound) (e : t.lsu = l.republish)
    (machine : l.machine = s.lsu.machine) (trip : l.trip = s.lsu.trip) (cmu : t.cmu = s.cmu) : t.Governed := by
  refine ⟨.of_republish sound e, h.2.of_machine ?_ ?_ (by rw [cmu])⟩
  · rw [e, Lsu.republish_eq]; exact machine
  · rw [e, Lsu.republish_eq]; exact trip

/-- A close: the judgement moves the machine, the check limit becomes L_eff (R14, R15, R20). -/
theorem State.Governed.closePeriod (h : s.Governed) (r : Reading) : (s.closePeriod r).Governed := by
  obtain ⟨limits, escalation⟩ := h
  have lsu := closePeriod_lsu (s := s) r
  have sound : Lsu.LimitsSound { s.lsu.judged (s.lsu.judge r) with checkLimit := s.lsu.lEff } :=
    { limits.sound with
      configured := (s.lsu.machineAfter_unconfigured _).trans limits.configured
      check := ⟨Nat.le_refl _, Nat.le_trans limits.check.1 limits.check.2⟩ }
  constructor
  · refine Lsu.LimitsSound.limitsInv (lsu ▸ sound) ?_
    rw [lsu]
    exact limits.effective
  · refine MachineState.Consistent.escalationInv ?_ ?_
    · rw [lsu, closePeriod_cmu]
      exact Lsu.machineAfter_consistent escalation.consistent _
    · rw [lsu]
      exact Lsu.judged_trip escalation.trip _

/-- The lapse of a LIVE lease (R12). -/
theorem State.Governed.lapse (h : s.Governed) (live : s.lsu.lease = .live) : s.lapse.Governed := by
  have sound : Lsu.LimitsSound { s.lsu with lease := .lapsed, leaseCount := 0 } :=
    { h.1.sound with
      leased := fun _ => h.1.leased (by simp [live])
      counted := fun x => nomatch x
      idle := fun _ => rfl }
  refine h.of_republish sound ?_ rfl rfl (lapse_only .cmu (by decide))
  unfold State.lapse
  rw [republishAndAsk_lsu, raise_lsu, withLsu_lsu]

/-- A new count of a LIVE lease (R11, R13; that it is above 0 at T_live 1 is log entry 44). -/
theorem State.Governed.recount (h : s.Governed) (live : s.lsu.lease = .live) {n : Nat} (pos : 0 < n)
    (le : n ≤ s.lsu.tLive) : (s.withLsu { s.lsu with leaseCount := n }).Governed :=
  ⟨{ h.1 with counted := fun _ => ⟨pos, le⟩, idle := fun x => absurd live x }, { h.2 with }⟩

/-- The lease at a second tick (R11, R12). -/
theorem State.Governed.leaseTick (h : s.Governed) : s.leaseTick.Governed := by
  unfold State.leaseTick
  split
  · next live =>
    have count := (h.1.counted live).2
    split
    · exact h.lapse live
    · next more => exact h.recount live (by omega) (by omega)
  · exact h
  · exact h

/-- RENEW LIMIT, by the lease it finds (R13). -/
theorem State.Governed.renewLimit (h : s.Governed) : (renewLimitOp s).Governed := by
  by_cases valid : s.lsu.limitsValid = true
  · cases lease : s.lsu.lease with
    | off =>
      rw [renewLimitOp_off valid lease]
      exact h.ok _ _ _
    | live =>
      rw [renewLimitOp_live valid lease]
      exact (h.recount lease (h.1.leased (by simp [lease])).1 (Nat.le_refl _)).ok _ _ _
    | lapsed =>
      have leased := h.1.leased (by simp [lease])
      have sound : Lsu.LimitsSound { s.lsu with lease := .live, leaseCount := s.lsu.tLive } :=
        { h.1.sound with
          leased := fun _ => leased
          counted := fun _ => ⟨leased.1, Nat.le_refl _⟩
          idle := fun x => absurd rfl x }
      rw [renewLimitOp_lapsed valid lease]
      have revived : (s.withLsu { s.lsu with lease := .live, leaseCount := s.lsu.tLive }).republishAndAsk.Governed :=
        h.of_republish sound republishAndAsk_lsu rfl rfl (republishAndAsk_only .cmu (by decide))
      exact revived.ok _ _ _
  · rw [renewLimitOp_refused (by simpa using valid)]
    exact h.turnDown _ _ _

/-- An edge of the limit request line (R9). -/
theorem State.Governed.lineEdge (h : s.Governed) : s.lineEdge.Governed := by
  have sound : Lsu.LimitsSound { s.lsu with line := lineOf s.lsu.limreqLow, debounce := 0 } := { h.1.sound with }
  refine h.of_republish sound ?_ rfl rfl (lineEdge_only .cmu (by decide))
  unfold State.lineEdge
  rw [sendRecompute_lsu, raise_lsu, withLsu_lsu]

/-! ## SET LIMITS -/

/-- The clamps of R6 order the limits. -/
theorem clampLimits_le (x : LimitsOperand) :
    (clampLimits x).lRed ≤ (clampLimits x).lImp ∧ (clampLimits x).lFb ≤ (clampLimits x).lImp ∧
      (clampLimits x).lImp ≤ 4000000 := by
  rw [clampLimits_eq]
  dsimp only
  omega

theorem Lsu.escFor_unconfigured (l : Lsu) (imp : Nat) : l.escFor imp = .unconfigured ↔ imp = 0 := by
  unfold escFor
  split_ifs with zero esc
  · simp [zero]
  · simp [zero]
  · simp [zero, esc]

/-- UNCONFIGURED and NORMAL are the only states SET LIMITS moves to (R21). -/
theorem Lsu.escFor_cases (l : Lsu) (imp : Nat) :
    l.escFor imp = l.esc ∨ l.escFor imp = .unconfigured ∨ l.escFor imp = .normal := by
  unfold escFor
  split_ifs
  · exact .inr (.inl rfl)
  · exact .inr (.inr rfl)
  · exact .inl rfl

theorem Lsu.LimitsSound.afterSetLimits (h : l.LimitsSound) {c : ClampedLimits}
    (le : c.lRed ≤ c.lImp ∧ c.lFb ≤ c.lImp ∧ c.lImp ≤ 4000000) : (l.afterSetLimits c).LimitsSound := by
  obtain ⟨red, fallback, top⟩ := le
  have check := h.check
  exact
    { red, fallback, top
      valid := rfl
      configured := (l.escFor_unconfigured c.lImp).trans (by simp [Lsu.afterSetLimits])
      check := by
        simp only [Lsu.afterSetLimits, Lsu.checkAfter]
        split_ifs <;> omega
      leased := by simp +contextual [Lsu.afterSetLimits]; omega
      counted := by simp +contextual [Lsu.afterSetLimits]; omega
      idle := by simp [Lsu.afterSetLimits] }

theorem Lsu.afterSetLimits_effective (l : Lsu) (c : ClampedLimits) :
    (l.afterSetLimits c).lEff = (l.afterSetLimits c).effective := by
  rw [effective_eq_limitFor]
  exact (limitFor_restarted (l.afterSetLimits c) l.line (0 < c.lImp ∧ 0 < c.tLive)).symm

/-- The machine after SET LIMITS: entered anew, or as it stood. -/
theorem Lsu.afterSetLimits_consistent (h : l.machine.Consistent j) {c : ClampedLimits}
    (accepted : ¬(c.lImp = 0 ∧ l.esc = .tripped)) : (l.afterSetLimits c).machine.Consistent j := by
  by_cases anew : c.lImp = 0 ∨ l.escFor c.lImp ≠ l.esc
  · have ne : l.esc ≠ .tripped := by
      intro tripped
      rcases anew with zero | moved
      · exact accepted ⟨zero, tripped⟩
      · have pos : c.lImp ≠ 0 := fun zero => accepted ⟨zero, tripped⟩
        simp [escFor, pos, tripped] at moved
    simpa [machine, afterSetLimits, anew] using h.entered ne (l.escFor c.lImp) j
  · obtain ⟨pos, same⟩ := not_or.mp anew
    simpa [machine, afterSetLimits, pos, not_not.mp same] using h

theorem Lsu.afterSetLimits_trip (h : l.trip = true ↔ l.esc = .tripped) (c : ClampedLimits) :
    (l.afterSetLimits c).trip = true ↔ (l.afterSetLimits c).esc = .tripped := by
  show (if l.escFor c.lImp = l.esc then l.trip else false) = true ↔ l.escFor c.lImp = .tripped
  split
  · next same => rw [same]; exact h
  · next moved =>
    have target := (l.escFor_cases c.lImp).resolve_left moved
    rcases target with e | e <;> simp [e]

/-- SET LIMITS, refused or accepted (R6, R7, R10, R11, R14, R21). -/
theorem State.Governed.setLimits (h : s.Governed) (x : LimitsOperand) : (setLimitsOp x s).Governed := by
  obtain ⟨limits, escalation⟩ := h
  by_cases refused : (clampLimits x).lImp = 0 ∧ s.lsu.esc = .tripped
  · rw [setLimitsOp_refused refused]
    exact Governed.turnDown ⟨limits, escalation⟩ _ _ _
  · rw [setLimitsOp_accepted refused]
    refine Governed.ok ⟨?_, ?_⟩ _ _ _
    · refine Lsu.LimitsSound.limitsInv ?_ ?_
      · rw [acceptLimits_lsu]
        exact limits.sound.afterSetLimits (clampLimits_le x)
      · rw [acceptLimits_lsu]
        exact Lsu.afterSetLimits_effective _ _
    · refine MachineState.Consistent.escalationInv ?_ ?_
      · rw [acceptLimits_lsu, acceptLimits_only _ .cmu (by decide)]
        exact Lsu.afterSetLimits_consistent escalation.consistent refused
      · rw [acceptLimits_lsu]
        exact Lsu.afterSetLimits_trip escalation.trip _

/-! ## RELEASE TRIP -/

theorem releaseTripOp_refused {p : Port} (h : s.lsu.esc ≠ .tripped) :
    releaseTripOp p s = s.turnDown p .refused .state := if_neg h

/-- The last latch of a release beside a clean reading completes it (R29). -/
theorem releaseTripOp_completes {p : Port} (h : s.lsu.esc = .tripped)
    (ready : (s.lsu.setLatch p).latchS = true ∧ (s.lsu.setLatch p).latchC = true ∧ s.cmu.judgement = .clean) :
    releaseTripOp p s = ((s.withLsu (s.lsu.setLatch p)).completeRelease.sendRecompute).ok p false [] := by
  obtain ⟨latchS, latchC, clean⟩ := ready
  simp [releaseTripOp, h, latchS, latchC, clean]

/-- Else the latch is set and the release waits (R28). -/
theorem releaseTripOp_waits {p : Port} (h : s.lsu.esc = .tripped)
    (short : ¬((s.lsu.setLatch p).latchS = true ∧ (s.lsu.setLatch p).latchC = true ∧ s.cmu.judgement = .clean)) :
    releaseTripOp p s = (s.withLsu (s.lsu.setLatch p)).accepted p [] := by
  simp only [releaseTripOp, if_pos h]
  exact if_neg (by simpa [and_assoc] using short)

theorem Lsu.setLatch_cases (l : Lsu) (p : Port) :
    l.setLatch p = { l with latchS := (l.setLatch p).latchS, latchC := (l.setLatch p).latchC } := by
  cases p <;> rfl

/-- A completed release: CURTAIL, both latches clear (R29). -/
theorem State.Governed.completeRelease (h : s.Governed) (tripped : s.lsu.esc = .tripped) (p : Port) :
    (s.withLsu (s.lsu.setLatch p)).completeRelease.Governed := by
  obtain ⟨limits, _⟩ := h
  have lsu : (s.withLsu (s.lsu.setLatch p)).completeRelease.lsu = { s.lsu with
      esc := .curtail, trip := false, cleanCount := 0, graceCount := 0, latchS := false, latchC := false } := by
    rw [completeRelease_lsu, escalate_lsu, withLsu_lsu, Lsu.setLatch_cases]
    rfl
  constructor
  · have sound : Lsu.LimitsSound { s.lsu with
        esc := .curtail, trip := false, cleanCount := 0, graceCount := 0, latchS := false, latchC := false } :=
      { limits.sound with configured := by simpa [tripped] using limits.configured }
    refine Lsu.LimitsSound.limitsInv (lsu ▸ sound) ?_
    rw [lsu]
    exact limits.effective
  · refine MachineState.Consistent.escalationInv ?_ ?_
    · rw [lsu]
      exact MachineState.consistent_entered .curtail _
    · rw [lsu]
      exact ⟨fun x => Bool.noConfusion x, fun x => nomatch x⟩

/-- A latch set in TRIPPED that does not complete the release (R28). -/
theorem State.Governed.latched (h : s.Governed) (tripped : s.lsu.esc = .tripped) {p : Port}
    (short : ¬((s.lsu.setLatch p).latchS = true ∧ (s.lsu.setLatch p).latchC = true ∧ s.cmu.judgement = .clean)) :
    (s.withLsu (s.lsu.setLatch p)).Governed := by
  rw [Lsu.setLatch_cases]
  exact ⟨{ h.1 with }, { h.2 with
    latches := fun ne => absurd tripped ne
    release := fun x => short x.2 }⟩

/-- RELEASE TRIP: refused, complete, or waiting (R28, R29). -/
theorem State.Governed.releaseTrip (h : s.Governed) (p : Port) : (releaseTripOp p s).Governed := by
  by_cases tripped : s.lsu.esc = .tripped
  · by_cases ready : (s.lsu.setLatch p).latchS = true ∧ (s.lsu.setLatch p).latchC = true ∧ s.cmu.judgement = .clean
    · rw [releaseTripOp_completes tripped ready]
      exact ((h.completeRelease tripped p).of_only sendRecompute_only).ok _ _ _
    · rw [releaseTripOp_waits tripped ready]
      exact (h.latched tripped ready).accepted _ _
  · rw [releaseTripOp_refused tripped]
    exact h.turnDown _ _ _

/-! ## The commands -/

theorem State.Governed.setPolicy (h : s.Governed) (x : PolicyOperand) : (setPolicyOp x s).Governed := by
  unfold setPolicyOp
  split
  · exact h.turnDown _ _ _
  · next mode _ =>
    have placed : (s.withPolicy mode (clampPolicy x)).Governed := ⟨{ h.1 with }, { h.2 with }⟩
    exact placed.ok _ _ _

/-- The reset values meet both invariants (R5, R10, R18). -/
theorem reset_governed : State.reset.Governed := by
  refine ⟨⟨?_, ?_, ?_, ?_, ?_, ?_, ?_, ?_, ?_, ?_⟩, ⟨?_, ?_, ?_, ?_, ?_⟩⟩ <;> decide

/-- A device reset leaves the reset values, at either level of LIMREQ_N (log entry 2). -/
theorem State.governed_deviceReset (left : List Residue) (s : State) : (s.deviceReset left).Governed :=
  ⟨{ reset_governed.1 with }, { reset_governed.2 with }⟩

/-- A port S command keeps what its operation keeps and what WRONG_PORT keeps. -/
theorem State.Governed.onSite {f : State → State} (h : s.Governed) (k : (f s).Governed) (p : Port) :
    (s.onSite p f).Governed := by
  cases p
  · exact k
  · exact h.of_only (wrongPort_only .c)

theorem noticeField_ne (p : Port) : .lsu ≠ noticeField p ∧ .cmu ≠ noticeField p := by
  cases p <;> decide

theorem accumulate_judgement (x : Cmu) (y : Stretch) : (x.accumulate y).judgement = x.judgement := by
  rw [Cmu.accumulate_eq]

/-- Every command keeps the two invariants. Those that do not touch the limit supervisor and the meter do by their
frame. -/
theorem exec_governed {c : Instr} (h : s.Governed) (e : exec c s = .next t) : t.Governed := by
  cases c with
  | deviceReset left => exact execDeviceReset_next e ▸ governed_deviceReset left s
  | frontEndValidity _ _ x =>
    obtain rfl := Host.Outcome.next.inj e
    exact h.of_meter (withCmu_lsu _ _) (accumulate_judgement s.cmu x)
  | periodClose x =>
    obtain rfl := Host.Outcome.next.inj ((execPeriodClose_eq x s).symm.trans e)
    exact (h.of_meter (withCmu_lsu _ _) (accumulate_judgement s.cmu x)).closePeriod _
  | limreqNChange low =>
    obtain rfl := Host.Outcome.next.inj e
    split
    · exact h
    · exact ⟨{ h.1 with }, { h.2 with }⟩
  | limitLineEdge =>
    obtain rfl := Host.Outcome.next.inj e
    split
    · exact h
    · exact h.lineEdge
  | secondTick =>
    obtain rfl := Host.Outcome.next.inj e
    exact Governed.leaseTick ⟨{ h.1 with }, { h.2 with }⟩
  | leaseLapse =>
    obtain rfl := Host.Outcome.next.inj e
    split
    · next live => exact h.lapse live
    · exact h
    · exact h
  | releaseTrip p => exact Host.Outcome.next.inj e ▸ h.releaseTrip p
  | setLimits p x => exact Host.Outcome.next.inj e ▸ h.onSite (h.setLimits x) p
  | renewLimit p => exact Host.Outcome.next.inj e ▸ h.onSite h.renewLimit p
  | setPolicy p x => exact Host.Outcome.next.inj e ▸ h.onSite (h.setPolicy x) p
  | _ =>
    refine h.of_only (exec_only e) ?_ ?_ <;>
      simp [commandFields, exchangeFields, reportFields, programFields, faultFields, noticeFields, noticeField_ne]

/-- A millisecond moves timers only: of the limit supervisor, the debounce (R8). -/
theorem Lsu.passMillisecond_eq (l : Lsu) :
    l.passMillisecond =
      { l with debounce := if lineOf l.limreqLow = l.line then l.debounce else min 20 (l.debounce + 1) } := by
  unfold passMillisecond
  split
  · rfl
  · rfl

theorem State.Governed.passMillisecond (h : s.Governed) : s.passMillisecond.Governed := by
  unfold State.passMillisecond
  rw [Lsu.passMillisecond_eq]
  exact ⟨{ h.1 with }, { h.2 with }⟩

end Sys2Proof.Machine
end

section
/-! SUPPORT. The invariant of the limit supervisor and the escalation machine. -/

open Sys2Proof Sys2Proof.Machine Sys2Proof.Machine.State

set_option Elab.async false

/-- Settles O56: a step is a millisecond or the front command on the rest of the queue, and either keeps both. -/
theorem limitsAndEscalationStayConsistent : Obligations.LimitsAndEscalationStayConsistent := by
  intro s t h e
  change s.Governed at h
  unfold step at e
  split at e
  · next c rest _ => exact exec_governed (h.of_only (withPending_only rest)) e
  · exact Host.Outcome.next.inj e ▸ h.passMillisecond

end

section
/-! SUPPORT. The reset state: its sessions, nodes and receipt log, and that it meets every invariant. -/

namespace Sys2Proof.Machine

open Sys2Proof State

set_option Elab.async false

/-! ## What stands in the tables right after reset -/

@[simp] theorem reset_session (p : Point) : State.reset.session p = Session.free := by
  simp [State.session, State.reset]

@[simp] theorem reset_tariff (k : TariffSlot) : State.reset.tfu.slot k = none := by
  cases k <;> rfl

theorem reset_point (p : Point) : State.reset.alu.points[p] = ⟨0, 0, false⟩ := by
  simp [State.reset]

theorem reset_entry (p : Point) : State.reset.alu.set.entries[p] = ⟨0, 0, .offline, false⟩ := by
  simp [State.reset]

/-- The charge points' nodes carry no kind yet (R98). -/
@[simp] theorem reset_pointNode (p : Point) : State.reset.node (pointNode p) = Node.reset .notConfigured := by
  have canopy : ¬24 = p.val := by omega
  have battery : ¬25 = p.val := by omega
  simp [State.node, State.reset, pointNode, canopy, battery]

/-! ## The invariants -/

theorem Notices.reset_inv : NoticesInv Notices.reset := ⟨by decide, by decide, by decide⟩

theorem reset_array : ArrayInv State.reset := ⟨rfl, rfl, rfl⟩

theorem reset_queues : QueueInv State.reset where
  queued p := by
    rw [reset_session]
    exact iff_of_false List.not_mem_nil (by decide)
  once := List.nodup_nil
  fits q h := by cases h
  oneEach := List.nodup_nil

theorem Session.free_balanced : Session.free.balanced := fun h => absurd rfl h

theorem reset_accounts : AccountsInv State.reset where
  weights := Nat.le_refl _
  balanced p := by rw [reset_session]; exact Session.free_balanced

theorem reset_balance : BalanceInv State.reset := ⟨Nat.le_refl _, .inr (.inr rfl), Nat.le_refl _⟩

theorem reset_staging : StagingInv State.reset where
  sent p := by simp [Node.reset]
  kinds p := by simp [Node.reset]
  offline p _ := by rw [reset_point]
  withheld h := absurd rfl h
  raises p h := by rw [reset_entry] at h; nomatch h

theorem reset_tariffs : TariffInv State.reset where
  counts k := by simp [Session.free]
  editions p h := by simp [Session.free] at h

theorem reset_slots : SlotsInv State.reset where
  opening p h := by simp [Session.free] at h
  opened p h := by simp [Session.free] at h
  distinct p q _ h := by simp [Session.free] at h
  requests q h := by cases h
  active f h := by cases h
  ahead f h := by cases h
  free k _ slot _ := rfl
  erasing e h := by cases h
  starting _ := ⟨fun p => by simp [Session.free], rfl, rfl⟩

theorem reset_apart : State.reset.Apart where
  ports q h := by cases h
  erases e h := by cases h

end Sys2Proof.Machine
end

section
/-! SUPPORT. The statement about the reset state. -/

open Sys2Proof Sys2Proof.Machine

set_option Elab.async false

/-- Settles O60, invariant by invariant. -/
theorem theInvariantsHoldAtReset : Obligations.TheInvariantsHoldAtReset :=
  ⟨reset_governed.1, reset_governed.2, ⟨Notices.reset_inv, Notices.reset_inv⟩, reset_array, reset_queues,
    reset_accounts, reset_balance, reset_staging, reset_tariffs, reset_slots, reset_apart⟩

end

section
/-! SUPPORT. What a judgement leaves of notices, set points, nodes and sessions (R23, R25 to R27, R31, R94), and what the
rest of a close keeps of it. -/

namespace Sys2Proof.Machine

open Sys2Proof State

variable {s t : State}

/-! ## Entry into SHED and into TRIPPED -/

/-- An ALL-ZERO request reads and writes the allocator, the node table and the pending broadcast, and nothing else. -/
theorem State.ZeroedInto.congr {v w : State} (h : s.ZeroedInto t) (salu : v.alu = s.alu) (sflc : v.flc = s.flc)
    (talu : w.alu = t.alu) (broadcast : w.flc.broadcastPending = t.flc.broadcastPending)
    (nodes : ∀ n, w.node n = t.node n) : v.ZeroedInto w := by
  have node : ∀ n, v.node n = s.node n := fun n => by rw [State.node, sflc, State.node]
  have online : ∀ p, v.online p = s.online p := fun p => by rw [State.online, node, State.online]
  constructor
  case broadcast => exact broadcast.trans h.broadcast
  case kept => rw [talu, salu]; exact h.kept
  case staging => rw [talu, salu]; exact h.staging
  case points => simpa only [talu, salu, online] using h.points
  case entries => simpa only [talu, salu, node] using h.entries
  case chargers => simpa only [nodes, salu, node] using h.chargers
  case others => simpa only [nodes, node] using h.others

theorem State.enterShed_esc : s.enterShed.lsu.esc = .shed := congrArg Lsu.esc enterShed_lsu

theorem State.enterTripped_esc : s.enterTripped.lsu.esc = .tripped := congrArg Lsu.esc enterTripped_lsu

theorem State.enterShed_noticesS : s.enterShed.noticesS = s.noticesS.raise 14 [] :=
  allZeroRequest_only .noticesS (by decide)

theorem State.enterShed_noticesC : s.enterShed.noticesC = s.noticesC.raise 14 [] :=
  allZeroRequest_only .noticesC (by decide)

/-- The entry into TRIPPED before its ALL-ZERO request: the machine moved, both latches clear (R26). -/
def State.moveToTripped (s : State) : State :=
  let t := (s.escalate .tripped).raiseBoth .tripped []
  t.withLsu { t.lsu with latchS := false, latchC := false }

theorem State.moveToTripped_only : s.onlyChanges [.lsu, .noticesS, .noticesC] s.moveToTripped :=
  onlyChanges_then (onlyChanges_then (escalate_only _) (raiseBoth_only _ _) (hs := [.lsu, .noticesS, .noticesC]))
    (withLsu_only _)

/-- The move, the ALL-ZERO request, the mark of every session (R26). -/
theorem State.enterTripped_eq : s.enterTripped =
    s.moveToTripped.allZeroRequest.withSsu { s.ssu with sessions := s.ssu.sessions.map Session.seeTrip } := by
  have ssu : s.moveToTripped.allZeroRequest.ssu = s.ssu := allZeroRequest_only .ssu (by decide)
  rw [← ssu]
  rfl

/-- Entry into TRIPPED raises ESCALATION, then TRIPPED (R26, R31). -/
theorem State.enterTripped_noticesS : s.enterTripped.noticesS = (s.noticesS.raise 14 []).raise 15 [] := by
  rw [enterTripped_eq, withSsu_noticesS, allZeroRequest_only .noticesS (by decide)]
  rfl

theorem State.enterTripped_noticesC : s.enterTripped.noticesC = (s.noticesC.raise 14 []).raise 15 [] := by
  rw [enterTripped_eq, withSsu_noticesC, allZeroRequest_only .noticesC (by decide)]
  rfl

/-- An ALL-ZERO request after a change outside the allocator and the link. -/
theorem State.allZeroRequest_after (alu : t.alu = s.alu) (flc : t.flc = s.flc) : s.ZeroedInto t.allZeroRequest :=
  t.allZeroRequest_into.congr alu.symm flc.symm rfl rfl fun _ => rfl

theorem State.enterShed_zeroed : s.ZeroedInto s.enterShed :=
  allZeroRequest_after (escalate_only .shed .alu (by decide)) (escalate_only .shed .flc (by decide))

theorem State.enterTripped_zeroed : s.ZeroedInto s.enterTripped := by
  have zeroed : s.ZeroedInto s.moveToTripped.allZeroRequest :=
    allZeroRequest_after (moveToTripped_only .alu (by decide)) (moveToTripped_only .flc (by decide))
  rw [enterTripped_eq]
  exact zeroed.congr rfl rfl rfl rfl fun _ => rfl

/-- Entry into TRIPPED marks every session that is not FREE (R26, R74). -/
theorem State.enterTripped_session (p : Point) : s.enterTripped.session p = (s.session p).seeTrip := by
  rw [session, enterTripped_eq, withSsu_ssu]
  exact Vector.getElem_map _ _

theorem Session.seeTrip_tripSeen {x : Session} (h : x.state ≠ .free) : x.seeTrip.tripSeen = true := by
  rw [seeTrip, if_neg h]

/-! ## What a judgement can do -/

/-- What a judgement can do to the whole state: leave the escalation state, move it with ESCALATION alone, or enter SHED
or TRIPPED. -/
inductive State.JudgedInto (s : State) : State → Prop
  | stays (l : Lsu) : l.esc = s.lsu.esc → JudgedInto s (s.withLsu l)
  | moves (e : Escalation) (l : Lsu) : l.esc = e → e ≠ s.lsu.esc → e ≠ .shed → e ≠ .tripped →
      JudgedInto s ((s.escalate e).withLsu l)
  | sheds : s.lsu.esc ≠ .shed → JudgedInto s s.enterShed
  | trips : s.lsu.esc ≠ .tripped → JudgedInto s s.enterTripped

theorem State.JudgedInto.refl : s.JudgedInto s := .stays s.lsu rfl

theorem State.JudgedInto.escalate {e : Escalation} (ne : e ≠ s.lsu.esc) (shed : e ≠ .shed) (tripped : e ≠ .tripped) :
    s.JudgedInto (s.escalate e) :=
  .moves e (s.escalate e).lsu rfl ne shed tripped

theorem State.countClean_judged {e : Escalation} (ne : e ≠ s.lsu.esc) (shed : e ≠ .shed) (tripped : e ≠ .tripped) :
    s.JudgedInto (s.countClean e) := by
  unfold countClean
  split
  · exact .escalate ne shed tripped
  · exact .stays _ rfl

theorem State.judgeCurtail_judged (h : s.lsu.esc = .curtail) (j : Judgement) : s.JudgedInto (s.judgeCurtail j) := by
  cases j with
  | unjudged => exact .refl
  | clean => exact countClean_judged (by simp [h]) (by decide) (by decide)
  | excess => exact .sheds (by simp [h])
  | missing => exact .refl

theorem State.judgeShed_judged (h : s.lsu.esc = .shed) (j : Judgement) : s.JudgedInto (s.judgeShed j) := by
  unfold judgeShed
  split
  · exact .stays _ rfl
  · cases j with
    | unjudged => exact .refl
    | clean => exact countClean_judged (by simp [h]) (by decide) (by decide)
    | excess => exact .trips (by simp [h])
    | missing => exact .refl

theorem State.judgeTripped_judged (h : s.lsu.esc = .tripped) (j : Judgement) : s.JudgedInto (s.judgeTripped j) := by
  cases j with
  | unjudged => exact .refl
  | clean =>
    unfold judgeTripped
    dsimp only
    split
    · exact .moves .curtail _ rfl (by simp [h]) (by decide) (by decide)
    · exact .refl
  | excess => exact .stays _ rfl
  | missing => exact .refl

/-- The escalation machine's moves are those four (R20 to R24, R29, R30). -/
theorem State.applyJudgement_judged (j : Judgement) : s.JudgedInto (s.applyJudgement j) := by
  unfold applyJudgement
  split
  · exact .refl
  · cases h : s.lsu.esc with
    | unconfigured => exact .refl
    | normal =>
      dsimp only
      split
      · exact .escalate (by simp [h]) (by decide) (by decide)
      · exact .refl
    | curtail => exact judgeCurtail_judged h j
    | shed => exact judgeShed_judged h j
    | tripped => exact judgeTripped_judged h j

namespace State.JudgedInto

/-- Without a move a judgement reaches the limit supervisor only. -/
theorem lsu_only (h : s.JudgedInto t) (same : t.lsu.esc = s.lsu.esc) : s.onlyChanges [.lsu] t := by
  cases h with
  | stays l _ => exact withLsu_only l
  | moves e l esc ne _ _ => exact absurd (esc.symm.trans same) ne
  | sheds ne => exact absurd (same.symm.trans enterShed_esc) ne
  | trips ne => exact absurd (same.symm.trans enterTripped_esc) ne

/-- A move raises ESCALATION on both ports (R31). -/
theorem notices_of_move (h : s.JudgedInto t) (moved : t.lsu.esc ≠ s.lsu.esc) (tripped : t.lsu.esc ≠ .tripped) :
    t.noticesS = s.noticesS.raise 14 [] ∧ t.noticesC = s.noticesC.raise 14 [] := by
  cases h with
  | stays l same => exact absurd same moved
  | moves e l _ _ _ _ => exact ⟨rfl, rfl⟩
  | sheds _ => exact ⟨enterShed_noticesS, enterShed_noticesC⟩
  | trips _ => exact absurd enterTripped_esc tripped

/-- The one move into TRIPPED is the entry of R26. -/
theorem eq_enterTripped (h : s.JudgedInto t) (moved : t.lsu.esc ≠ s.lsu.esc) (tripped : t.lsu.esc = .tripped) :
    t = s.enterTripped := by
  cases h with
  | stays l same => exact absurd same moved
  | moves e l esc _ _ ne => exact absurd (esc.symm.trans tripped) ne
  | sheds _ => exact nomatch enterShed_esc.symm.trans tripped
  | trips _ => rfl

/-- Entry into SHED or TRIPPED makes an ALL-ZERO request (R23, R25, R26). -/
theorem zeroed (h : s.JudgedInto t) (moved : t.lsu.esc ≠ s.lsu.esc)
    (entered : t.lsu.esc = .shed ∨ t.lsu.esc = .tripped) : s.ZeroedInto t := by
  cases h with
  | stays l same => exact absurd same moved
  | moves e l esc _ shed tripped =>
    exact (entered.elim (fun x => shed (esc.symm.trans x)) fun x => tripped (esc.symm.trans x)).elim
  | sheds _ => exact enterShed_zeroed
  | trips _ => exact enterTripped_zeroed

/-- No other judgement reaches the allocator or the link. -/
theorem machine_only (h : s.JudgedInto t)
    (other : t.lsu.esc = s.lsu.esc ∨ (t.lsu.esc ≠ .shed ∧ t.lsu.esc ≠ .tripped)) :
    s.onlyChanges [.lsu, .noticesS, .noticesC] t := by
  cases h with
  | stays l _ => exact onlyChanges_mono (withLsu_only l)
  | moves e l _ _ _ _ => exact onlyChanges_then (escalate_only e) (withLsu_only l)
  | sheds ne =>
    exact (other.elim (fun same => ne (same.symm.trans enterShed_esc)) fun x => x.1 enterShed_esc).elim
  | trips ne =>
    exact (other.elim (fun same => ne (same.symm.trans enterTripped_esc)) fun x => x.2 enterTripped_esc).elim

end State.JudgedInto

/-! ## The rest of the close -/

theorem State.withSession_session (p q : Point) (x : Session) :
    (s.withSession p x).session q = if p = q then x else s.session q := by
  unfold withSession State.session
  rw [withSsu_ssu]
  simp only [Fin.getElem_fin, Vector.getElem_set, Fin.ext_iff]

/-- The end of a final-meter wait writes the wait and the amounts. -/
theorem State.endFinalWait_tripSeen (p q : Point) :
    ((s.endFinalWait p).session q).tripSeen = (s.session q).tripSeen := by
  show ((s.withSession p _).session q).tripSeen = _
  rw [withSession_session]
  split
  · next same => rw [← same]
  · rfl

theorem State.finalWaitTick_tripSeen (p q : Point) :
    ((s.finalWaitTick p).session q).tripSeen = (s.session q).tripSeen := by
  have recount (k : Nat) :
      ((s.withSession p { s.session p with finalWait := some k }).session q).tripSeen = (s.session q).tripSeen := by
    rw [withSession_session]
    split
    · next same => rw [← same]
    · rfl
  unfold finalWaitTick
  dsimp only
  split
  · split
    · exact recount _
    · rw [endFinalWait_tripSeen]
      exact recount 5
  · rfl

theorem State.finalWaitTicks_tripSeen (q : Point) : (s.finalWaitTicks.session q).tripSeen = (s.session q).tripSeen := by
  have fold (ps : List Point) : ∀ v : State,
      ((ps.foldl finalWaitTick v).session q).tripSeen = (v.session q).tripSeen := by
    induction ps with
    | nil => exact fun _ => rfl
    | cons p ps ih => exact fun v => (ih _).trans (finalWaitTick_tripSeen p q)
  unfold finalWaitTicks
  exact fold allPoints s

/-- A round that starts, or waits to, leaves the nodes and the pending broadcast (R106). -/
theorem Flc.periodClose_kept (x : Flc) :
    x.periodClose.nodes = x.nodes ∧ x.periodClose.broadcastPending = x.broadcastPending := by
  unfold Flc.periodClose Flc.beginRound
  split
  · exact ⟨rfl, rfl⟩
  · split
    · exact ⟨rfl, rfl⟩
    · exact ⟨rfl, rfl⟩

/-- The judgement's part of a close: the reading recorded and judged, before the rest of the close. -/
def State.judgedAt (r : Reading) (s : State) : State :=
  (s.withCmu (s.cmu.close s.site.tBal r (s.lsu.judge r))).applyJudgement (s.lsu.judge r)

/-- The close of R4 after its judgement. -/
theorem State.closePeriod_after (r : Reading) :
    (s.judgedAt r).onlyChanges [.requests, .lsu, .flc, .ssu, .rlg] (s.closePeriod r) :=
  onlyChanges_then (onlyChanges_then (send_only _) (withLsu_only _) (hs := [.requests, .lsu]))
    (onlyChanges_then finalWaitTicks_only (withFlc_only _) (hs := [.flc, .ssu, .rlg]))

theorem State.closePeriod_tripSeen (r : Reading) (p : Point) :
    ((s.closePeriod r).session p).tripSeen = ((s.judgedAt r).session p).tripSeen := by
  unfold closePeriod
  dsimp only
  rw [session, withFlc_ssu]
  exact finalWaitTicks_tripSeen p

/-- Of the link, the rest of a close reaches the poll round only. -/
theorem State.closePeriod_flc (r : Reading) : (s.closePeriod r).flc = (s.judgedAt r).flc.periodClose := by
  unfold closePeriod
  dsimp only
  rw [withFlc_flc, finalWaitTicks_only .flc (by decide)]
  rfl

theorem State.closePeriod_broadcastPending (r : Reading) :
    (s.closePeriod r).flc.broadcastPending = (s.judgedAt r).flc.broadcastPending := by
  rw [closePeriod_flc]
  exact (Flc.periodClose_kept _).2

theorem State.closePeriod_node (r : Reading) (n : Fin 26) : (s.closePeriod r).node n = (s.judgedAt r).node n := by
  rw [State.node, closePeriod_flc, (Flc.periodClose_kept _).1, State.node]

theorem State.judgedAt_esc (r : Reading) : (s.judgedAt r).lsu.esc = (s.lsu.machineAfter (s.lsu.judge r)).esc :=
  congrArg Lsu.esc (applyJudgement_lsu _)

end Sys2Proof.Machine
end

section
/-! SUPPORT. The statement of Chapter 2 about the escalation machine. -/

open Sys2Proof Sys2Proof.Machine Sys2Proof.Machine.State

/-- Settles O4: the judgement moves the machine in one of four ways, and the rest of the close keeps what it did. -/
theorem judgementsMoveTheEscalationMachine : Obligations.JudgementsMoveTheEscalationMachine := by
  intro x s
  refine ⟨_, execPeriodClose_eq x s, ?_⟩
  generalize (s.cmu.accumulate x).formReading = r
  have metered : s.onlyChanges [.cmu] (s.withCmu (s.cmu.accumulate x)) := withCmu_only _
  generalize s.withCmu (s.cmu.accumulate x) = u at metered ⊢
  have lsu : u.lsu = s.lsu := metered .lsu (by decide)
  have judgement : (u.closePeriod r).cmu.judgement = s.lsu.judge r := by rw [closePeriod_cmu, lsu]; rfl
  rw [judgement]
  refine ⟨?_, ?_⟩
  · rw [closePeriod_lsu, lsu]
    rfl
  obtain ⟨v, read, judged⟩ : ∃ v, s.onlyChanges [.cmu] v ∧ v.JudgedInto (u.judgedAt r) :=
    ⟨_, onlyChanges_trans metered (withCmu_only _), applyJudgement_judged _⟩
  have esc : (s.lsu.machineAfter (s.lsu.judge r)).esc = (u.judgedAt r).lsu.esc := by rw [judgedAt_esc, lsu]
  have after := u.closePeriod_after r
  rw [esc, after .noticesS (by decide), after .noticesC (by decide), after .alu (by decide),
    closePeriod_broadcastPending, ← read .lsu (by decide), ← read .noticesS (by decide),
    ← read .noticesC (by decide), ← read .alu (by decide), ← read .flc (by decide)]
  refine ⟨fun same => ?_, judged.notices_of_move, fun moved tripped => ?_, fun moved entered => ?_, fun other => ?_⟩
  · have still := judged.lsu_only same
    exact ⟨still .noticesS (by decide), still .noticesC (by decide)⟩
  · have entry := judged.eq_enterTripped moved tripped
    refine ⟨entry ▸ enterTripped_noticesS, entry ▸ enterTripped_noticesC, fun p occupied => ?_⟩
    rw [closePeriod_tripSeen, entry, enterTripped_session]
    rw [session, ← read .ssu (by decide)] at occupied
    exact Session.seeTrip_tripSeen occupied
  · exact (judged.zeroed moved entered).congr (read .alu (by decide)).symm (read .flc (by decide)).symm
      (after .alu (by decide)) (closePeriod_broadcastPending r) (closePeriod_node r)
  · have still := judged.machine_only other
    refine ⟨still .alu (by decide), congrArg Flc.broadcastPending (still .flc (by decide)), fun n => ?_⟩
    rw [closePeriod_node, node, still .flc (by decide), read .flc (by decide), node]

end

section
/-! SUPPORT. RELEASE TRIP in full, and the trip line through every command (R27 to R29, R31). -/

namespace Sys2Proof.Machine

open Sys2Proof State

variable {s t : State}

/-! ## RELEASE TRIP -/

theorem State.accepted_answered (p : Port) (r : List Byte) (h : t.replies = s.replies) :
    s.answered p (acceptedReply r) (t.accepted p r) := by
  cases p
  · exact ⟨rfl, (congrArg Replies.c h : t.replies.c = s.replies.c)⟩
  · exact ⟨rfl, (congrArg Replies.s h : t.replies.s = s.replies.s)⟩

@[simp] theorem State.accepted_lsu (p : Port) (r : List Byte) : (s.accepted p r).lsu = s.lsu :=
  accepted_only p r .lsu (by decide)

/-- A release latch set is that of the port alone (R28). -/
theorem Lsu.setLatch_eq (l : Lsu) (p : Port) :
    l.setLatch p = { l with latchS := decide (p = .s) || l.latchS, latchC := decide (p = .c) || l.latchC } := by
  cases p <;> rfl

/-- The latch just set completes the release: both ports have asked and the latest reading is CLEAN (R29). -/
theorem Lsu.setLatch_ready (l : Lsu) (p : Port) (j : Judgement) :
    ((l.setLatch p).latchS = true ∧ (l.setLatch p).latchC = true ∧ j = .clean) ↔
      ((p = .s ∨ l.latchS = true) ∧ (p = .c ∨ l.latchC = true)) ∧ j = .clean := by
  simp only [setLatch_eq, Bool.or_eq_true, decide_eq_true_eq, and_assoc]

/-- The limit supervisor after a completed release (R29). -/
theorem State.releaseCompleted_lsu (p : Port) :
    (s.withLsu (s.lsu.setLatch p)).completeRelease.lsu = { s.lsu with
      esc := .curtail, trip := false, latchS := false, latchC := false, cleanCount := 0, graceCount := 0 } := by
  rw [completeRelease_lsu, escalate_lsu, withLsu_lsu, Lsu.setLatch_eq]
  rfl

/-! ## The trip line -/

/-- The trip line moves with the escalation state, and stays where that stays (R27). -/
def State.TripMoved (s t : State) : Prop :=
  t.lsu.trip = if t.lsu.esc = s.lsu.esc then s.lsu.trip else t.lsu.esc == .tripped

/-- A trip line that follows the escalation state goes on following it. -/
theorem State.TripMoved.follows (m : s.TripMoved t) (h : s.lsu.trip = true ↔ s.lsu.esc = .tripped) :
    t.lsu.trip = true ↔ t.lsu.esc = .tripped := by
  rw [m]
  split
  · next same => rw [same]; exact h
  · exact beq_iff_eq

theorem State.TripMoved.trip (m : s.TripMoved t) (same : t.lsu.esc = s.lsu.esc) : t.lsu.trip = s.lsu.trip :=
  m.trans (if_pos same)

/-- What leaves the escalation state and the line alone. -/
theorem State.TripMoved.of_kept (esc : t.lsu.esc = s.lsu.esc) (trip : t.lsu.trip = s.lsu.trip) : s.TripMoved t :=
  trip.trans (if_pos esc).symm

theorem State.TripMoved.of_lsu (h : t.lsu = s.lsu) : s.TripMoved t := of_kept (by rw [h]) (by rw [h])

theorem State.republishAndAsk_trip :
    s.republishAndAsk.lsu.esc = s.lsu.esc ∧ s.republishAndAsk.lsu.trip = s.lsu.trip := by
  rw [republishAndAsk_lsu, Lsu.republish_eq]
  exact ⟨rfl, rfl⟩

theorem State.closePeriod_tripMoved (r : Reading) : s.TripMoved (s.closePeriod r) := by
  unfold TripMoved
  rw [closePeriod_lsu]
  rfl

theorem State.lineEdge_tripMoved : s.TripMoved s.lineEdge := .of_kept (by rw [lineEdge_lsu]) (by rw [lineEdge_lsu])

theorem State.lapse_tripMoved : s.TripMoved s.lapse := by
  obtain ⟨esc, trip⟩ := republishAndAsk_trip
    (s := (s.withLsu { s.lsu with lease := .lapsed, leaseCount := 0 }).raise .s .leaseLapsed [])
  exact .of_kept esc trip

theorem State.leaseTick_tripMoved : s.TripMoved s.leaseTick := by
  unfold leaseTick
  split
  · split
    · exact lapse_tripMoved
    · exact .of_kept rfl rfl
  · exact .of_kept rfl rfl
  · exact .of_kept rfl rfl

theorem renewLimitOp_tripMoved : s.TripMoved (renewLimitOp s) := by
  by_cases valid : s.lsu.limitsValid = true
  · cases lease : s.lsu.lease with
    | off => rw [renewLimitOp_off valid lease]; exact .of_lsu (ok_lsu _ _ _)
    | live => rw [renewLimitOp_live valid lease]; exact .of_kept (by simp) (by simp)
    | lapsed =>
      have revived := renewLimitOp_lapsed_lsu valid lease
      exact .of_kept (by rw [revived]; rfl) (by rw [revived]; rfl)
  · rw [renewLimitOp_refused (by simpa using valid)]
    exact .of_lsu (turnDown_only _ _ _ .lsu (by decide))

/-- SET LIMITS moves to UNCONFIGURED or NORMAL, with the line free, or does not move (R21). -/
theorem setLimitsOp_tripMoved (x : LimitsOperand) : s.TripMoved (setLimitsOp x s) := by
  by_cases refused : (clampLimits x).lImp = 0 ∧ s.lsu.esc = .tripped
  · rw [setLimitsOp_refused refused]
    exact .of_lsu (turnDown_only _ _ _ .lsu (by decide))
  · unfold TripMoved
    rw [setLimitsOp_accepted refused, ok_lsu, acceptLimits_lsu]
    show (if s.lsu.escFor (clampLimits x).lImp = s.lsu.esc then s.lsu.trip else false) =
      if s.lsu.escFor (clampLimits x).lImp = s.lsu.esc then s.lsu.trip
      else s.lsu.escFor (clampLimits x).lImp == .tripped
    split
    · rfl
    · next moved =>
      have target := (s.lsu.escFor_cases (clampLimits x).lImp).resolve_left moved
      rcases target with e | e <;> rw [e] <;> rfl

/-- RELEASE TRIP leaves TRIPPED with the line free, or does not move (R28, R29). -/
theorem releaseTripOp_tripMoved (p : Port) : s.TripMoved (releaseTripOp p s) := by
  by_cases tripped : s.lsu.esc = .tripped
  · by_cases ready : (s.lsu.setLatch p).latchS = true ∧ (s.lsu.setLatch p).latchC = true ∧ s.cmu.judgement = .clean
    · unfold TripMoved
      rw [releaseTripOp_completes tripped ready, ok_lsu, sendRecompute_lsu, releaseCompleted_lsu, tripped]
      rfl
    · rw [releaseTripOp_waits tripped ready]
      refine .of_kept ?_ ?_ <;> rw [accepted_lsu, withLsu_lsu, Lsu.setLatch_eq]
  · rw [releaseTripOp_refused tripped]
    exact .of_lsu (turnDown_only _ _ _ .lsu (by decide))

theorem setPolicyOp_tripMoved (x : PolicyOperand) : s.TripMoved (setPolicyOp x s) := by
  unfold setPolicyOp
  split
  · exact .of_lsu (turnDown_only _ _ _ .lsu (by decide))
  · exact .of_kept (by rw [ok_lsu]; rfl) (by rw [ok_lsu]; rfl)

/-- A port S command moves the line as its operation does; WRONG_PORT does not. -/
theorem State.TripMoved.onSite {f : State → State} (m : s.TripMoved (f s)) (p : Port) : s.TripMoved (s.onSite p f) := by
  cases p
  · exact m
  · exact of_lsu (wrongPort_only .c .lsu (by decide))

/-- A device reset leaves UNCONFIGURED with the line free (R27, R199). -/
theorem State.deviceReset_trip (left : List Residue) :
    (s.deviceReset left).lsu.esc = .unconfigured ∧ (s.deviceReset left).lsu.trip = false := ⟨rfl, rfl⟩

/-- Every command but a device reset moves the line with the escalation state. Those that do not touch the limit
supervisor do by their frame. -/
theorem exec_tripMoved {c : Instr} (reset : ∀ left, c ≠ .deviceReset left) (e : exec c s = .next t) :
    s.TripMoved t := by
  cases c with
  | deviceReset left => exact absurd rfl (reset left)
  | periodClose x =>
    obtain rfl := Host.Outcome.next.inj ((execPeriodClose_eq x s).symm.trans e)
    exact closePeriod_tripMoved (s := s.withCmu (s.cmu.accumulate x)) _
  | limreqNChange low =>
    obtain rfl := Host.Outcome.next.inj e
    split
    · exact .of_lsu rfl
    · exact .of_kept rfl rfl
  | limitLineEdge =>
    obtain rfl := Host.Outcome.next.inj e
    split
    · exact .of_lsu rfl
    · exact lineEdge_tripMoved
  | secondTick =>
    obtain rfl := Host.Outcome.next.inj e
    exact leaseTick_tripMoved (s := State.withSsu _ _)
  | leaseLapse =>
    obtain rfl := Host.Outcome.next.inj e
    split
    · exact lapse_tripMoved
    · exact .of_lsu rfl
    · exact .of_lsu rfl
  | releaseTrip p => exact Host.Outcome.next.inj e ▸ releaseTripOp_tripMoved p
  | setLimits p x => exact Host.Outcome.next.inj e ▸ (setLimitsOp_tripMoved x).onSite p
  | renewLimit p => exact Host.Outcome.next.inj e ▸ renewLimitOp_tripMoved.onSite p
  | setPolicy p x => exact Host.Outcome.next.inj e ▸ (setPolicyOp_tripMoved x).onSite p
  | _ =>
    refine .of_lsu (exec_only e .lsu ?_)
    simp [commandFields, exchangeFields, reportFields, programFields, faultFields, noticeFields, noticeField_ne]

end Sys2Proof.Machine
end

section
/-! SUPPORT. The statements of Chapter 2 about the release and the trip line. -/

open Sys2Proof Sys2Proof.Machine Sys2Proof.Machine.State

/-- Settles O10, in the three cases of RELEASE TRIP: refused, waiting, complete. -/
theorem releaseTripNeedsBothPortsAndACleanReading : Obligations.ReleaseTripNeedsBothPortsAndACleanReading := by
  intro p s
  have only := releaseTripOp_only (s := s) p
  refine ⟨releaseTripOp p s, rfl, fun outside => ?_, fun tripped short => ?_, fun tripped ready => ?_⟩
  · rw [releaseTripOp_refused outside]
    exact turnDown_turnedAway p .refused .state
  · rw [releaseTripOp_waits tripped (mt (s.lsu.setLatch_ready p _).mp short)]
    refine ⟨accepted_answered p [] rfl, accepted_after p [] (withLsu_only _), ?_⟩
    rw [accepted_lsu, withLsu_lsu, Lsu.setLatch_eq]
  · rw [releaseTripOp_completes tripped ((s.lsu.setLatch_ready p _).mpr ready)] at only ⊢
    refine ⟨ok_answered p false [] (sendRecompute_only .replies (by decide)), only, ?_, ?_, ?_, ?_⟩
    · rw [ok_lsu, sendRecompute_lsu, releaseCompleted_lsu]
    · rw [ok_noticesS, sendRecompute_only .noticesS (by decide)]
      rfl
    · rw [ok_noticesC, sendRecompute_only .noticesC (by decide)]
      rfl
    · exact asksRecompute_ok (sendRecompute_asks rfl rfl)

/-- Settles O55: a reset frees the line, every other command and every millisecond moves it with the state. -/
theorem theTripLineFollowsTheEscalationState : Obligations.TheTripLineFollowsTheEscalationState := by
  have atReset (left : List Residue) (s t : State) (e : exec (.deviceReset left) s = .next t) :
      t.lsu.esc = .unconfigured ∧ t.lsu.trip = false :=
    execDeviceReset_next e ▸ deviceReset_trip left
  refine ⟨fun s t h e => ?_, by decide, atReset, fun c s t e same configured => ?_⟩
  · unfold step at e
    split at e
    · next c rest _ =>
      by_cases reset : ∃ left, c = .deviceReset left
      · obtain ⟨left, rfl⟩ := reset
        obtain ⟨esc, trip⟩ := atReset left _ t e
        simp [esc, trip]
      · exact (exec_tripMoved (not_exists.mp reset) e).follows h
    · obtain rfl := Host.Outcome.next.inj e
      refine State.TripMoved.follows (s := s) (.of_kept ?_ ?_) h <;>
        rw [State.passMillisecond, Lsu.passMillisecond_eq]
  · by_cases reset : ∃ left, c = .deviceReset left
    · obtain ⟨left, rfl⟩ := reset
      exact absurd (same.symm.trans (atReset left s t e).1) configured
    · exact (exec_tripMoved (not_exists.mp reset) e).trip same

end

section
/-! SUPPORT. The inputs of the balance computation, the orders in force and the band of a schedule, each by the formula of
its rule (R36 to R39, R52, R78, R142). -/

namespace Sys2Proof.Machine

open Sys2Proof State

variable {s : State} {p : Point} {n : Node}

/-! ## Charge points -/

/-- F_i, by kind (R36). -/
theorem Node.failsafePower_eq (n : Node) (v : Nat) : n.failsafePower v = n.lostDraw v := by
  unfold failsafePower lostDraw setPointPower
  cases n.kind <;> simp

theorem State.lostWithSession_iff :
    s.lostWithSession p = true ↔ (s.node (pointNode p)).state = .lost ∧ (s.session p).state ≠ .free := by
  simp [lostWithSession]

theorem State.lostPower_eq (s : State) (p : Point) :
    s.lostPower p = if (s.node (pointNode p)).state = .lost ∧ (s.session p).state ≠ .free then
      (s.node (pointNode p)).lostDraw s.site.vNom else 0 := by
  simp only [lostPower, lostWithSession_iff, Node.failsafePower_eq]

/-- What a point contributes to C (R36). -/
theorem State.chargerPower_eq (s : State) (p : Point) : s.chargerPower p = s.draws p := by
  simp only [chargerPower, draws, lostPower_eq, online, beq_iff_eq]
  rfl

/-- Eligible: WAITING or CHARGING at an ONLINE node that asks for power (R38). -/
theorem State.eligible_iff : s.eligible p = true ↔
    ((s.session p).state = .waiting ∨ (s.session p).state = .charging) ∧ s.asksPower p = true := by
  have wants : (s.session p).state.wantsPower = true ↔
      (s.session p).state = .waiting ∨ (s.session p).state = .charging := by
    cases (s.session p).state <;> simp [SessionState.wantsPower]
  simp [eligible, asksPower, online, wants, and_assoc]

/-- Rating and minimum of a charge point by its kind (R78). -/
theorem Node.powers_ac1 (v : Nat) (h : n.kind = .ac1) :
    n.rating v = n.maximum * v / 10 ∧ n.minPower v = min n.minimum n.maximum * v / 10 := by
  simp [rating, minPower, setPointPower, h]

theorem Node.powers_ac3 (v : Nat) (h : n.kind = .ac3) :
    n.rating v = n.maximum * 3 * v / 10 ∧ n.minPower v = min n.minimum n.maximum * 3 * v / 10 := by
  simp [rating, minPower, setPointPower, h]

theorem Node.powers_dc (v : Nat) (h : n.kind = .dc) :
    n.rating v = 100 * (n.maximum / 100) ∧
      n.minPower v = min (100 * ((n.minimum + 99) / 100)) (100 * (n.maximum / 100)) := by
  simp [rating, minPower, ceilDiv, h]

/-! ## Battery and canopy -/

/-- The order of a battery at a state of charge, under the settings (R52). -/
def Bau.orderAt (b : Bau) (soc : Nat) : Int :=
  if 0 < b.record.qo then (if soc ≤ b.socLo then 0 else min b.record.qo b.pBdMax)
  else if b.record.qo < 0 then (if b.socHi ≤ soc then 0 else -(min (-b.record.qo) b.pBcMax))
  else 0

/-- A battery that is not ONLINE counts with nothing and is given no order (R37, R52). -/
theorem State.battery_offline (h : (s.node batteryNode).state ≠ .online) :
    s.batteryPower = 0 ∧ s.availableDischarge = 0 ∧ s.availableCharge = 0 ∧ s.batteryOrder = 0 := by
  have off : s.batteryOnline = false := by simpa [batteryOnline] using h
  simp [batteryPower, availableDischarge, availableCharge, batteryOrder, off]

/-- An ONLINE battery counts with its report, its state of charge held at 1000 (R37, R52). -/
theorem State.battery_reports {power : Int} {reported : Nat} {fault : Byte}
    (h : (s.node batteryNode).state = .online) (r : (s.node batteryNode).report = some (.battery power reported fault)) :
    s.batteryPower = max (-2000000) (min 2000000 power) ∧
      s.availableDischarge = (if s.bau.socLo < min reported 1000 then s.bau.pBdMax else 0) ∧
      s.availableCharge = (if min reported 1000 < s.bau.socHi then s.bau.pBcMax else 0) ∧
      s.batteryOrder = s.bau.orderAt (min reported 1000) := by
  have on : s.batteryOnline = true := by simpa [batteryOnline] using h
  have soc : (s.node batteryNode).soc = min reported 1000 := by simp only [Node.soc, r]
  have drawn : (s.node batteryNode).reportedPower = power := by simp only [Node.reportedPower, r]
  simp [batteryPower, availableDischarge, availableCharge, batteryOrder, Bau.orderAt, clampInt, on, soc, drawn]

theorem State.canopyPower_offline (h : (s.node canopyNode).state ≠ .online) : s.canopyPower = 0 := by
  have off : s.canopyOnline = false := by simpa [canopyOnline] using h
  simp [canopyPower, off]

/-- An ONLINE canopy counts with its report up to 2,000,000 W (R37). -/
theorem State.canopyPower_reports {power available : Nat} {fault : Byte} (h : (s.node canopyNode).state = .online)
    (r : (s.node canopyNode).report = some (.canopy power available fault)) : s.canopyPower = min power 2000000 := by
  have on : s.canopyOnline = true := by simpa [canopyOnline] using h
  simp only [canopyPower, on, if_true, Node.reportedPower, r, clampInt]
  omega

/-! ## Bands -/

/-- With rising minutes the last switch point is the latest. -/
theorem getLast?_latest {schedule : List SwitchPoint} {q : SwitchPoint}
    (rising : schedule.Pairwise (·.minute < ·.minute)) (last : schedule.getLast? = some q) :
    q ∈ schedule ∧ ∀ r ∈ schedule, r.minute ≤ q.minute := by
  obtain ⟨before, rfl⟩ := List.getLast?_eq_some_iff.mp last
  have below := (List.pairwise_append.mp rising).2.2
  refine ⟨by simp, fun r mem => ?_⟩
  rcases List.mem_append.mp mem with earlier | this
  · exact (below r earlier q (by simp)).le
  · rw [List.mem_singleton.mp this]

/-- `bandAt` is R142's band on every schedule that R138 admits. -/
theorem bandAt_is {schedule : List SwitchPoint} (minute : Nat) (nonempty : schedule ≠ [])
    (rising : (schedule.map (·.minute)).Pairwise (· < ·)) : bandIs schedule minute (bandAt schedule minute) := by
  have rising := List.pairwise_map.mp rising
  have passed (r : SwitchPoint) :
      r ∈ schedule.filter (fun p => p.minute ≤ minute) ↔ r ∈ schedule ∧ r.minute ≤ minute := by simp
  unfold bandAt
  split
  · next q last =>
    obtain ⟨mem, latest⟩ := getLast?_latest (rising.filter _) last
    obtain ⟨mem, reached⟩ := (passed q).mp mem
    exact ⟨q, mem, rfl, .inl ⟨reached, fun r listed past => latest r ((passed r).mpr ⟨listed, past⟩)⟩⟩
  · next unpassed =>
    have later (r) (mem : r ∈ schedule) : minute < r.minute := by
      by_contra reached
      have := (passed r).mpr ⟨mem, not_lt.mp reached⟩
      rw [List.getLast?_eq_none_iff.mp unpassed] at this
      exact List.not_mem_nil this
    split
    · next q last =>
      obtain ⟨mem, latest⟩ := getLast?_latest rising last
      exact ⟨q, mem, rfl, .inr ⟨later, latest⟩⟩
    · next empty => exact absurd (List.getLast?_eq_none_iff.mp empty) nonempty

/-- G_ok (R39). -/
theorem Tfu.gridOk_iff (u : Tfu) : u.gridOk = true ↔ u.calendarValid = true ∧ ∃ h, u.current = some h ∧
    h.edition.bands[bandAt h.edition.schedule (u.calendar.toNat % 86400 / 60)].gridCharge = true := by
  unfold gridOk bandInForce minuteOfDay
  cases u.current <;> cases u.calendarValid <;> simp

end Sys2Proof.Machine
end

section
/-! SUPPORT. The statement of Chapter 3 about the inputs. -/

open Sys2Proof Sys2Proof.Machine Sys2Proof.Machine.State

/-- Settles O11, input by input. -/
theorem balanceInputsComeFromTheTables : Obligations.BalanceInputsComeFromTheTables := by
  intro s
  refine ⟨congrArg sumPoints (funext s.chargerPower_eq), congrArg sumPoints (funext s.lostPower_eq), ?_,
    fun p => ⟨Node.powers_ac1 _, Node.powers_ac3 _, Node.powers_dc _, ?_⟩, battery_offline, ?_, canopyPower_offline,
    fun power available fault => canopyPower_reports, rfl, s.tfu.gridOk_iff, fun schedule minute => bandAt_is minute⟩
  · unfold demand
    simp only [eligible_iff]
    rfl
  · intro register power request plugged fault report
    simp only [Node.request, report]
  · intro power reported fault online report
    obtain ⟨q, bd, bc, order⟩ := battery_reports online report
    refine ⟨q, bd, bc, fun discharges => ?_, fun charges => ?_, fun idle => ?_⟩
    · exact order.trans (if_pos discharges)
    · exact order.trans ((if_neg (by omega)).trans (if_pos charges))
    · exact order.trans ((if_neg (by omega)).trans (if_neg (by omega)))

end

section
/-! SUPPORT. The balance record of a reading and how it is handed on (R34, R35, R42 to R51). -/

namespace Sys2Proof.Machine

open Sys2Proof State

variable {s : State} {r : Reading} {recomputed : Bool}

/-! ## The reading taken -/

theorem Request.reading_eq_some {x : Request} : x.reading = some r ↔ x = .newReading r := by
  cases x <;> simp [reading]

/-- With no new reading in the list, none is found. -/
theorem findSome?_reading_none {requests : List Request} (h : ∀ r, Request.newReading r ∉ requests) :
    requests.findSome? Request.reading = none := by
  refine List.findSome?_eq_none_iff.mpr fun x mem => Option.eq_none_iff_forall_ne_some.mpr fun r found => ?_
  exact h r (Request.reading_eq_some.mp found ▸ mem)

theorem State.takesReading (s : State) : s.TakesReading where
  first before r after requests noneBefore := by
    have found : s.requests.findSome? Request.reading = some r := by
      rw [requests, List.findSome?_append, findSome?_reading_none noneBefore]
      rfl
    simp only [readingToTake, found]
  none noneWaits := by
    simp only [readingToTake, findSome?_reading_none noneWaits]

/-! ## The record of a measured reading -/

theorem State.pvWeight_le (s : State) : s.pvWeight ≤ s.chargerSum := min_le_right _ _

/-- bat_w in integers (R47). -/
theorem State.batWeight_eq (s : State) :
    (s.batWeight : Int) = min (max s.batteryPower 0) (s.chargerSum - s.pvWeight) := by
  have fits := s.pvWeight_le
  unfold batWeight
  omega

/-- In a surplus the budget is the demand, the order a charge (R43). -/
theorem surplusOrders_eq (a n : Int) (d bc : Nat) (gridOk : Bool) :
    surplusOrders a n d bc gridOk = ⟨d, -chargeAmount a n d bc gridOk⟩ := rfl

/-- The budget of a shortfall is what the battery leaves of the headroom (R44). -/
theorem shortfallOrders_eq (a : Int) (d bd : Nat) :
    (shortfallOrders a d bd).qo = min (bd : Int) (d - a) ∧
      ((shortfallOrders a d bd).b : Int) = max 0 (a + (shortfallOrders a d bd).qo) :=
  ⟨rfl, Int.toNat_of_nonneg (le_max_left _ _)⟩

/-- The override by escalation state leaves the orders of NORMAL and CURTAIL as R43 and R44 give them (R45). -/
theorem State.measuredOrders_normal (h : s.lsu.esc = .normal ∨ s.lsu.esc = .curtail) :
    s.measuredOrders r = if (s.demand : Int) ≤ s.headroom r then
        surplusOrders (s.headroom r) (s.restOfSite r) s.demand s.availableCharge s.tfu.gridOk
      else shortfallOrders (s.headroom r) s.demand s.availableDischarge := by
  unfold measuredOrders overrideOrders
  rcases h with e | e <;> rw [e]

theorem State.measuredOrders_shed (h : s.lsu.esc = .shed ∨ s.lsu.esc = .tripped) :
    s.measuredOrders r = ⟨0, s.availableDischarge⟩ := by
  unfold measuredOrders overrideOrders
  rcases h with e | e <;> rw [e]

theorem State.measuredOrders_unconfigured (h : s.lsu.esc = .unconfigured) : s.measuredOrders r = ⟨0, 0⟩ := by
  unfold measuredOrders overrideOrders
  rw [h]

/-- The cap by R46, in integers. -/
theorem State.capFor_eq (s : State) (g : Int) :
    if s.lsu.limitsValid = true ∧ g < -(s.lsu.lExp : Int) then
      (s.capFor g : Int) = min (s.bau.pPvRat : Int) (max 0 (s.canopyPower - (-(s.lsu.lExp : Int) - g)))
    else s.capFor g = s.bau.pPvRat := by
  unfold capFor
  split <;> omega

/-- A measured record is a full one, at any missing count put into it. -/
theorem State.measuredRecord_computed (s : State) (r : Reading) (recomputed : Bool) (missing : Nat) :
    s.ComputedRecord r recomputed missing { s.measuredRecord r recomputed with missing } where
  stamp := ⟨rfl, rfl, rfl, rfl⟩
  rest := rfl
  headroom := by rw [← Lsu.marginInForce_eq]; rfl
  demand := rfl
  surplus esc enough := by
    have orders := (measuredOrders_normal (r := r) esc).trans (if_pos enough)
    show (s.measuredOrders r).b = s.demand ∧ (s.measuredOrders r).qo =
      -chargeAmount (s.headroom r) (s.restOfSite r) s.demand s.availableCharge s.tfu.gridOk
    rw [orders, surplusOrders_eq]
    exact ⟨rfl, rfl⟩
  shortfall esc short := by
    have orders := (measuredOrders_normal (r := r) esc).trans (if_neg (not_le.mpr short))
    show (s.measuredOrders r).qo = min (s.availableDischarge : Int) (s.demand - s.headroom r) ∧
      ((s.measuredOrders r).b : Int) = max 0 (s.headroom r + (s.measuredOrders r).qo)
    rw [orders]
    exact shortfallOrders_eq _ _ _
  shed esc :=
    have orders := measuredOrders_shed (r := r) esc
    ⟨congrArg Orders.b orders, congrArg Orders.qo orders⟩
  unconfigured esc :=
    have orders := measuredOrders_unconfigured (r := r) esc
    ⟨congrArg Orders.b orders, congrArg Orders.qo orders⟩
  cap := s.capFor_eq _
  ratios := ⟨rfl, s.batWeight_eq, rfl⟩

theorem State.newRecord_measured (h : r.quality ≠ .missing) :
    s.newRecord r recomputed = s.measuredRecord r recomputed := by
  unfold newRecord
  cases q : r.quality with
  | good => rfl
  | saturated => rfl
  | missing => exact absurd q h

/-! ## The record of a MISSING reading -/

/-- The record carried on: held below a missing count of three, degraded from there on (R49, R50). -/
def State.carried (s : State) (r : Reading) (recomputed : Bool) : BalanceRecord :=
  if s.bau.missingCount < 3 then s.heldRecord r recomputed else s.degradedRecord r recomputed

theorem State.newRecord_missing (h : r.quality = .missing) : s.newRecord r recomputed = s.carried r recomputed := by
  unfold newRecord carried
  rw [h]

/-- The override of R49 and R50 field by field: budget, order and cap by the escalation state, the rest kept. -/
theorem State.overrideHeld_eq (s : State) (x : BalanceRecord) : s.overrideHeld x = { x with
    b := if s.lsu.esc = .normal ∨ s.lsu.esc = .curtail then x.b else 0
    qo := if s.lsu.esc = .unconfigured then 0 else x.qo
    cap := if s.lsu.esc = .unconfigured then s.bau.pPvRat else x.cap } := by
  unfold overrideHeld
  cases s.lsu.esc <;> rfl

theorem State.heldRecord_carried (few : s.bau.missingCount < 3) :
    s.CarriedRecord r recomputed s.bau.missingCount (s.heldRecord r recomputed) := by
  unfold heldRecord
  rw [overrideHeld_eq]
  exact {
    stamp := ⟨rfl, rfl, rfl, rfl⟩
    held := ⟨rfl, rfl⟩
    demand := rfl
    budget := by simp only [few, if_true]
    order := by simp only [few, true_and, ne_eq, ite_not]
    cap := rfl
    heldRatios := fun _ => ⟨rfl, rfl, rfl⟩
    freshRatios := fun many => absurd few (not_lt.mpr many) }

theorem State.degradedRecord_carried (many : 3 ≤ s.bau.missingCount) :
    s.CarriedRecord r recomputed s.bau.missingCount (s.degradedRecord r recomputed) := by
  have notFew := not_lt.mpr many
  unfold degradedRecord
  rw [overrideHeld_eq]
  exact {
    stamp := ⟨rfl, rfl, rfl, rfl⟩
    held := ⟨rfl, rfl⟩
    demand := rfl
    budget := by simp only [notFew, if_false]
    order := by simp only [notFew, false_and, if_false, ite_self]
    cap := rfl
    heldRatios := fun few => absurd few notFew
    freshRatios := fun _ => ⟨rfl, s.batWeight_eq, rfl⟩ }

theorem State.carried_record (s : State) (r : Reading) (recomputed : Bool) :
    s.CarriedRecord r recomputed s.bau.missingCount (s.carried r recomputed) := by
  unfold carried
  split
  · next few => exact heldRecord_carried few
  · next many => exact degradedRecord_carried (not_lt.mp many)

/-! ## NEW_READING and RECOMPUTE_REQUEST -/

/-- A measured reading ends the run of MISSING ones (R48). -/
theorem State.countMissing_measured (h : r.quality ≠ .missing) :
    s.countMissing r = s.withBau { s.bau with missingCount := 0 } := by
  unfold countMissing
  cases q : r.quality with
  | good => rfl
  | saturated => rfl
  | missing => exact absurd q h

theorem State.countMissing_missing (h : r.quality = .missing) :
    s.countMissing r =
      (s.withBau { s.bau with missingCount := min 255 (s.bau.missingCount + 1) }).raise .s .measureMissing [] := by
  unfold countMissing
  rw [h]
  rfl

/-- The record of a new measured reading is a full one of the state it was taken in (R48). -/
theorem State.newRecord_counted_measured (q : Request) (h : r.quality ≠ .missing) :
    s.ComputedRecord r false 0 (((s.takeRequest q).countMissing r).newRecord r false) := by
  rw [countMissing_measured h, newRecord_measured h]
  exact s.measuredRecord_computed r false 0

/-- The record of a new MISSING reading is carried on at the new count (R48). -/
theorem State.newRecord_counted_missing (q : Request) (h : r.quality = .missing) :
    s.CarriedRecord r false (min 255 (s.bau.missingCount + 1))
      (((s.takeRequest q).countMissing r).newRecord r false) := by
  rw [countMissing_missing h, newRecord_missing h]
  have carried := carried_record (((s.takeRequest q).withBau
    { s.bau with missingCount := min 255 (s.bau.missingCount + 1) }).raise .s .measureMissing []) r false
  exact { carried with }

theorem State.computeRecord_record (r : Reading) (recomputed : Bool) :
    (s.computeRecord r recomputed).bau.record = s.newRecord r recomputed := rfl

theorem execNewReading_takes (h : s.readingToTake = some r) :
    exec .newReading s = .next (((s.takeRequest (.newReading r)).countMissing r).computeRecord r false) := by
  show execNewReading s = _
  simp only [execNewReading, h]

theorem execRecomputeRequest_takes (h : s.cmu.readingExists = true) :
    exec .recomputeRequest s = .next ((s.takeRequest .recompute).computeRecord s.cmu.reading true) :=
  congrArg Host.Outcome.next (if_pos h)

end Sys2Proof.Machine
end

section
/-! SUPPORT. The statements of Chapter 3 about the balance record. -/

open Sys2Proof Sys2Proof.Machine Sys2Proof.Machine.State

/-- Settles O12: a new reading sets the count to 0, a recompute leaves it, and both compute in full. -/
theorem measuredReadingsGiveFullRecords : Obligations.MeasuredReadingsGiveFullRecords := by
  refine ⟨takesReading, fun r s taken measured => ⟨_, execNewReading_takes taken, ?_⟩,
    fun s exist measured => ⟨_, execRecomputeRequest_takes exist, ?_⟩⟩
  · have record := newRecord_counted_measured (s := s) (.newReading r) measured
    rw [countMissing_measured measured] at record ⊢
    exact ⟨onlyChanges_then (onlyChanges_then (takeRequest_only _) (withBau_only _) (hs := [.bau, .requests]))
      (computeRecord_only r false), rfl, record, rfl⟩
  · have record := s.measuredRecord_computed s.cmu.reading true s.bau.missingCount
    have computed : (s.takeRequest .recompute).newRecord s.cmu.reading true = s.measuredRecord s.cmu.reading true :=
      newRecord_measured measured
    refine ⟨onlyChanges_then (takeRequest_only _) (computeRecord_only _ _), rfl, ?_, rfl⟩
    rw [computeRecord_record, computed]
    exact record

/-- Settles O13: a new reading is counted and noticed, a recompute is not, and both carry the record on. -/
theorem missingReadingsCarryTheLastRecord : Obligations.MissingReadingsCarryTheLastRecord := by
  refine ⟨takesReading, fun r s taken missing => ⟨_, execNewReading_takes taken, ?_⟩,
    fun s exist missing => ⟨_, execRecomputeRequest_takes exist, ?_⟩, fun s => ⟨fun nothing => ?_, fun nothing => ?_⟩⟩
  · have record := newRecord_counted_missing (s := s) (.newReading r) missing
    have only := execNewReading_only (execNewReading_takes taken)
    rw [countMissing_missing missing] at record only ⊢
    exact ⟨only, rfl, record, rfl, rfl⟩
  · have record := carried_record s s.cmu.reading true
    refine ⟨onlyChanges_then (takeRequest_only _) (computeRecord_only _ _), rfl, ?_, rfl⟩
    rw [computeRecord_record]
    rw [← newRecord_missing missing] at record
    exact record
  · show execNewReading s = .next s
    simp only [execNewReading, nothing]
  · exact congrArg Host.Outcome.next (if_neg (by simp [nothing]))

end

section
/-! SUPPORT. SET BATTERY and SET CANOPY: one node entry replaced, the enrolment, the clamps (R40, R41, R101). -/

namespace Sys2Proof.Machine

open Sys2Proof State

variable {s : State}

/-! ## The node table -/

theorem State.withNode_node (s : State) (n m : Fin 26) (x : Node) :
    (s.withNode n x).node m = if m = n then x else s.node m := by
  simp only [node, withNode, withFlc_flc, Fin.getElem_fin, Vector.getElem_set, Fin.val_inj, eq_comm]

theorem State.withNode_node_self (s : State) (n : Fin 26) (x : Node) : (s.withNode n x).node n = x :=
  (s.withNode_node n n x).trans (if_pos rfl)

theorem State.withNode_otherNodes (s : State) (n : Fin 26) (x : Node) : s.otherNodesSame n (s.withNode n x) :=
  fun m other => (s.withNode_node n m x).trans (if_neg other)

/-! ## Enrolment -/

/-- An ABSENT node is JOINING after its enrolment, every other state stays (R101). -/
theorem State.enrol_node (s : State) (n : Fin 26) : (s.enrol n).node n =
    { s.node n with state := if (s.node n).state = .absent then .joining else (s.node n).state } := by
  unfold enrol
  split
  · exact withNode_node_self s n _
  · rfl

theorem State.enrol_otherNodes (s : State) (n : Fin 26) : s.otherNodesSame n (s.enrol n) := by
  unfold enrol
  split
  · exact withNode_otherNodes s n _
  · exact fun _ _ => rfl

/-! ## SET BATTERY -/

/-- A setting that was clamped differs from its operand: a disjunct of R181's CLAMPED flag. -/
theorem clamped_eq (stored given : Nat) : (stored != given) = !decide (given = stored) := by
  rw [bne, beq_eq_decide, decide_eq_decide.mpr eq_comm]

theorem setBatteryOp_refused {d c : Word32} {lo hi : Word16} (h : min hi.toNat 1000 ≤ min lo.toNat 1000) :
    setBatteryOp d c lo hi s = s.turnDown .s .refused .badValue := if_pos h

theorem setBatteryOp_accepted {d c : Word32} {lo hi : Word16} (h : min lo.toNat 1000 < min hi.toNat 1000) :
    setBatteryOp d c lo hi s =
      ((s.withBau { s.bau with
          pBdMax := min d.toNat 2000000, pBcMax := min c.toNat 2000000
          socLo := min lo.toNat 1000, socHi := min hi.toNat 1000 }).enrol batteryNode).ok .s
        (decide (¬(d.toNat = min d.toNat 2000000 ∧ c.toNat = min c.toNat 2000000 ∧ lo.toNat = min lo.toNat 1000 ∧
          hi.toNat = min hi.toNat 1000))) [] := by
  refine (if_neg (not_le.mpr h)).trans (congrArg (State.ok .s · [] _) ?_)
  simp only [clamped_eq, decide_not, Bool.decide_and, Bool.not_and, Bool.or_assoc, batteryTop]

/-! ## SET CANOPY -/

/-- SET CANOPY before its reply: the rating placed, node 24 enrolled and its failsafe set (R41, R101). -/
def State.placeCanopy (rating failsafe : Nat) (s : State) : State :=
  let t := (s.withBau { s.bau with pPvRat := rating }).enrol canopyNode
  t.withNode canopyNode { t.node canopyNode with failsafe }

theorem State.placeCanopy_only (rating failsafe : Nat) :
    (s.withBau { s.bau with pPvRat := rating }).onlyChanges [.flc] (s.placeCanopy rating failsafe) :=
  onlyChanges_then (enrol_only _) (withNode_only _ _)

theorem State.placeCanopy_otherNodes (rating failsafe : Nat) :
    s.otherNodesSame canopyNode (s.placeCanopy rating failsafe) :=
  fun n other => (withNode_otherNodes _ _ _ n other).trans (enrol_otherNodes _ _ n other)

theorem State.placeCanopy_node (rating failsafe : Nat) : (s.placeCanopy rating failsafe).node canopyNode =
    { s.node canopyNode with
      failsafe
      state := if (s.node canopyNode).state = .absent then .joining else (s.node canopyNode).state } := by
  unfold placeCanopy
  rw [withNode_node_self, enrol_node]
  rfl

theorem setCanopyOp_eq (rating failsafe : Word32) (s : State) :
    let r := min rating.toNat 1000000
    let f := min failsafe.toNat r
    setCanopyOp rating failsafe s =
      (s.placeCanopy r f).ok .s (decide (¬(rating.toNat = r ∧ failsafe.toNat = f))) [] := by
  refine congrArg (State.ok .s · [] _) ?_
  simp only [clamped_eq, decide_not, Bool.decide_and, Bool.not_and]

end Sys2Proof.Machine
end

section
/-! SUPPORT. The statement of Chapter 3 about SET BATTERY and SET CANOPY. -/

open Sys2Proof Sys2Proof.Machine Sys2Proof.Machine.State

/-- Settles O27: the settings are placed in the balance unit, then the node is enrolled. -/
theorem setBatteryAndSetCanopyEnrolTheirNodes : Obligations.SetBatteryAndSetCanopyEnrolTheirNodes := by
  refine ⟨fun d c lo hi s => ⟨setBatteryOp d c lo hi s, rfl, fun refused => ?_, fun accepted => ?_⟩,
    fun rating failsafe s => ⟨setCanopyOp rating failsafe s, rfl, ?_⟩⟩
  · rw [setBatteryOp_refused refused]
    exact turnDown_turnedAway .s .refused .badValue
  · have only := setBatteryOp_only (s := s) d c lo hi
    rw [setBatteryOp_accepted accepted] at only ⊢
    exact ⟨ok_answered _ _ _ (enrol_only _ .replies (by decide)), only, enrol_otherNodes _ batteryNode,
      enrol_only _ .bau (by decide), enrol_node _ batteryNode⟩
  · have only := setCanopyOp_only (s := s) rating failsafe
    rw [setCanopyOp_eq] at only ⊢
    have kept := placeCanopy_only (s := s) (min rating.toNat 1000000) (min failsafe.toNat (min rating.toNat 1000000))
    exact ⟨ok_answered _ _ _ (kept .replies (by decide)), only, placeCanopy_otherNodes _ _, kept .bau (by decide),
      placeCanopy_node _ _⟩

end

section
/-! SUPPORT. The session commands of port C and HOLD POINT: operands, the stop rule and the start of a close (R64 to R69,
R75). -/

namespace Sys2Proof.Machine

open Sys2Proof State

variable {s t : State} {p : Point}

/-! ## Operands -/

theorem pointOperand_none {b : Byte} (h : 24 ≤ b.toNat) : pointOperand b = none := dif_neg (not_lt.mpr h)

/-- A point operand that carries a point's number names the point. -/
@[simp] theorem pointOperand_point (p : Point) : pointOperand (BitVec.ofNat 8 p.val) = some p := by
  have value : (BitVec.ofNat 8 p.val).toNat = p.val := by
    rw [BitVec.toNat_ofNat]
    omega
  simp only [pointOperand, value, p.isLt, dif_pos]

theorem classOperand_none {b : Byte} (h : b ≠ 0 ∧ b ≠ 1) : classOperand b = none := by
  rw [classOperand, if_neg h.1, if_neg h.2]

theorem classOperand_some {b : Byte} (h : b = 0 ∨ b = 1) :
    classOperand b = some (if b = 1 then .priority else .standard) := by
  rcases h with rfl | rfl <;> rfl

theorem settingOperand_none {b : Byte} (h : b ≠ 0 ∧ b ≠ 1) : settingOperand b = none := by
  rw [settingOperand, if_neg h.1, if_neg h.2]

theorem settingOperand_some {b : Byte} (h : b = 0 ∨ b = 1) : settingOperand b = some (decide (b = 1)) := by
  rcases h with rfl | rfl <;> rfl

/-! ## Replies and records -/

@[simp] theorem State.ok_ssu (q : Port) (b : Bool) (r : List Byte) : (s.ok q b r).ssu = s.ssu :=
  ok_only q b r .ssu (by decide)

@[simp] theorem State.ok_alu (q : Port) (b : Bool) (r : List Byte) : (s.ok q b r).alu = s.alu :=
  ok_only q b r .alu (by decide)

@[simp] theorem State.ok_session (q : Port) (b : Bool) (r : List Byte) : (s.ok q b r).session = s.session :=
  funext fun _ => by rw [session, ok_ssu, session]

@[simp] theorem State.accepted_session (q : Port) (r : List Byte) : (s.accepted q r).session = s.session :=
  funext fun _ => by rw [session, accepted_only q r .ssu (by decide), session]

@[simp] theorem State.withSession_same (p : Point) (x : Session) : (s.withSession p x).session p = x :=
  (withSession_session p p x).trans (if_pos rfl)

theorem State.withSession_others (p : Point) (x : Session) : s.otherSessionsSame p (s.withSession p x) :=
  fun q other => (withSession_session p q x).trans (if_neg other.symm)

/-- What leaves the session table alone keeps the other records as they were. -/
theorem State.otherSessionsSame.of_ssu {u : State} (h : s.otherSessionsSame p t) (ssu : u.ssu = t.ssu) :
    s.otherSessionsSame p u := fun q other => by
  rw [session, ssu]
  exact h q other

/-- WAITING, CHARGING, STOPPED and DONE are the states a close may start from. -/
theorem Session.closable_iff {x : Session} : x.state.closable = true ↔ x.running := by
  unfold Session.running
  cases x.state <;> simp [SessionState.closable]

/-! ## Leaving WAITING or CHARGING -/

/-- The withdrawal reads and writes the queue, the requests and the record's state only. -/
theorem State.Withdrawn.congr {v w : State} (h : s.Withdrawn p t) (state : (v.session p).state = (s.session p).state)
    (queue : v.alu.queue = s.alu.queue) (requests : v.requests = s.requests) (after : w.alu = t.alu)
    (sent : w.requests = t.requests) : v.Withdrawn p w where
  queue := by rw [after, state, queue]; exact h.queue
  request := by rw [sent, state, requests]; exact h.request

theorem State.withdraw_withdrawn : s.Withdrawn p (s.withdraw p) := by
  unfold withdraw
  cases state : (s.session p).state with
  | waiting => exact ⟨by rw [state]; rfl, by rw [state]; rfl⟩
  | charging => exact ⟨by rw [state]; rfl, by rw [state]; rfl⟩
  | _ => exact ⟨by simp [state], by simp [state]⟩

/-- The record written after a withdrawal is the only one that changes. -/
theorem State.withdraw_others (x : Session) : s.otherSessionsSame p ((s.withdraw p).withSession p x) := fun q other => by
  rw [withSession_others p x q other, session, withdraw_only p .ssu (by decide), session]

/-- The start of a close (R69). -/
theorem State.startClose_started (reason : EndReason) : s.CloseStarted p reason (s.startClose p reason) where
  record := withSession_same p _
  withdrawn := withdraw_withdrawn.congr rfl rfl rfl rfl rfl
  others := withdraw_others _

/-- The reply does not touch the close. -/
theorem State.CloseStarted.accepted {reason : EndReason} (h : s.CloseStarted p reason t) (q : Port) (r : List Byte) :
    s.CloseStarted p reason (t.accepted q r) where
  record := by rw [accepted_session]; exact h.record
  withdrawn := h.withdrawn.congr rfl rfl rfl (accepted_only q r .alu (by decide)) (accepted_only q r .requests (by decide))
  others := h.others.of_ssu (accepted_only q r .ssu (by decide))

/-! ## The stop rule -/

/-- A flag stops a session that runs (R66). -/
theorem State.applyStop_stops (flag : (s.session p).pause = true ∨ (s.session p).hold = true)
    (running : (s.session p).running) (moving : (s.session p).state ≠ .stopped) :
    s.applyStop p = (s.withdraw p).withSession p { s.session p with state := .stopped, grant := 0 } := by
  unfold applyStop
  dsimp only
  rw [if_pos (by rwa [Bool.or_eq_true])]
  rcases running with state | state | state | state
  · rw [state]
  · rw [state]
  · exact absurd state moving
  · rw [state]

/-- With both flags clear a stopped session waits again (R66). -/
theorem State.applyStop_resumes (pause : (s.session p).pause = false) (hold : (s.session p).hold = false)
    (stopped : (s.session p).state = .stopped) : s.applyStop p = s.enterWaiting p := by
  simp [applyStop, pause, hold, stopped]

/-- Else the rule changes nothing (R66). -/
theorem State.applyStop_stays
    (agree : ((s.session p).pause = true ∨ (s.session p).hold = true) ↔ (s.session p).state = .stopped) :
    s.applyStop p = s := by
  rw [← Bool.or_eq_true] at agree
  unfold applyStop
  dsimp only
  by_cases stopped : (s.session p).state = .stopped
  · rw [if_pos (agree.mpr stopped), stopped]
  · rw [if_neg (mt agree.mp stopped), if_neg stopped]

/-! ## The commands -/

theorem setClassOp_refused {point cls : Byte} (h : 24 ≤ point.toNat ∨ (cls ≠ 0 ∧ cls ≠ 1)) :
    setClassOp point cls s = s.turnDown .c .refused .badValue := by
  unfold setClassOp
  rcases h with noPoint | noClass
  · rw [pointOperand_none noPoint]
  · rw [classOperand_none noClass]
    cases pointOperand point <;> rfl

theorem setClassOp_eq {cls : Byte} (h : cls = 0 ∨ cls = 1) :
    setClassOp (BitVec.ofNat 8 p.val) cls s =
      if (s.session p).state = .free then s.turnDown .c .refused .state
      else (s.withSession p { s.session p with cls := if cls = 1 then .priority else .standard }).ok .c false [] := by
  simp only [setClassOp, pointOperand_point, classOperand_some h]

theorem closeSessionOp_refused {point : Byte} (h : 24 ≤ point.toNat) :
    closeSessionOp point s = s.turnDown .c .refused .badValue := by
  simp only [closeSessionOp, pointOperand_none h]

theorem closeSessionOp_eq :
    closeSessionOp (BitVec.ofNat 8 p.val) s =
      if (s.session p).state.closable then (s.startClose p .customer).accepted .c (leBytes 4 (s.session p).number)
      else s.turnDown .c .refused .state := by
  simp only [closeSessionOp, pointOperand_point]

section flags

variable {port : Port} {setting : Byte} {write : Session → Bool → Session}

theorem State.flagCommand_refused {point : Byte} (h : 24 ≤ point.toNat ∨ (setting ≠ 0 ∧ setting ≠ 1)) :
    s.flagCommand port point setting write = s.turnDown port .refused .badValue := by
  unfold flagCommand
  rcases h with noPoint | noSetting
  · rw [pointOperand_none noPoint]
  · rw [settingOperand_none noSetting]
    cases pointOperand point <;> rfl

theorem State.flagCommand_eq (h : setting = 0 ∨ setting = 1) :
    s.flagCommand port (BitVec.ofNat 8 p.val) setting write =
      if (s.session p).state.closable then
        ((s.withSession p (write (s.session p) (decide (setting = 1)))).applyStop p).ok port false []
      else s.turnDown port .refused .state := by
  simp only [flagCommand, pointOperand_point, settingOperand_some h]

end flags

/-- What a written flag and the stop rule make of a session that runs (R66). -/
structure State.StopRuled (s : State) (p : Point) (flagged : Session) (t : State) : Prop where
  others : s.otherSessionsSame p t
  stops : flagged.pause = true ∨ flagged.hold = true → (s.session p).state ≠ .stopped →
    t.session p = { flagged with state := .stopped, grant := 0 } ∧ s.Withdrawn p t
  resumes : flagged.pause = false → flagged.hold = false → (s.session p).state = .stopped →
    t.session p = { flagged with state := .waiting, waitCount := 0, zeroRequests := 0 } ∧
      t.alu.queue = s.alu.queue ++ [p] ∧ t.requests = s.requests
  stays : ((flagged.pause = true ∨ flagged.hold = true) ↔ (s.session p).state = .stopped) →
    t.session p = flagged ∧ t.alu = s.alu ∧ t.requests = s.requests

theorem State.StopRuled.ok {x : Session} (h : s.StopRuled p x t) (q : Port) (b : Bool) (r : List Byte) :
    s.StopRuled p x (t.ok q b r) where
  others := h.others.of_ssu (ok_ssu q b r)
  stops flag moving := by
    rw [ok_session]
    exact ⟨(h.stops flag moving).1, (h.stops flag moving).2.congr rfl rfl rfl (ok_alu q b r) (ok_requests q b r)⟩
  resumes pause hold stopped := by
    rw [ok_session, ok_alu, ok_requests]
    exact h.resumes pause hold stopped
  stays agree := by
    rw [ok_session, ok_alu, ok_requests]
    exact h.stays agree

/-- The stop rule after a flag is written, by whether it stops, resumes or changes nothing. -/
theorem State.applyStop_ruled {x : Session} (state : x.state = (s.session p).state) (running : (s.session p).running) :
    s.StopRuled p x ((s.withSession p x).applyStop p) := by
  have record : (s.withSession p x).session p = x := withSession_same p x
  have runs : x.running := by
    unfold Session.running at running ⊢
    rwa [state]
  have others : s.otherSessionsSame p ((s.withSession p x).applyStop p) := by
    by_cases flag : x.pause = true ∨ x.hold = true
    · by_cases stopped : x.state = .stopped
      · rw [applyStop_stays (by rw [record]; exact iff_of_true flag stopped)]
        exact withSession_others p x
      · rw [applyStop_stops (by rwa [record]) (by rwa [record]) (by rwa [record])]
        exact fun q other => (withdraw_others _ q other).trans (withSession_others p x q other)
    · by_cases stopped : x.state = .stopped
      · obtain ⟨pause, hold⟩ := not_or.mp flag
        rw [applyStop_resumes (by simpa [record] using pause) (by simpa [record] using hold) (by rwa [record])]
        exact fun q other => (withSession_others p _ q other).trans (withSession_others p x q other)
      · rw [applyStop_stays (by rw [record]; exact iff_of_false flag stopped)]
        exact withSession_others p x
  refine ⟨others, fun flag moving => ?_, fun pause hold stopped => ?_, fun agree => ?_⟩
  · rw [applyStop_stops (by rwa [record]) (by rwa [record]) (by rwa [record, state]), record]
    exact ⟨withSession_same p _, (withdraw_withdrawn (s := s.withSession p x)).congr (by rw [record, state]) rfl rfl rfl rfl⟩
  · rw [applyStop_resumes (by rwa [record]) (by rwa [record]) (by rwa [record, state])]
    refine ⟨?_, rfl, rfl⟩
    refine (withSession_same (s := s.withSession p x) p _).trans ?_
    rw [record]
  · rw [applyStop_stays (by rwa [record, state])]
    exact ⟨record, rfl, rfl⟩

/-- A flag command is refused by its operands and outside the running states; else it writes its flag and applies the stop
rule (R64, R65). -/
theorem State.flagCommand_ruled (port : Port) (point setting : Byte) {write : Session → Bool → Session}
    (keeps : ∀ x on, (write x on).state = x.state) :
    let t := s.flagCommand port point setting write
    (24 ≤ point.toNat ∨ (setting ≠ 0 ∧ setting ≠ 1) → s.turnedAway port .refused .badValue t) ∧
    ∀ p : Point, point = BitVec.ofNat 8 p.val → setting = 0 ∨ setting = 1 →
      (¬(s.session p).running → s.turnedAway port .refused .state t) ∧
      ((s.session p).running →
        s.answered port (okReply false []) t ∧ s.onlyChanges [.ssu, .alu, .requests, .replies] t ∧
        s.StopRuled p (write (s.session p) (decide (setting = 1))) t) := by
  have only := flagCommand_only (s := s) port point setting write
  refine ⟨fun bad => ?_, ?_⟩
  · rw [flagCommand_refused bad]
    exact turnDown_turnedAway port .refused .badValue
  · rintro p rfl known
    rw [flagCommand_eq known] at only ⊢
    constructor
    · intro idle
      rw [if_neg (mt Session.closable_iff.mp idle)]
      exact turnDown_turnedAway port .refused .state
    · intro running
      rw [if_pos (Session.closable_iff.mpr running)] at only ⊢
      exact ⟨ok_answered _ _ _ (applyStop_only p .replies (by decide)), only,
        (applyStop_ruled (keeps _ _) running).ok _ _ _⟩

end Sys2Proof.Machine
end

section
/-! SUPPORT. The statements of Chapter 4 about SET CLASS, CLOSE SESSION, PAUSE SESSION and HOLD POINT. -/

open Sys2Proof Sys2Proof.Machine Sys2Proof.Machine.State

/-- Settles O33: refused by an operand or a FREE record, else one field of the record is written. -/
theorem setClassWritesTheClassOfAnOpenSession : Obligations.SetClassWritesTheClassOfAnOpenSession := by
  intro point cls s
  have only := setClassOp_only (s := s) point cls
  refine ⟨setClassOp point cls s, rfl, fun bad => ?_, ?_⟩
  · rw [setClassOp_refused bad]
    exact turnDown_turnedAway .c .refused .badValue
  · rintro p rfl known
    rw [setClassOp_eq known] at only ⊢
    constructor
    · intro free
      rw [if_pos free]
      exact turnDown_turnedAway .c .refused .state
    · intro occupied
      rw [if_neg occupied] at only ⊢
      refine ⟨ok_answered _ _ _ rfl, only, (withSession_others p _).of_ssu (ok_ssu _ _ _), ?_, ?_⟩
      · rw [ok_ssu]
        rfl
      · rw [ok_session, withSession_same]

/-- Settles O35: refused by the operand or the record's state, else the close starts. -/
theorem closeSessionStartsTheClose : Obligations.CloseSessionStartsTheClose := by
  intro point s
  have only := closeSessionOp_only (s := s) point
  refine ⟨closeSessionOp point s, rfl, fun bad => ?_, ?_⟩
  · rw [closeSessionOp_refused bad]
    exact turnDown_turnedAway .c .refused .badValue
  · rintro p rfl
    rw [closeSessionOp_eq] at only ⊢
    constructor
    · intro idle
      rw [if_neg (mt Session.closable_iff.mp idle)]
      exact turnDown_turnedAway .c .refused .state
    · intro running
      rw [if_pos (Session.closable_iff.mpr running)] at only ⊢
      exact ⟨accepted_answered _ _ (startClose_only p _ .replies (by decide)), only,
        (startClose_started .customer).accepted _ _⟩

/-- Settles O32: the two commands write their own flag on their own port and share the stop rule. -/
theorem pauseAndHoldApplyTheStopRule : Obligations.PauseAndHoldApplyTheStopRule := by
  intro hold point setting s
  cases hold with
  | true =>
    obtain ⟨bad, known⟩ := flagCommand_ruled (s := s) .s point setting (write := fun x on => { x with hold := on })
      fun _ _ => rfl
    refine ⟨_, rfl, bad, fun p at_p on => ⟨(known p at_p on).1, fun running => ?_⟩⟩
    obtain ⟨answer, only, ruled⟩ := (known p at_p on).2 running
    exact ⟨answer, only, ruled.others, ruled.stops, ruled.resumes, ruled.stays⟩
  | false =>
    obtain ⟨bad, known⟩ := flagCommand_ruled (s := s) .c point setting (write := fun x on => { x with pause := on })
      fun _ _ => rfl
    refine ⟨_, rfl, bad, fun p at_p on => ⟨(known p at_p on).1, fun running => ?_⟩⟩
    obtain ⟨answer, only, ruled⟩ := (known p at_p on).2 running
    exact ⟨answer, only, ruled.others, ruled.stops, ruled.resumes, ruled.stays⟩

end

section
/-! SUPPORT. The final-meter wait: its end with the amounts, its count at a period close (R70, R71, R147 to R150). -/

namespace Sys2Proof.Machine

open Sys2Proof State

variable {s t : State} {p q : Point}

/-! ## The end of a wait -/

/-- A request that joins the queue (R159, R171). -/
theorem State.enqueue_rlg (x : ProgramRequest) : (s.enqueue x).rlg = s.rlg.afterJoin x := by
  have late (e : Erase) : decide (e.time - e.progress < 20) = decide (e.time < e.progress + 20) :=
    decide_eq_decide.mpr (by omega)
  unfold enqueue Rlg.afterJoin Rlg.erasing
  rw [withRlg_rlg]
  cases s.rlg.erase with
  | none => simp
  | some e =>
    have runs : (s.rlg.sectors[e.sector] == .erasing && s.rlg.logState != .fault) = true ↔
        s.rlg.sectors[e.sector] = .erasing ∧ s.rlg.logState ≠ .fault := by simp
    simp only [runs, Option.map_some, Erase.requestJoins, late]
    split
    · rfl
    · rfl

/-- The record once its wait has ended: priced by its own edition (R71). -/
def Session.endedWait (x : Session) (u : Tfu) : Session := { x with finalWait := none, priced := some (u.price x) }

/-- The closing request of a record (R71). -/
def Session.closingRequest (x : Session) (p : Point) : ProgramRequest := ⟨.closing p x.closingPart, x.number, x.slot, 0⟩

theorem State.endFinalWait_session (p : Point) : (s.endFinalWait p).session p = (s.session p).endedWait s.tfu :=
  withSession_same p _

theorem State.endFinalWait_others (p : Point) : s.otherSessionsSame p (s.endFinalWait p) :=
  (withSession_others p ((s.session p).endedWait s.tfu)).of_ssu rfl

theorem State.endFinalWait_rlg (p : Point) :
    (s.endFinalWait p).rlg = s.rlg.afterJoin (((s.session p).endedWait s.tfu).closingRequest p) :=
  enqueue_rlg (s := s.withSession p ((s.session p).endedWait s.tfu)) _

/-- The record at count 5, its end still to come (R70). -/
def State.atFive (p : Point) (s : State) : State := s.withSession p { s.session p with finalWait := some 5 }

/-- The count does not enter the amounts. -/
theorem State.atFive_ended (p : Point) :
    ((s.atFive p).session p).endedWait (s.atFive p).tfu = (s.session p).endedWait s.tfu := by
  rw [atFive, withSession_same]
  rfl

theorem State.atFive_end_session (p : Point) :
    ((s.atFive p).endFinalWait p).session p = (s.session p).endedWait s.tfu :=
  endFinalWait_session p |>.trans (atFive_ended p)

theorem State.atFive_end_others (p : Point) : s.otherSessionsSame p ((s.atFive p).endFinalWait p) := fun q other =>
  (endFinalWait_others p q other).trans (withSession_others p _ q other)

theorem State.atFive_end_rlg (p : Point) :
    ((s.atFive p).endFinalWait p).rlg = s.rlg.afterJoin (((s.session p).endedWait s.tfu).closingRequest p) := by
  rw [endFinalWait_rlg, atFive_ended]
  rfl

theorem execFinalWaitExpiry_runs (h : (s.session p).waitRuns = true) :
    execFinalWaitExpiry p s = .next ((s.atFive p).endFinalWait p) :=
  congrArg Host.Outcome.next (if_pos h)

theorem execFinalWaitExpiry_rests (h : ¬(s.session p).waitRuns = true) : execFinalWaitExpiry p s = .next s :=
  congrArg Host.Outcome.next (if_neg h)

theorem Session.waitRuns_iff {x : Session} : x.waitRuns = true ↔ x.state = .closing ∧ ∃ k, x.finalWait = some k := by
  simp [waitRuns, Option.isSome_iff_exists]

/-- A joining request leaves the array alone. -/
theorem Rlg.afterJoin_readByte (r : Rlg) (x : ProgramRequest) (a : Nat) : (r.afterJoin x).readByte a = r.readByte a := rfl

/-! ## The count at a period close -/

/-- A wait that does not run is passed over (R70). -/
theorem State.finalWaitTick_rests (h : (s.session p).waitRuns = false) : s.finalWaitTick p = s := by
  unfold finalWaitTick
  dsimp only
  split
  · next state wait => simp [Session.waitRuns, state, wait] at h
  · rfl

theorem State.finalWaitTick_counts {k : Nat} (state : (s.session p).state = .closing)
    (wait : (s.session p).finalWait = some k) :
    s.finalWaitTick p =
      if k + 1 < 5 then s.withSession p { s.session p with finalWait := some (k + 1) }
      else (s.atFive p).endFinalWait p := by
  unfold finalWaitTick
  dsimp only
  split
  · next j _ found =>
    obtain rfl := Option.some.inj (wait.symm.trans found)
    rfl
  · next stopped => exact absurd wait (stopped k state)

theorem State.finalWaitTick_others (p : Point) : s.otherSessionsSame p (s.finalWaitTick p) := by
  by_cases runs : (s.session p).waitRuns = true
  · obtain ⟨state, k, wait⟩ := Session.waitRuns_iff.mp runs
    rw [finalWaitTick_counts state wait]
    split
    · exact withSession_others p _
    · exact atFive_end_others p
  · rw [finalWaitTick_rests (Bool.not_eq_true _ ▸ runs)]
    exact fun _ _ => rfl

/-- A tick only appends to the program queue. -/
theorem State.finalWaitTick_queue (p : Point) : ∀ x ∈ s.rlg.queue, x ∈ (s.finalWaitTick p).rlg.queue := by
  intro x mem
  by_cases runs : (s.session p).waitRuns = true
  · obtain ⟨state, k, wait⟩ := Session.waitRuns_iff.mp runs
    rw [finalWaitTick_counts state wait]
    split
    · exact mem
    · rw [atFive_end_rlg]
      exact List.mem_append_left _ mem
  · rwa [finalWaitTick_rests (Bool.not_eq_true _ ▸ runs)]

/-- What a period close makes of a point's wait (R70, R71; log entry 20). -/
structure State.WaitCounted (s : State) (p : Point) (t : State) : Prop where
  state : (t.session p).state = (s.session p).state
  rests : (s.session p).waitRuns = false →
    (t.session p).finalWait = (s.session p).finalWait ∧ (t.session p).priced = (s.session p).priced
  counts : ∀ k, (s.session p).state = .closing → (s.session p).finalWait = some k → k + 1 < 5 →
    (t.session p).finalWait = some (k + 1) ∧ (t.session p).priced = (s.session p).priced
  ends : ∀ k, (s.session p).state = .closing → (s.session p).finalWait = some k → 5 ≤ k + 1 →
    (t.session p).finalWait = none ∧ (t.session p).priced = some (s.tfu.price (s.session p)) ∧
      ⟨.closing p (t.session p).closingPart, (s.session p).number, (s.session p).slot, 0⟩ ∈ t.rlg.queue

theorem State.finalWaitTick_counted (p : Point) : s.WaitCounted p (s.finalWaitTick p) := by
  by_cases runs : (s.session p).waitRuns = true
  · obtain ⟨state, k, wait⟩ := Session.waitRuns_iff.mp runs
    by_cases few : k + 1 < 5
    · rw [finalWaitTick_counts state wait, if_pos few]
      constructor <;> simp [runs, wait]
      omega
    · rw [finalWaitTick_counts state wait, if_neg few]
      constructor
      case state => rw [atFive_end_session]; rfl
      case rests => exact fun rests => absurd runs (by simp [rests])
      case counts =>
        intro j _ same less
        obtain rfl := Option.some.inj (wait.symm.trans same)
        exact absurd less few
      case ends =>
        intro j _ _ _
        rw [atFive_end_session, atFive_end_rlg]
        exact ⟨rfl, rfl, List.mem_append_right _ (List.mem_singleton.mpr rfl)⟩
  · have rests := Bool.not_eq_true _ ▸ runs
    have stopped (k : Nat) (state : (s.session p).state = .closing) (wait : (s.session p).finalWait = some k) : False :=
      runs (Session.waitRuns_iff.mpr ⟨state, k, wait⟩)
    rw [finalWaitTick_rests rests]
    exact ⟨rfl, fun _ => ⟨rfl, rfl⟩, fun k state wait => (stopped k state wait).elim,
      fun k state wait => (stopped k state wait).elim⟩

/-- The ticks of other points leave a point's record, and keep the requests that stand in the queue. -/
theorem State.finalWaitTicks_apart {ps : List Point} (h : p ∉ ps) : ∀ v : State,
    (ps.foldl finalWaitTick v).session p = v.session p ∧
      ∀ x ∈ v.rlg.queue, x ∈ (ps.foldl finalWaitTick v).rlg.queue := by
  induction ps with
  | nil => exact fun _ => ⟨rfl, fun _ mem => mem⟩
  | cons q ps ih =>
    intro v
    obtain ⟨other, rest⟩ := not_or.mp (mt List.mem_cons.mpr h)
    obtain ⟨record, queue⟩ := ih rest (v.finalWaitTick q)
    exact ⟨record.trans (finalWaitTick_others q p other), fun x mem => queue x (finalWaitTick_queue q x mem)⟩

/-- A count made of one point, before and after others. -/
theorem State.WaitCounted.congr {v w : State} (h : s.WaitCounted p t) (before : s.session p = v.session p)
    (tfu : s.tfu = v.tfu) (after : w.session p = t.session p) (queue : ∀ x ∈ t.rlg.queue, x ∈ w.rlg.queue) :
    v.WaitCounted p w := by
  obtain ⟨state, rests, counts, ends⟩ := h
  rw [before, ← after] at state rests counts ends
  rw [tfu] at ends
  refine ⟨state, rests, counts, fun k closing wait full => ?_⟩
  obtain ⟨ended, priced, queued⟩ := ends k closing wait full
  exact ⟨ended, priced, queue _ queued⟩

/-- At a close every point's wait is counted once. -/
theorem State.finalWaitTicks_counted (p : Point) : s.WaitCounted p s.finalWaitTicks := by
  have once : allPoints.Nodup := List.nodup_ofFn.mpr Function.injective_id
  obtain ⟨before, after, split⟩ : ∃ before after, allPoints = before ++ p :: after :=
    List.append_of_mem (List.mem_ofFn.mpr ⟨p, rfl⟩)
  rw [split, List.nodup_middle, List.nodup_cons, List.mem_append, not_or] at once
  obtain ⟨⟨notBefore, notAfter⟩, _⟩ := once
  unfold finalWaitTicks
  rw [split, List.foldl_append, List.foldl_cons]
  have first := finalWaitTicks_apart notBefore s
  have only : s.onlyChanges [.ssu, .rlg] (before.foldl finalWaitTick s) := onlyChanges_foldl (fun _ a => finalWaitTick_only a) _
  generalize before.foldl finalWaitTick s = v at first only ⊢
  have last := finalWaitTicks_apart notAfter (v.finalWaitTick p)
  exact (finalWaitTick_counted p).congr first.1 (only .tfu (by decide)) last.1 last.2

/-! ## The rest of the close -/

/-- A judgement reaches a record by TRIP_SEEN only (R74). -/
theorem State.JudgedInto.session (h : s.JudgedInto t) (p : Point) :
    ∃ seen, t.session p = { s.session p with tripSeen := seen } := by
  cases h with
  | stays l _ => exact ⟨_, rfl⟩
  | moves e l _ _ _ _ =>
    refine ⟨(s.session p).tripSeen, ?_⟩
    rw [State.session, withLsu_ssu, escalate_only e .ssu (by decide)]
    rfl
  | sheds _ =>
    refine ⟨(s.session p).tripSeen, ?_⟩
    rw [State.session, enterShed, allZeroRequest_only .ssu (by decide), escalate_only .shed .ssu (by decide)]
    rfl
  | trips _ =>
    rw [enterTripped_session, Session.seeTrip]
    split
    · exact ⟨_, rfl⟩
    · exact ⟨true, rfl⟩

/-- The state in which a close counts the waits: judged, the reading handed on, the limit taken over (R3, R12). -/
def State.beforeTicks (r : Reading) (s : State) : State :=
  let t := (s.judgedAt r).send (.newReading r)
  t.withLsu { t.lsu with checkLimit := t.lsu.lEff }

theorem State.closePeriod_ticks (r : Reading) :
    s.closePeriod r = (s.beforeTicks r).finalWaitTicks.withFlc (s.beforeTicks r).finalWaitTicks.flc.periodClose := by
  unfold closePeriod beforeTicks judgedAt
  dsimp only

/-- A close counts the waits of the records as the judgement leaves them. -/
theorem State.closePeriod_counted (r : Reading) (p : Point) : (s.judgedAt r).WaitCounted p (s.closePeriod r) := by
  rw [closePeriod_ticks]
  have counted := finalWaitTicks_counted (s := s.beforeTicks r) p
  have records : (s.beforeTicks r).session p = (s.judgedAt r).session p := rfl
  have books : (s.beforeTicks r).tfu = (s.judgedAt r).tfu := rfl
  generalize (s.beforeTicks r).finalWaitTicks = v at counted ⊢
  exact counted.congr records books rfl fun _ mem => mem

/-- TRIP_SEEN does not enter the amounts. -/
theorem Tfu.price_tripSeen (u : Tfu) (x : Session) (seen : Bool) : u.price { x with tripSeen := seen } = u.price x := by
  simp only [price, editionOf]

/-- TRIP_SEEN does not enter the count. -/
theorem State.WaitCounted.of_tripSeen {v : State} {seen : Bool} (h : v.WaitCounted p t)
    (record : v.session p = { s.session p with tripSeen := seen }) (tfu : v.tfu = s.tfu) : s.WaitCounted p t := by
  obtain ⟨state, rests, counts, ends⟩ := h
  rw [record] at state rests counts ends
  rw [tfu, Tfu.price_tripSeen] at ends
  exact ⟨state, rests, counts, ends⟩

/-! ## The amounts -/

/-- Rounding to the nearest cent, a half up (R148). -/
theorem roundCents_bounds (n : Nat) :
    1000000 * roundCents n ≤ n + 500000 ∧ n + 500000 < 1000000 * roundCents n + 1000000 := by
  unfold roundCents
  omega

/-- Billable minutes: the seconds past the grace, rounded up (R149). -/
theorem billableMinutes_eq (e : Edition) (seconds : Nat) :
    billableMinutes e seconds = (seconds - 60 * e.idleGrace + 59) / 60 := by
  unfold billableMinutes ceilDiv
  split <;> omega

theorem idleAmount_eq (e : Edition) (seconds : Nat) :
    idleAmount e seconds =
      if e.idleCap = 0 then min ((seconds - 60 * e.idleGrace + 59) / 60 * e.idleFee) 4294967295
      else min ((seconds - 60 * e.idleGrace + 59) / 60 * e.idleFee) e.idleCap := by
  unfold idleAmount
  rw [billableMinutes_eq]
  rfl

theorem Tfu.price_eq {u : Tfu} {x : Session} {e : Edition} (h : u.editionOf x = some e) :
    u.price x =
      { meterEnd := x.lastMeter, energy := energyAmount e x.accounts, idle := idleAmount e x.idleSeconds
        total := totalAmount e.sessionFee (energyAmount e x.accounts) (idleAmount e x.idleSeconds) } := by
  simp only [price, h]

end Sys2Proof.Machine
end

section
/-! SUPPORT. The statements of Chapters 4 and 8 about the final-meter wait. -/

open Sys2Proof Sys2Proof.Machine Sys2Proof.Machine.State

/-- Settles O5: a close counts every wait once, an expiry ends one that runs. -/
theorem finalMeterWaitCountsCloses : Obligations.FinalMeterWaitCountsCloses := by
  constructor
  · intro x s p
    refine ⟨_, execPeriodClose_eq x s, ?_⟩
    generalize (s.cmu.accumulate x).formReading = r
    have metered : s.onlyChanges [.cmu] (s.withCmu (s.cmu.accumulate x)) := withCmu_only _
    generalize s.withCmu (s.cmu.accumulate x) = u at metered ⊢
    obtain ⟨v, read, judged⟩ : ∃ v, s.onlyChanges [.cmu] v ∧ v.JudgedInto (u.judgedAt r) :=
      ⟨_, onlyChanges_trans metered (withCmu_only _), applyJudgement_judged _⟩
    obtain ⟨seen, record⟩ := judged.session p
    have same : v.session p = s.session p := by rw [session, read .ssu (by decide), session]
    have tfu : (u.judgedAt r).tfu = s.tfu :=
      ((applyJudgement_only _ .tfu (by decide)).trans (withCmu_tfu _ _)).trans (metered .tfu (by decide))
    have counted := (closePeriod_counted r p).of_tripSeen (same ▸ record) tfu
    exact ⟨counted.state, counted.rests, fun k state wait => ⟨counted.counts k state wait, counted.ends k state wait⟩⟩
  · intro p s
    by_cases runs : (s.session p).waitRuns = true
    · refine ⟨_, execFinalWaitExpiry_runs runs, ?_⟩
      refine ⟨execFinalWaitExpiry_only (execFinalWaitExpiry_runs runs), atFive_end_others p, fun a => ?_, fun _ => ?_,
        fun rests => absurd runs (by simp [rests])⟩
      · rw [atFive_end_rlg, Rlg.afterJoin_readByte]
      · rw [atFive_end_rlg, atFive_end_session]
        exact ⟨rfl, rfl⟩
    · exact ⟨s, execFinalWaitExpiry_rests runs, onlyChanges_refl, fun _ _ => rfl, fun _ => rfl, fun h => absurd h runs,
        fun _ => rfl⟩

/-- Settles O37: an expiry ends the wait, and the amounts are those of the session's edition. -/
theorem theEndOfTheWaitPricesTheSession : Obligations.TheEndOfTheWaitPricesTheSession := by
  intro p s e runs edition
  obtain ⟨low, high⟩ := roundCents_bounds (bandProduct e (s.session p).accounts 0 +
    bandProduct e (s.session p).accounts 1 + bandProduct e (s.session p).accounts 2 +
    bandProduct e (s.session p).accounts 3)
  refine ⟨_, s.tfu.price (s.session p), execFinalWaitExpiry_runs runs, ?_, ?_⟩
  · rw [atFive_end_session]
    rfl
  · rw [Tfu.price_eq edition]
    exact ⟨rfl, low, high, idleAmount_eq e _, rfl⟩

end

section
/-! SUPPORT. A charge point's REPORT at its session: the delta accounted, then the final-meter, plug and request tests (R61,
R121 to R129). -/

namespace Sys2Proof.Machine

open Sys2Proof State

variable {s t : State} {p : Point} {echo : Byte} {register : Word32} {request : Nat} {plugged : Bool}

/-! ## The report that is taken -/

/-- A request hands the point's report on when it is one, and says which. -/
theorem Request.sessionReport_eq_some {q : Request} {x : Byte × Report} :
    q.sessionReport p = some x ↔ q = .reportToSession p x.1 x.2 := by
  cases q with
  | reportToSession q e r =>
    by_cases same : q = p
    · simp [Request.sessionReport, same, Prod.ext_iff, eq_comm]
    · simp [Request.sessionReport, same]
  | _ => simp [Request.sessionReport]

/-- Of the requests between units, the first one of the point is taken (R112). -/
theorem State.reportToTake_first {before after : List Request} {report : Report}
    (requests : s.requests = before ++ .reportToSession p echo report :: after)
    (noneBefore : ∀ e r, Request.reportToSession p e r ∉ before) : s.reportToTake p = some (echo, report) := by
  have passed : before.findSome? (Request.sessionReport p) = none :=
    List.findSome?_eq_none_iff.mpr fun x mem => Option.eq_none_iff_forall_ne_some.mpr fun r found =>
      noneBefore r.1 r.2 (Request.sessionReport_eq_some.mp found ▸ mem)
  have found : s.requests.findSome? (Request.sessionReport p) = some (echo, report) := by
    have handed := Request.sessionReport_eq_some (p := p) (x := (echo, report)).mpr rfl
    rw [requests, List.findSome?_append, passed, Option.none_or, List.findSome?_cons_of_isSome (by rw [handed]; rfl)]
    exact handed
  simp only [reportToTake, found]

theorem execSessionReport_none (h : s.reportToTake p = none) : execSessionReport p s = .next s := by
  simp only [execSessionReport, h]

theorem execSessionReport_free {report : Report} (h : s.reportToTake p = some (echo, report))
    (free : (s.session p).state = .free) :
    execSessionReport p s = .next (s.takeRequest (.reportToSession p echo report)) := by
  simp only [execSessionReport, h]
  cases report with
  | chargePoint => exact congrArg Host.Outcome.next (if_pos free)
  | canopy => rfl
  | battery => rfl

theorem execSessionReport_occupied {power : Nat} {fault : Byte}
    (h : s.reportToTake p = some (echo, .chargePoint register power request plugged fault))
    (occupied : (s.session p).state ≠ .free) :
    execSessionReport p s =
      .next ((s.takeRequest (.reportToSession p echo (.chargePoint register power request plugged fault))).sessionReport p
        echo register request plugged) := by
  simp only [execSessionReport, h]
  exact congrArg Host.Outcome.next (if_neg occupied)

/-! ## The delta -/

/-- The fields of a record that the accounting of a delta writes (R122 to R126). -/
structure Metering where
  accounts : Accounts
  disputed : Nat
  lastMeter : Word32
  lastReport : Option Nat
  meterSuspect : Bool

def Session.metering (x : Session) : Metering := ⟨x.accounts, x.disputed, x.lastMeter, x.lastReport, x.meterSuspect⟩

def Session.withMetering (x : Session) (m : Metering) : Session :=
  { x with
    accounts := m.accounts, disputed := m.disputed, lastMeter := m.lastMeter, lastReport := m.lastReport
    meterSuspect := m.meterSuspect }

theorem Session.account_metering (x : Session) (now limit : Nat) (b : Fin 4) (r : BalanceRecord) :
    ∃ m, x.account register now limit b r = x.withMetering m := by
  refine ⟨(x.account register now limit b r).metering, ?_⟩
  unfold account
  split
  · rfl
  split
  · rfl
  split
  · rfl
  · rfl

theorem Session.accountable_iff {x : Session} : x.accountable = true ↔ x.running ∨ x.waitRuns = true := by
  rw [accountable, Bool.or_eq_true, Session.closable_iff]

theorem Session.account_setAside {x : Session} {now limit : Nat} {b : Fin 4} {r : BalanceRecord}
    (h : 2147483648 ≤ x.delta register ∨ 4294967295 < x.total + x.delta register) :
    x.account register now limit b r = x.setAside := by
  have aside : x.setsAside register = true := by
    rw [setsAside, Bool.or_eq_true, decide_eq_true_iff, decide_eq_true_iff]
    exact h
  rw [account, if_pos aside]

theorem Session.setsAside_false {x : Session} (back : x.delta register < 2147483648)
    (round : x.total + x.delta register ≤ 4294967295) : ¬x.setsAside register = true := by
  rw [setsAside, Bool.or_eq_true, decide_eq_true_iff, decide_eq_true_iff, not_or]
  exact ⟨not_le.mpr back, not_lt.mpr round⟩

theorem Session.account_implausible {x : Session} {now limit : Nat} {b : Fin 4} {r : BalanceRecord}
    (h : ¬x.setsAside register = true) (more : limit < x.delta register) :
    x.account register now limit b r = x.dispute register now := by
  rw [account, if_neg h, if_pos more]

theorem Session.account_plausible {x : Session} {now limit : Nat} {b : Fin 4} {r : BalanceRecord}
    (h : ¬x.setsAside register = true) (within : x.delta register ≤ limit) :
    x.account register now limit b r =
      if x.accounts.fits b (divide r (x.delta register)) then x.take register now b (divide r (x.delta register))
      else x.dispute register now := by
  rw [account, if_neg h, if_neg (not_lt.mpr within)]

/-- The three parts are the shares of the sources, and grid the rest (R128, R129). -/
theorem divide_eq (r : BalanceRecord) (delta : Nat) :
    divide r delta = ⟨share delta r.pvW r.c, share delta r.batW r.c,
      1000 * delta - share delta r.pvW r.c - share delta r.batW r.c⟩ := by
  unfold divide share
  dsimp only
  split
  · rfl
  · rfl

theorem Accounts.fits_iff {a : Accounts} {b : Fin 4} {x : Parts} :
    a.fits b x = true ↔
      a.pv[b] + x.pv ≤ 4294967295 ∧ a.bat[b] + x.bat ≤ 4294967295 ∧ a.grid[b] + x.grid ≤ 4294967295 := by
  rw [fits, Bool.and_eq_true, Bool.and_eq_true, decide_eq_true_iff, decide_eq_true_iff, decide_eq_true_iff, and_assoc]
  rfl

theorem State.limitNow_eq (s : State) (p : Point) : s.limitNow p = s.reportLimit p := by
  have up (n : Nat) : n + 3600000 - 1 = n + 3599999 := by omega
  unfold limitNow plausibleDelta ceilDiv reportLimit Session.elapsed
  rw [up]
  rfl

/-- The band of a delta is that of R142 in the session's own edition (R127). -/
theorem State.deltaBand_is {x : Session} (h : s.bandKnown x) : s.deltaBandIs x (s.tfu.deltaBand x) := by
  obtain ⟨valid, held, slot, number, nonempty, rising⟩ := h
  refine ⟨held, slot, number, ?_⟩
  have edition : s.tfu.editionOf x = some held.edition := by simp only [Tfu.editionOf, slot, if_pos number]
  have band : s.tfu.deltaBand x = bandAt held.edition.schedule (minuteOfDay s.tfu.calendar) := by
    simp only [Tfu.deltaBand, edition, Tfu.bandInForce, valid, if_true, Option.getD_some]
  rw [band]
  exact bandAt_is _ nonempty rising

theorem State.accountReport_accounts (h : (s.session p).accountable = true) :
    (s.accountReport p register).session p =
      (s.session p).account register s.now (s.reportLimit p) (s.tfu.deltaBand (s.session p)) s.bau.record := by
  rw [accountReport, if_pos h, withSession_same, limitNow_eq]

theorem State.accountReport_rests (h : ¬(s.session p).accountable = true) : s.accountReport p register = s := if_neg h

/-- Only the metering of the point's record is written (R122 to R126). -/
theorem State.accountReport_session (s : State) (p : Point) (register : Word32) :
    ∃ m, (s.accountReport p register).session p = (s.session p).withMetering m := by
  by_cases h : (s.session p).accountable = true
  · rw [accountReport_accounts h]
    exact Session.account_metering _ _ _ _ _
  · exact ⟨(s.session p).metering, by rw [accountReport_rests h]; rfl⟩

theorem State.accountReport_others : s.otherSessionsSame p (s.accountReport p register) := by
  unfold accountReport
  split
  · exact withSession_others p _
  · exact fun _ _ => rfl

/-- What is said of a delta is said of the metering only. -/
theorem State.DeltaTaken.congr {u : State} (h : s.DeltaTaken p register t)
    (same : (u.session p).metering = (t.session p).metering) : s.DeltaTaken p register u := by
  simp only [Session.metering, Metering.mk.injEq] at same
  obtain ⟨accounts, disputed, lastMeter, lastReport, suspect⟩ := same
  obtain ⟨aside, implausible, plausible⟩ := h
  rw [← accounts, ← disputed, ← lastMeter, ← lastReport, ← suspect] at aside implausible plausible
  exact ⟨aside, implausible, plausible⟩

/-- The accounting, by its three tests in their order (R122 to R126). -/
theorem State.accountReport_taken (h : (s.session p).accountable = true) :
    s.DeltaTaken p register (s.accountReport p register) := by
  have record := accountReport_accounts (register := register) h
  constructor
  case setAside =>
    intro aside
    rw [record, Session.account_setAside aside]
    exact ⟨rfl, rfl, rfl, rfl, rfl⟩
  case implausible =>
    intro back round more
    rw [record, Session.account_implausible (Session.setsAside_false back round) more]
    exact ⟨rfl, rfl, rfl, rfl, rfl⟩
  case plausible =>
    intro back round within
    rw [record, Session.account_plausible (Session.setsAside_false back round) within]
    dsimp only
    refine ⟨deltaBand_is, ?_, ?_, fun fits => ?_, fun past => ?_⟩
    · split <;> rfl
    · split <;> rfl
    · rw [if_pos (Accounts.fits_iff.mpr (by rw [divide_eq]; exact fits)), divide_eq]
      exact ⟨rfl, rfl, rfl⟩
    · rw [if_neg (mt Accounts.fits_iff.mp (by rw [divide_eq]; exact past))]
      exact ⟨rfl, rfl, rfl⟩

/-! ## The three tests after it, by the state of the session -/

/-- A record's wait runs in CLOSING only. -/
theorem Session.waitRuns_false {x : Session} (h : x.state ≠ .closing) : x.waitRuns = false := by
  rw [← Bool.not_eq_true, waitRuns_iff]
  exact fun runs => h runs.1

theorem State.finalTest_rests (h : (s.session p).waitRuns = false) : s.finalTest p echo = s := by
  rw [finalTest, isFinal, h, if_neg (by simp)]

theorem Session.running_state {x : Session} (h : x.running) : x.state ≠ .closing ∧ x.state ≠ .opening ∧ x.state ≠ .free := by
  rcases h with state | state | state | state <;> rw [state] <;> decide

theorem State.sessionReport_opening (h : (s.session p).state = .opening) :
    s.sessionReport p echo register request plugged =
      if plugged = false ∧ (s.session p).pendingClose = none then
        s.withSession p { s.session p with pendingClose := some .unplugged }
      else s := by
  have rests : ¬(s.session p).accountable = true := by
    simp [Session.accountable, Session.waitRuns, h, SessionState.closable]
  have stays (u : State) (state : (u.session p).state = .opening) : u.requestTest p request = u := by
    simp only [requestTest, state]
  rw [sessionReport, accountReport_rests rests, finalTest_rests (Session.waitRuns_false (by simp [h]))]
  cases plugged with
  | true => exact stays s h
  | false =>
    rw [plugTest, if_neg (by decide), if_neg (by rw [h]; decide)]
    simp only [true_and, h]
    split
    · exact stays _ (by rw [withSession_same])
    · exact stays s h

theorem State.endFinalWait_state : ((s.endFinalWait p).session p).state = (s.session p).state := by
  rw [endFinalWait_session]
  rfl

theorem State.finalTest_state : ((s.finalTest p echo).session p).state = (s.session p).state := by
  unfold finalTest
  split
  · exact endFinalWait_state
  · rfl

theorem State.accountReport_state : ((s.accountReport p register).session p).state = (s.session p).state := by
  obtain ⟨m, record⟩ := accountReport_session s p register
  rw [record]
  rfl

/-- A CLOSING session's report is accounted while the wait runs, and may end it (R70). -/
theorem State.sessionReport_closing (h : (s.session p).state = .closing) :
    s.sessionReport p echo register request plugged = (s.accountReport p register).finalTest p echo := by
  have state : (((s.accountReport p register).finalTest p echo).session p).state = .closing := by
    rw [finalTest_state, accountReport_state, h]
  have noPlug : ((s.accountReport p register).finalTest p echo).plugTest p plugged =
      (s.accountReport p register).finalTest p echo := by
    simp [plugTest, state, SessionState.closable]
  rw [sessionReport, noPlug]
  simp only [requestTest, state]

/-- Unplugged, a running session's close starts (R68). -/
theorem State.sessionReport_unplugged (h : (s.session p).running) :
    s.sessionReport p echo register request false = (s.accountReport p register).startClose p .unplugged := by
  have state := accountReport_state (s := s) (p := p) (register := register)
  have closable : ((s.accountReport p register).session p).state.closable = true := by
    rw [state]
    exact Session.closable_iff.mpr h
  rw [sessionReport, finalTest_rests (Session.waitRuns_false (by rw [state]; exact (Session.running_state h).1)), plugTest,
    if_neg (by decide), if_pos closable]
  simp only [requestTest, startClose, withSession_same]

/-- Plugged, a running session's request is tested (R62). -/
theorem State.sessionReport_plugged (h : (s.session p).running) :
    s.sessionReport p echo register request true = (s.accountReport p register).requestTest p request := by
  have state := accountReport_state (s := s) (p := p) (register := register)
  rw [sessionReport, finalTest_rests (Session.waitRuns_false (by rw [state]; exact (Session.running_state h).1)), plugTest,
    if_pos rfl]

theorem State.requestTest_counts (h : (s.session p).state = .waiting ∨ (s.session p).state = .charging) :
    s.requestTest p request = s.countRequest p request := by
  unfold requestTest
  rcases h with state | state <;> rw [state]

theorem State.requestTest_done (h : (s.session p).state = .done) :
    s.requestTest p request = if request ≠ 0 then s.enterWaiting p else s := by
  simp only [requestTest, h]

theorem State.requestTest_stopped (h : (s.session p).state = .stopped) : s.requestTest p request = s := by
  simp only [requestTest, h]

theorem State.enterDone_session :
    (s.enterDone p).session p = { s.session p with state := .done, zeroRequests := 3, grant := 0 } :=
  withSession_same (s := s.withdraw p) p _

theorem State.enterDone_withdrawn : s.Withdrawn p (s.enterDone p) := withdraw_withdrawn.congr rfl rfl rfl rfl rfl

theorem State.enterDone_noticesC : (s.enterDone p).noticesC = s.noticesC.raise 5 [p.val] := by
  have kept : (s.withdraw p).noticesC = s.noticesC := withdraw_only p .noticesC (by decide)
  rw [← kept]
  rfl

theorem State.enterWaiting_session :
    (s.enterWaiting p).session p = { s.session p with state := .waiting, waitCount := 0, zeroRequests := 0 } :=
  withSession_same p _

/-- The record between the accounting and the tests: the metering apart, the one before (R122 to R126). -/
theorem State.accountReport_finalWait :
    ((s.accountReport p register).session p).finalWait = (s.session p).finalWait ∧
      ((s.accountReport p register).session p).priced = (s.session p).priced ∧
      ((s.accountReport p register).session p).waitRuns = (s.session p).waitRuns := by
  obtain ⟨m, record⟩ := accountReport_session s p register
  rw [record]
  exact ⟨rfl, rfl, rfl⟩

/-- The test for the final report, as R70 puts it. -/
theorem State.isFinal_accounted (h : (s.session p).waitRuns = true) :
    (s.accountReport p register).isFinal p echo =
      (s.online p && decide (echo = (s.node (pointNode p)).sequence) &&
        decide ((s.node (pointNode p)).sentValue = 0)) := by
  obtain ⟨_, _, waits⟩ := accountReport_finalWait (s := s) (p := p) (register := register)
  have link : (s.accountReport p register).flc = s.flc := accountReport_only p register .flc (by decide)
  have equal (b : Byte) : (echo == b) = decide (echo = b) := by rw [Bool.eq_iff_iff, beq_iff_eq, decide_eq_true_iff]
  have entry : (s.accountReport p register).node (pointNode p) = s.node (pointNode p) := by rw [node, link, node]
  unfold isFinal online
  rw [waits, h, entry, equal, Bool.true_and]

/-- The final report prices the session and asks for its closing record (R70, R71). -/
theorem State.sessionReport_final (runs : (s.session p).waitRuns = true)
    (final : (s.online p && decide (echo = (s.node (pointNode p)).sequence) &&
      decide ((s.node (pointNode p)).sentValue = 0)) = true) :
    let t := s.sessionReport p echo register request plugged
    (t.session p).finalWait = none ∧ (t.session p).state = .closing ∧ (t.session p).priced.isSome = true ∧
      t.rlg = s.rlg.afterJoin ⟨.closing p (t.session p).closingPart, (s.session p).number, (s.session p).slot, 0⟩ := by
  have closing := (Session.waitRuns_iff.mp runs).1
  obtain ⟨m, record⟩ := accountReport_session s p register
  have log : (s.accountReport p register).rlg = s.rlg := accountReport_only p register .rlg (by decide)
  rw [sessionReport_closing closing, finalTest, if_pos ((isFinal_accounted runs).trans final)]
  dsimp only
  rw [endFinalWait_session, endFinalWait_rlg, log, record]
  exact ⟨rfl, closing, rfl, rfl⟩

/-- Every other report leaves the wait as it is (R70). -/
theorem State.sessionReport_notFinal (runs : (s.session p).waitRuns = true)
    (final : (s.online p && decide (echo = (s.node (pointNode p)).sequence) &&
      decide ((s.node (pointNode p)).sentValue = 0)) = false) :
    let t := s.sessionReport p echo register request plugged
    (t.session p).finalWait = (s.session p).finalWait ∧ (t.session p).priced = (s.session p).priced ∧ t.rlg = s.rlg := by
  have closing := (Session.waitRuns_iff.mp runs).1
  obtain ⟨wait, priced, _⟩ := accountReport_finalWait (s := s) (p := p) (register := register)
  rw [sessionReport_closing closing, finalTest, if_neg (by simp [isFinal_accounted runs, final])]
  exact ⟨wait, priced, accountReport_only p register .rlg (by decide)⟩

/-- A CLOSING session whose wait has ended takes nothing from a report (R70). -/
theorem State.sessionReport_ended (closing : (s.session p).state = .closing) (ended : (s.session p).waitRuns = false) :
    s.sessionReport p echo register request plugged = s := by
  have rests : ¬(s.session p).accountable = true := by
    simp [Session.accountable, ended, closing, SessionState.closable]
  rw [sessionReport_closing closing, accountReport_rests rests, finalTest_rests ended]

/-- The accounting does not enter the withdrawal. -/
theorem State.Withdrawn.ofAccounted (h : (s.accountReport p register).Withdrawn p t) : s.Withdrawn p t :=
  h.congr accountReport_state.symm (accountReport_only p register .alu (by decide) ▸ rfl)
    (accountReport_only p register .requests (by decide)).symm rfl rfl

/-- Unplugged, a running session closes (R68, R69). -/
theorem State.sessionReport_unplugged_closes (running : (s.session p).running) :
    let t := s.sessionReport p echo register request false
    (t.session p).state = .closing ∧ (t.session p).grant = 0 ∧
      (t.session p).ending = some ⟨.unplugged, s.tfu.calendar⟩ ∧ (t.session p).finalWait = some 0 ∧
      s.Withdrawn p t := by
  have started := startClose_started (s := s.accountReport p register) (p := p) .unplugged
  have time : (s.accountReport p register).tfu = s.tfu := accountReport_only p register .tfu (by decide)
  rw [sessionReport_unplugged running]
  dsimp only
  rw [started.record, time]
  exact ⟨rfl, rfl, rfl, rfl, started.withdrawn.ofAccounted⟩

/-- Unplugged, an OPENING session notes its end (R60). -/
theorem State.sessionReport_unplugged_opening (opening : (s.session p).state = .opening) :
    let t := s.sessionReport p echo register request false
    (t.session p).state = .opening ∧
      (t.session p).pendingClose = some ((s.session p).pendingClose.getD .unplugged) := by
  rw [sessionReport_opening opening]
  cases pending : (s.session p).pendingClose with
  | none => simp [opening]
  | some reason => simp [opening, pending]

/-- Plugged, WAITING and CHARGING count the zero requests; the third makes the session DONE (R62). -/
theorem State.sessionReport_counts (h : (s.session p).state = .waiting ∨ (s.session p).state = .charging) :
    let t := s.sessionReport p echo register request true
    (request ≠ 0 → (t.session p).state = (s.session p).state ∧ (t.session p).zeroRequests = 0) ∧
    (request = 0 → (s.session p).zeroRequests < 2 → (t.session p).state = (s.session p).state ∧
      (t.session p).zeroRequests = (s.session p).zeroRequests + 1) ∧
    (request = 0 → 2 ≤ (s.session p).zeroRequests → (t.session p).state = .done ∧ (t.session p).zeroRequests = 3 ∧
      (t.session p).grant = 0 ∧ t.noticesC = s.noticesC.raise 5 [p.val] ∧ s.Withdrawn p t) := by
  obtain ⟨m, record⟩ := accountReport_session s p register
  have state : ((s.accountReport p register).session p).state = (s.session p).state := accountReport_state
  have count : ((s.accountReport p register).session p).zeroRequests = (s.session p).zeroRequests := by rw [record]; rfl
  have notices : (s.accountReport p register).noticesC = s.noticesC := accountReport_only p register .noticesC (by decide)
  rw [sessionReport_plugged (h.elim .inl fun charging => .inr (.inl charging)), requestTest_counts (state ▸ h),
    countRequest, count]
  refine ⟨fun some => ?_, fun zero few => ?_, fun zero many => ?_⟩
  · rw [if_pos some, withSession_same]
    exact ⟨state, rfl⟩
  · rw [if_neg (not_not.mpr zero), if_neg (by omega), withSession_same]
    exact ⟨state, rfl⟩
  · rw [if_neg (not_not.mpr zero), if_pos (by omega), enterDone_session, enterDone_noticesC, notices]
    exact ⟨rfl, rfl, rfl, rfl, enterDone_withdrawn.ofAccounted⟩

/-- Plugged, a DONE session with a request waits again (R62). -/
theorem State.sessionReport_done (done : (s.session p).state = .done) :
    let t := s.sessionReport p echo register request true
    (request = 0 → (t.session p).state = .done ∧ (t.session p).zeroRequests = (s.session p).zeroRequests) ∧
    (request ≠ 0 → (t.session p).state = .waiting ∧ (t.session p).zeroRequests = 0 ∧ (t.session p).waitCount = 0 ∧
      t.alu.queue = s.alu.queue ++ [p]) := by
  obtain ⟨m, record⟩ := accountReport_session s p register
  have books : (s.accountReport p register).alu = s.alu := accountReport_only p register .alu (by decide)
  rw [sessionReport_plugged (.inr (.inr (.inr done))), requestTest_done (accountReport_state.trans done)]
  constructor
  · intro zero
    rw [if_neg (not_not.mpr zero), record]
    exact ⟨done, rfl⟩
  · intro some
    rw [if_pos some, enterWaiting_session, ← books]
    exact ⟨rfl, rfl, rfl, rfl⟩

/-- Plugged, a STOPPED session stays so (R62). -/
theorem State.sessionReport_stopped (stopped : (s.session p).state = .stopped) :
    let t := s.sessionReport p echo register request true
    (t.session p).state = .stopped ∧ (t.session p).zeroRequests = (s.session p).zeroRequests := by
  obtain ⟨m, record⟩ := accountReport_session s p register
  rw [sessionReport_plugged (.inr (.inr (.inl stopped))), requestTest_stopped (accountReport_state.trans stopped)]
  dsimp only
  rw [record]
  exact ⟨stopped, rfl⟩

/-- Plugged, an OPENING session takes nothing from a report (R60). -/
theorem State.sessionReport_plugged_opening (opening : (s.session p).state = .opening) :
    s.sessionReport p echo register request true = s := by
  rw [sessionReport_opening opening, if_neg (by simp)]

/-! ## What every report leaves, and the requests it sends -/

/-- A step of the session's state: the metering, the other records and the array stay, and only what leaves CHARGING asks for
a reduction (R62, R69). -/
structure State.SessionMoved (s : State) (p : Point) (t : State) : Prop where
  metering : (t.session p).metering = (s.session p).metering
  others : s.otherSessionsSame p t
  array : s.arraySame t
  requests : t.requests =
    if (s.session p).state = .charging ∧ (t.session p).state ≠ .charging then s.requests ++ [.reduction p] else s.requests

theorem State.SessionMoved.refl : s.SessionMoved p s :=
  ⟨rfl, fun _ _ => rfl, fun _ => rfl, (if_neg fun left => left.2 left.1).symm⟩

theorem State.withSession_moved {x : Session} (metering : x.metering = (s.session p).metering)
    (state : x.state = (s.session p).state) : s.SessionMoved p (s.withSession p x) where
  metering := by rw [withSession_same, metering]
  others := withSession_others p x
  array _ := rfl
  requests := by
    rw [withSession_same, state, if_neg fun left => left.2 left.1]
    rfl

theorem State.endFinalWait_moved (h : (s.session p).state = .closing) : s.SessionMoved p (s.endFinalWait p) where
  metering := by rw [endFinalWait_session]; rfl
  others := endFinalWait_others p
  array a := by rw [endFinalWait_rlg, Rlg.afterJoin_readByte]
  requests := by
    rw [h, if_neg (by simp), endFinalWait_only p .requests (by decide)]

theorem State.startClose_moved (reason : EndReason) : s.SessionMoved p (s.startClose p reason) where
  metering := by rw [startClose_started reason |>.record]; rfl
  others := startClose_started reason |>.others
  array a := by rw [startClose_only p reason .rlg (by decide)]
  requests := by
    rw [startClose_started reason |>.record, startClose_started reason |>.withdrawn.request]
    simp

theorem State.enterDone_moved : s.SessionMoved p (s.enterDone p) where
  metering := by rw [enterDone_session]; rfl
  others := withdraw_others _
  array a := by rw [enterDone_only p .rlg (by decide)]
  requests := by
    rw [enterDone_session, enterDone_withdrawn.request]
    simp

theorem State.enterWaiting_moved (h : (s.session p).state = .done) : s.SessionMoved p (s.enterWaiting p) where
  metering := by rw [enterWaiting_session]; rfl
  others := withSession_others p _
  array _ := rfl
  requests := by
    rw [h, if_neg (by simp)]
    rfl

theorem State.countRequest_moved : s.SessionMoved p (s.countRequest p request) := by
  unfold countRequest
  split
  · exact withSession_moved rfl rfl
  split
  · exact enterDone_moved
  · exact withSession_moved rfl rfl

theorem State.requestTest_moved (h : (s.session p).running) : s.SessionMoved p (s.requestTest p request) := by
  rcases h with waiting | charging | stopped | done
  · rw [requestTest_counts (.inl waiting)]
    exact countRequest_moved
  · rw [requestTest_counts (.inr charging)]
    exact countRequest_moved
  · rw [requestTest_stopped stopped]
    exact .refl
  · rw [requestTest_done done]
    split
    · exact enterWaiting_moved done
    · exact .refl

theorem State.finalTest_moved (h : (s.session p).state = .closing) : s.SessionMoved p (s.finalTest p echo) := by
  unfold finalTest
  split
  · exact endFinalWait_moved h
  · exact .refl

theorem Session.running_or_resting (x : Session) :
    x.state = .free ∨ x.state = .opening ∨ x.state = .closing ∨ x.running := by
  unfold Session.running
  cases x.state <;> simp

/-- After the accounting, a report moves the session's state only. -/
theorem State.sessionReport_moved (occupied : (s.session p).state ≠ .free) :
    (s.accountReport p register).SessionMoved p (s.sessionReport p echo register request plugged) := by
  have state := accountReport_state (s := s) (p := p) (register := register)
  rcases (s.session p).running_or_resting with free | opening | closing | running
  · exact absurd free occupied
  · have rests : ¬(s.session p).accountable = true := by
      simp [Session.accountable, Session.waitRuns, opening, SessionState.closable]
    rw [sessionReport_opening opening, accountReport_rests rests]
    split
    · exact withSession_moved rfl rfl
    · exact .refl
  · rw [sessionReport_closing closing]
    exact finalTest_moved (state.trans closing)
  · have runs : ((s.accountReport p register).session p).running := by
      unfold Session.running at running ⊢
      rwa [state]
    cases plugged with
    | true =>
      rw [sessionReport_plugged running]
      exact requestTest_moved runs
    | false =>
      rw [sessionReport_unplugged running]
      exact startClose_moved .unplugged

end Sys2Proof.Machine
end

section
/-! SUPPORT. The statements of Chapters 4 and 7 about the charge point's REPORT. -/

open Sys2Proof Sys2Proof.Machine Sys2Proof.Machine.State

/-- Settles O30: a report of an occupied point is accounted by R121 to R126, and its three tests leave the metering. -/
theorem reportsAreAccountedOnce : Obligations.ReportsAreAccountedOnce := by
  intro p s echo register power request plugged fault report
  by_cases free : (s.session p).state = .free
  · have ran := execSessionReport_free report free
    have rests : ¬((s.session p).running ∨ (s.session p).waitRuns = true) := by
      rw [← Session.accountable_iff]
      simp [Session.accountable, Session.waitRuns, free, SessionState.closable]
    refine ⟨_, ran, execSessionReport_only ran, fun _ => rfl, fun _ _ => rfl, ?_, fun accounted => absurd accounted rests,
      fun _ => ⟨rfl, rfl, rfl, rfl⟩⟩
    rw [free, if_neg (by simp)]
    rfl
  · have ran := execSessionReport_occupied report free
    refine ⟨_, ran, execSessionReport_only ran, ?_⟩
    generalize taken : s.takeRequest (.reportToSession p echo (.chargePoint register power request plugged fault)) = u
    have moved := sessionReport_moved (s := u) (p := p) (echo := echo) (register := register) (request := request)
      (plugged := plugged) (taken ▸ free)
    have first := accountReport_only (s := u) p register
    have state : ((u.accountReport p register).session p).state = (u.session p).state := accountReport_state
    obtain ⟨metering, others, array, requests⟩ := moved
    refine ⟨fun a => ?_, fun q other => ?_, ?_, fun accounted => ?_, fun rests => ?_⟩
    · rw [array a, first .rlg (by decide), ← taken]
      rfl
    · rw [others q other, accountReport_others q other, ← taken]
      rfl
    · rw [requests, state, first .requests (by decide), ← taken]
      rfl
    · have delta := (accountReport_taken (register := register)
        (Session.accountable_iff.mpr (taken ▸ accounted : (u.session p).running ∨ _))).congr metering
      rw [← taken] at delta ⊢
      exact ⟨delta.setAside, delta.implausible, delta.plausible⟩
    · rw [accountReport_rests (mt Session.accountable_iff.mp (taken ▸ rests))] at metering
      simp only [Session.metering, Metering.mk.injEq] at metering
      obtain ⟨accounts, disputed, lastMeter, lastReport, _⟩ := metering
      rw [accounts, disputed, lastMeter, lastReport, ← taken]
      exact ⟨rfl, rfl, rfl, rfl⟩

/-- Settles O31: the report's tests by the state of the session. -/
theorem reportsMoveTheSession : Obligations.ReportsMoveTheSession := by
  constructor
  · intro p s
    exact ⟨execSessionReport_none, fun _ _ report free => execSessionReport_free report free,
      fun _ _ _ _ requests noneBefore => reportToTake_first requests noneBefore⟩
  · intro p s echo register power request plugged fault report
    by_cases free : (s.session p).state = .free
    · refine ⟨_, execSessionReport_free report free, ?_⟩
      have idle : (s.session p).waitRuns = false := Session.waitRuns_false (by simp [free])
      simp [idle, free, Session.running]
    · refine ⟨_, execSessionReport_occupied report free, ?_⟩
      have moved := sessionReport_moved
        (s := s.takeRequest (.reportToSession p echo (.chargePoint register power request plugged fault)))
        (p := p) (echo := echo) (register := register) (request := request) (plugged := plugged) free
      have sent := moved.requests
      rw [accountReport_state, accountReport_only p register .requests (by decide)] at sent
      refine ⟨fun runs final => ?_, fun runs final => ?_, fun out running => ?_, fun out opening => ?_, fun plug counts => ?_,
        fun plug done => ?_, fun plug stopped => ?_, fun plug opening => ?_, fun closing ended => ?_, sent⟩
      · exact sessionReport_final runs final
      · exact sessionReport_notFinal runs final
      · rw [out]
        exact sessionReport_unplugged_closes running
      · rw [out]
        exact sessionReport_unplugged_opening opening
      · rw [plug]
        exact sessionReport_counts counts
      · rw [plug]
        exact sessionReport_done done
      · rw [plug]
        exact sessionReport_stopped stopped
      · rw [plug]
        exact sessionReport_plugged_opening opening
      · exact sessionReport_ended closing ended

end

section
/-! SUPPORT. A reservation at the fill position, and OPEN SESSION with its record and its request (R56, R57, R155, R158). -/

namespace Sys2Proof.Machine

open Sys2Proof State

variable {s t : State} {p : Point} {slot : Nat}

/-! ## The slot at the fill position -/

/-- One sector's state set, the others read as before. -/
theorem sectors_set (v : Vector SectorState 16) (j k : Fin 16) (x : SectorState) :
    (v.set j x)[k] = if k = j then x else v[k] := by
  by_cases same : k = j
  · subst same
    simp
  · rw [if_neg same]
    simp [Fin.val_ne_of_ne (Ne.symm same)]

/-- A sector is not its own ring successor. -/
theorem nextSector_ne (k : Fin 16) : nextSector k ≠ k := by
  unfold nextSector
  omega

/-- A log with the slot at the fill position reserved, no erase test made yet: the fill position has moved on, and of the rest
only the slot's state is new (R155, R158). -/
structure Rlg.Reserved (r : Rlg) (slot : Nat) (t : Rlg) : Prop where
  moved : r.FillMoved slot t
  array : t.cells = r.cells ∧ t.codes = r.codes
  slots : t.slotStates = (r.withSlotState slot .reserved).slotStates
  next : t.nextNumber = r.nextNumber
  queue : t.queue = r.queue

/-- Within its sector the fill position moves to the next slot (R155). -/
theorem Rlg.reserve_within {r : Rlg} (fill : r.fill = some slot) (inside : slot % 128 ≠ 127) :
    ∃ t, r.reserve = some (slot, t) ∧ r.Reserved slot t := by
  refine ⟨{ r.withSlotState slot .reserved with fill := some (slot + 1) }, ?_, ⟨?_, ?_, ?_⟩, ⟨rfl, rfl⟩, rfl, rfl, rfl⟩
  · simp only [reserve, fill, if_neg inside]
  · rw [if_pos inside]
  · exact (if_neg fun last => inside last.1).symm
  · exact fun k => .inl (if_pos inside).symm

/-- The sector full, its ring successor taken if it is FREE (R155). -/
def Rlg.filledSector (r : Rlg) (slot : Nat) : Rlg :=
  { r.withSlotState slot .reserved with sectors := r.sectors.set r.lastActive .full, fill := none }

theorem Rlg.reserve_last_eq {r : Rlg} (fill : r.fill = some slot) (last : slot % 128 = 127) :
    r.reserve = some (slot, (r.filledSector slot).activateSuccessor) := by
  simp only [reserve, fill, if_pos last]
  rfl

theorem Rlg.filledSector_next {r : Rlg} :
    (r.filledSector slot).sectors[nextSector (r.filledSector slot).lastActive] = r.sectors[r.lastActive + 1] := by
  change (r.filledSector slot).sectors[nextSector r.lastActive] = _
  rw [show (r.filledSector slot).sectors = r.sectors.set r.lastActive .full from rfl, sectors_set,
    if_neg (nextSector_ne _)]
  rfl

/-- With its last slot a sector is FULL; a FREE ring successor becomes ACTIVE (R155). -/
theorem Rlg.reserve_last {r : Rlg} (fill : r.fill = some slot) (last : slot % 128 = 127) :
    ∃ t, r.reserve = some (slot, t) ∧ r.Reserved slot t := by
  refine ⟨_, reserve_last_eq fill last, ?_⟩
  have next := filledSector_next (r := r) (slot := slot)
  by_cases free : r.sectors[r.lastActive + 1] = .free
  · rw [activateSuccessor, if_pos ⟨rfl, next.trans free⟩]
    refine ⟨⟨?_, ?_, fun k => .inl ?_⟩, ⟨rfl, rfl⟩, rfl, rfl, rfl⟩
    · rw [if_neg (not_not.mpr last), if_pos free]
      rfl
    · rw [if_pos ⟨last, free⟩]
      rfl
    · rw [sectorAfter, if_neg (not_not.mpr last)]
      refine (sectors_set (r.filledSector slot).sectors (nextSector r.lastActive) k .active).trans ?_
      by_cases successor : k = nextSector r.lastActive
      · subst successor
        rw [if_pos rfl, if_neg (nextSector_ne _), if_pos ⟨rfl, free⟩]
      · rw [if_neg successor, if_neg (c := k = r.lastActive + 1 ∧ _) fun both => successor both.1]
        exact sectors_set _ _ _ _
  · rw [activateSuccessor, if_neg fun both => free (next.symm.trans both.2)]
    refine ⟨⟨?_, ?_, fun k => .inl ?_⟩, ⟨rfl, rfl⟩, rfl, rfl, rfl⟩
    · rw [if_neg (not_not.mpr last), if_neg free]
      rfl
    · rw [if_neg fun both => free both.2]
      rfl
    · rw [sectorAfter, if_neg (not_not.mpr last)]
      have notFree : ¬(k = r.lastActive + 1 ∧ r.sectors[k] = .free) := by
        rintro ⟨rfl, itsFree⟩
        exact free itsFree
      rw [if_neg notFree]
      exact sectors_set _ _ _ _

/-- A reservation takes the slot at the fill position (R155, R158). -/
theorem Rlg.reserve_reserved {r : Rlg} (fill : r.fill = some slot) :
    ∃ t, r.reserve = some (slot, t) ∧ r.Reserved slot t := by
  by_cases last : slot % 128 = 127
  · exact reserve_last fill last
  · exact reserve_within fill last

/-- An erase that starts in a FULL sector leaves the fill position where it was. -/
theorem Rlg.FillMoved.sameScan {r t u : Rlg} (h : r.FillMoved slot t) (scan : t.SameScan u) : r.FillMoved slot u where
  fill := scan.fill.1.trans h.fill
  last := scan.fill.2.trans h.last
  sectors k := by
    rcases scan.sectors k with same | ⟨full, erasing⟩
    · rw [same]
      exact h.sectors k
    · rcases h.sectors k with after | ⟨before, _⟩
      · exact .inr ⟨erasing, .inl (after ▸ full)⟩
      · rw [full] at before
        cases before

/-- The erase test after a reservation (R158, R170). -/
theorem Rlg.Reserved.sameScan {r t u : Rlg} (h : r.Reserved slot t) (scan : t.SameScan u) (queue : u.queue = t.queue) :
    r.Reserved slot u where
  moved := h.moved.sameScan scan
  array := ⟨scan.array.1.trans h.array.1, scan.array.2.trans h.array.2⟩
  slots := scan.slots.trans h.slots
  next := scan.next.trans h.next
  queue := queue.trans h.queue

theorem Rlg.Reserved.slotState_same {r t : Rlg} (h : r.Reserved slot t) : t.slotState slot = .reserved := by
  unfold slotState
  rw [h.slots, withSlotState, sparseGet_sparseSet_same]

theorem Rlg.Reserved.slotState_other {r t : Rlg} (h : r.Reserved slot t) {q : Nat} (other : q ≠ slot) :
    t.slotState q = r.slotState q := by
  unfold slotState
  rw [h.slots, withSlotState, sparseGet_sparseSet_other other]

theorem Rlg.Reserved.readByte {r t : Rlg} (h : r.Reserved slot t) (a : Nat) : t.readByte a = r.readByte a := by
  obtain ⟨cells, codes⟩ := h.array
  simp only [Rlg.readByte, rawByte, correction, codeAt, cells, codes]

/-- The reservation of OPEN SESSION, its erase test made (R158, R170). -/
theorem State.reserveWith_reserved (fill : s.rlg.fill = some slot) :
    ∃ u, s.reserveWith s.rlg.reserve = some (slot, u) ∧ s.rlg.Reserved slot u.rlg := by
  obtain ⟨r, reserved, moved⟩ := Rlg.reserve_reserved fill
  obtain ⟨scan, _, queue⟩ := eraseTest_rlg (s.withRlg r)
  exact ⟨(s.withRlg r).eraseTest, by rw [reserved]; rfl, moved.sameScan scan queue⟩

/-! ## OPEN SESSION -/

theorem openSessionOp_badValue {point cls : Byte} {customer : Word32} (h : 24 ≤ point.toNat ∨ (cls ≠ 0 ∧ cls ≠ 1)) :
    openSessionOp point customer cls s = s.turnDown .c .refused .badValue := by
  unfold openSessionOp
  rcases h with noPoint | noClass
  · rw [pointOperand_none noPoint]
  · rw [classOperand_none noClass]
    cases pointOperand point <;> rfl

/-- What an OPEN SESSION with good operands answers, by the check that refuses it (R56). -/
def State.CheckedInto (s t : State) (accepted : Prop) : Option (Status × Reason) → Prop
  | some r => s.turnedAway .c r.1 r.2 t
  | none => accepted

theorem openSessionOp_checked {cls : Byte} {customer : Word32} {k : SessionClass} {r : Status × Reason}
    (known : classOperand cls = some k) (check : s.openCheck p = some r) :
    openSessionOp (BitVec.ofNat 8 p.val) customer cls s = s.turnDown .c r.1 r.2 := by
  simp only [openSessionOp, pointOperand_point, known, check]

theorem openSessionOp_accepted {cls : Byte} {customer : Word32} {k : SessionClass} {h : HeldEdition} {u : State}
    (known : classOperand cls = some k) (check : s.openCheck p = none) (current : s.tfu.current = some h)
    (reserved : (s.withRlg s.rlg.assignNumber).reserveWith s.rlg.assignNumber.reserve = some (slot, u)) :
    openSessionOp (BitVec.ofNat 8 p.val) customer cls s =
      (u.openSession p slot (s.openingPart p customer k h.edition)).accepted .c (leBytes 4 s.rlg.nextNumber) := by
  simp only [openSessionOp, pointOperand_point, known, check, current, withRlg_rlg, reserved]
  rfl

/-- R56 lets a session open only with a valid calendar. -/
theorem State.openCheck_valid (h : s.openCheck p = none) : s.tfu.calendarValid = true := by
  by_contra invalid
  simp only [openCheck, Bool.eq_false_iff.mpr invalid, if_true] at h
  split at h
  · cases h
  split at h
  · cases h
  · cases h

/-- The fallback price of a new session is that of the band in force (R57). -/
theorem State.openingPart_eq {customer : Word32} {k : SessionClass} {e : Edition} (valid : s.tfu.calendarValid = true) :
    s.openingPart p customer k e =
      ⟨s.rlg.nextNumber, p.val, k, e.number, customer, s.tfu.calendar, (s.node (pointNode p)).register,
        e.bands[bandAt e.schedule (s.tfu.calendar.toNat % 86400 / 60)].standard, e.sessionFee⟩ := by
  simp only [openingPart, Tfu.bandInForce, valid, if_true, Option.getD_some]
  rfl

theorem Tfu.addRef_current {u : Tfu} {h : HeldEdition} (current : u.current = some h) :
    u.addRef .current = { u with current := some { h with refs := h.refs + 1 } } := by
  simp only [addRef, slot, withSlot, current, Option.map_some]

/-- The number assigned is the next one, below the greatest (R157). -/
theorem Rlg.assignNumber_next {r : Rlg} (h : r.nextNumber < 4294967295) :
    r.assignNumber.nextNumber = r.nextNumber + 1 := if_pos (by omega)

section opened

variable (p : Point) (slot : Nat) (o : OpeningPart) (r : List Byte)

/-! An accepted OPEN SESSION writes the log, the records and the tariffs, and then replies. -/

theorem State.opened_rlg :
    ((s.openSession p slot o).accepted .c r).rlg = s.rlg.afterJoin ⟨.opening p o, o.number, slot, 0⟩ :=
  (accepted_only .c r .rlg (by decide)).trans (enqueue_rlg _)

theorem State.opened_session : ((s.openSession p slot o).accepted .c r).session p = s.openedSession p slot o :=
  (congrFun (accepted_session .c r) p).trans (withSession_same p _)

theorem State.opened_others : s.otherSessionsSame p ((s.openSession p slot o).accepted .c r) :=
  otherSessionsSame.of_ssu (withSession_others p (s.openedSession p slot o)) (accepted_only .c r .ssu (by decide))

theorem State.opened_tfu : ((s.openSession p slot o).accepted .c r).tfu = s.tfu.addRef .current :=
  accepted_only .c r .tfu (by decide)

end opened

end Sys2Proof.Machine
end

section
/-! SUPPORT. The statement of Chapter 4 about OPEN SESSION. -/

open Sys2Proof Sys2Proof.Machine Sys2Proof.Machine.State

/-- Settles O34: the checks in their order; past them the number, the slot, the record and the request. -/
theorem openSessionChecksInOrderAndFillsTheRecord : Obligations.OpenSessionChecksInOrderAndFillsTheRecord := by
  intro point cls customer s
  have only := openSessionOp_only (s := s) point customer cls
  refine ⟨openSessionOp point customer cls s, rfl, fun bad => ?_, ?_⟩
  · rw [openSessionOp_badValue bad]
    exact turnDown_turnedAway .c .refused .badValue
  · rintro p rfl range
    have known := classOperand_some range
    suffices checked : ∀ check, s.openCheck p = check →
        s.CheckedInto (openSessionOp (BitVec.ofNat 8 p.val) customer cls s) _ check by
      have chain := checked _ rfl
      simp only [openCheck, apply_ite (s.CheckedInto _ _)] at chain
      exact chain
    rintro (_ | r) check
    · intro slot fill h current
      obtain ⟨u, taken, reserved⟩ := reserveWith_reserved (s := s.withRlg s.rlg.assignNumber) (slot := slot) fill
      have kept : s.onlyChanges [.rlg, .noticesS, .noticesC] u :=
        onlyChanges_then (withRlg_only _) (reserveWith_only taken) (hs := [.rlg, .noticesS, .noticesC])
      have link : u.flc = s.flc := kept .flc (by decide)
      have records : u.ssu = s.ssu := kept .ssu (by decide)
      have books : u.tfu = s.tfu := kept .tfu (by decide)
      have valid := openCheck_valid check
      obtain ⟨o, part⟩ : ∃ o, o = s.openingPart p customer (if cls = 1 then .priority else .standard) h.edition := ⟨_, rfl⟩
      rw [openSessionOp_accepted known check current taken, ← part] at only ⊢
      rw [openingPart_eq valid] at part
      refine ⟨accepted_answered .c _ ((openSession_only p slot o .replies (by decide)).trans (kept .replies (by decide))),
        only, fun q other => ?_, fun a => ?_, ?_, ?_, fun below => ?_, ?_, fun q other => ?_, ?_, ?_⟩
      · rw [opened_others p slot o _ q other, session, records, session]
      · rw [opened_rlg, Rlg.afterJoin_readByte, reserved.readByte]
        rfl
      · rw [opened_session, openedSession, node, link, part]
        rfl
      · rw [opened_tfu, books, Tfu.addRef_current current]
      · rw [opened_rlg]
        exact reserved.next.trans (Rlg.assignNumber_next below)
      · rw [opened_rlg]
        exact reserved.slotState_same
      · rw [opened_rlg]
        exact reserved.slotState_other other
      · rw [opened_rlg]
        exact ⟨reserved.moved.fill, reserved.moved.last, reserved.moved.sectors⟩
      · rw [opened_rlg, opened_session, openedSession, part]
        exact congrArg (· ++ _) reserved.queue
    · rw [openSessionOp_checked known check]
      exact turnDown_turnedAway .c r.1 r.2

end

section
/-! SUPPORT. The end of an exchange without a valid REPORT: the miss, the lost node, and the replies that fail (R95, R109,
R110, R113, R114). -/

namespace Sys2Proof.Machine

open Sys2Proof State

variable {s t u : State} {n : Fin 26} {p : Point} {error : Bool}

/-! ## Node entries -/

/-- Two entries that agree but for the sequence. -/
theorem Node.eq_of_sequences {a b : Node} (h : { a with sequence := 0 } = { b with sequence := 0 }) :
    a = { b with sequence := a.sequence } :=
  congrArg (fun x : Node => { x with sequence := a.sequence }) h

theorem State.raiseBoth_flc (k : NoticeKind) (ns : List Nat) : (s.raiseBoth k ns).flc = s.flc :=
  raiseBoth_only k ns .flc (by decide)

theorem nodePoint_pointNode (p : Point) : nodePoint (pointNode p) = some p := dif_pos p.isLt

theorem pointNode_of_nodePoint (h : nodePoint n = some p) : pointNode p = n := by
  unfold nodePoint at h
  split at h
  · cases h
    rfl
  · cases h

theorem pointNode_injective {q : Point} (h : pointNode q = pointNode p) : q = p :=
  Fin.ext (congrArg (fun m : Fin 26 => m.val) h)

/-! ## A miss -/

theorem Node.missed_eq (x : Node) (error : Bool) :
    x.missed error = { x with
      misses := min 3 (x.misses + 1)
      frameErrors := if error then min 255 (x.frameErrors + 1) else x.frameErrors } := rfl

/-- The third miss in a row of an ONLINE node (R113). -/
def Node.losesNow (x : Node) : Prop := x.state = .online ∧ 2 ≤ x.misses

/-- The state of an entry after a miss (R113). -/
theorem Node.losesNow_ite {x : Node} {a b : NodeState} :
    (x.losesNow → (if x.state = .online ∧ 2 ≤ x.misses then a else b) = a) ∧
      (¬x.losesNow → (if x.state = .online ∧ 2 ≤ x.misses then a else b) = b) := ⟨fun h => if_pos h, fun h => if_neg h⟩

theorem Node.losesNow_iff {x : Node} : x.losesNow ↔ (x.missed error).state = .online ∧ (x.missed error).misses = 3 := by
  have third : 2 ≤ x.misses ↔ min 3 (x.misses + 1) = 3 := by omega
  exact and_congr_right' third

/-- The entry with its miss counted. -/
def State.counted (n : Fin 26) (error : Bool) (s : State) : State := s.withNode n ((s.node n).missed error)

/-- The node's entry LOST with its miss counted, and NODE_LOST raised on both ports (R114). -/
def State.lostNode (n : Fin 26) (error : Bool) (s : State) : State :=
  ((s.counted n error).withNode n { (s.node n).missed error with state := .lost }).raiseBoth .nodeLost [n.val]

theorem State.counted_node (m : Fin 26) :
    (s.counted n error).node m = if m = n then (s.node n).missed error else s.node m := withNode_node _ _ _ _

theorem State.lostNode_node (m : Fin 26) :
    (s.lostNode n error).node m = if m = n then { (s.node n).missed error with state := .lost } else s.node m := by
  rw [lostNode, node, raiseBoth_flc]
  refine (withNode_node _ n m _).trans ?_
  rw [counted_node]
  split <;> rfl

theorem State.lostNode_flc : (s.lostNode n error).flc = { s.flc with nodes := (s.lostNode n error).flc.nodes } := by
  rw [lostNode, raiseBoth_flc]
  rfl

theorem State.lostNode_only : s.onlyChanges [.flc, .noticesS, .noticesC] (s.lostNode n error) :=
  onlyChanges_then (onlyChanges_then (withNode_only n _) (withNode_only n _) (hs := [.flc])) (raiseBoth_only _ _)

theorem State.takeMiss_stays (h : ¬(s.node n).losesNow) : s.takeMiss n error = s.counted n error :=
  if_neg (mt Node.losesNow_iff.mpr h)

theorem State.takeMiss_loses (h : (s.node n).losesNow) :
    s.takeMiss n error =
      match nodePoint n with
      | some p => ((s.lostNode n error).leaveOnline p).withSession p
          (((s.lostNode n error).leaveOnline p).session p).seeLost
      | none => s.lostNode n error := by
  refine (if_pos (Node.losesNow_iff.mp h)).trans ?_
  have own : (s.withNode n ((s.node n).missed error)).node n = (s.node n).missed error := withNode_node_self s n _
  rw [declareLost, own]
  rfl

theorem State.takeMiss_losesOther (h : (s.node n).losesNow) (other : nodePoint n = none) :
    s.takeMiss n error = s.lostNode n error := by
  rw [takeMiss_loses h, other]

theorem State.takeMiss_losesPoint (h : (s.node (pointNode p)).losesNow) :
    s.takeMiss (pointNode p) error = ((s.lostNode (pointNode p) error).leaveOnline p).withSession p
      (((s.lostNode (pointNode p) error).leaveOnline p).session p).seeLost := by
  rw [takeMiss_loses h, nodePoint_pointNode]

theorem Session.seeLost_eq (x : Session) :
    x.seeLost = { x with nodeLostSeen := x.nodeLostSeen || decide (x.state ≠ .free) } := by
  unfold seeLost
  split
  · next free =>
    have unseen : decide (x.state ≠ .free) = false := by simp [free]
    rw [unseen, Bool.or_false]
  · next occupied => rw [decide_eq_true occupied, Bool.or_true]

/-! ## The end of the exchange after it -/

theorem State.closeExchange_only : s.onlyChanges [.flc] s.closeExchange := withFlc_only _

/-- No miss, nor a loss, makes an entry ABSENT or takes it out of it. -/
theorem State.lostNode_absent (h : (s.node n).losesNow) (m : Fin 26) :
    ((s.lostNode n error).node m).state = .absent ↔ (s.node m).state = .absent := by
  rw [lostNode_node]
  split
  · next same => simp [same, h.1]
  · exact Iff.rfl

theorem State.counted_absent (m : Fin 26) :
    ((s.counted n error).node m).state = .absent ↔ (s.node m).state = .absent := by
  rw [counted_node]
  split
  · next same => rw [same]; rfl
  · exact Iff.rfl

/-- A miss that loses no node (R113). -/
theorem State.counted_missTaken (h : ¬(s.node n).losesNow) : s.MissTaken n error (s.counted n error).closeExchange where
  ended := closeExchange_ended rfl counted_absent
  entry := by
    rw [closeExchange_node, counted_node, if_pos rfl, Node.losesNow_ite.2 h, Node.missed_eq]
  others m other := by rw [closeExchange_node, counted_node, if_neg other]
  stays _ := by
    refine ⟨rfl, rfl, rfl, rfl, ?_, fun m other => ?_⟩
    · rw [closeExchange_node, counted_node, if_pos rfl]
      rfl
    · rw [closeExchange_node, counted_node, if_neg other]
  lost loses := absurd loses h

/-- The third miss of node 24 or 25 (R113, R114). -/
theorem State.lostNode_missTaken (h : (s.node n).losesNow) (other : 24 ≤ n.val) :
    s.MissTaken n error (s.lostNode n error).closeExchange where
  ended := closeExchange_ended lostNode_flc (lostNode_absent h)
  entry := by
    rw [closeExchange_node, lostNode_node, if_pos rfl, Node.losesNow_ite.1 h, Node.missed_eq]
  others m apart := by rw [closeExchange_node, lostNode_node, if_neg apart]
  stays keeps := absurd h keeps
  lost _ := by
    have books : (s.lostNode n error).alu = s.alu := lostNode_only .alu (by decide)
    have records : (s.lostNode n error).ssu = s.ssu := lostNode_only .ssu (by decide)
    refine ⟨rfl, rfl, fun _ => ⟨books, records, ?_, fun m apart => ?_⟩, fun p point => ?_⟩
    · rw [closeExchange_node, lostNode_node, if_pos rfl]
      rfl
    · rw [closeExchange_node, lostNode_node, if_neg apart]
    · subst point
      exact absurd p.isLt (not_lt.mpr other)

/-- The loss of a charge point's node, as the allocator learns it (R95; log entry 17). -/
theorem State.lostNode_leftOnline (alu : u.alu = ((s.lostNode (pointNode p) error).leaveOnline p).alu)
    (nodes : ∀ m, u.node m = ((s.lostNode (pointNode p) error).leaveOnline p).node m) : s.LeftOnline p u := by
  refine (leaveOnline_into p (s.lostNode (pointNode p) error)).congr p (lostNode_only .alu (by decide)) ?_ ?_ ?_ ?_ alu ?_ ?_
  · rw [now, now, lostNode_only .ssu (by decide)]
  · intro q other
    rw [online, online, lostNode_node, if_neg fun same => other (pointNode_injective same)]
  · intro m
    rw [lostNode_node]
    split
    · next same => rw [same]; rfl
    · rfl
  · intro m beyond
    rw [lostNode_node, if_neg]
    rintro rfl
    exact absurd p.isLt (not_lt.mpr beyond)
  · exact fun m => by rw [nodes]
  · exact fun m _ => nodes m

/-- The third miss of a charge point's node (R73, R95, R113, R114). -/
theorem State.lostPoint_missTaken (h : (s.node (pointNode p)).losesNow) :
    s.MissTaken (pointNode p) error (s.takeMiss (pointNode p) error).closeExchange := by
  rw [takeMiss_losesPoint h]
  obtain ⟨link, entries, _⟩ := leaveOnline_all p (s.lostNode (pointNode p) error)
  have nodes (x : Session) (m : Fin 26) :
      (((s.lostNode (pointNode p) error).leaveOnline p).withSession p x).closeExchange.node m =
        ((s.lostNode (pointNode p) error).leaveOnline p).node m := closeExchange_node _ _
  have records : ((s.lostNode (pointNode p) error).leaveOnline p).ssu = s.ssu :=
    (leaveOnline_only p .ssu (by decide)).trans (lostNode_only .ssu (by decide))
  have same : ((s.lostNode (pointNode p) error).leaveOnline p).session p = s.session p := by rw [session, records, session]
  constructor
  case ended =>
    refine closeExchange_ended ?_ fun m => ?_
    · refine Eq.trans link ?_
      rw [lostNode_flc]
      rfl
    · have state : (((s.lostNode (pointNode p) error).leaveOnline p).node m).state =
          ((s.lostNode (pointNode p) error).node m).state := (congrArg Node.state (entries m) :)
      exact (iff_of_eq (congrArg (· = NodeState.absent) state)).trans (lostNode_absent h m)
  case entry =>
    rw [nodes, Node.losesNow_ite.1 h]
    refine (Node.eq_of_sequences (entries (pointNode p))).trans ?_
    rw [lostNode_node, if_pos rfl, Node.missed_eq]
  case others =>
    intro m other
    rw [nodes, entries m, lostNode_node, if_neg other]
  case stays => exact fun keeps => absurd h keeps
  case lost =>
    refine fun _ => ⟨?_, ?_, fun beyond => absurd p.isLt (not_lt.mpr beyond), fun q point => ?_⟩
    · exact leaveOnline_only p .noticesS (by decide)
    · exact leaveOnline_only p .noticesC (by decide)
    · obtain rfl := pointNode_injective point
      refine ⟨lostNode_leftOnline rfl fun m => nodes _ m, fun r other => ?_, ?_, ?_⟩
      · refine (withSession_others q _ r other).trans ?_
        rw [session, records, session]
      · exact (congrArg Ssu.timeBase records :)
      · refine (withSession_same q _).trans ?_
        rw [same, Session.seeLost_eq]

/-- A miss, the exchange ended after it (R106, R110, R113, R114). -/
theorem State.takeMiss_missTaken (n : Fin 26) (error : Bool) :
    s.MissTaken n error (s.takeMiss n error).closeExchange := by
  by_cases loses : (s.node n).losesNow
  · cases point : nodePoint n with
    | some p =>
      obtain rfl := pointNode_of_nodePoint point
      exact lostPoint_missTaken loses
    | none =>
      have other : 24 ≤ n.val := by
        by_contra below
        rw [nodePoint, dif_pos (not_le.mp below)] at point
        cases point
      rw [takeMiss_losesOther loses point]
      exact lostNode_missTaken loses other
  · rw [takeMiss_stays loses]
    exact counted_missTaken loses

theorem State.missTaken_only (n : Fin 26) (error : Bool) :
    s.onlyChanges [.flc, .alu, .ssu, .noticesS, .noticesC] (s.takeMiss n error).closeExchange :=
  onlyChanges_then (takeMiss_only n error) closeExchange_only

/-! ## Replies that fail -/

theorem State.endExchange_removed {x : Exchange} (e : ExchangeEnd) (h : x.removed = true) :
    s.endExchange x e = s.closeExchange := by
  unfold endExchange
  rw [if_pos h]

theorem State.endExchange_noReply {x : Exchange} (h : x.removed = false) :
    s.endExchange x .noReply = (s.takeMiss x.node false).closeExchange := by
  unfold endExchange
  rw [if_neg (by simp [h])]

theorem State.endExchange_error {x : Exchange} (h : x.removed = false) :
    s.endExchange x .error = (s.takeMiss x.node true).closeExchange := by
  unfold endExchange
  rw [if_neg (by simp [h])]

/-- A removed node's exchange ends without a count (R102; log entry 52). -/
theorem State.closeExchange_ends : s.flc.ExchangeEnded s.closeExchange.flc :=
  closeExchange_ended rfl fun _ => Iff.rfl

/-- What a command that cuts the exchange in progress does (R109, R110; log entry 52). -/
structure State.ExchangeCut (s : State) (error : Bool) (t : State) : Prop where
  only : s.onlyChanges [.flc, .alu, .ssu, .noticesS, .noticesC] t
  idle : s.flc.exchange = none → t = s
  missed : ∀ x, s.flc.exchange = some x → x.removed = false → s.MissTaken x.node error t
  removed : ∀ x, s.flc.exchange = some x → x.removed = true →
    s.flc.ExchangeEnded t.flc ∧ ∀ n, t.node n = s.node n

theorem State.ExchangeCut.none (h : s.flc.exchange = none) : s.ExchangeCut error s where
  only := onlyChanges_refl
  idle _ := rfl
  missed _ x := by rw [h] at x; cases x
  removed _ x := by rw [h] at x; cases x

theorem State.ExchangeCut.some {x : Exchange} {e : ExchangeEnd} (h : s.flc.exchange = some x)
    (counts : x.removed = false → s.endExchange x e = (s.takeMiss x.node error).closeExchange) :
    s.ExchangeCut error (s.endExchange x e) := by
  cases removed : x.removed with
  | true =>
    rw [endExchange_removed e removed]
    refine ⟨onlyChanges_mono closeExchange_only, fun idle => ?_, fun y waits present => ?_, fun y waits gone => ?_⟩
    · rw [h] at idle
      cases idle
    · obtain rfl := Option.some.inj (h.symm.trans waits)
      rw [removed] at present
      cases present
    · exact ⟨closeExchange_ends, closeExchange_node s⟩
  | false =>
    rw [counts removed]
    refine ⟨missTaken_only _ _, fun idle => ?_, fun y waits present => ?_, fun y waits gone => ?_⟩
    · rw [h] at idle
      cases idle
    · obtain rfl := Option.some.inj (h.symm.trans waits)
      exact takeMiss_missTaken _ _
    · obtain rfl := Option.some.inj (h.symm.trans waits)
      rw [removed] at gone
      cases gone

theorem State.cutExchange_noReply : s.ExchangeCut false (s.cutExchange .noReply) := by
  unfold cutExchange
  split
  · next waits => exact .some waits endExchange_noReply
  · next idle => exact .none idle

theorem State.cutExchange_error : s.ExchangeCut true (s.cutExchange .error) := by
  unfold cutExchange
  split
  · next waits => exact .some waits endExchange_error
  · next idle => exact .none idle

theorem execReplyReceived_idle {bytes : List Byte} (h : s.flc.exchange = none) :
    execReplyReceived bytes s = .next s := by
  simp only [execReplyReceived, h]

theorem execReplyReceived_ends {bytes : List Byte} {x : Exchange} {e : ExchangeEnd} (h : s.flc.exchange = some x)
    (ends : classify x.node x.kindChanged bytes = some e) : execReplyReceived bytes s = .next (s.endExchange x e) := by
  simp only [execReplyReceived, h, ends]

/-- The payload of a complete reply. -/
def replyPayload (bytes : List Byte) : List Byte := (bytes.drop 4).take (bytes.length - 6)

/-- Checks 5 to 7 of R110 up to the payload. -/
theorem replyChecks_iff {bytes : List Byte} {n : Fin 26} {changed : Bool} :
    (crcAgrees bytes && byteAt bytes 1 == BitVec.ofNat 8 n.val && byteAt bytes 2 == 0x20 && !changed) = true ↔
      wordAt bytes (bytes.length - 2) = crc16 ((bytes.drop 1).take (bytes.length - 3)) ∧
        byteAt bytes 1 = BitVec.ofNat 8 n.val ∧ byteAt bytes 2 = 0x20 ∧ changed = false := by
  simp only [crcAgrees, Bool.and_eq_true, beq_iff_eq, Bool.not_eq_true', and_assoc]

section complete

variable {bytes : List Byte} (h : completeReply bytes = true)

include h

theorem completeReply_length : (byteAt bytes 3).toNat ≤ 16 ∧ bytes.length = 6 + (byteAt bytes 3).toNat := by
  simp only [completeReply, Bool.and_eq_true, decide_eq_true_iff, beq_iff_eq] at h
  obtain ⟨short, length⟩ := h
  have field : (byteAt bytes 3).toNat = fieldAt bytes 3 1 := by
    rw [byteAt, BitVec.toNat_ofNat, Nat.mod_eq_of_lt (by omega)]
  rw [field]
  exact ⟨short, length⟩

theorem replyPayload_length : (replyPayload bytes).length = (byteAt bytes 3).toNat := by
  have length := (completeReply_length h).2
  rw [replyPayload, List.length_take, List.length_drop]
  omega

omit h in
/-- A payload byte is the byte four places on in the reply. -/
theorem byteAt_replyPayload {i : Nat} (within : i < bytes.length - 6) :
    byteAt (replyPayload bytes) i = byteAt bytes (4 + i) := by
  have one : 1 ≤ bytes.length - 6 - i := by omega
  simp only [byteAt, fieldAt, replyPayload, List.drop_take, List.take_take, List.drop_drop, min_eq_left one]

/-- The outcome of a complete reply (R110). -/
theorem classify_complete (n : Fin 26) (changed : Bool) :
    classify n changed bytes =
      if byteAt bytes 0 ≠ startByte then some .error
      else if crcAgrees bytes && byteAt bytes 1 == BitVec.ofNat 8 n.val && byteAt bytes 2 == 0x20 && !changed then
        match parseReport n (replyPayload bytes) with
        | some r => some (.valid r.1 r.2)
        | none => some .error
      else some .error := by
  obtain ⟨short, length⟩ := completeReply_length h
  have some : bytes ≠ [] := by
    rintro rfl
    rw [List.length_nil] at length
    omega
  have frame : replyFrame bytes = .some bytes := by
    rw [replyFrame, if_pos (by omega), ← length, List.take_length]
  have fits : ¬(4 ≤ bytes.length ∧ 16 < (byteAt bytes 3).toNat) := by omega
  simp only [classify, if_neg some, if_neg fits, frame]
  rfl

theorem classify_some (n : Fin 26) (changed : Bool) : ∃ e, classify n changed bytes = some e := by
  rw [classify_complete h]
  split
  · exact ⟨_, rfl⟩
  split
  · split
    · exact ⟨_, rfl⟩
    · exact ⟨_, rfl⟩
  · exact ⟨_, rfl⟩

/-- The length that the checks of R110 read is that of the payload. -/
theorem replyPayload_length_iff {k : Nat} (small : k < 256) :
    (replyPayload bytes).length = k ↔ byteAt bytes 3 = BitVec.ofNat 8 k := by
  rw [replyPayload_length h, ← BitVec.toNat_inj, BitVec.toNat_ofNat, Nat.mod_eq_of_lt small]

/-- A payload that does not fit the node is no REPORT (R110 check 7). -/
theorem parseReport_fails {n : Fin 26}
    (bad : (n.val < 24 ∧
        (byteAt bytes 4 ≠ 1 ∨ byteAt bytes 3 ≠ 16 ∨ (byteAt bytes 18 ≠ 0 ∧ byteAt bytes 18 ≠ 1))) ∨
      (n = 24 ∧ (byteAt bytes 4 ≠ 2 ∨ byteAt bytes 3 ≠ 11)) ∨
      (n = 25 ∧ (byteAt bytes 4 ≠ 3 ∨ byteAt bytes 3 ≠ 9))) :
    parseReport n (replyPayload bytes) = none := by
  have length := (completeReply_length h).2
  have payload := replyPayload_length h
  have at_place (i : Nat) (within : i < (replyPayload bytes).length) :
      byteAt (replyPayload bytes) i = byteAt bytes (4 + i) := byteAt_replyPayload (by omega)
  unfold parseReport
  rcases bad with ⟨point, bad⟩ | ⟨rfl, bad⟩ | ⟨rfl, bad⟩
  · rw [if_pos point, if_neg]
    rintro ⟨size, variant, plug⟩
    rw [at_place 0 (by omega)] at variant
    rw [at_place 14 (by omega)] at plug
    rcases bad with badVariant | badSize | ⟨notZero, notOne⟩
    · exact badVariant variant
    · exact badSize ((replyPayload_length_iff h (by decide)).mp size)
    · exact plug.elim notZero notOne
  · rw [if_neg (by decide), if_pos (show (24 : Fin 26) = canopyNode from rfl), if_neg]
    rintro ⟨size, variant⟩
    rw [at_place 0 (by omega)] at variant
    rcases bad with badVariant | badSize
    · exact badVariant variant
    · exact badSize ((replyPayload_length_iff h (by decide)).mp size)
  · rw [if_neg (by decide), if_neg (by decide), if_neg]
    rintro ⟨size, variant⟩
    rw [at_place 0 (by omega)] at variant
    rcases bad with badVariant | badSize
    · exact badVariant variant
    · exact badSize ((replyPayload_length_iff h (by decide)).mp size)

/-- A reply that fails one of R110's checks ends its exchange with an error. -/
theorem classify_fails {x : Exchange} (fails : replyFails x bytes) :
    classify x.node x.kindChanged bytes = some .error := by
  rw [classify_complete h]
  rcases fails with start | crc | address | kind | changed | payload
  · rw [if_pos (show byteAt bytes 0 ≠ startByte from start)]
  all_goals
    split
    · rfl
  · rw [if_neg fun checks => crc (replyChecks_iff.mp checks).1]
  · rw [if_neg fun checks => address (replyChecks_iff.mp checks).2.1]
  · rw [if_neg fun checks => kind (replyChecks_iff.mp checks).2.2.1]
  · rw [if_neg fun checks => Bool.eq_false_iff.mp (replyChecks_iff.mp checks).2.2.2 changed]
  · rw [parseReport_fails h payload]
    split <;> rfl

end complete

end Sys2Proof.Machine
end

section
/-! SUPPORT. The statement of Chapter 6 about the misses. -/

open Sys2Proof Sys2Proof.Machine Sys2Proof.Machine.State

/-- Settles O24: a command that cuts the exchange counts its miss; a reply that fails a check of R110 is an error. -/
theorem missesAreCountedAndTheThirdLosesTheNode : Obligations.MissesAreCountedAndTheThirdLosesTheNode := by
  refine ⟨fun c s cuts => ?_, fun bytes s idle => ?_, fun x bytes s waits complete => ?_⟩
  · obtain ⟨t, ran, cut⟩ : ∃ t, exec c s = .next t ∧ s.ExchangeCut (decide (c ≠ .replyTimeout)) t := by
      simp only [List.mem_cons, List.not_mem_nil, or_false] at cuts
      rcases cuts with rfl | rfl | rfl | rfl | rfl | rfl
      · exact ⟨_, rfl, cutExchange_noReply⟩
      all_goals exact ⟨_, rfl, cutExchange_error⟩
    exact ⟨t, ran, cut.only, cut.idle, cut.missed, cut.removed⟩
  · exact execReplyReceived_idle idle
  · obtain ⟨e, ends⟩ := classify_some complete x.node x.kindChanged
    refine ⟨_, execReplyReceived_ends waits ends, fun removed => ?_, fun present fails => ?_⟩
    · rw [endExchange_removed e removed]
      exact ⟨closeExchange_only, closeExchange_ends, closeExchange_node s⟩
    · obtain rfl := Option.some.inj (ends.symm.trans (classify_fails complete fails))
      rw [endExchange_error present]
      exact ⟨missTaken_only _ _, takeMiss_missTaken _ _⟩

end

section
/-! SUPPORT. The reads that change no state: the widths of their replies' layouts, the balance record's bytes, and their
operands (R55, R185 to R187). -/

namespace Sys2Proof.Machine

open Sys2Proof State

variable {s t : State} {port : Port}

/-! ## Widths -/

/-- How many bytes a layout takes. -/
def layoutWidth (xs : List (Nat × Nat)) : Nat := (xs.map Prod.fst).sum

theorem length_layoutBytes_width (xs : List (Nat × Nat)) : (layoutBytes xs).length = layoutWidth xs :=
  length_layoutBytes xs

@[simp] theorem layoutWidth_append (xs ys : List (Nat × Nat)) : layoutWidth (xs ++ ys) = layoutWidth xs + layoutWidth ys := by
  rw [layoutWidth, List.map_append, List.sum_append, layoutWidth, layoutWidth]

/-- Fields of one width each. -/
theorem layoutWidth_map {α : Type} (w : Nat) (f : α → Nat) (xs : List α) :
    layoutWidth (xs.map fun x => (w, f x)) = xs.length * w := by
  rw [layoutWidth, List.map_map, show Prod.fst ∘ (fun x => (w, f x)) = fun _ => w from rfl, List.map_const', List.sum_replicate,
    smul_eq_mul]

@[simp] theorem State.limitLayout_width (s : State) : layoutWidth s.limitLayout = 50 := by
  simp [layoutWidth, limitLayout, markByte]

@[simp] theorem State.allocationLayout_width (s : State) : layoutWidth s.allocationLayout = 45 := by
  rw [allocationLayout, layoutWidth_append, layoutWidth_map 1]
  rfl

@[simp] theorem State.linkLayout_width (s : State) : layoutWidth s.linkLayout = 10 := by
  simp [layoutWidth, linkLayout, markByte]

@[simp] theorem tariffLayout_width (h : Option HeldEdition) : layoutWidth (tariffLayout h) = 4 := by
  cases h <;> rfl

/-- The receipt log's group has 40 bytes, with or without an erase (R185, R178). -/
@[simp] theorem Rlg.layout_width (r : Rlg) : layoutWidth r.layout = 40 := by
  unfold layout
  cases r.erase with
  | none =>
    simp only [layoutWidth_append, layoutWidth_map 1]
    rfl
  | some e =>
    simp only [layoutWidth_append, layoutWidth_map 1, Option.elim_some]
    split
    · rfl
    · rfl

@[simp] theorem State.settingLayout_width (s : State) (p : Port) : layoutWidth (s.settingLayout p) = 28 := by
  simp [layoutWidth, settingLayout, markByte]

theorem State.statusLayout_width (s : State) (p : Port) : layoutWidth (s.statusLayout p) = 182 := by
  simp only [statusLayout, layoutWidth_append, limitLayout_width, allocationLayout_width, linkLayout_width,
    tariffLayout_width, Rlg.layout_width, settingLayout_width]
  rfl

theorem State.balanceLayout_width (s : State) : layoutWidth s.balanceLayout = 70 := by
  simp [layoutWidth, balanceLayout, markByte]

theorem Session.layout_width (x : Session) (now : Nat) : layoutWidth (x.layout now) = 124 := by
  unfold layout
  have accounts : layoutWidth x.accounts.layout = 48 := rfl
  have ending (e : Option Ending) :
      layoutWidth (e.elim [(1, 0), (4, 0)] fun e => [(1, e.reason.code), (4, e.closeTime.toNat)]) = 5 := by
    cases e <;> rfl
  have priced (m : Option Priced) : layoutWidth (m.elim [(4, 0), (4, 0), (4, 0), (4, 0)]
      fun m => [(4, m.meterEnd.toNat), (4, m.energy), (4, m.idle), (4, m.total)]) = 16 := by
    cases m <;> rfl
  simp only [layoutWidth_append, accounts, ending, priced]
  simp [layoutWidth, markByte]

theorem State.nodeLayout_width (s : State) (n : Fin 26) : layoutWidth (s.nodeLayout n) = 57 := by
  have report (r : Option Report) : layoutWidth (reportLayout r) = 14 := by
    rcases r with _ | (_ | _ | _) <;> rfl
  unfold nodeLayout
  simp only [layoutWidth_append, report]
  split
  · rfl
  · rfl

/-! ## Bytes -/

/-- The bytes of READ BALANCE (R186). -/
theorem State.balanceBytes_eq (s : State) :
    s.bau.record.bytes ++ leBytesInt 4 s.batteryOrder ++ leBytes 4 s.canopyCap ++ leBytes 4 s.lsu.lEff ++
        leBytes 4 s.lsu.marginInForce ++ leBytes 4 s.cmu.reading.period.toNat ++ leBytesInt 4 s.cmu.reading.pGrid ++
        leBytes 1 s.cmu.reading.quality.code ++ leBytes 1 s.cmu.judgement.code ++ leBytes 1 s.lsu.esc.code =
      layoutBytes s.balanceLayout := by
  simp only [BalanceRecord.bytes, balanceLayout, layoutBytes, markByte, flagCode, leBytesInt_four, Lsu.marginInForce_eq,
    List.append_assoc, List.append_nil]

theorem flagByte_eq (b : Bool) : leBytes 1 (flagCode b) = [if b then 1 else 0] := by
  cases b <;> rfl

theorem leBytes_zero {k : Nat} : ∀ b ∈ leBytes k 0, b = 0 := by
  induction k with
  | zero => simp [leBytes]
  | succ k ih =>
    intro b mem
    rcases List.mem_cons.mp mem with rfl | rest
    · rfl
    · exact ih b (by simpa using rest)

/-- A layout of zeros has zero bytes. -/
theorem layoutBytes_zero {xs : List (Nat × Nat)} (h : ∀ x ∈ xs, x.2 = 0) : ∀ b ∈ layoutBytes xs, b = 0 := by
  induction xs with
  | nil => simp [layoutBytes]
  | cons x xs ih =>
    intro b mem
    rcases List.mem_append.mp mem with first | rest
    · exact leBytes_zero b (h x (List.mem_cons_self ..) ▸ first)
    · exact ih (fun y listed => h y (List.mem_cons_of_mem _ listed)) b rest

/-- A FREE record reads 0 throughout (R55). -/
theorem Session.free_layout (now : Nat) : ∀ x ∈ Session.free.layout now, x.2 = 0 := by
  have values : (Session.free.layout now).map Prod.snd = List.replicate 41 0 := rfl
  intro x mem
  exact List.eq_of_mem_replicate (values ▸ List.mem_map_of_mem mem)

/-! ## Commands -/

theorem execReadSession_refused {point : Byte} (h : 24 ≤ point.toNat) :
    execReadSession port point s = .next (s.turnDown port .refused .badValue) := by
  simp only [execReadSession, pointOperand_none h]

theorem execReadSession_point (q : Point) :
    execReadSession port (BitVec.ofNat 8 q.val) s =
      .next (s.ok port false (layoutBytes ((s.session q).layout s.now))) := by
  simp only [execReadSession, pointOperand_point, Session.bytes_eq]

theorem nodeOperand_none {b : Byte} (h : 26 ≤ b.toNat) : nodeOperand b = none := dif_neg (not_lt.mpr h)

/-- A node operand that carries a node's number names the node. -/
@[simp] theorem nodeOperand_node (n : Fin 26) : nodeOperand (BitVec.ofNat 8 n.val) = some n := by
  have value : (BitVec.ofNat 8 n.val).toNat = n.val := by
    rw [BitVec.toNat_ofNat]
    omega
  simp only [nodeOperand, value, n.isLt, dif_pos]

theorem execReadNode_refused {node : Byte} (h : 26 ≤ node.toNat) :
    execReadNode port node s = .next (s.turnDown port .refused .badValue) := by
  simp only [execReadNode, nodeOperand_none h]

theorem execReadNode_node (n : Fin 26) :
    execReadNode port (BitVec.ofNat 8 n.val) s = .next (s.ok port false (layoutBytes (s.nodeLayout n))) := by
  simp only [execReadNode, nodeOperand_node, nodeBytes_eq]

theorem execStatus_eq : execStatus port s = .next (s.ok port false (layoutBytes (s.statusLayout port))) := by
  rw [execStatus, statusBytes_eq]

theorem execReadBalance_eq : execReadBalance port s = .next (s.ok port false (layoutBytes s.balanceLayout)) := by
  rw [execReadBalance, balanceBytes_eq]

theorem execReadTime_eq : execReadTime port s = .next (s.ok port false
    (leBytes 4 s.tfu.calendar.toNat ++ [if s.tfu.calendarValid then 1 else 0] ++
      leBytes 2 (s.tfu.calendar.toNat % 86400 / 60))) := by
  rw [execReadTime, flagByte_eq, minuteOfDay]

/-- A read answers a layout and changes only the reply (R183). -/
theorem State.ok_reads {c : Instr} {xs : List (Nat × Nat)} {k : Nat}
    (ran : exec c s = .next (s.ok port false (layoutBytes xs))) (width : layoutWidth xs = k) :
    ∃ t bytes, exec c s = .next t ∧ s.answered port (okReply false bytes) t ∧ s.onlyChanges [.replies] t ∧
      bytes.length = k ∧ carries bytes xs :=
  ⟨_, _, ran, ok_answered _ _ _ rfl, ok_only _ _ _, (length_layoutBytes_width xs).trans width, layoutBytes_carries xs⟩

end Sys2Proof.Machine
end

section
/-! SUPPORT. The statement of Chapter 10 about the reads. -/

open Sys2Proof Sys2Proof.Machine Sys2Proof.Machine.State

/-- Settles O48: each read's bytes are its layout's, and the reply is all it changes. -/
theorem readsShowTheStateAndChangeOnlyTheReply : Obligations.ReadsShowTheStateAndChangeOnlyTheReply := by
  refine ⟨replyCodes, fun p s => ⟨?_, ?_, ?_, fun point bad => ?_, fun q => ?_, fun node bad => ?_, fun n => ?_⟩⟩
  · exact ok_reads execStatus_eq (statusLayout_width s p)
  · exact ok_reads execReadBalance_eq (balanceLayout_width s)
  · exact ⟨_, execReadTime_eq, ok_only _ _ _, ok_answered _ _ _ rfl⟩
  · exact ⟨_, execReadSession_refused bad, turnDown_turnedAway _ _ _⟩
  · refine ⟨_, _, execReadSession_point q, ok_answered _ _ _ rfl, ok_only _ _ _, ?_, layoutBytes_carries _, fun free => ?_⟩
    · exact (length_layoutBytes_width _).trans (Session.layout_width _ _)
    · rw [free]
      exact layoutBytes_zero (Session.free_layout s.now)
  · exact ⟨_, execReadNode_refused bad, turnDown_turnedAway _ _ _⟩
  · exact ok_reads (execReadNode_node n) (nodeLayout_width s n)

end


section
/-! SUPPORT. Why the accounts are not kept by every step: a FREE record whose meter fields disagree, named by an opening
request (R58, R134). -/

namespace Sys2Proof.Machine

open Sys2Proof State

set_option Elab.async false

/-- A FREE record that the identity of the accounts does not reach: its meter has moved by 1 Wh, its accounts are empty. -/
def strayRecord : Session := { Session.free with lastMeter := 1 }

/-- An opening request for point 0, as OPEN SESSION would have queued it. -/
def strayRequest : ProgramRequest :=
  { kind := .opening 0
      { number := 0, point := 0, cls := .standard, edition := 0, customer := 0, openTime := 0, meterStart := 0
        fallbackPrice := 0, sessionFee := 0 }
    number := 0, slot := 0, attempts := 0 }

/-- The reset state with that record at point 0, that request at the head of the program queue, and a good program of it
next. No run reaches it: QueueInv, which AccountsInv does not contain, fails here. -/
def strayOpening : State :=
  { State.reset with
    ssu := { State.reset.ssu with sessions := State.reset.ssu.sessions.set 0 strayRecord }
    rlg := { State.reset.rlg with queue := [strayRequest] }
    pending := [.openingProgram ⟨[], []⟩] }

/-- Every record of the stray state is FREE. -/
theorem strayOpening_free (p : Point) : (strayOpening.session p).state = .free := by
  revert p
  decide

theorem strayOpening_accounts : AccountsInv strayOpening where
  weights := Nat.le_refl 0
  balanced p open_ := absurd (strayOpening_free p) open_

/-- The record of point 0 as the completed opening leaves it. -/
def strayOpened : Session := { strayRecord with state := .waiting }

/-- The opening completes: the record enters WAITING with its meter fields as they stood (R58). -/
theorem strayOpening_opens : ∃ t, step strayOpening = .next t ∧ t.session 0 = strayOpened :=
  ⟨_, rfl, by decide +kernel⟩

theorem strayOpened_unbalanced : ¬strayOpened.balanced := fun h => absurd (h (by decide)) (by decide)

end Sys2Proof.Machine
end

section
/-! SUPPORT. The statement about queues, accounts, tariff references and slots. -/

open Sys2Proof Sys2Proof.Machine

/-- Refutes O58: AccountsInv alone is not kept. An opening request for a FREE record, which QueueInv excludes and AccountsInv
does not, opens a record whose accounts never agreed with its meter. -/
theorem not_queuesAndAccountsAgreeWithTheSessions : ¬Obligations.QueuesAndAccountsAgreeWithTheSessions := by
  rintro ⟨-, accountsKept, -⟩
  obtain ⟨t, steps, opened⟩ := strayOpening_opens
  have after : AccountsInv t := accountsKept strayOpening t strayOpening_accounts steps
  exact strayOpened_unbalanced (opened ▸ after.balanced 0)

end


section
/-! SUPPORT. Of the allocator, the session unit and the receipt log reach the waiting queue alone (R62, R66, R69, R76). -/

namespace Sys2Proof.Machine

open Sys2Proof State

set_option Elab.async false

variable {s t u : State}

/-- From `s` to `t` the allocator may change in its waiting queue only. -/
def State.QueueOnly (s t : State) : Prop := t.alu = { s.alu with queue := t.alu.queue }

theorem State.QueueOnly.refl : s.QueueOnly s := rfl

theorem State.QueueOnly.trans (h : s.QueueOnly t) (k : t.QueueOnly u) : s.QueueOnly u := by
  unfold QueueOnly at *
  rw [k, h]

theorem State.QueueOnly.of_alu (h : t.alu = s.alu) : s.QueueOnly t := by
  unfold QueueOnly
  rw [h]

/-- What leaves the allocator alone leaves its queue alone. -/
theorem State.QueueOnly.of_only {fs : List Field} (h : s.onlyChanges fs t) (away : .alu ∉ fs := by decide) :
    s.QueueOnly t := .of_alu (h .alu away)

theorem State.QueueOnly.then_only {fs : List Field} (h : s.QueueOnly t) (k : t.onlyChanges fs u)
    (away : .alu ∉ fs := by decide) : s.QueueOnly u := h.trans (.of_only k away)

theorem State.QueueOnly.ite {b : Prop} [Decidable b] (h : s.QueueOnly t) (k : s.QueueOnly u) :
    s.QueueOnly (if b then t else u) := by
  split
  · exact h
  · exact k

theorem State.QueueOnly.foldl {α : Type} {g : State → α → State} (h : ∀ (v : State) a, v.QueueOnly (g v a))
    (as : List α) : s.QueueOnly (as.foldl g s) := by
  induction as generalizing s with
  | nil => exact .refl
  | cons a as ih => exact (h s a).trans ih

/-! ## Sessions -/

theorem State.withdraw_queueOnly (p : Point) : s.QueueOnly (s.withdraw p) := by
  unfold withdraw
  split
  · rfl
  · exact .of_only (send_only _)
  · exact .refl

theorem State.enterWaiting_queueOnly (p : Point) : s.QueueOnly (s.enterWaiting p) := rfl

theorem State.startClose_queueOnly (p : Point) (r : EndReason) : s.QueueOnly (s.startClose p r) :=
  (withdraw_queueOnly p).then_only (withSession_only p _)

theorem State.enterDone_queueOnly (p : Point) : s.QueueOnly (s.enterDone p) :=
  ((withdraw_queueOnly p).then_only (withSession_only p _)).then_only (raise_only .c _ _)

theorem State.applyStop_queueOnly (p : Point) : s.QueueOnly (s.applyStop p) := by
  unfold applyStop
  dsimp only
  split
  · split
    · exact (withdraw_queueOnly p).then_only (withSession_only p _)
    · exact (withdraw_queueOnly p).then_only (withSession_only p _)
    · exact (withdraw_queueOnly p).then_only (withSession_only p _)
    · exact .refl
  · exact .ite (enterWaiting_queueOnly p) .refl

theorem State.openingCompleted_queueOnly (p : Point) : s.QueueOnly (s.openingCompleted p) := by
  unfold openingCompleted
  split
  · exact (enterWaiting_queueOnly p).then_only (raise_only .c _ _)
  · exact (startClose_queueOnly p _).then_only (raise_only .c _ _)

theorem State.faultClose_queueOnly (p : Point) : s.QueueOnly (s.faultClose p) :=
  .ite (startClose_queueOnly p _) (.ite (.of_only (withSession_only p _)) .refl)

theorem State.plugTest_queueOnly (p : Point) (b : Bool) : s.QueueOnly (s.plugTest p b) :=
  .ite .refl (.ite (startClose_queueOnly p _) (.ite (.of_only (withSession_only p _)) .refl))

theorem State.requestTest_queueOnly (p : Point) (n : Nat) : s.QueueOnly (s.requestTest p n) := by
  have counts : s.QueueOnly (s.countRequest p n) :=
    .ite (.of_only (withSession_only p _)) (.ite (enterDone_queueOnly p) (.of_only (withSession_only p _)))
  unfold requestTest
  split
  · exact counts
  · exact counts
  · exact .ite (enterWaiting_queueOnly p) .refl
  all_goals exact .refl

theorem State.sessionReport_queueOnly (p : Point) (e : Byte) (r : Word32) (n : Nat) (b : Bool) :
    s.QueueOnly (s.sessionReport p e r n b) :=
  (((QueueOnly.of_only (accountReport_only p r)).then_only (finalTest_only p e)).trans (plugTest_queueOnly p b)).trans
    (requestTest_queueOnly p n)

/-! ## Programs of the receipt log -/

theorem State.faultCloseAll_queueOnly : s.QueueOnly s.faultCloseAll := by
  unfold faultCloseAll
  exact .foldl (fun _ p => faultClose_queueOnly p) _

theorem State.enterFault_queueOnly : s.QueueOnly s.enterFault := by
  unfold enterFault
  exact (QueueOnly.of_only (withRlg_only _)).trans faultCloseAll_queueOnly

theorem State.thirdFailure_queueOnly (ns : List Nat) : s.QueueOnly (s.thirdFailure ns) :=
  have raised : s.QueueOnly (s.raiseBoth .storeFault ns) := .of_only (raiseBoth_only _ _)
  .ite raised (raised.trans enterFault_queueOnly)

theorem State.failHead_queueOnly (ns : List Nat) : s.QueueOnly (s.failHead ns) := by
  have failed : s.QueueOnly
      ((s.withRlg { s.rlg with queue := s.rlg.queue.tail, programming := false }).thirdFailure ns) :=
    (QueueOnly.of_only (withRlg_only _)).trans (thirdFailure_queueOnly ns)
  unfold failHead
  dsimp only
  split
  · exact (failed.then_only (withRlg_only _)).then_only eraseTest_only
  · exact failed

theorem execOpeningProgram_queueOnly {o : ProgramOutcome} (h : execOpeningProgram o s = .next t) : s.QueueOnly t := by
  obtain rfl := Host.Outcome.next.inj h
  have fails (v : State) (p : Point) (q : ProgramRequest) (ms : List MarkResult) :
      v.QueueOnly (v.openingAttemptFailed p q ms) := by
    unfold openingAttemptFailed
    dsimp only
    refine (QueueOnly.of_only (markBad_only q.slot ms)).trans ?_
    split
    · next slot w reserves =>
      split at reserves
      · exact ((QueueOnly.of_only (reserveWith_only reserves)).then_only (withSession_only p _)).then_only (retryHead_only _)
      · nomatch reserves
    · exact (QueueOnly.of_only (openingFailed_only p)).trans (failHead_queueOnly _)
  refine .ite .refl ?_
  split
  · split
    · exact .ite
        (((QueueOnly.of_only (withRlg_only _)).trans (openingCompleted_queueOnly _)).then_only endRequest_only)
        ((QueueOnly.of_only (withRlg_only _)).trans (fails _ _ _ _))
    · exact .refl
  · exact .refl

theorem execClosingProgram_queueOnly {o : ProgramOutcome} (h : execClosingProgram o s = .next t) : s.QueueOnly t := by
  obtain rfl := Host.Outcome.next.inj h
  refine .ite .refl ?_
  split
  · split
    · exact .ite
        (((QueueOnly.of_only (closeInPlace_only _ _ o)).then_only (closingCompleted_only _)).then_only endRequest_only)
        ((QueueOnly.of_only (closeInPlace_only _ _ o)).then_only (retryHead_only _))
    · exact .refl
  · exact .refl

theorem execRelocation_queueOnly {o : ProgramOutcome} (h : execRelocation o s = .next t) : s.QueueOnly t := by
  obtain rfl := Host.Outcome.next.inj h
  refine .ite .refl ?_
  split
  · split
    · split
      · next moved =>
        exact (((QueueOnly.of_only (relocate_only_of_eq moved)).then_only (withSession_only _ _)).then_only
          (closingCompleted_only _)).then_only endRequest_only
      · next failed =>
        exact (QueueOnly.of_only (relocate_only_of_eq failed)).trans
          (.ite (.of_only (retryHead_only _)) (failHead_queueOnly _))
      · next noSlot => exact (QueueOnly.of_only (relocate_only_of_eq noSlot)).trans (failHead_queueOnly _)
    · exact .refl
  · exact .refl

theorem execCollectProgram_queueOnly {o : ProgramOutcome} (h : execCollectProgram o s = .next t) : s.QueueOnly t := by
  obtain rfl := Host.Outcome.next.inj h
  refine .ite .refl ?_
  split
  · split
    · refine .ite ?_ (.ite ?_ ?_)
      · exact ((QueueOnly.of_only (withRlg_only _)).then_only eraseTest_only).then_only endRequest_only
      · exact (QueueOnly.of_only (withRlg_only _)).then_only (retryHead_only _)
      · exact ((QueueOnly.of_only (withRlg_only _)).trans (failHead_queueOnly _)).trans
          (.ite ((QueueOnly.of_only (withRlg_only _)).then_only eraseTest_only) .refl)
    · exact .refl
  · exact .refl

theorem State.orphanRelocation_queueOnly (n : Nat) (part : ClosingPart) (q : ProgramRequest) (o : ProgramOutcome) :
    s.QueueOnly (s.orphanRelocation n part q o) := by
  unfold orphanRelocation
  split
  · next moved => exact (QueueOnly.of_only (relocate_only_of_eq moved)).then_only (orphanClosed_only _)
  · next failed =>
    exact (QueueOnly.of_only (relocate_only_of_eq failed)).trans
      (.ite (.of_only (retryHead_only _)) (failHead_queueOnly _))
  · next noSlot => exact (QueueOnly.of_only (relocate_only_of_eq noSlot)).trans (failHead_queueOnly _)

theorem execOrphanClosing_queueOnly {o : ProgramOutcome} (h : execOrphanClosing o s = .next t) : s.QueueOnly t := by
  obtain rfl := Host.Outcome.next.inj h
  refine .ite .refl ?_
  split
  · next q _ _ =>
    split
    · have read : s.QueueOnly (s.withRlg (s.rlg.countWords (16 * q.slot + 4) 11)) := .of_only (withRlg_only _)
      refine .ite (.ite (.ite ?_ ?_) (read.trans (orphanRelocation_queueOnly _ _ _ _)))
        (orphanRelocation_queueOnly _ _ _ _)
      · exact (read.then_only (closeInPlace_only _ _ o)).then_only (orphanClosed_only _)
      · exact (read.then_only (closeInPlace_only _ _ o)).then_only (retryHead_only _)
    · exact .refl
  · exact .refl

theorem execEraseComplete_queueOnly {o : HeaderOutcome} (h : execEraseComplete o s = .next t) : s.QueueOnly t := by
  obtain rfl := Host.Outcome.next.inj h
  split
  · refine .ite (((?_ : s.QueueOnly _).then_only (withRlg_only _)).then_only eraseTest_only) .refl
    exact .ite (.of_only (withRlg_only _)) ((QueueOnly.of_only (withRlg_only _)).trans (thirdFailure_queueOnly _))
  · exact .refl

theorem execStartupScan_queueOnly {xs : List ScanResult} (h : execStartupScan xs s = .next t) : s.QueueOnly t := by
  obtain rfl := Host.Outcome.next.inj h
  refine .ite ?_ .refl
  have scanned (r : Rlg) : s.QueueOnly (s.withRlg r) := .of_only (withRlg_only r)
  exact ((QueueOnly.ite ((scanned _).trans (thirdFailure_queueOnly _)) (scanned _)).then_only eraseTest_only).then_only
    raiseOrphans_only

/-! ## The commands of the ports -/

theorem execSessionReport_queueOnly {p : Point} (h : execSessionReport p s = .next t) : s.QueueOnly t := by
  obtain rfl := Host.Outcome.next.inj h
  split
  · have taken (r : Request) : s.QueueOnly (s.takeRequest r) := .of_only (takeRequest_only r)
    dsimp only
    split
    · exact .ite (taken _) ((taken _).trans (sessionReport_queueOnly _ _ _ _ _))
    · exact taken _
    · exact taken _
  · exact .refl

theorem closeSessionOp_queueOnly (p : Byte) : s.QueueOnly (closeSessionOp p s) := by
  unfold closeSessionOp
  split
  · exact .of_only (turnDown_only _ _ _)
  · exact .ite ((startClose_queueOnly _ _).then_only (accepted_only _ _)) (.of_only (turnDown_only _ _ _))

theorem State.flagCommand_queueOnly (port : Port) (p on : Byte) (write : Session → Bool → Session) :
    s.QueueOnly (s.flagCommand port p on write) := by
  unfold flagCommand
  split
  · exact .ite (((QueueOnly.of_only (withSession_only _ _)).trans (applyStop_queueOnly _)).then_only (ok_only _ _ _))
      (.of_only (turnDown_only _ _ _))
  · exact .of_only (turnDown_only _ _ _)

end Sys2Proof.Machine
end


section
/-! SUPPORT. The staging invariant point by point, and what the operations on values, marks and nodes keep of it (R89 to
R96, R108; log entry 17). -/

namespace Sys2Proof.Machine

open Sys2Proof State

set_option Elab.async false

variable {s t : State} {p : Point}

/-! ## One point -/

/-- The staging invariant at one point: its node's entry, its value to send, its entry of the set, the staging state. -/
structure PointStaged (x : Node) (v : SendValue) (e : GrantEntry) (g : Staging) : Prop where
  sent : 0 ≤ x.sentValue
  kinds : x.kind ≠ .canopy ∧ x.kind ≠ .battery
  offline : x.state ≠ .online → v.value = 0
  withheld : g ≠ .released → (v.value : Int) ≤ x.sentValue
  raises : e.mark = .raised → e.leftOnline = false → x.state = .online

/-- The staging invariant holds at the point. -/
def State.StagedAt (s : State) (p : Point) : Prop :=
  PointStaged (s.node (pointNode p)) s.alu.points[p] s.alu.set.entries[p] s.alu.staging

theorem stagingInv_iff : StagingInv s ↔ ∀ p, s.StagedAt p :=
  ⟨fun h p => ⟨h.sent p, h.kinds p, h.offline p, fun g => h.withheld g p, h.raises p⟩,
    fun h => ⟨fun p => (h p).sent, fun p => (h p).kinds, fun p => (h p).offline, fun g p => (h p).withheld g,
      fun p => (h p).raises⟩⟩

variable {x y : Node} {v w : SendValue} {e : GrantEntry} {g g' : Staging}

/-- The sequence of an entry does not enter the invariant. -/
theorem PointStaged.sequence (h : PointStaged x v e g) (same : { y with sequence := 0 } = { x with sequence := 0 }) :
    PointStaged y v e g := by
  rw [Node.eq_of_sequences same]
  exact ⟨h.sent, h.kinds, h.offline, h.withheld, h.raises⟩

/-- Of a point's fields the value alone enters the invariant. -/
theorem PointStaged.value (h : PointStaged x v e g) (same : w.value = v.value) : PointStaged x w e g :=
  ⟨h.sent, h.kinds, fun off => same.trans (h.offline off), fun k => by rw [same]; exact h.withheld k, h.raises⟩

/-- A staging state that is RELEASED, or that follows one that is not, keeps the invariant. -/
theorem PointStaged.staging (h : PointStaged x v e g) (later : g' ≠ .released → g ≠ .released) :
    PointStaged x v e g' :=
  ⟨h.sent, h.kinds, h.offline, fun k => h.withheld (later k), h.raises⟩

/-- A point whose value to send is 0 and whose raise, if it has one, is of an ONLINE node. -/
theorem PointStaged.zero (sent : 0 ≤ x.sentValue) (kinds : x.kind ≠ .canopy ∧ x.kind ≠ .battery) (zero : v.value = 0)
    (raises : e.mark = .raised → e.leftOnline = false → x.state = .online) : PointStaged x v e g :=
  ⟨sent, kinds, fun _ => zero, fun _ => by rw [zero]; exact sent, raises⟩

/-- A value handed to a point is its value, changed or not. -/
@[simp] theorem SendValue.hand_value (v : SendValue) (online : Bool) (value power : Nat) :
    (v.hand online value power).value = value := by
  unfold hand
  split
  · next same => exact same.symm
  · rfl

/-! ## The allocator's operations -/

/-- Values, entries and nodes as they were, the staging state as a test may leave it. -/
theorem StagingInv.congr (h : StagingInv s) (values : ∀ p : Point, t.alu.points[p].value = s.alu.points[p].value)
    (entries : t.alu.set.entries = s.alu.set.entries)
    (later : t.alu.staging ≠ .released → s.alu.staging ≠ .released)
    (nodes : ∀ p, { t.node (pointNode p) with sequence := 0 } = { s.node (pointNode p) with sequence := 0 }) :
    StagingInv t :=
  stagingInv_iff.mpr fun p => by
    unfold StagedAt
    rw [entries]
    exact (((stagingInv_iff.mp h p).value (values p)).staging later).sequence (nodes p)

/-- What changes neither values, entries, staging state nor nodes. -/
theorem StagingInv.of_same (h : StagingInv s) (points : t.alu.points = s.alu.points)
    (entries : t.alu.set.entries = s.alu.set.entries) (staging : t.alu.staging = s.alu.staging)
    (nodes : t.flc.nodes = s.flc.nodes) : StagingInv t :=
  h.congr (fun p => by rw [points]) entries (by rw [staging]; exact id) (fun p => by rw [node, nodes, node])

/-- The release hands out the withheld raises of ONLINE nodes alone (R91). -/
theorem StagingInv.releaseRaises (h : StagingInv s) : StagingInv s.releaseRaises :=
  stagingInv_iff.mpr fun p => by
    obtain ⟨sent, kinds, offline, -, raises⟩ := stagingInv_iff.mp h p
    have same : { s.releaseRaises.node (pointNode p) with sequence := 0 } = { s.node (pointNode p) with sequence := 0 } := by
      rw [s.releaseRaises_into.sequences p]
      split <;> rfl
    refine PointStaged.sequence ⟨sent, kinds, fun off => ?_, fun k => absurd s.releaseRaises_alu.staging k, ?_⟩ same
    · have held := s.releaseRaises_alu.values p
      have kept : ¬(s.alu.set.entries[p].mark = .raised ∧ s.alu.set.entries[p].leftOnline = false ∧
          s.alu.set.entries[p].target ≠ s.alu.points[p].value) := fun raised => off (raises raised.1 raised.2.1)
      rw [held.trans (if_neg kept)]
      exact offline off
    · rw [s.releaseRaises_alu.kept]
      exact raises

theorem StagingInv.stagingTest (h : StagingInv s) : StagingInv s.stagingTest := by
  by_cases released : s.alu.staging = .released
  · rw [stagingTest_released released]
    exact h
  by_cases pending : s.alu.anyPending = true
  · rw [stagingTest_reducing released pending]
    exact h.congr (fun _ => rfl) rfl (fun _ => released) (fun _ => rfl)
  by_cases passed : s.dwellPassed = true
  · rw [stagingTest_release released pending passed]
    exact h.releaseRaises
  · rw [stagingTest_dwelling released pending passed]
    exact h.congr (fun _ => rfl) rfl (fun _ => released) (fun _ => rfl)

theorem StagingInv.acknowledge (h : StagingInv s) (p : Point) : StagingInv (s.acknowledge p) := by
  refine stagingTest (h.congr (fun q => ?_) rfl id (fun _ => rfl))
  rw [withAlu_alu]
  simp only [Fin.getElem_fin, Vector.getElem_set]
  split
  · next same => rw [Fin.ext same]
  · rfl

/-- A point whose node has left ONLINE drops out; the other points must meet the invariant, its own node the parts of it
that speak of the sent value and the kind (R95). -/
theorem StagingInv.leaveOnline (others : ∀ q, q ≠ p → s.StagedAt q) (sent : 0 ≤ (s.node (pointNode p)).sentValue)
    (kinds : (s.node (pointNode p)).kind ≠ .canopy ∧ (s.node (pointNode p)).kind ≠ .battery) :
    StagingInv (s.leaveOnline p) := by
  refine stagingTest (stagingInv_iff.mpr fun q => ?_)
  have same : { (s.dropPoint p).node (pointNode q) with sequence := 0 } = { s.node (pointNode q) with sequence := 0 } := by
    rw [dropPoint_node]
    exact handValues_node _ _ _
  refine PointStaged.sequence (x := s.node (pointNode q)) ?_ same
  rw [dropPoint_alu]
  by_cases own : q = p
  · subst own
    exact .zero sent kinds (by simp [Alu.without]) (by simp [Alu.without])
  · have apart : (p : Nat) ≠ q := fun k => own (Fin.ext k.symm)
    simpa [StagedAt, Alu.without, Vector.getElem_set_ne _ _ apart] using others q own

/-- The loss of ONLINE of a node that is still ONLINE in the table (R102). -/
theorem StagingInv.leaves (h : StagingInv s) (p : Point) : StagingInv (s.leaveOnline p) :=
  .leaveOnline (fun q _ => stagingInv_iff.mp h q) (h.sent p) (h.kinds p)

/-- An ALL-ZERO request leaves no value to send and no raise (R94). -/
theorem StagingInv.zeroed (h : StagingInv s) (z : s.ZeroedInto t) : StagingInv t :=
  stagingInv_iff.mpr fun p => by
    unfold StagedAt
    rw [z.chargers p, z.entries p]
    refine .zero ?_ (h.kinds p) (z.points p).1 fun raised => ?_
    · dsimp only
      split
      · exact h.sent p
      · exact Int.le_refl 0
    · dsimp only at raised
      split at raised <;> nomatch raised

/-! ## The node table -/

/-- One entry of the node table replaced. -/
theorem StagingInv.withNode (h : StagingInv s) {n : Fin 26}
    (own : ∀ p, pointNode p = n → PointStaged x s.alu.points[p] s.alu.set.entries[p] s.alu.staging) :
    StagingInv (s.withNode n x) :=
  stagingInv_iff.mpr fun p => by
    unfold StagedAt
    rw [withNode_node]
    split
    · next same => exact own p same
    · exact stagingInv_iff.mp h p

/-- The entry of node 24 or 25 replaced. -/
theorem StagingInv.withStation (h : StagingInv s) {n : Fin 26} (station : 24 ≤ n.val) : StagingInv (s.withNode n x) :=
  h.withNode fun p own => absurd (own ▸ p.isLt : n.val < 24) (not_lt.mpr station)

end Sys2Proof.Machine
end


section
/-! SUPPORT. One point handed a value, and the set an allocation forms with the values it hands out (R86 to R89, R92). -/

namespace Sys2Proof.Machine

open Sys2Proof State

set_option Elab.async false

variable {s t : State} {p : Point} {ps : List Point} {b : Nat}

/-! ## One point handed a value -/

/-- Only the point's own value changes. -/
theorem State.handValue_alu (s : State) (p : Point) (value power : Nat) :
    (s.handValue p value power).alu =
      { s.alu with points := s.alu.points.set p (s.alu.points[p].hand (s.online p) value power) } := by
  have points : (s.handValue p value power).alu.points =
      s.alu.points.set p (s.alu.points[p].hand (s.online p) value power) := by
    ext1 i below
    have handed := s.handValues_points
      (fun q => if q = p then (value, power) else (s.alu.points[q].value, s.alu.points[q].power)) ⟨i, below⟩
    refine handed.trans ?_
    by_cases own : p = ⟨i, below⟩
    · subst own
      simp
    · have apart : (p : Nat) ≠ i := fun same => own (Fin.ext same)
      rw [if_neg (Ne.symm own), Vector.getElem_set_ne _ _ apart]
      exact if_pos rfl
  rw [← points]
  exact handValues_alu _ _

/-- The reduction of a point to 0 at the allocator (R92). -/
theorem State.stageReduction_alu (s : State) (p : Point) :
    (s.stageReduction p).alu = Alu.restage { s.alu with
      points := s.alu.points.set p (s.alu.points[p].hand (s.online p) 0 0)
      set := { s.alu.set with entries := s.alu.set.entries.set p (s.reducedEntry p) } } := by
  show Alu.restage _ = _
  rw [handValue_alu]

theorem State.stageReduction_flc (s : State) (p : Point) : (s.stageReduction p).flc = (s.handValue p 0 0).flc := rfl

theorem State.stageReduction_node (s : State) (p : Point) (n : Fin 26) :
    (s.stageReduction p).node n = (s.handValue p 0 0).node n := by
  rw [node, stageReduction_flc, node]

/-! ## The set an allocation forms -/

@[simp] theorem setPointPower_zero (kind : NodeKind) (vNom : Nat) : setPointPower kind vNom 0 = 0 := by
  cases kind <;> simp [setPointPower]

theorem State.target_offline (off : s.online p = false) : s.target ps b p = 0 := by
  rw [target, off]
  rfl

/-- The value an entry gives at formation: the sent value for a withheld raise, else the target (R89). -/
theorem State.entryValue_value (s : State) (ps : List Point) (b : Nat) (p : Point) :
    (s.entryValue (s.newEntry ps b p) p).1 =
      if (s.newEntry ps b p).mark = .raised then (s.node (pointNode p)).sentValue.toNat else s.target ps b p := by
  unfold entryValue
  cases marked : (s.newEntry ps b p).mark with
  | reduction => rfl
  | unchanged => rfl
  | raised => rfl
  | offline =>
    have off : s.online p = false := by
      unfold newEntry at marked
      dsimp only at marked
      split at marked
      · next off => simpa using off
      · split at marked
        · nomatch marked
        · split at marked <;> nomatch marked
    exact (target_offline off).symm

/-- The power handed with it is the value's. -/
theorem State.entryValue_power (s : State) (ps : List Point) (b : Nat) (p : Point) :
    (s.entryValue (s.newEntry ps b p) p).2 = s.powerOf p (s.entryValue (s.newEntry ps b p) p).1 := by
  unfold entryValue
  split
  · rfl
  · rfl
  · rfl
  · exact (setPointPower_zero _ _).symm

/-- The mark of a new entry compares its target with the sent value (R88). -/
theorem State.newEntry_mark (s : State) (ps : List Point) (b : Nat) (p : Point) :
    (s.newEntry ps b p).mark =
      if s.online p = false then .offline
      else if (s.target ps b p : Int) < (s.node (pointNode p)).sentValue then .reduction
      else if (s.target ps b p : Int) = (s.node (pointNode p)).sentValue then .unchanged
      else .raised := by
  unfold newEntry
  cases s.online p <;> rfl

/-- The values handed out, before the set is put in force. -/
def State.handEntries (ps : List Point) (b : Nat) (s : State) : State :=
  s.handValues (fun p => s.entryValue (s.newEntry ps b p) p)

/-- The new set in force with its values handed out, before its staging test (R88, R89). -/
def State.placeSet (ps : List Point) (b : Nat) (s : State) : State :=
  let t := s.handEntries ps b
  t.withAlu { t.alu with
    set := { number := t.alu.set.number + 1, budget := b, entries := Vector.ofFn (s.newEntry ps b) }
    staging := .reducing }

theorem State.formSet_eq (s : State) (ps : List Point) (b : Nat) : s.formSet ps b = (s.placeSet ps b).stagingTest := by
  unfold formSet placeSet handEntries
  rfl

theorem State.handEntries_alu (s : State) (ps : List Point) (b : Nat) :
    (s.handEntries ps b).alu = { s.alu with points := (s.handEntries ps b).alu.points } := by
  unfold handEntries
  exact handValues_alu _ _

theorem State.placeSet_alu (s : State) (ps : List Point) (b : Nat) : (s.placeSet ps b).alu = { s.alu with
    points := (s.handEntries ps b).alu.points
    set := { number := s.alu.set.number + 1, budget := b, entries := Vector.ofFn (s.newEntry ps b) }
    staging := .reducing } := by
  unfold placeSet
  dsimp only
  rw [withAlu_alu, handEntries_alu]

@[simp] theorem State.placeSet_entry (s : State) (ps : List Point) (b : Nat) (p : Point) :
    (s.placeSet ps b).alu.set.entries[p] = s.newEntry ps b p := by
  rw [placeSet_alu]
  simp

theorem State.placeSet_point (s : State) (ps : List Point) (b : Nat) (p : Point) :
    (s.placeSet ps b).alu.points[p] = s.alu.points[p].hand (s.online p) (s.entryValue (s.newEntry ps b p) p).1
      (s.entryValue (s.newEntry ps b p) p).2 := by
  rw [placeSet_alu]
  dsimp only
  unfold handEntries
  exact handValues_points _ _ p

theorem State.placeSet_flc (s : State) (ps : List Point) (b : Nat) : (s.placeSet ps b).flc = (s.handEntries ps b).flc := by
  unfold placeSet
  exact withAlu_flc _ _

theorem State.placeSet_node (s : State) (ps : List Point) (b : Nat) (n : Fin 26) :
    (s.placeSet ps b).node n = (s.handEntries ps b).node n := by
  rw [node, placeSet_flc, node]

/-- The formation of a set changes of a node its sequence at most (R108). -/
theorem State.placeSet_sequence (s : State) (ps : List Point) (b : Nat) (n : Fin 26) :
    { (s.placeSet ps b).node n with sequence := 0 } = { s.node n with sequence := 0 } := by
  rw [placeSet_node]
  unfold handEntries
  exact handValues_node _ _ _

/-- What an allocation leaves of the allocator: the set formed and tested, the queue after it (R76, R88 to R90). -/
theorem State.allocate_alu (s : State) (b : Nat) (counts : Bool) : (s.allocate b counts).alu =
    { (s.formSet (s.admitted b) b).alu with queue := s.allocatedQueue (s.admitted b) } := by
  unfold allocate
  simp only [withAlu_alu, withSsu_alu]

theorem State.allocate_flc (s : State) (b : Nat) (counts : Bool) :
    (s.allocate b counts).flc = (s.formSet (s.admitted b) b).flc := by
  unfold allocate
  simp only [withAlu_flc, withSsu_flc]

end Sys2Proof.Machine
end

section
/-! SUPPORT. Every command keeps the staging invariant (R89 to R96; log entry 17). -/

namespace Sys2Proof.Machine

open Sys2Proof State

set_option Elab.async false

variable {s t : State} {p : Point}

/-! ## The allocator -/

/-- A new set withholds its raises (R89, R91). -/
theorem StagingInv.placeSet (h : StagingInv s) (ps : List Point) (b : Nat) : StagingInv (s.placeSet ps b) :=
  stagingInv_iff.mpr fun p => by
    refine PointStaged.sequence (x := s.node (pointNode p)) ?_ (s.placeSet_sequence ps b (pointNode p))
    have sent := h.sent p
    have marked := s.newEntry_mark ps b p
    rw [placeSet_entry, placeSet_point]
    refine ⟨sent, h.kinds p, fun off => ?_, fun _ => ?_, fun raised _ => ?_⟩
    · have away : s.online p = false := by simpa [online] using off
      rw [if_pos away] at marked
      rw [SendValue.hand_value, entryValue_value, if_neg (by rw [marked]; decide), target_offline away]
    · rw [SendValue.hand_value, entryValue_value]
      split
      · omega
      · next kept =>
        rw [marked] at kept
        cases on : s.online p
        · rw [target_offline on]
          omega
        · simp only [on, reduceCtorEq, if_false] at kept
          split at kept
          · omega
          · split at kept
            · omega
            · exact absurd rfl kept
    · rw [marked] at raised
      split at raised
      · nomatch raised
      · next on => simpa [online] using on

theorem StagingInv.allocate (h : StagingInv s) (b : Nat) (counts : Bool) : StagingInv (s.allocate b counts) := by
  have formed : StagingInv (s.formSet (s.admitted b) b) := by
    rw [formSet_eq]
    exact (h.placeSet _ b).stagingTest
  have alu := s.allocate_alu b counts
  exact formed.of_same (by rw [alu]) (by rw [alu]) (by rw [alu]) (by rw [allocate_flc])

theorem StagingInv.stageReduction (h : StagingInv s) (p : Point) : StagingInv (s.stageReduction p) :=
  stagingInv_iff.mpr fun q => by
    have same : { (s.stageReduction p).node (pointNode q) with sequence := 0 } =
        { s.node (pointNode q) with sequence := 0 } := by
      rw [stageReduction_node]
      exact handValues_node _ _ _
    refine PointStaged.sequence (x := s.node (pointNode q)) ?_ same
    rw [stageReduction_alu, Alu.restage_eq]
    dsimp only
    by_cases own : q = p
    · subst own
      refine .zero (h.sent q) (h.kinds q) (by simp) fun raised => ?_
      simp only [Fin.getElem_fin, Vector.getElem_set_self, reducedEntry] at raised
      split at raised <;> nomatch raised
    · have apart : (p : Nat) ≠ q := fun same => own (Fin.ext same.symm)
      simp only [Fin.getElem_fin, Vector.getElem_set_ne _ _ apart]
      refine (stagingInv_iff.mp h q).staging fun later => ?_
      split at later
      · next staging => exact staging.1
      · exact later

/-! ## The period close -/

theorem State.JudgedInto.staging (j : s.JudgedInto t) (h : StagingInv s) : StagingInv t := by
  cases j with
  | stays l _ => exact h.of_same rfl rfl rfl rfl
  | moves e l _ _ _ _ => exact h.of_same rfl rfl rfl rfl
  | sheds _ => exact h.zeroed enterShed_zeroed
  | trips _ => exact h.zeroed enterTripped_zeroed

theorem StagingInv.closePeriod (h : StagingInv s) (r : Reading) : StagingInv (s.closePeriod r) := by
  have closed : StagingInv (s.withCmu (s.cmu.close s.site.tBal r (s.lsu.judge r))) := h.of_same rfl rfl rfl rfl
  have judged : StagingInv (s.judgedAt r) := (applyJudgement_judged _).staging closed
  have alu : (s.closePeriod r).alu = (s.judgedAt r).alu := closePeriod_after r .alu (by decide)
  have nodes : (s.closePeriod r).flc.nodes = (s.judgedAt r).flc.nodes := by
    rw [closePeriod_flc, (Flc.periodClose_kept _).1]
  exact judged.of_same (by rw [alu]) (by rw [alu]) (by rw [alu]) nodes

/-! ## The field link -/

/-- A frame to a charge point carries its value to send while it is ONLINE, else 0 (R107, R108). -/
theorem State.formFrame_point {bytes : List Byte} {x : Node} (h : s.StagedAt p)
    (formed : s.formFrame (pointNode p) = some (bytes, x)) :
    x = { s.node (pointNode p) with
      sentValue := if (s.node (pointNode p)).state = .online then s.alu.points[p].value else 0
      sentPower := x.sentPower, sentFailsafe := x.sentFailsafe } := by
  obtain ⟨-, ⟨canopy, battery⟩, -, -, -⟩ := h
  have point : s.alu.points[(pointNode p).val]? = some s.alu.points[p] := Vector.getElem?_eq_getElem p.isLt
  unfold formFrame at formed
  dsimp only at formed
  split at formed
  · nomatch formed
  · next kind => exact absurd kind canopy
  · next kind => exact absurd kind battery
  · next state _ _ =>
    obtain ⟨-, rfl⟩ := Prod.mk.inj (Option.some.inj formed)
    rw [if_pos state, point]
    rfl
  · next kind _ _ => exact absurd kind canopy
  · next kind _ _ => exact absurd kind battery
  · next off _ _ _ _ =>
    obtain ⟨-, rfl⟩ := Prod.mk.inj (Option.some.inj formed)
    rw [if_neg off]

theorem StagingInv.sendFrame (h : StagingInv s) {n : Fin 26} {bytes : List Byte} {x : Node}
    (formed : s.formFrame n = some (bytes, x)) : StagingInv (s.sendFrame n bytes x) := by
  have sent : StagingInv (s.withNode n x) := h.withNode fun p own => by
    subst own
    have staged := stagingInv_iff.mp h p
    rw [formFrame_point staged formed]
    refine ⟨?_, staged.kinds, staged.offline, fun _ => ?_, staged.raises⟩
    · dsimp only
      split <;> omega
    · dsimp only
      split
      · exact Int.le_refl _
      · next off => rw [staged.offline off, Int.ofNat_zero]
  exact sent.of_same rfl rfl rfl rfl

/-- A valid REPORT makes no node leave ONLINE (R111). -/
theorem StagingInv.takeReport (h : StagingInv s) (n : Fin 26) (echo : Byte) (report : Report) :
    StagingInv (s.takeReport n echo report) := by
  have reported : StagingInv (s.withNode n ((s.node n).reported echo report)) := h.withNode fun p own => by
    subst own
    have staged := stagingInv_iff.mp h p
    have stays : (s.node (pointNode p)).state = .online →
        ((s.node (pointNode p)).reported echo report).state = .online := fun on => by simp [Node.reported, on]
    exact ⟨staged.sent, staged.kinds, fun off => staged.offline (mt stays off), staged.withheld,
      fun raised left => stays (staged.raises raised left)⟩
  have only : (s.withNode n ((s.node n).reported echo report)).onlyChanges [.noticesS, .requests]
      (s.takeReport n echo report) :=
    onlyChanges_then (onlyChanges_ite (raise_only .s _ _) onlyChanges_refl (fs := [.noticesS]))
      (reportRequests_only n echo report)
  have alu := only .alu (by decide)
  exact reported.of_same (congrArg Alu.points alu) (congrArg (fun a : Alu => a.set.entries) alu) (congrArg Alu.staging alu)
    (congrArg Flc.nodes (only .flc (by decide)))

theorem StagingInv.counted (h : StagingInv s) (n : Fin 26) (error : Bool) : StagingInv (s.counted n error) :=
  h.withNode fun p own => by
    subst own
    have staged := stagingInv_iff.mp h p
    exact ⟨staged.sent, staged.kinds, staged.offline, staged.withheld, staged.raises⟩

/-- A miss that loses a point's node drops the point's raise (R95, R114). -/
theorem StagingInv.takeMiss (h : StagingInv s) (n : Fin 26) (error : Bool) : StagingInv (s.takeMiss n error) := by
  by_cases loses : (s.node n).losesNow
  · have alu : (s.lostNode n error).alu = s.alu := lostNode_only .alu (by decide)
    rcases node_cases n with ⟨p, rfl⟩ | station
    · rw [takeMiss_losesPoint loses]
      have own : (s.lostNode (pointNode p) error).node (pointNode p) =
          { (s.node (pointNode p)).missed error with state := .lost } := (lostNode_node _).trans (if_pos rfl)
      have left : StagingInv ((s.lostNode (pointNode p) error).leaveOnline p) := by
        refine .leaveOnline (fun q apart => ?_) ?_ ?_
        · have other : pointNode q ≠ pointNode p := fun same => apart (pointNode_injective same)
          unfold StagedAt
          rw [lostNode_node, if_neg other, alu]
          exact stagingInv_iff.mp h q
        · rw [own]
          exact h.sent p
        · rw [own]
          exact h.kinds p
      exact left.of_same rfl rfl rfl rfl
    · have noPoint : nodePoint n = none := dif_neg (not_lt.mpr station)
      rw [takeMiss_losesOther loses noPoint]
      refine h.congr (fun _ => by rw [alu]) (by rw [alu]) (by rw [alu]; exact id) fun p => ?_
      have other : pointNode p ≠ n := fun same => absurd (same ▸ p.isLt : n.val < 24) (not_lt.mpr station)
      rw [lostNode_node, if_neg other]
  · rw [takeMiss_stays loses]
    exact h.counted n error

theorem StagingInv.closeExchange (h : StagingInv s) : StagingInv s.closeExchange :=
  h.of_same rfl rfl rfl (Flc.advance_kept _).2.2.2.2.2

theorem StagingInv.endExchange (h : StagingInv s) (x : Exchange) (e : ExchangeEnd) : StagingInv (s.endExchange x e) := by
  unfold State.endExchange
  refine closeExchange ?_
  split
  · exact h
  · cases e with
    | noReply => exact h.takeMiss _ _
    | error => exact h.takeMiss _ _
    | valid echo report => exact h.takeReport _ _ _

theorem StagingInv.cutExchange (h : StagingInv s) (e : ExchangeEnd) : StagingInv (s.cutExchange e) := by
  unfold State.cutExchange
  split
  · exact h.endExchange _ e
  · exact h

/-! ## Enrolment and removal -/

theorem kindOperand_charger {k : Byte} {kind : NodeKind} (h : kindOperand k = some kind) :
    kind ≠ .canopy ∧ kind ≠ .battery := by
  unfold kindOperand at h
  split at h
  · obtain rfl := Option.some.inj h
    decide
  split at h
  · obtain rfl := Option.some.inj h
    decide
  split at h
  · obtain rfl := Option.some.inj h
    decide
  · nomatch h

/-- CONFIGURE POINT leaves the sent value; a change of kind takes the node out of ONLINE, and with it its raise (R95,
R100). -/
theorem StagingInv.configurePoint (h : StagingInv s) (p : Point) {kind : NodeKind}
    (charger : kind ≠ .canopy ∧ kind ≠ .battery)
    (l : PointLimits) : StagingInv (s.configurePoint p kind l) := by
  have staged := stagingInv_iff.mp h p
  -- an entry with the sent value of before that does not come to leave ONLINE
  have placed (y : Node) (sent : y.sentValue = (s.node (pointNode p)).sentValue) (kinds : y.kind = kind)
      (stays : y.state = (s.node (pointNode p)).state ∨ (s.node (pointNode p)).state ≠ .online) :
      StagingInv (s.withNode (pointNode p) y) := h.withNode fun q own => by
    obtain rfl := pointNode_injective own
    refine ⟨sent ▸ staged.sent, kinds ▸ charger, fun off => ?_, fun g => sent ▸ staged.withheld g,
      fun raised left => ?_⟩
    · rcases stays with same | away
      · exact staged.offline (same ▸ off)
      · exact staged.offline away
    · rcases stays with same | away
      · exact same.trans (staged.raises raised left)
      · exact absurd (staged.raises raised left) away
  unfold State.configurePoint
  dsimp only
  split
  · next absent => exact placed _ rfl rfl (.inr (by rw [absent]; decide))
  split
  · exact placed _ rfl rfl (.inl rfl)
  generalize changed : ({ s.node (pointNode p) with
    kind, maximum := l.maximum, minimum := l.minimum, failsafe := l.failsafe, state := .joining, misses := 0
    report := none, lastEcho := none } : Node) = y
  have sent : y.sentValue = (s.node (pointNode p)).sentValue := changed ▸ rfl
  have kinds : y.kind = kind := changed ▸ rfl
  split
  · have own : (s.withNode (pointNode p) y).node (pointNode p) = y := withNode_node_self s _ _
    refine .leaveOnline (fun q apart => ?_) ?_ ?_
    · have other : pointNode q ≠ pointNode p := fun same => apart (pointNode_injective same)
      have kept : (s.withNode (pointNode p) y).node (pointNode q) = s.node (pointNode q) :=
        withNode_otherNodes s _ _ _ other
      have staged : PointStaged ((s.withNode (pointNode p) y).node (pointNode q)) s.alu.points[q]
          s.alu.set.entries[q] s.alu.staging := by
        rw [kept]
        exact stagingInv_iff.mp h q
      exact staged
    · exact le_of_le_of_eq staged.sent (sent.symm.trans (congrArg Node.sentValue own.symm))
    · exact (own ▸ kinds ▸ charger : ((s.withNode (pointNode p) y).node (pointNode p)).kind ≠ .canopy ∧ _)
  · next away => exact (placed y sent kinds (.inr away)).of_same rfl rfl rfl rfl

/-- After its loss of ONLINE, or away from it, a point has value 0 and no raise (R95). -/
theorem StagingInv.leaveIfOnline (h : StagingInv s) (p : Point) :
    StagingInv (s.leaveIfOnline (pointNode p)) ∧ (s.leaveIfOnline (pointNode p)).alu.points[p].value = 0 ∧
      ((s.leaveIfOnline (pointNode p)).alu.set.entries[p].mark = .raised →
        (s.leaveIfOnline (pointNode p)).alu.set.entries[p].leftOnline = false → False) := by
  unfold State.leaveIfOnline
  rw [nodePoint_pointNode]
  dsimp only
  split
  · obtain ⟨-, -, zero, -, left, -⟩ := leaveOnline_all p s
    exact ⟨h.leaves p, zero, fun _ stayed => Bool.false_ne_true (stayed.symm.trans left)⟩
  · next off =>
    have away : (s.node (pointNode p)).state ≠ .online := by simpa [online] using off
    exact ⟨h, h.offline p away, fun raised stayed => away (h.raises p raised stayed)⟩

/-- The entry of a node removed, of a station with what it keeps (R102). -/
theorem StagingInv.removeNode (h : StagingInv s) (n : Fin 26) : StagingInv (s.removeNode n) := by
  have cleared : StagingInv ((s.leaveIfOnline n).withNode n
      (((s.leaveIfOnline n).node n).removed (nodePoint n).isSome)) := by
    rcases node_cases n with ⟨p, rfl⟩ | station
    · obtain ⟨kept, zero, unraised⟩ := h.leaveIfOnline p
      refine kept.withNode fun q own => ?_
      obtain rfl := pointNode_injective own
      rw [nodePoint_pointNode]
      exact .zero (Int.le_refl 0) ⟨by simp [Node.removed], by simp [Node.removed]⟩ zero
        fun raised stayed => (unraised raised stayed).elim
    · have noPoint : nodePoint n = none := dif_neg (not_lt.mpr station)
      have same : s.leaveIfOnline n = s := by
        unfold State.leaveIfOnline
        rw [noPoint]
      rw [same]
      exact h.withStation station
  refine cleared.of_same rfl rfl rfl ?_
  unfold State.removeNode
  dsimp only
  rw [withFlc_flc]
  split
  · exact (Flc.advance_kept _).2.2.2.2.2
  · rfl

theorem StagingInv.enrol (h : StagingInv s) {n : Fin 26} (station : 24 ≤ n.val) : StagingInv (s.enrol n) := by
  unfold State.enrol
  split
  · exact h.withStation station
  · exact h

/-! ## The commands -/

theorem StagingInv.of_only {fs : List Field} (h : StagingInv s) (o : s.onlyChanges fs t) (alu : .alu ∉ fs := by decide)
    (flc : .flc ∉ fs := by decide) : StagingInv t := by
  have books := o .alu alu
  exact h.of_same (congrArg Alu.points books) (congrArg (fun a : Alu => a.set.entries) books)
    (congrArg Alu.staging books) (congrArg Flc.nodes (o .flc flc))

/-- What moves the waiting queue alone, and leaves the link alone, keeps the invariant. -/
theorem StagingInv.queueOnly {fs : List Field} (h : StagingInv s) (o : s.onlyChanges fs t) (k : s.QueueOnly t)
    (flc : .flc ∉ fs := by decide) : StagingInv t :=
  h.of_same (by rw [k]) (by rw [k]) (by rw [k]) (congrArg Flc.nodes (o .flc flc))

theorem StagingInv.ok (h : StagingInv s) (p : Port) (b : Bool) (r : List Byte) : StagingInv (s.ok p b r) :=
  h.of_only (ok_only p b r)

theorem StagingInv.turnDown (h : StagingInv s) (p : Port) (a : Status) (b : Reason) : StagingInv (s.turnDown p a b) :=
  h.of_only (turnDown_only p a b)

/-- A port S command keeps what its operation keeps and what WRONG_PORT keeps. -/
theorem StagingInv.onSite {f : State → State} (h : StagingInv s) (k : StagingInv (f s)) (p : Port) :
    StagingInv (s.onSite p f) := by
  cases p
  · exact k
  · exact h.of_only (wrongPort_only .c)

/-- A port C command keeps what its operation keeps and what WRONG_PORT keeps. -/
theorem StagingInv.onCharge {f : State → State} (h : StagingInv s) (k : StagingInv (f s)) (p : Port) :
    StagingInv (s.onCharge p f) := by
  cases p
  · exact h.of_only (wrongPort_only .s)
  · exact k

theorem noticeField_staging (p : Port) : .alu ≠ noticeField p ∧ .flc ≠ noticeField p := by
  cases p <;> decide

theorem StagingInv.takeRequest (h : StagingInv s) (r : Request) : StagingInv (s.takeRequest r) :=
  h.of_only (takeRequest_only r)

theorem StagingInv.setPolicy (h : StagingInv s) (x : PolicyOperand) : StagingInv (setPolicyOp x s) := by
  unfold setPolicyOp
  split
  · exact h.turnDown _ _ _
  · next mode _ =>
    have placed : StagingInv (s.withPolicy mode (clampPolicy x)) := h.of_same rfl rfl rfl rfl
    exact placed.ok _ _ _

theorem StagingInv.setSite (h : StagingInv s) (bal v : Word16) (rate reply : Byte) :
    StagingInv (setSiteOp bal v rate reply s) := by
  unfold setSiteOp
  split
  · exact h.turnDown _ _ _
  · next r _ =>
    have placed (site : Site) (held : LinkSettings) : StagingInv ((s.withSite site).withFlc { s.flc with held }) :=
      h.of_same rfl rfl rfl rfl
    exact (placed _ _).ok _ _ _

theorem StagingInv.setBattery (h : StagingInv s) (d c : Word32) (lo hi : Word16) :
    StagingInv (setBatteryOp d c lo hi s) := by
  have placed (x : Bau) : StagingInv ((s.withBau x).enrol batteryNode) :=
    have base : StagingInv (s.withBau x) := h.of_same rfl rfl rfl rfl
    base.enrol (n := batteryNode) (by decide)
  unfold setBatteryOp
  dsimp only
  split
  · exact h.turnDown _ _ _
  · exact (placed _).ok _ _ _

theorem StagingInv.setCanopy (h : StagingInv s) (r f : Word32) : StagingInv (setCanopyOp r f s) := by
  have placed (x : Bau) : StagingInv ((s.withBau x).enrol canopyNode) :=
    have base : StagingInv (s.withBau x) := h.of_same rfl rfl rfl rfl
    base.enrol (n := canopyNode) (by decide)
  exact ((placed _).withStation (n := canopyNode) (by decide)).ok _ _ _

theorem StagingInv.configures (h : StagingInv s) (point k : Byte) (a b c : Word32) :
    StagingInv (configurePointOp point k a b c s) := by
  unfold configurePointOp
  split
  · next kind =>
    dsimp only
    split
    · exact h.turnDown _ _ _
    · exact (h.configurePoint _ (kindOperand_charger kind) _).ok _ _ _
  · exact h.turnDown _ _ _

theorem StagingInv.removes (h : StagingInv s) (n : Byte) : StagingInv (removePointOp n s) := by
  unfold removePointOp
  split
  · exact h.turnDown _ _ _
  split
  · exact h.turnDown _ _ _
  split
  · exact h.ok _ _ _
  · exact (h.removeNode _).ok _ _ _

theorem staging_deviceReset (left : List Residue) (s : State) : StagingInv (s.deviceReset left) :=
  reset_staging.of_same rfl rfl rfl rfl

/-- Every command keeps the invariant. Those that touch neither the allocator nor the link do by their frame, those that
reach the waiting queue alone by theirs. -/
theorem exec_staging {c : Instr} (h : StagingInv s) (e : exec c s = .next t) : StagingInv t := by
  cases c with
  | deviceReset left => exact execDeviceReset_next e ▸ staging_deviceReset left s
  | periodClose x =>
    obtain rfl := Host.Outcome.next.inj ((execPeriodClose_eq x s).symm.trans e)
    have metered : StagingInv (s.withCmu (s.cmu.accumulate x)) := h.of_same rfl rfl rfl rfl
    exact metered.closePeriod _
  | allocation => exact Host.Outcome.next.inj e ▸ (h.takeRequest _).allocate _ _
  | dwellEnd =>
    obtain rfl := Host.Outcome.next.inj e
    have ended : StagingInv (s.withAlu { s.alu with dwellOver := true }) := h.of_same rfl rfl rfl rfl
    exact ended.stagingTest
  | reductionAcknowledgement p =>
    obtain rfl := Host.Outcome.next.inj e
    split
    · dsimp only
      split
      · exact (h.takeRequest _).acknowledge p
      · exact h.takeRequest _
    · exact h
  | reductionRequest p => exact Host.Outcome.next.inj e ▸ (h.takeRequest _).stageReduction p
  | frameSend =>
    obtain rfl := Host.Outcome.next.inj e
    split
    · split
      · next formed => exact h.sendFrame formed
      · exact h
    · exact h
  | zeroFrame =>
    obtain rfl := Host.Outcome.next.inj e
    split
    · exact h.of_same rfl rfl rfl rfl
    · exact h
  | replyReceived bytes =>
    obtain rfl := Host.Outcome.next.inj e
    split
    · split
      · exact h.endExchange _ _
      · exact h
    · exact h
  | replyTimeout => exact Host.Outcome.next.inj e ▸ h.cutExchange _
  | replySilence => exact Host.Outcome.next.inj e ▸ h.cutExchange _
  | lengthFieldAbove16 => exact Host.Outcome.next.inj e ▸ h.cutExchange _
  | linkCharacterError error =>
    obtain rfl := Host.Outcome.next.inj e
    cases error <;> exact h.cutExchange _
  | setPolicy p x => exact Host.Outcome.next.inj e ▸ h.onSite (h.setPolicy x) p
  | setSite p _ _ _ _ => exact Host.Outcome.next.inj e ▸ h.onSite (h.setSite _ _ _ _) p
  | setBattery p _ _ _ _ => exact Host.Outcome.next.inj e ▸ h.onSite (h.setBattery _ _ _ _) p
  | setCanopy p _ _ => exact Host.Outcome.next.inj e ▸ h.onSite (h.setCanopy _ _) p
  | configurePoint p _ _ _ _ _ => exact Host.Outcome.next.inj e ▸ h.onSite (h.configures _ _ _ _ _) p
  | removePoint p _ => exact Host.Outcome.next.inj e ▸ h.onSite (h.removes _) p
  | sessionReport _ => exact h.queueOnly (execSessionReport_only e) (execSessionReport_queueOnly e)
  | openingProgram _ => exact h.queueOnly (execOpeningProgram_only e) (execOpeningProgram_queueOnly e)
  | closingProgram _ => exact h.queueOnly (execClosingProgram_only e) (execClosingProgram_queueOnly e)
  | relocation _ => exact h.queueOnly (execRelocation_only e) (execRelocation_queueOnly e)
  | collectProgram _ => exact h.queueOnly (execCollectProgram_only e) (execCollectProgram_queueOnly e)
  | orphanClosing _ => exact h.queueOnly (execOrphanClosing_only e) (execOrphanClosing_queueOnly e)
  | eraseComplete _ => exact h.queueOnly (execEraseComplete_only e) (execEraseComplete_queueOnly e)
  | startupScan _ => exact h.queueOnly (execStartupScan_only e) (execStartupScan_queueOnly e)
  | holdPoint p _ _ =>
    exact Host.Outcome.next.inj e ▸ h.onSite (h.queueOnly (flagCommand_only _ _ _ _) (flagCommand_queueOnly _ _ _ _)) p
  | pauseSession p _ _ =>
    exact Host.Outcome.next.inj e ▸ h.onCharge (h.queueOnly (flagCommand_only _ _ _ _) (flagCommand_queueOnly _ _ _ _)) p
  | closeSession p _ =>
    exact Host.Outcome.next.inj e ▸ h.onCharge (h.queueOnly (closeSessionOp_only _) (closeSessionOp_queueOnly _)) p
  | _ =>
    refine h.of_only (exec_only e) ?_ ?_ <;> simp [commandFields, noticeFields, noticeField_staging]

theorem StagingInv.passMillisecond (h : StagingInv s) : StagingInv s.passMillisecond := by
  refine h.of_same rfl rfl rfl ?_
  show s.flc.passMillisecond.nodes = _
  unfold Flc.passMillisecond
  split <;> rfl

end Sys2Proof.Machine
end

section
/-! SUPPORT. The statement about the staging invariant. -/

open Sys2Proof Sys2Proof.Machine Sys2Proof.Machine.State

/-- Settles O59, command by command, and by the idle millisecond. -/
theorem stagingNeverRaisesBeforeTheRelease : Obligations.StagingNeverRaisesBeforeTheRelease := by
  intro s t inv steps
  unfold step at steps
  split at steps
  · next rest _ =>
    have taken : StagingInv (s.withPending rest) := StagingInv.of_same inv rfl rfl rfl rfl
    exact exec_staging taken steps
  · exact Host.Outcome.next.inj steps ▸ inv.passMillisecond

end


section
/-! SUPPORT. A reduction request, the dwell's end and a reduction acknowledgement (R89 to R92). -/

namespace Sys2Proof.Machine

open Sys2Proof State

set_option Elab.async false

variable {s t : State} {p : Point}

/-! ## The reduction request -/

/-- Handed 0, a point's value is 0; the power with it falls to 0 if the value was not 0, and a value that falls on an ONLINE
node is marked (R89). -/
theorem SendValue.hand_zero (x : SendValue) (online : Bool) : x.hand online 0 0 =
    { value := 0
      power := if x.value = 0 then x.power else 0
      pendingReduction := x.pendingReduction || (online && decide (0 < x.value)) } := by
  unfold SendValue.hand
  by_cases z : x.value = 0
  · rw [if_pos z.symm, if_pos z]
    cases x
    simp_all
  · rw [if_neg (Ne.symm z), if_neg z, Bool.and_comm]

/-- The other points and nodes keep theirs. -/
theorem State.stageReduction_others (s : State) (p : Point) : s.otherNodesSame (pointNode p) (s.stageReduction p) := by
  intro n apart
  rw [stageReduction_node]
  rcases node_cases n with ⟨q, rfl⟩ | station
  · rw [handValue_point, if_neg]
    rintro ⟨rfl, -⟩
    exact apart rfl
  · exact handValues_other s _ n station

theorem State.stageReduction_sequence (s : State) (p : Point) : ((s.stageReduction p).node (pointNode p)).sequence =
    (s.node (pointNode p)).sequence + (if s.alu.points[p].value = 0 then 0 else 1) := by
  rw [stageReduction_node, handValue_point]
  by_cases z : s.alu.points[p].value = 0
  · rw [if_neg (fun both => both.2 z), if_pos z]
    exact (BitVec.add_zero _).symm
  · rw [if_pos ⟨rfl, z⟩, if_neg z]

/-! ## The report of the acknowledgement test -/

theorem Request.allocatorReport_eq_some {x : Request} {y : Byte × Report} :
    x.allocatorReport p = some y ↔ x = .reportToAllocator p y.1 y.2 := by
  cases x with
  | reportToAllocator q echo report =>
    obtain ⟨e, r⟩ := y
    by_cases own : q = p <;> simp [Request.allocatorReport, own]
  | _ => simp [Request.allocatorReport]

/-- Of the requests between units, the first one of the point is taken (R112). -/
theorem State.allocatorReport_first {before after : List Request} {echo : Byte} {report : Report}
    (requests : s.requests = before ++ .reportToAllocator p echo report :: after)
    (noneBefore : ∀ e r, Request.reportToAllocator p e r ∉ before) : s.allocatorReport p = some (echo, report) := by
  have passed : before.findSome? (Request.allocatorReport p) = none :=
    List.findSome?_eq_none_iff.mpr fun x mem => Option.eq_none_iff_forall_ne_some.mpr fun r found =>
      noneBefore r.1 r.2 (Request.allocatorReport_eq_some.mp found ▸ mem)
  have found : s.requests.findSome? (Request.allocatorReport p) = some (echo, report) := by
    have handed := Request.allocatorReport_eq_some (p := p) (y := (echo, report)).mpr rfl
    rw [requests, List.findSome?_append, passed, Option.none_or, List.findSome?_cons_of_isSome (by rw [handed]; rfl)]
    exact handed
  simp only [allocatorReport, found]

theorem execReductionAcknowledgement_none (h : s.allocatorReport p = none) :
    execReductionAcknowledgement p s = .next s := by
  simp only [execReductionAcknowledgement, h]

theorem execReductionAcknowledgement_eq {echo : Byte} {report : Report} (h : s.allocatorReport p = some (echo, report)) :
    execReductionAcknowledgement p s = .next (
      if (s.takeRequest (.reportToAllocator p echo report)).acknowledges p echo
      then (s.takeRequest (.reportToAllocator p echo report)).acknowledge p
      else s.takeRequest (.reportToAllocator p echo report)) := by
  simp only [execReductionAcknowledgement, h]

theorem State.acknowledges_iff (s : State) (p : Point) (echo : Byte) : s.acknowledges p echo = true ↔
    s.alu.points[p].pendingReduction = true ∧ echo = (s.node (pointNode p)).sequence ∧
      (s.node (pointNode p)).sentValue = s.alu.points[p].value := by
  simp [acknowledges, and_assoc]

/-! ## The acknowledgement -/

/-- The allocator with the point's reduction acknowledged: its mark cleared, a dwell of the T_dwell in force started (R89,
R90). -/
def State.acknowledgedAlu (s : State) (p : Point) : Alu :=
  { s.alu with
    points := s.alu.points.set p { s.alu.points[p] with pendingReduction := false }
    lastAck := some s.now, dwellLength := s.alu.tDwell, dwellOver := false }

theorem State.acknowledge_eq (s : State) (p : Point) : s.acknowledge p = (s.withAlu (s.acknowledgedAlu p)).stagingTest :=
  rfl

/-- The marks of the other points stand. -/
theorem State.acknowledgedAlu_anyPending (s : State) (p : Point) : (s.acknowledgedAlu p).anyPending = true ↔
    ∃ q : Point, q ≠ p ∧ s.alu.points[q].pendingReduction = true := by
  rw [Alu.anyPending_iff]
  refine exists_congr fun q => ?_
  by_cases own : q = p
  · subst own
    simp [acknowledgedAlu]
  · have apart : (p : Nat) ≠ q := fun same => own (Fin.ext same.symm)
    simp [acknowledgedAlu, Vector.getElem_set_ne _ _ apart, own]

/-- The dwell just started has passed only if its length is 0. -/
theorem State.acknowledgedAlu_dwellPassed (s : State) (p : Point) :
    (s.withAlu (s.acknowledgedAlu p)).dwellPassed = true ↔ s.alu.tDwell = 0 := by
  have now : (s.withAlu (s.acknowledgedAlu p)).now = s.now := rfl
  rw [dwellPassed_iff, withAlu_alu, now]
  simp [acknowledgedAlu]

/-- The end of the dwell is the staging test with the dwell over (R90). -/
theorem State.dwellOver_passed (s : State) : (s.withAlu { s.alu with dwellOver := true }).dwellPassed = true :=
  (dwellPassed_iff _).mpr (.inl rfl)

/-- The staging test touches the values, the staging state and K alone. -/
theorem State.stagingTest_alu (s : State) : s.stagingTest.alu = { s.alu with
    points := s.stagingTest.alu.points, staging := s.stagingTest.alu.staging, k := s.stagingTest.alu.k } := by
  by_cases released : s.alu.staging = .released
  · rw [stagingTest_released released]
  by_cases pending : s.alu.anyPending = true
  · rw [stagingTest_reducing released pending]
    rfl
  by_cases passed : s.dwellPassed = true
  · rw [stagingTest_release released pending passed]
    exact s.releaseRaises_alu.kept
  · rw [stagingTest_dwelling released pending passed]
    rfl

/-! The four cases of the staging test of an allocator put in place (R90), as the statement reads them. -/

variable {a : Alu}

theorem State.tested_released (h : a.staging = .released) :
    (s.withAlu a).stagingTest.alu = a ∧ (s.withAlu a).stagingTest.flc = s.flc := by
  rw [stagingTest_released (v := s.withAlu a) h]
  exact ⟨rfl, rfl⟩

theorem State.tested_reducing (h : a.staging ≠ .released) (pending : a.anyPending = true) :
    (s.withAlu a).stagingTest.alu = { a with staging := .reducing } ∧ (s.withAlu a).stagingTest.flc = s.flc := by
  rw [stagingTest_reducing (v := s.withAlu a) h pending]
  exact ⟨rfl, rfl⟩

theorem State.tested_dwelling (h : a.staging ≠ .released) (none : ¬a.anyPending = true)
    (runs : ¬(s.withAlu a).dwellPassed = true) :
    (s.withAlu a).stagingTest.alu = { a with staging := .dwelling } ∧ (s.withAlu a).stagingTest.flc = s.flc := by
  rw [stagingTest_dwelling (v := s.withAlu a) h none runs]
  exact ⟨rfl, rfl⟩

theorem State.tested_release (h : a.staging ≠ .released) (none : ¬a.anyPending = true)
    (passed : (s.withAlu a).dwellPassed = true) : (s.withAlu a).ReleasedInto (s.withAlu a).stagingTest := by
  rw [stagingTest_release (v := s.withAlu a) h none passed]
  exact releaseRaises_into _

end Sys2Proof.Machine
end

section
/-! SUPPORT. The statements about the reduction request, the dwell and the acknowledgements. -/

open Sys2Proof Sys2Proof.Machine Sys2Proof.Machine.State

/-- Settles O20: the request taken, its point handed 0 with its entry replaced, and the staging state looked at again. -/
theorem reductionRequestsStageOnePointToZero : Obligations.ReductionRequestsStageOnePointToZero := by
  intro p s
  have changes := execReductionRequest_only (p := p) (s := s) rfl
  have alu := (s.takeRequest (.reduction p)).stageReduction_alu p
  have others := (s.takeRequest (.reduction p)).stageReduction_others p
  have sequence := (s.takeRequest (.reduction p)).stageReduction_sequence p
  have flc := (s.takeRequest (.reduction p)).stageReduction_flc p
  have same := (s.takeRequest (.reduction p)).stageReduction_node p (pointNode p)
  rw [Alu.restage_eq, SendValue.hand_zero] at alu
  refine ⟨_, rfl, changes, rfl, ?_⟩
  generalize (s.takeRequest (.reduction p)).stageReduction p = t at *
  have points : t.alu.points = s.alu.points.set p
      { value := 0
        power := if s.alu.points[p].value = 0 then s.alu.points[p].power else 0
        pendingReduction := s.alu.points[p].pendingReduction || (s.online p && decide (0 < s.alu.points[p].value)) } := by
    rw [alu]
    rfl
  have entries : t.alu.set.entries = s.alu.set.entries.set p (s.reducedEntry p) := by
    rw [alu]
    rfl
  have staging : t.alu.staging =
      if s.alu.staging ≠ .released ∧ t.alu.anyPending = true then .reducing else s.alu.staging := by
    rw [alu]
    rfl
  have kept : t.alu = { s.alu with
      points := t.alu.points, set := { s.alu.set with entries := t.alu.set.entries }, staging := t.alu.staging } := by
    rw [alu]
    rfl
  have point : t.alu.points[p] = _ := (congrArg (·[p]) points).trans (Vector.getElem_set_self _)
  have entry : t.alu.set.entries[p] = s.reducedEntry p := (congrArg (·[p]) entries).trans (Vector.getElem_set_self _)
  simp only [Alu.anyPending_iff] at staging
  refine ⟨by rw [kept], by rw [kept], by rw [kept], by rw [point], by rw [entry]; rfl, by rw [entry]; rfl,
    by rw [entry]; rfl, by rw [point], sequence, fun q apart => ?_, others, fun released => ?_, fun staged pending => ?_,
    fun none => ?_, fun value => ?_, fun value => ?_, by rw [entry]; rfl, kept, ?_, ?_⟩
  · have apart : (p : Nat) ≠ q := fun same => apart (Fin.ext same.symm)
    rw [points, entries]
    exact ⟨Vector.getElem_set_ne _ _ apart, Vector.getElem_set_ne _ _ apart⟩
  · rw [staging, if_neg fun both => both.1 released, released]
  · rw [staging, if_pos ⟨staged, pending⟩]
  · rw [staging, if_neg]
    rintro ⟨-, q, pending⟩
    rw [none] at pending
    nomatch pending
  · rw [point]
    exact if_neg value
  · rw [point]
    exact if_pos value
  · rw [flc]
    rfl
  · rw [same]
    exact handValues_node _ _ _

/-- Settles O19: each clause is a case of the staging test. -/
theorem acknowledgementsAndTheDwellReleaseTheRaises : Obligations.AcknowledgementsAndTheDwellReleaseTheRaises := by
  refine ⟨fun s => ?_, fun p s => ⟨execReductionAcknowledgement_none, fun _ _ _ _ => allocatorReport_first⟩,
    fun p s echo report found => ?_⟩
  · refine ⟨_, rfl, execDwellEnd_only rfl, by rw [stagingTest_alu]; rfl,
      tested_released (a := { s.alu with dwellOver := true }), tested_reducing (a := { s.alu with dwellOver := true }),
      fun staged clear => ?_⟩
    exact tested_release staged (fun waits => nomatch (clear.symm.trans waits : false = true)) s.dwellOver_passed
  · have exec := execReductionAcknowledgement_eq found
    have changes := execReductionAcknowledgement_only exec
    have test := (s.takeRequest (.reportToAllocator p echo report)).acknowledges_iff p echo
    refine ⟨_, exec, changes, ?_, fun missed => ?_, fun taken => ?_⟩
    · split
      · exact stagingTest_only .requests (by decide)
      · rfl
    · rw [if_neg fun met => missed (test.mp met)]
      exact ⟨rfl, rfl⟩
    · rw [if_pos (test.mpr taken), acknowledge_eq]
      have more := s.acknowledgedAlu_anyPending p
      have passed := (s.takeRequest (.reportToAllocator p echo report)).acknowledgedAlu_dwellPassed p
      refine ⟨tested_released (a := s.acknowledgedAlu p), fun staged waits => ?_, fun staged clear dwells => ?_,
        fun staged clear zero => ?_⟩
      · exact tested_reducing (a := s.acknowledgedAlu p) staged (more.mpr waits)
      · exact tested_dwelling (a := s.acknowledgedAlu p) staged (fun waits => clear (more.mp waits))
          fun ended => (Nat.pos_iff_ne_zero.mp dwells) (passed.mp ended)
      · have freed := tested_release (a := s.acknowledgedAlu p) staged (fun waits => clear (more.mp waits))
          (passed.mpr zero)
        exact ⟨freed.alu, freed.link, freed.others, freed.sequences⟩

end


section
/-! SUPPORT. An allocation at the allocator and the link: the budget it takes, the set it forms, its staging (R77, R88 to
R90, R93, R108). -/

namespace Sys2Proof.Machine

open Sys2Proof State

set_option Elab.async false

variable {s : State} {p : Point} {ps : List Point} {b : Nat}

/-! ## The budget taken -/

theorem Request.budgetArrival_eq_some {x : Request} {y : Nat × Bool} :
    x.budgetArrival = some y ↔ x = .budget y.1 y.2 := by
  cases x <;> simp [Request.budgetArrival, Prod.ext_iff]

/-- With no budget in the list, none is found. -/
theorem findSome?_budgetArrival_none {requests : List Request} (h : ∀ x y, Request.budget x y ∉ requests) :
    requests.findSome? Request.budgetArrival = none := by
  refine List.findSome?_eq_none_iff.mpr fun x mem => Option.eq_none_iff_forall_ne_some.mpr fun y found => ?_
  exact h y.1 y.2 (Request.budgetArrival_eq_some.mp found ▸ mem)

theorem State.takesBudget (s : State) : s.TakesBudget where
  first before b counts after requests noneBefore := by
    have found : s.requests.findSome? Request.budgetArrival = some (b, counts) := by
      rw [requests, List.findSome?_append, findSome?_budgetArrival_none noneBefore]
      rfl
    simp only [budgetToTake, found, Option.getD_some]
  none noneWaits := by
    simp only [budgetToTake, findSome?_budgetArrival_none noneWaits, Option.getD_none]

/-! ## The request taken off the list changes nothing an allocation reads -/

@[simp] theorem State.takeRequest_admitted (r : Request) (b : Nat) : (s.takeRequest r).admitted b = s.admitted b := rfl

@[simp] theorem State.takeRequest_newEntry (r : Request) (ps : List Point) (b : Nat) :
    (s.takeRequest r).newEntry ps b = s.newEntry ps b := rfl

theorem execAllocation_eq (s : State) : execAllocation s =
    .next ((s.takeRequest (.budget s.budgetToTake.1 s.budgetToTake.2)).allocate s.budgetToTake.1 s.budgetToTake.2) := rfl

/-! ## The staging test of a set not yet released -/

/-- The staging state the test leaves (R90). -/
theorem State.stagingTest_staging (h : s.alu.staging ≠ .released) : s.stagingTest.alu.staging =
    if s.alu.anyPending = true then .reducing else if s.dwellPassed = true then .released else .dwelling := by
  split
  · next pending => rw [stagingTest_reducing h pending, withAlu_alu]
  · next none =>
    split
    · next passed => rw [stagingTest_release h none passed, s.releaseRaises_alu.staging]
    · next runs => rw [stagingTest_dwelling h none runs, withAlu_alu]

/-- The test leaves a set RELEASED by the release alone. -/
theorem State.stagingTest_of_released (h : s.alu.staging ≠ .released) (released : s.stagingTest.alu.staging = .released) :
    s.stagingTest = s.releaseRaises := by
  by_cases pending : s.alu.anyPending = true
  · rw [stagingTest_reducing h pending, withAlu_alu] at released
    nomatch released
  by_cases passed : s.dwellPassed = true
  · exact stagingTest_release h pending passed
  · rw [stagingTest_dwelling h pending passed, withAlu_alu] at released
    nomatch released

/-- A test that does not release moves the staging state alone. -/
theorem State.stagingTest_of_staged (h : s.alu.staging ≠ .released) (staged : s.stagingTest.alu.staging ≠ .released) :
    s.stagingTest = s.withAlu { s.alu with staging := s.stagingTest.alu.staging } := by
  by_cases pending : s.alu.anyPending = true
  · rw [stagingTest_reducing h pending, withAlu_alu]
  by_cases passed : s.dwellPassed = true
  · rw [stagingTest_release h pending passed] at staged
    exact absurd s.releaseRaises_alu.staging staged
  · rw [stagingTest_dwelling h pending passed, withAlu_alu]

/-! ## The set formed and tested -/

/-- A fall of the value on an ONLINE node marks the point (R89). -/
theorem SendValue.hand_pending (x : SendValue) (online : Bool) (value power : Nat) :
    (x.hand online value power).pendingReduction = (x.pendingReduction || (online && decide (value < x.value))) := by
  unfold SendValue.hand
  split
  · next same => simp [same]
  · rw [Bool.and_comm]

theorem State.powerOf_eq (s : State) (p : Point) (value : Nat) : s.powerOf p value = s.wattsOf p value := by
  unfold powerOf wattsOf setPointPower
  cases (s.node (pointNode p)).kind <;> simp

theorem State.placeSet_now (s : State) (ps : List Point) (b : Nat) : (s.placeSet ps b).now = s.now := by
  simp only [now, placeSet, handEntries, handValues, withAlu_ssu, withFlc_ssu]

theorem State.placeSet_staging (s : State) (ps : List Point) (b : Nat) : (s.placeSet ps b).alu.staging ≠ .released := by
  rw [placeSet_alu]
  exact fun released => nomatch released

/-- The value a point is handed at formation. -/
def State.formedValue (s : State) (ps : List Point) (b : Nat) (p : Point) : Nat :=
  if (s.newEntry ps b p).mark = .raised then (s.node (pointNode p)).sentValue.toNat else s.target ps b p

/-- A target withheld is above the value sent in its place. -/
theorem State.formedValue_le_target (s : State) (ps : List Point) (b : Nat) (p : Point) :
    s.formedValue ps b p ≤ s.target ps b p := by
  unfold formedValue
  split
  · next raised =>
    rw [newEntry_mark] at raised
    split at raised
    · nomatch raised
    split at raised
    · nomatch raised
    split at raised
    · nomatch raised
    omega
  · exact Nat.le_refl _

theorem State.formed_point (s : State) (ps : List Point) (b : Nat) (p : Point) : (s.placeSet ps b).alu.points[p] =
    s.alu.points[p].hand (s.online p) (s.formedValue ps b p) (s.wattsOf p (s.formedValue ps b p)) := by
  rw [placeSet_point, entryValue_power, entryValue_value, powerOf_eq, formedValue]

/-- The point after the release of a set just formed: a RAISE entry hands it the target, and never lower than what the
formation handed it, so no mark is set. -/
theorem State.released_point (s : State) (ps : List Point) (b : Nat) (p : Point) :
    (s.placeSet ps b).releaseRaises.alu.points[p] =
      if s.target ps b p = s.formedValue ps b p then (s.placeSet ps b).alu.points[p]
      else { value := s.target ps b p, power := s.wattsOf p (s.target ps b p)
             pendingReduction := (s.placeSet ps b).alu.points[p].pendingReduction } := by
  have handed := (s.placeSet ps b).releaseRaises_alu.values p
  have below := s.formedValue_le_target ps b p
  have value : (s.placeSet ps b).alu.points[p].value = s.formedValue ps b p := by rw [formed_point, SendValue.hand_value]
  have target : (s.newEntry ps b p).target = s.target ps b p := rfl
  have left : (s.newEntry ps b p).leftOnline = false := rfl
  have power : (s.newEntry ps b p).power = s.wattsOf p (s.target ps b p) := s.powerOf_eq p _
  rw [handed, placeSet_entry, value, target, left, power]
  by_cases kept : s.target ps b p = s.formedValue ps b p
  · rw [if_pos kept, if_neg fun both => both.2.2 kept]
  · have raised : (s.newEntry ps b p).mark = .raised := by
      by_contra other
      exact kept (if_neg other).symm
    rw [if_neg kept, if_pos ⟨raised, rfl, kept⟩]
    simp [Nat.not_lt.mpr below]

theorem State.formSet_pending (s : State) (ps : List Point) (b : Nat) (p : Point) :
    (s.formSet ps b).alu.points[p].pendingReduction = (s.placeSet ps b).alu.points[p].pendingReduction := by
  rw [formSet_eq]
  by_cases released : (s.placeSet ps b).stagingTest.alu.staging = .released
  · rw [stagingTest_of_released (s.placeSet_staging ps b) released, released_point]
    rw [apply_ite SendValue.pendingReduction, ite_self]
  · rw [stagingTest_of_staged (s.placeSet_staging ps b) released, withAlu_alu]

/-- The value to send is the target once the set is released, till then what the formation handed out (R89, R91). -/
theorem State.formSet_value (s : State) (ps : List Point) (b : Nat) (p : Point) :
    (s.formSet ps b).alu.points[p].value =
      if (s.formSet ps b).alu.staging = .released then s.target ps b p else s.formedValue ps b p := by
  have value : (s.placeSet ps b).alu.points[p].value = s.formedValue ps b p := by rw [formed_point, SendValue.hand_value]
  rw [formSet_eq]
  by_cases released : (s.placeSet ps b).stagingTest.alu.staging = .released
  · rw [if_pos released, stagingTest_of_released (s.placeSet_staging ps b) released, released_point]
    split
    · next same => rw [value, same]
    · rfl
  · rw [if_neg released, stagingTest_of_staged (s.placeSet_staging ps b) released, withAlu_alu]
    exact value

/-- A value that changes comes with its power. -/
theorem State.formSet_power (changed : (s.formSet ps b).alu.points[p].value ≠ s.alu.points[p].value) :
    (s.formSet ps b).alu.points[p].power = s.wattsOf p (s.formSet ps b).alu.points[p].value := by
  have placed (changed : (s.placeSet ps b).alu.points[p].value ≠ s.alu.points[p].value) :
      (s.placeSet ps b).alu.points[p].power = s.wattsOf p (s.placeSet ps b).alu.points[p].value := by
    rw [formed_point, SendValue.hand_value] at changed
    rw [formed_point, SendValue.hand_value, SendValue.hand, if_neg changed]
  rw [formSet_eq] at changed ⊢
  by_cases released : (s.placeSet ps b).stagingTest.alu.staging = .released
  · rw [stagingTest_of_released (s.placeSet_staging ps b) released, released_point] at changed ⊢
    split
    · next same =>
      rw [if_pos same] at changed
      exact placed changed
    · rfl
  · rw [stagingTest_of_staged (s.placeSet_staging ps b) released, withAlu_alu] at changed ⊢
    exact placed changed

/-- Each change counts one in the sequence: the formation's and the release's (R108). -/
theorem State.formSet_sequence (s : State) (ps : List Point) (b : Nat) (p : Point) :
    ((s.formSet ps b).node (pointNode p)).sequence = (s.node (pointNode p)).sequence +
      (if s.formedValue ps b p = s.alu.points[p].value then 0 else 1) +
      (if (s.formSet ps b).alu.points[p].value = s.formedValue ps b p then 0 else 1) := by
  have formed : ((s.placeSet ps b).node (pointNode p)).sequence = (s.node (pointNode p)).sequence +
      (if s.formedValue ps b p = s.alu.points[p].value then 0 else 1) := by
    rw [placeSet_node, handEntries, handValues_point, entryValue_value, ← formedValue]
    split
    · exact (BitVec.add_zero _).symm
    · rfl
  have value : (s.placeSet ps b).alu.points[p].value = s.formedValue ps b p := by rw [formed_point, SendValue.hand_value]
  rw [formSet_eq, stagingTest_sequences, value, ← formed]
  split
  · exact (BitVec.add_zero _).symm
  · rfl

theorem State.formSet_staging (s : State) (ps : List Point) (b : Nat) : (s.formSet ps b).alu.staging =
    if ∃ p : Point, (s.formSet ps b).alu.points[p].pendingReduction = true then .reducing
    else if s.alu.dwellOver = true ∨ ∀ ack ∈ s.alu.lastAck, ack + s.alu.dwellLength ≤ s.now then .released
    else .dwelling := by
  simp only [formSet_pending, ← Alu.anyPending_iff]
  have passed : (s.placeSet ps b).dwellPassed = true ↔
      s.alu.dwellOver = true ∨ ∀ ack ∈ s.alu.lastAck, ack + s.alu.dwellLength ≤ s.now := by
    rw [dwellPassed_iff, placeSet_now, placeSet_alu]
  rw [formSet_eq, stagingTest_staging (s.placeSet_staging ps b)]
  simp only [passed]

/-- K takes the budget with the release (R91). -/
theorem State.formSet_k (s : State) (ps : List Point) (b : Nat) :
    (s.formSet ps b).alu.k = if (s.formSet ps b).alu.staging = .released then b else s.alu.k := by
  have alu := s.placeSet_alu ps b
  rw [formSet_eq]
  by_cases released : (s.placeSet ps b).stagingTest.alu.staging = .released
  · rw [if_pos released, stagingTest_of_released (s.placeSet_staging ps b) released, releaseRaises_alu _ |>.committed, alu]
  · rw [if_neg released, stagingTest_of_staged (s.placeSet_staging ps b) released, withAlu_alu, alu]

/-- The set in force is the set formed. -/
theorem State.formSet_set (s : State) (ps : List Point) (b : Nat) : (s.formSet ps b).alu.set =
    { number := s.alu.set.number + 1, budget := b, entries := Vector.ofFn (s.newEntry ps b) } := by
  rw [formSet_eq, stagingTest_alu, placeSet_alu]

theorem State.formSet_alu (s : State) (ps : List Point) (b : Nat) : (s.formSet ps b).alu = { s.alu with
    set := (s.formSet ps b).alu.set, points := (s.formSet ps b).alu.points
    staging := (s.formSet ps b).alu.staging, k := (s.formSet ps b).alu.k } := by
  have tested := (s.placeSet ps b).stagingTest_alu
  have placed := s.placeSet_alu ps b
  rw [← formSet_eq] at tested
  rw [placed] at tested
  have set := s.formSet_set ps b
  rw [set]
  exact tested

/-- The formation and its staging test leave the link its exchange and its timers. -/
theorem State.formSet_flc (s : State) (ps : List Point) (b : Nat) :
    { (s.formSet ps b).flc with nodes := s.flc.nodes } = s.flc := by
  rw [formSet_eq, (s.placeSet ps b).stagingTest_flc.1, placeSet_flc, handEntries, handValues_flc]

/-- Of a node they change its sequence at most. -/
theorem State.formSet_node (s : State) (ps : List Point) (b : Nat) (n : Fin 26) :
    { (s.formSet ps b).node n with sequence := 0 } = { s.node n with sequence := 0 } := by
  rw [formSet_eq, (s.placeSet ps b).stagingTest_flc.2, placeSet_sequence]

theorem State.formSet_others (s : State) (ps : List Point) (b : Nat) {n : Fin 26} (station : 24 ≤ n.val) :
    (s.formSet ps b).node n = s.node n := by
  rw [formSet_eq, stagingTest_others _ _ station, placeSet_node, handEntries, handValues_other s _ n station]

theorem State.allocate_node (s : State) (b : Nat) (counts : Bool) (n : Fin 26) :
    (s.allocate b counts).node n = (s.formSet (s.admitted b) b).node n := by
  rw [node, allocate_flc, node]

end Sys2Proof.Machine
end

section
/-! SUPPORT. The statement about the formation of a grant set. -/

open Sys2Proof Sys2Proof.Machine Sys2Proof.Machine.State

/-- Settles O14: the set formed against the budget taken, and its staging test. -/
theorem allocationFormsANewGrantSet : Obligations.AllocationFormsANewGrantSet := by
  intro s
  have changes := execAllocation_only (execAllocation_eq s)
  refine ⟨s.takesBudget, _, execAllocation_eq s, changes, ?_⟩
  generalize s.budgetToTake = taken
  obtain ⟨b, counts⟩ := taken
  dsimp only
  have alu := (s.takeRequest (.budget b counts)).allocate_alu b counts
  have flc := (s.takeRequest (.budget b counts)).allocate_flc b counts
  have node := (s.takeRequest (.budget b counts)).allocate_node b counts
  have requests : ((s.takeRequest (.budget b counts)).allocate b counts).requests = s.requests.erase (.budget b counts) :=
    allocate_only b counts .requests (by decide)
  generalize (s.takeRequest (.budget b counts)).allocate b counts = t at alu flc node requests
  rw [takeRequest_admitted] at alu flc node
  generalize s.admitted b = ps at *
  have kept := (s.takeRequest (.budget b counts)).formSet_alu ps b
  have set := (s.takeRequest (.budget b counts)).formSet_set ps b
  have staging := (s.takeRequest (.budget b counts)).formSet_staging ps b
  have k := (s.takeRequest (.budget b counts)).formSet_k ps b
  have value := (s.takeRequest (.budget b counts)).formSet_value ps b
  have power (p : Point) := formSet_power (s := s.takeRequest (.budget b counts)) (ps := ps) (b := b) (p := p)
  have pending := (s.takeRequest (.budget b counts)).formSet_pending ps b
  have point := (s.takeRequest (.budget b counts)).formed_point ps b
  have sequence := (s.takeRequest (.budget b counts)).formSet_sequence ps b
  have sameLink := (s.takeRequest (.budget b counts)).formSet_flc ps b
  have sameNode := (s.takeRequest (.budget b counts)).formSet_node ps b
  have others (n : Fin 26) := (s.takeRequest (.budget b counts)).formSet_others ps b (n := n)
  generalize (s.takeRequest (.budget b counts)).formSet ps b = f at *
  simp only [← node, ← flc] at sequence sameLink sameNode others
  have points : t.alu.points = f.alu.points := by rw [alu]
  have state : t.alu.staging = f.alu.staging := by rw [alu]
  have set : t.alu.set = { number := s.alu.set.number + 1, budget := b, entries := Vector.ofFn (s.newEntry ps b) } := by
    rw [alu]
    exact set
  have entry (p : Point) : t.alu.set.entries[p] = s.newEntry ps b p := by simp [set]
  simp only [← points, ← state] at staging k value power pending sequence
  refine ⟨sameLink, sameNode, others, ?_, requests, by rw [set], by rw [set], staging, ?_, fun p => ?_⟩
  · rw [alu, kept]
    rfl
  · have same : t.alu.k = f.alu.k := by rw [alu]
    exact same.trans k
  · rw [entry p]
    refine ⟨rfl, s.powerOf_eq p _, rfl, ?_, value p, power p, ?_, sequence p⟩
    · exact s.newEntry_mark ps b p
    · rw [pending, point, SendValue.hand_pending]
      rfl

end


section
/-! SUPPORT. The target of a grant: the largest set point whose power the grant covers (R86, R87). -/

namespace Sys2Proof.Machine

open Sys2Proof State

set_option Elab.async false

variable {s : State} {p : Point} {g value vNom : Nat} {n : Node}

/-! ## AC points -/

/-- An AC set point has one power formula for one and three phases (Conventions). -/
theorem State.wattsOf_ac (ac : (s.node (pointNode p)).kind = .ac1 ∨ (s.node (pointNode p)).kind = .ac3) (value : Nat) :
    s.wattsOf p value = value * ((s.node (pointNode p)).kind.phases * s.site.vNom) / 10 := by
  unfold wattsOf
  rcases ac with one | three
  · simp [one, NodeKind.phases]
  · simp [three, NodeKind.phases, Nat.mul_assoc]

theorem Node.targetOf_ac (ac : n.kind = .ac1 ∨ n.kind = .ac3) (granted : 0 < g) :
    n.targetOf vNom g = min n.maximum ((10 * g + 9) / (n.kind.phases * vNom)) := by
  unfold targetOf
  rw [if_neg granted.ne']
  rcases ac with one | three
  · rw [one]
  · rw [three]

theorem NodeKind.phases_pos {kind : NodeKind} (ac : kind = .ac1 ∨ kind = .ac3) : 0 < kind.phases := by
  rcases ac with rfl | rfl <;> decide

/-- The AC target is the largest set point not above the maximum whose power the grant covers (R86). -/
theorem State.le_targetOf_iff (ac : (s.node (pointNode p)).kind = .ac1 ∨ (s.node (pointNode p)).kind = .ac3)
    (voltage : 0 < s.site.vNom) (granted : 0 < g) :
    value ≤ (s.node (pointNode p)).targetOf s.site.vNom g ↔
      value ≤ (s.node (pointNode p)).maximum ∧ s.wattsOf p value ≤ g := by
  have step := Nat.mul_pos (NodeKind.phases_pos ac) voltage
  rw [Node.targetOf_ac ac granted, wattsOf_ac ac, le_min_iff, Nat.le_div_iff_mul_le step]
  generalize value * _ = watts
  omega

/-- The power of the clamped minimum is the point's minimum (R78). -/
theorem State.wattsOf_minimum (ac : (s.node (pointNode p)).kind = .ac1 ∨ (s.node (pointNode p)).kind = .ac3) :
    s.wattsOf p (min (s.node (pointNode p)).minimum (s.node (pointNode p)).maximum) = s.minPower p := by
  unfold wattsOf minPower
  rcases ac with one | three
  · rw [if_pos one, (Node.powers_ac1 _ one).2]
  · rw [if_neg (by rw [three]; decide), if_pos three, (Node.powers_ac3 _ three).2]

/-! ## Every kind -/

@[simp] theorem State.wattsOf_zero (s : State) (p : Point) : s.wattsOf p 0 = 0 := by
  simp [wattsOf]

@[simp] theorem Node.targetOf_zero (n : Node) (vNom : Nat) : n.targetOf vNom 0 = 0 := if_pos rfl

theorem State.wattsOf_dc (dc : (s.node (pointNode p)).kind = .dc) (value : Nat) : s.wattsOf p value = 100 * value := by
  unfold wattsOf
  simp [dc]

theorem Node.targetOf_dc (dc : n.kind = .dc) : n.targetOf vNom g = g / 100 := by
  unfold targetOf
  rw [dc]
  split
  · next none => rw [none]
  · rfl

/-! ## The entries of an allocation -/

theorem State.allocate_entry (s : State) (b : Nat) (counts : Bool) (p : Point) :
    (s.allocate b counts).alu.set.entries[p] = s.newEntry (s.admitted b) b p := by
  have alu := s.allocate_alu b counts
  have set : (s.allocate b counts).alu.set = (s.formSet (s.admitted b) b).alu.set := by rw [alu]
  simp [set, formSet_set]

theorem State.target_online (on : s.online p = true) (ps : List Point) (b : Nat) :
    s.target ps b p = (s.node (pointNode p)).targetOf s.site.vNom (s.grantOf ps b p) := by
  rw [target, if_pos on]

end Sys2Proof.Machine
end

section
/-! SUPPORT. The statement about the targets. -/

open Sys2Proof Sys2Proof.Machine Sys2Proof.Machine.State

/-- Settles O18: an AC target by the bound its quotient keeps, a DC target by its definition. -/
theorem targetsAreTheLargestSetPointsTheGrantCovers : Obligations.TargetsAreTheLargestSetPointsTheGrantCovers := by
  intro s p value
  dsimp only
  intro voltage on
  refine ⟨_, execAllocation_eq s, ?_⟩
  rw [allocate_entry, takeRequest_admitted, takeRequest_newEntry]
  generalize s.budgetToTake.1 = b
  have target : (s.newEntry (s.admitted b) b p).target = _ := target_online on (s.admitted b) b
  have power : (s.newEntry (s.admitted b) b p).power = s.wattsOf p (s.newEntry (s.admitted b) b p).target := s.powerOf_eq p _
  rw [power, target]
  generalize s.grantOf (s.admitted b) b p = g
  refine ⟨fun none => ?_, fun ac granted => ?_, fun dc => ?_⟩
  · simp [none]
  · have largest {v : Nat} := le_targetOf_iff (value := v) ac voltage granted
    obtain ⟨below, covered⟩ := largest.mp (Nat.le_refl _)
    exact ⟨below, covered, rfl, fun fits covers => largest.mpr ⟨fits, covers⟩,
      fun minimum => largest.mpr ⟨min_le_right _ _, (wattsOf_minimum ac).trans_le minimum⟩⟩
  · rw [Node.targetOf_dc dc, wattsOf_dc dc]
    exact ⟨rfl, rfl⟩

end


section
/-! SUPPORT. The sharing of a power among a group of sessions (R78, R83 to R85). -/

namespace Sys2Proof.Machine

open Sys2Proof State

set_option Elab.async false

variable {s : State} {p : Point} {ps : List Point} {w : Point → Nat} {b : Nat}

/-! ## The level found bit by bit -/

/-- With a level that fits at the start and one that does not at the end, the search ends on a level that fits with the next
one not fitting. -/
theorem searchLevel_boundary {fits : Nat → Bool} : ∀ {k start : Nat}, fits start = true →
    fits (start + 2 ^ k) = false → fits (searchLevel fits k start) = true ∧ fits (searchLevel fits k start + 1) = false := by
  intro k
  induction k with
  | zero =>
    intro start low high
    exact ⟨low, high⟩
  | succ k ih =>
    intro start low high
    unfold searchLevel
    split
    · next half =>
      refine ih half ?_
      rwa [Nat.add_assoc, ← Nat.two_mul, ← Nat.pow_succ']
    · next half => exact ih low (by simpa using half)

/-! ## Shares -/

theorem shareAt_le {m c : Nat} (h : m ≤ c) (w level : Nat) : shareAt m c w level ≤ c := max_le h (min_le_left _ _)

theorem le_shareAt (m c w level : Nat) : m ≤ shareAt m c w level := le_max_left _ _

theorem shareAt_zero (m c w : Nat) : shareAt m c w 0 = m := by
  unfold shareAt clampTo
  omega

theorem shareAt_mono (m c w : Nat) {x y : Nat} (h : x ≤ y) : shareAt m c w x ≤ shareAt m c w y :=
  max_le_max (Nat.le_refl _) (min_le_min (Nat.le_refl _) (Nat.mul_le_mul (Nat.le_refl _) h))

/-- At a level not under the ceiling the share is the ceiling. -/
theorem shareAt_top {m c w level : Nat} (h : m ≤ c) (weight : 1 ≤ w) (high : c ≤ level) : shareAt m c w level = c := by
  have reached : c ≤ w * level := high.trans (Nat.le_mul_of_pos_left _ weight)
  unfold shareAt clampTo
  omega

theorem State.shareSum_zero (s : State) (w : Point → Nat) (ps : List Point) :
    s.shareSum w ps 0 = (ps.map s.minPower).sum := by
  simp only [shareSum, shareAt_zero]

theorem State.shareSum_mono (s : State) (w : Point → Nat) (ps : List Point) {x y : Nat} (h : x ≤ y) :
    s.shareSum w ps x ≤ s.shareSum w ps y :=
  List.sum_le_sum fun _ _ => shareAt_mono _ _ _ h

theorem State.shareSum_top {level : Nat} (minimums : ∀ p ∈ ps, s.minPower p ≤ s.shareCeiling p)
    (weights : ∀ p ∈ ps, 1 ≤ w p) (high : ∀ p ∈ ps, s.shareCeiling p ≤ level) :
    s.shareSum w ps level = (ps.map s.shareCeiling).sum :=
  congrArg List.sum (List.map_congr_left fun p mem => shareAt_top (minimums p mem) (weights p mem) (high p mem))

/-! ## A group shared -/

/-- What a group must meet to be shared: minimums under the ceilings that fit what is shared, and weights not 0. -/
structure State.Sharable (s : State) (w : Point → Nat) (ps : List Point) (b : Nat) : Prop where
  minimums : ∀ p ∈ ps, s.minPower p ≤ s.shareCeiling p
  weights : ∀ p ∈ ps, 1 ≤ w p
  fits : (ps.map s.minPower).sum ≤ b

/-- When the ceilings do not fit, the level's shares do and the next one's do not. -/
theorem State.Sharable.level (h : s.Sharable w ps b) (short : b < (ps.map s.shareCeiling).sum) :
    s.shareSum w ps (s.level w ps b) ≤ b ∧ b < s.shareSum w ps (s.level w ps b + 1) := by
  have low : decide (s.shareSum w ps 0 ≤ b) = true := by
    rw [shareSum_zero]
    exact decide_eq_true h.fits
  have high : decide (s.shareSum w ps (0 + 2 ^ (Nat.log2 ((ps.map s.shareCeiling).foldl max 0) + 1)) ≤ b) = false := by
    refine decide_eq_false (Nat.not_le.mpr ?_)
    rw [shareSum_top h.minimums h.weights fun p mem => ?_]
    · exact short
    · have bound := le_foldl_max (b := 0) (List.mem_map_of_mem (f := s.shareCeiling) mem)
      exact bound.trans ((Nat.lt_log2_self).le.trans_eq (Nat.zero_add _).symm)
  obtain ⟨fits, above⟩ := searchLevel_boundary (fits := fun x => decide (s.shareSum w ps x ≤ b)) low high
  exact ⟨of_decide_eq_true fits, Nat.not_le.mp (of_decide_eq_false above)⟩

/-- The grants of a group shared are those of R84. -/
theorem State.Sharable.shared (h : s.Sharable w ps b) : s.SharedAgainst w ps b (s.shareGrant w ps b) where
  ceilings room p _ := if_pos room
  level short := by
    obtain ⟨fits, above⟩ := h.level short
    refine ⟨s.level w ps b, fits, fun x covers => ?_, fun p _ => if_neg (Nat.not_le.mpr short)⟩
    by_contra above_it
    exact absurd ((s.shareSum_mono w ps (Nat.lt_of_not_le above_it)).trans covers) (Nat.not_le.mpr above)

/-- They fit what is shared. -/
theorem State.Sharable.sum_le (h : s.Sharable w ps b) : (ps.map (s.shareGrant w ps b)).sum ≤ b := by
  unfold shareGrant
  split
  · next room => exact room
  · next short => exact (h.level (Nat.lt_of_not_le short)).1

/-- Each covers the session's minimum and stays under its ceiling. -/
theorem State.Sharable.bounds (h : s.Sharable w ps b) (mem : p ∈ ps) :
    s.minPower p ≤ s.shareGrant w ps b p ∧ s.shareGrant w ps b p ≤ s.shareCeiling p := by
  have minimum := h.minimums p mem
  unfold shareGrant
  split
  · exact ⟨minimum, Nat.le_refl _⟩
  · exact ⟨le_shareAt _ _ _ _, shareAt_le minimum _ _⟩

/-- What the grants are outside the group does not matter. -/
theorem State.SharedAgainst.congr {f g : Point → Nat} (h : s.SharedAgainst w ps b f) (same : ∀ p ∈ ps, g p = f p) :
    s.SharedAgainst w ps b g where
  ceilings room p mem := (same p mem).trans (h.ceilings room p mem)
  level short := by
    obtain ⟨level, fits, largest, grants⟩ := h.level short
    exact ⟨level, fits, largest, fun p mem => (same p mem).trans (grants p mem)⟩

/-! ## The admitted sessions -/

/-- A session on the admission list has a ceiling not under its minimum: R83 leaves out the others. -/
theorem State.minPower_le_shareCeiling (h : s.leftOut p = false) : s.minPower p ≤ s.shareCeiling p := by
  have ceiling : s.minPower p ≤ s.ceiling p := le_max_right _ _
  unfold shareCeiling
  split
  · next curtail =>
    refine le_min ceiling (Nat.le_of_not_lt fun below => ?_)
    simp [leftOut, curtail, below] at h
  · exact ceiling

/-- The walk takes sessions from the front while their minimums fit, and stops at the first that does not (R81). -/
theorem admitWalk_take (m : Point → Nat) (b : Nat) : ∀ (ps : List Point) (sum : Nat), sum ≤ b → ∃ k ≤ ps.length,
    admitWalk m b sum ps = ps.take k ∧ sum + ((ps.take k).map m).sum ≤ b ∧
      (k < ps.length → b < sum + ((ps.take (k + 1)).map m).sum)
  | [], sum, room => ⟨0, Nat.le_refl _, rfl, by simpa using room, fun more => nomatch more⟩
  | p :: ps, sum, room => by
    unfold admitWalk
    split
    · next fits =>
      obtain ⟨k, inside, taken, covered, stopped⟩ := admitWalk_take m b ps (sum + m p) fits
      refine ⟨k + 1, Nat.succ_le_succ inside, by rw [taken, List.take_succ_cons], ?_, fun more => ?_⟩
      · simpa [Nat.add_assoc] using covered
      · simpa [Nat.add_assoc] using stopped (Nat.lt_of_succ_lt_succ more)
    · next above => exact ⟨0, Nat.zero_le _, rfl, by simpa using room, fun _ => by simpa using above⟩

theorem State.admitted_take (s : State) (b : Nat) : ∃ k ≤ s.admissionList.length,
    s.admitted b = s.admissionList.take k ∧ ((s.admissionList.take k).map s.minPower).sum ≤ b ∧
      (k < s.admissionList.length → b < ((s.admissionList.take (k + 1)).map s.minPower).sum) := by
  obtain ⟨k, inside, taken, covered, stopped⟩ := admitWalk_take s.minPower b s.admissionList 0 (Nat.zero_le _)
  rw [Nat.zero_add] at covered stopped
  exact ⟨k, inside, taken, covered, stopped⟩

theorem State.admitted_sum (s : State) (b : Nat) : ((s.admitted b).map s.minPower).sum ≤ b := by
  obtain ⟨k, -, taken, covered, -⟩ := s.admitted_take b
  rwa [taken]

theorem State.admitted_listed (h : p ∈ s.admitted b) : p ∈ s.candidates ∧ s.leftOut p = false := by
  obtain ⟨k, -, taken, -, -⟩ := s.admitted_take b
  have listed : p ∈ s.admissionList := List.mem_of_mem_take (taken ▸ h)
  simpa [admissionList] using listed

theorem State.admitted_minimums (mem : p ∈ s.admitted b) : s.minPower p ≤ s.shareCeiling p :=
  minPower_le_shareCeiling (admitted_listed mem).2

/-! ## The two modes -/

/-- A sum over a list is the sum over its classes. -/
theorem State.ofClass_sum (s : State) (f : Point → Nat) : ∀ ps : List Point,
    ((s.ofClass .priority ps).map f).sum + ((s.ofClass .standard ps).map f).sum = (ps.map f).sum
  | [] => rfl
  | p :: ps => by
    have rest := s.ofClass_sum f ps
    unfold ofClass at rest ⊢
    cases cls : (s.session p).cls <;> simp [cls] <;> omega

theorem State.mem_ofClass {cls : SessionClass} : p ∈ s.ofClass cls ps ↔ p ∈ ps ∧ (s.session p).cls = cls := by
  simp [ofClass]

theorem State.weight_pos (s : State) (p : Point) : 1 ≤ s.weight p := by
  unfold weight
  cases (s.session p).cls <;> decide

theorem State.sharable_shared (s : State) (b : Nat) : s.Sharable s.weight (s.admitted b) b :=
  ⟨fun _ => admitted_minimums, fun p _ => s.weight_pos p, s.admitted_sum b⟩

/-- The PRIORITY sessions are shared against the budget less the STANDARD minimums (R85). -/
theorem State.sharable_priority (s : State) (b : Nat) : s.Sharable (fun _ => 1) (s.ofClass .priority (s.admitted b))
    (b - ((s.ofClass .standard (s.admitted b)).map s.minPower).sum) := by
  refine ⟨fun p mem => admitted_minimums (mem_ofClass.mp mem).1, fun _ _ => Nat.le_refl _, ?_⟩
  have sum := s.ofClass_sum s.minPower (s.admitted b)
  have fits := s.admitted_sum b
  omega

/-- The PRIORITY grants and the STANDARD minimums fit the budget. -/
theorem State.priorityGrants_fit (s : State) (b : Nat) :
    ((s.ofClass .priority (s.admitted b)).map (s.priorityGrant (s.admitted b) b)).sum +
      ((s.ofClass .standard (s.admitted b)).map s.minPower).sum ≤ b := by
  have grants : ((s.ofClass .priority (s.admitted b)).map (s.priorityGrant (s.admitted b) b)).sum ≤ _ :=
    (s.sharable_priority b).sum_le
  have sum := s.ofClass_sum s.minPower (s.admitted b)
  have fits := s.admitted_sum b
  omega

/-- The STANDARD sessions are shared against what the PRIORITY grants leave (R85). -/
theorem State.sharable_standard (s : State) (b : Nat) : s.Sharable (fun _ => 1) (s.ofClass .standard (s.admitted b))
    (b - ((s.ofClass .priority (s.admitted b)).map (s.priorityGrant (s.admitted b) b)).sum) := by
  refine ⟨fun p mem => admitted_minimums (mem_ofClass.mp mem).1, fun _ _ => Nat.le_refl _, ?_⟩
  have fits := s.priorityGrants_fit b
  omega

theorem State.grantOf_shared (mode : s.alu.mode = .shared) (mem : p ∈ ps) :
    s.grantOf ps b p = s.shareGrant s.weight ps b p := by
  simp [grantOf, mem, mode]

theorem State.grantOf_priority (mode : s.alu.mode = .priority) (mem : p ∈ s.ofClass .priority ps) :
    s.grantOf ps b p = s.priorityGrant ps b p := by
  obtain ⟨mem, cls⟩ := mem_ofClass.mp mem
  simp [grantOf, mem, mode, cls]

theorem State.grantOf_standard (mode : s.alu.mode = .priority) (mem : p ∈ s.ofClass .standard ps) :
    s.grantOf ps b p = s.standardGrant ps b p := by
  obtain ⟨mem, cls⟩ := mem_ofClass.mp mem
  simp [grantOf, mem, mode, cls]

theorem State.grantOf_absent (out : p ∉ ps) : s.grantOf ps b p = 0 := by
  simp [grantOf, out]

/-- The grants of the admitted fit the budget in both modes. -/
theorem State.admitted_grants (s : State) (b : Nat) : ((s.admitted b).map (s.grantOf (s.admitted b) b)).sum ≤ b := by
  cases mode : s.alu.mode with
  | shared =>
    rw [List.map_congr_left fun p mem => grantOf_shared mode mem]
    exact (s.sharable_shared b).sum_le
  | priority =>
    have priority : (s.ofClass .priority (s.admitted b)).map (s.grantOf (s.admitted b) b) =
        (s.ofClass .priority (s.admitted b)).map (s.priorityGrant (s.admitted b) b) :=
      List.map_congr_left fun p => grantOf_priority mode
    have standard : (s.ofClass .standard (s.admitted b)).map (s.grantOf (s.admitted b) b) =
        (s.ofClass .standard (s.admitted b)).map (s.standardGrant (s.admitted b) b) :=
      List.map_congr_left fun p => grantOf_standard mode
    have first := s.priorityGrants_fit b
    have rest : ((s.ofClass .standard (s.admitted b)).map (s.standardGrant (s.admitted b) b)).sum ≤ _ :=
      (s.sharable_standard b).sum_le
    rw [← s.ofClass_sum, priority, standard]
    omega

/-- Each grant of an admitted session covers its minimum and stays under its ceiling. -/
theorem State.grantOf_bounds (mem : p ∈ s.admitted b) :
    s.minPower p ≤ s.grantOf (s.admitted b) b p ∧ s.grantOf (s.admitted b) b p ≤ s.shareCeiling p := by
  cases mode : s.alu.mode with
  | shared =>
    rw [grantOf_shared mode mem]
    exact (s.sharable_shared b).bounds mem
  | priority =>
    cases cls : (s.session p).cls with
    | priority =>
      have own := mem_ofClass.mpr ⟨mem, cls⟩
      rw [grantOf_priority mode own]
      exact (s.sharable_priority b).bounds own
    | standard =>
      have own := mem_ofClass.mpr ⟨mem, cls⟩
      rw [grantOf_standard mode own]
      exact (s.sharable_standard b).bounds own

end Sys2Proof.Machine
end


section
/-! SUPPORT. What an allocation grants and sends within its budget (R84 to R87). -/

namespace Sys2Proof.Machine

open Sys2Proof State

set_option Elab.async false

variable {s : State} {p : Point} {ps : List Point} {b : Nat}

/-! ## Sums over the points -/

/-- A quantity that is 0 off a list sums over the points to at most its sum along the list. -/
theorem sumPoints_le_sum {f : Point → Nat} (off : ∀ p, p ∉ ps → f p = 0) : sumPoints f ≤ (ps.map f).sum := by
  have split : ∀ points : List Point, (points.map f).sum = ((points.filter (· ∈ ps)).map f).sum := by
    intro points
    induction points with
    | nil => rfl
    | cons p points ih =>
      by_cases mem : p ∈ ps
      · simp [mem, ih]
      · simp [mem, ih, off p mem]
  have once : (allPoints.filter (· ∈ ps)).Nodup := (List.nodup_ofFn.mpr Function.injective_id).filter _
  have inside : (allPoints.filter (· ∈ ps)) ⊆ ps := fun p mem => by simpa using (List.mem_filter.mp mem).2
  obtain ⟨part, same, sub⟩ := List.subperm_of_subset once inside
  calc sumPoints f = ((allPoints.filter (· ∈ ps)).map f).sum := split allPoints
    _ = (part.map f).sum := ((same.map f).sum_eq).symm
    _ ≤ (ps.map f).sum := (sub.map f).sum_le_sum fun _ _ => Nat.zero_le _

theorem sumPoints_mono {f g : Point → Nat} (h : ∀ p, f p ≤ g p) : sumPoints f ≤ sumPoints g :=
  List.sum_le_sum fun p _ => h p

/-! ## The grants and the set points -/

/-- A target's power is within its grant (R86, R87). -/
theorem State.wattsOf_targetOf_le (s : State) (p : Point) (g : Nat) :
    s.wattsOf p ((s.node (pointNode p)).targetOf s.site.vNom g) ≤ g := by
  rcases Nat.eq_zero_or_pos g with rfl | granted
  · simp
  by_cases ac : (s.node (pointNode p)).kind = .ac1 ∨ (s.node (pointNode p)).kind = .ac3
  · rcases Nat.eq_zero_or_pos s.site.vNom with zero | voltage
    · rw [wattsOf_ac ac, zero]
      simp
    · exact ((le_targetOf_iff ac voltage granted).mp (Nat.le_refl _)).2
  by_cases dc : (s.node (pointNode p)).kind = .dc
  · rw [wattsOf_dc dc, Node.targetOf_dc dc]
    exact Nat.mul_div_le g 100
  · simp [wattsOf, dc, not_or.mp ac]

theorem State.newEntry_power_le (s : State) (ps : List Point) (b : Nat) (p : Point) :
    (s.newEntry ps b p).power ≤ s.grantOf ps b p := by
  have power : (s.newEntry ps b p).power = s.wattsOf p (s.target ps b p) := s.powerOf_eq p _
  rw [power]
  cases on : s.online p
  · rw [target_offline on, wattsOf_zero]
    exact Nat.zero_le _
  · rw [target_online on]
    exact s.wattsOf_targetOf_le p _

theorem State.grants_fit (s : State) (b : Nat) : sumPoints (s.grantOf (s.admitted b) b) ≤ b :=
  (sumPoints_le_sum fun _ => grantOf_absent).trans (s.admitted_grants b)

/-! ## The sessions of an allocation -/

theorem State.allocate_session (s : State) (b : Nat) (counts : Bool) (p : Point) :
    (s.allocate b counts).session p = s.allocatedSession (s.admitted b) b counts p := by
  unfold allocate
  dsimp only
  rw [session, withAlu_ssu, withSsu_ssu]
  simp

theorem State.allocatedSession_grant (mem : p ∈ ps) (counts : Bool) :
    (s.allocatedSession ps b counts p).grant = s.grantOf ps b p := by
  unfold allocatedSession
  dsimp only
  rw [if_pos (List.contains_iff_mem.mpr mem)]
  split <;> rfl

/-- The session table after an allocation: each session as R81 and R82 say. -/
theorem State.allocation_session (s : State) (p : Point) :
    ((s.takeRequest (.budget s.budgetToTake.1 s.budgetToTake.2)).allocate s.budgetToTake.1 s.budgetToTake.2).session p =
      s.allocatedSession (s.admitted s.budgetToTake.1) s.budgetToTake.1 s.budgetToTake.2 p :=
  allocate_session _ _ _ p

theorem State.ofClass_eq (s : State) (cls : SessionClass) (ps : List Point) :
    ps.filter (fun p => decide ((s.session p).cls = cls)) = s.ofClass cls ps :=
  List.filter_congr fun p _ => by rw [Bool.eq_iff_iff]; simp

end Sys2Proof.Machine
end

section
/-! SUPPORT. The statements about the budget and the water level. -/

open Sys2Proof Sys2Proof.Machine Sys2Proof.Machine.State

/-- Settles O16: the grants of the admitted fit in both modes, and a set point's power is within its grant. -/
theorem allocationStaysWithinTheBudget : Obligations.AllocationStaysWithinTheBudget := by
  intro s
  refine ⟨_, execAllocation_eq s, s.grants_fit _, ?_, fun p mem => ?_⟩
  · rw [allocate_alu, formSet_set]
    dsimp only
    refine (sumPoints_mono fun p => ?_).trans (s.grants_fit _)
    rw [Fin.getElem_fin, Vector.getElem_ofFn]
    exact s.newEntry_power_le _ _ p
  · rw [allocation_session, allocatedSession_grant mem]
    exact (grantOf_bounds mem).1

/-- Settles O17: each mode's groups are shared as R84 says, what they are shared against as R85 says. -/
theorem theWaterLevelIsTheLargestThatFits : Obligations.TheWaterLevelIsTheLargestThatFits := by
  intro s
  refine ⟨_, execAllocation_eq s, ?_⟩
  simp only [allocation_session, ofClass_eq]
  generalize s.budgetToTake = taken
  obtain ⟨b, counts⟩ := taken
  dsimp only
  have grant (p : Point) (mem : p ∈ s.admitted b) := allocatedSession_grant (s := s) (b := b) mem counts
  refine ⟨fun mode => ?_, fun mode => ⟨?_, ?_⟩, fun p => rfl⟩
  · have weights : (fun p => if (s.session p).cls = .priority then 2 else 1) = s.weight := funext fun p => by
      unfold weight
      cases (s.session p).cls <;> rfl
    rw [weights]
    exact (s.sharable_shared b).shared.congr fun p mem => (grant p mem).trans (grantOf_shared mode mem)
  · exact (s.sharable_priority b).shared.congr fun p mem =>
      (grant p (mem_ofClass.mp mem).1).trans (grantOf_priority mode mem)
  · have priority : (s.ofClass .priority (s.admitted b)).map
        (fun p => (s.allocatedSession (s.admitted b) b counts p).grant) =
        (s.ofClass .priority (s.admitted b)).map (s.priorityGrant (s.admitted b) b) :=
      List.map_congr_left fun p mem => (grant p (mem_ofClass.mp mem).1).trans (grantOf_priority mode mem)
    rw [priority]
    exact (s.sharable_standard b).shared.congr fun p mem =>
      (grant p (mem_ofClass.mp mem).1).trans (grantOf_standard mode mem)

end


section
/-! SUPPORT. The groups of the admission list and their order (R79, R80, R83). -/

namespace Sys2Proof.Machine

open Sys2Proof State

set_option Elab.async false

variable {s : State} {p : Point} {ps : List Point} {b : Nat}

/-! ## Lists in a strict order -/

/-- Sorting by an order that puts equals as they stand gives a strict order, when each two of the list are in the strict order
of their places or else of the sort. -/
theorem insertionSort_strict {α : Type} {r strict : α → α → Prop} [DecidableRel r]
    (trans : ∀ x y z, strict x y → strict y z → strict x z) : ∀ {l : List α},
    l.Pairwise (fun x y => (r x y → strict x y) ∧ (¬r x y → strict y x)) → (l.insertionSort r).Pairwise strict := by
  have insert (a : α) : ∀ {l : List α}, l.Pairwise strict →
      (∀ y ∈ l, (r a y → strict a y) ∧ (¬r a y → strict y a)) → (l.orderedInsert r a).Pairwise strict := by
    intro l
    induction l with
    | nil => exact fun _ _ => List.pairwise_singleton _ _
    | cons y l ih =>
      intro sorted places
      obtain ⟨first, rest⟩ := List.pairwise_cons.mp sorted
      obtain ⟨before, after⟩ := places y List.mem_cons_self
      rw [List.orderedInsert_cons]
      split
      · next goes =>
        refine List.pairwise_cons.mpr ⟨fun z mem => ?_, sorted⟩
        rcases List.mem_cons.mp mem with rfl | later
        · exact before goes
        · exact trans a y z (before goes) (first z later)
      · next stays =>
        refine List.pairwise_cons.mpr ⟨fun z mem => ?_, ih rest fun z mem => places z (List.mem_cons_of_mem _ mem)⟩
        rcases List.mem_orderedInsert r |>.mp mem with rfl | later
        · exact after stays
        · exact first z later
  intro l
  induction l with
  | nil => exact fun _ => List.Pairwise.nil
  | cons a l ih =>
    intro places
    obtain ⟨first, rest⟩ := List.pairwise_cons.mp places
    exact insert a (ih rest) fun y mem => first y ((List.mem_insertionSort r).mp mem)

/-- A list in a strict order is known by its members. -/
theorem eq_of_pairwise_strict {α : Type} {strict : α → α → Prop} {l m : List α}
    (asymm : ∀ x y, strict x y → ¬strict y x)
    (hl : l.Pairwise strict) (hm : m.Pairwise strict) (same : ∀ x, x ∈ l ↔ x ∈ m) : l = m := by
  have distinct {k : List α} (hk : k.Pairwise strict) : k.Nodup :=
    hk.imp fun {x y} before (equal : x = y) => by
      subst equal
      exact asymm x x before before
  have perm := (List.perm_ext_iff_of_nodup (distinct hl) (distinct hm)).mpr same
  exact perm.eq_of_pairwise (fun x y _ _ before after => absurd after (asymm x y before)) hl hm

/-! ## The groups -/

/-- Ascending number, equal numbers in point order. -/
def State.NumberBefore (s : State) (p q : Point) : Prop :=
  (s.session p).number < (s.session q).number ∨ (s.session p).number = (s.session q).number ∧ p < q

/-- Descending grant age, equal ages by number. -/
def State.AgeBefore (s : State) (p q : Point) : Prop :=
  (s.session q).grantAge < (s.session p).grantAge ∨
    (s.session p).grantAge = (s.session q).grantAge ∧
      ((s.session p).number < (s.session q).number ∨ (s.session p).number = (s.session q).number ∧ p < q)

theorem State.NumberBefore.trans {p q r : Point} (h : s.NumberBefore p q) (k : s.NumberBefore q r) : s.NumberBefore p r := by
  simp only [NumberBefore, Fin.lt_def] at *
  omega

theorem State.NumberBefore.asymm {p q : Point} (h : s.NumberBefore p q) : ¬s.NumberBefore q p := by
  simp only [NumberBefore, Fin.lt_def] at *
  omega

theorem State.AgeBefore.trans {p q r : Point} (h : s.AgeBefore p q) (k : s.AgeBefore q r) : s.AgeBefore p r := by
  simp only [AgeBefore, Fin.lt_def] at *
  omega

theorem State.AgeBefore.asymm {p q : Point} (h : s.AgeBefore p q) : ¬s.AgeBefore q p := by
  simp only [AgeBefore, Fin.lt_def] at *
  omega

theorem allPoints_ascend (f : Point → Bool) : (allPoints.filter f).Pairwise (· < ·) :=
  (List.pairwise_ofFn.mpr fun _ _ before => before).filter _

theorem mem_allPoints (p : Point) : p ∈ allPoints := List.mem_ofFn.mpr ⟨p, rfl⟩

theorem State.group1_order (s : State) : s.group1.Pairwise s.NumberBefore := by
  refine insertionSort_strict (r := fun p q => s.numberOrder p q) (strict := s.NumberBefore)
    (fun _ _ _ => .trans) ((allPoints_ascend _).imp fun {p q} before => ?_)
  simp only [numberOrder, decide_eq_true_eq, NumberBefore, Fin.lt_def] at before ⊢
  omega

theorem State.group2_order (s : State) : s.group2.Pairwise s.AgeBefore := by
  refine insertionSort_strict (r := fun p q => s.ageOrder p q) (strict := s.AgeBefore)
    (fun _ _ _ => .trans) ((allPoints_ascend _).imp fun {p q} before => ?_)
  simp only [ageOrder, numberOrder, Bool.or_eq_true, Bool.and_eq_true, decide_eq_true_eq, beq_iff_eq, AgeBefore,
    Fin.lt_def] at before ⊢
  omega

theorem State.takesPart_iff {cls : SessionClass} {st : SessionState} (wants : st = .waiting ∨ st = .charging) :
    s.takesPart cls st p = true ↔ s.asksPower p = true ∧ (s.session p).cls = cls ∧ (s.session p).state = st := by
  simp only [takesPart, Bool.and_eq_true, eligible_iff, beq_iff_eq, and_assoc]
  constructor
  · rintro ⟨-, asks, cls, state⟩
    exact ⟨asks, cls, state⟩
  · rintro ⟨asks, cls, rfl⟩
    exact ⟨wants, asks, cls, rfl⟩

theorem State.mem_group1 : p ∈ s.group1 ↔ s.asksPower p = true ∧ (s.session p).cls = .priority ∧
    ((s.session p).state = .charging ∨ (s.session p).state = .waiting ∧ s.lsu.esc ≠ .curtail) := by
  simp only [group1, List.mem_insertionSort, List.mem_filter, mem_allPoints, true_and, Bool.or_eq_true, Bool.and_eq_true,
    takesPart_iff (.inr rfl), takesPart_iff (.inl rfl), bne_iff_ne]
  grind

theorem State.mem_group2 : p ∈ s.group2 ↔
    s.asksPower p = true ∧ (s.session p).cls = .standard ∧ (s.session p).state = .charging := by
  simp only [group2, List.mem_insertionSort, List.mem_filter, mem_allPoints, true_and, takesPart_iff (.inr rfl)]

theorem State.group3_eq (s : State) : s.group3 = if s.lsu.esc = .curtail then [] else s.alu.queue.filter (fun p =>
    s.asksPower p && decide ((s.session p).cls = .standard ∧ (s.session p).state = .waiting)) := by
  unfold group3
  refine ite_congr rfl (fun _ => rfl) fun _ => List.filter_congr fun p _ => ?_
  rw [Bool.eq_iff_iff, takesPart_iff (.inl rfl)]
  simp

/-- R79 names the groups: each is the model's. -/
theorem State.Groups.eq {g1 g2 g3 : List Point} (h : s.Groups g1 g2 g3) :
    g1 = s.group1 ∧ g2 = s.group2 ∧ g3 = s.group3 :=
  ⟨eq_of_pairwise_strict (fun _ _ => NumberBefore.asymm) h.firstOrder s.group1_order
      fun p => (h.first p).trans mem_group1.symm,
    eq_of_pairwise_strict (fun _ _ => AgeBefore.asymm) h.secondOrder s.group2_order
      fun p => (h.second p).trans mem_group2.symm,
    h.third.trans s.group3_eq.symm⟩

/-- The list with the fairness swap made (R80). -/
theorem State.listOf_groups (s : State) :
    s.listOf s.group1 s.group2 s.group3 = (s.candidates, s.swap.map (·.2)) := by
  unfold listOf candidates swap
  cases s.group2 with
  | nil => cases s.group3 <;> rfl
  | cons r rs =>
    cases s.group3 with
    | nil => rfl
    | cons w ws =>
      dsimp only
      split <;> rfl

theorem State.admissionList_eq (s : State) : s.admissionList =
    s.candidates.filter (fun p => !decide (s.lsu.esc = .curtail ∧ (s.session p).grant < s.minPower p)) := by
  refine List.filter_congr fun p _ => congrArg _ ?_
  rw [Bool.eq_iff_iff]
  simp [leftOut]

/-- Whoever stands on the list asks for power and is CHARGING or WAITING (R79). -/
theorem State.mem_candidates (mem : p ∈ s.candidates) :
    s.asksPower p = true ∧ ((s.session p).state = .charging ∨ (s.session p).state = .waiting) := by
  have third (mem : p ∈ s.group3) : s.asksPower p = true ∧ (s.session p).state = .waiting := by
    rw [group3_eq] at mem
    split at mem
    · nomatch mem
    · simp only [List.mem_filter, Bool.and_eq_true, decide_eq_true_eq] at mem
      exact ⟨mem.2.1, mem.2.2.2⟩
  have grouped : p ∈ s.group1 ∨ p ∈ s.group2 ∨ p ∈ s.group3 := by
    unfold candidates swap at mem
    split at mem
    · next w r made =>
      split at made
      · next ws rs waiters runners =>
        split at made
        · obtain ⟨rfl, rfl⟩ := Prod.mk.inj (Option.some.inj made)
          rw [waiters, runners] at mem ⊢
          simp only [List.tail_cons, List.mem_append, List.mem_cons, List.not_mem_nil, or_false] at mem ⊢
          tauto
        · nomatch made
      · nomatch made
    · simpa [or_assoc] using mem
  rcases grouped with one | two | three
  · obtain ⟨asks, -, charging | ⟨waiting, -⟩⟩ := mem_group1.mp one
    · exact ⟨asks, .inl charging⟩
    · exact ⟨asks, .inr waiting⟩
  · obtain ⟨asks, -, charging⟩ := mem_group2.mp two
    exact ⟨asks, .inl charging⟩
  · obtain ⟨asks, waiting⟩ := third three
    exact ⟨asks, .inr waiting⟩

end Sys2Proof.Machine
end


section
/-! SUPPORT. What an allocation makes of the sessions and of the queue (R76, R80 to R83). -/

namespace Sys2Proof.Machine

open Sys2Proof State

set_option Elab.async false

variable {s : State} {p : Point} {ps : List Point} {b : Nat} {counts : Bool}

theorem countOn_eq (counts : Bool) (n : Nat) : countOn counts n = if counts then min 65535 (n + 1) else n := rfl

theorem State.swap_any_iff : s.swap.any (fun w => w.2 == p) = false ↔ s.swap.map (·.2) ≠ some p := by
  cases s.swap <;> simp

/-- The allocation moves a session's state, grant and counts alone. -/
theorem State.allocatedSession_kept (s : State) (ps : List Point) (b : Nat) (counts : Bool) (p : Point) :
    s.allocatedSession ps b counts p = { s.session p with
      state := (s.allocatedSession ps b counts p).state, grant := (s.allocatedSession ps b counts p).grant
      grantAge := (s.allocatedSession ps b counts p).grantAge
      waitCount := (s.allocatedSession ps b counts p).waitCount } := by
  unfold allocatedSession
  dsimp only
  split
  · split <;> rfl
  split
  · split <;> rfl
  split
  · split <;> rfl
  · rfl

/-! R81's outcomes and R82's counts. -/

/-- A CHARGING session admitted again goes on. -/
theorem State.allocatedSession_continues (mem : p ∈ ps) (charging : (s.session p).state = .charging)
    (other : s.swap.map (·.2) ≠ some p) : s.allocatedSession ps b counts p =
      { s.session p with grantAge := countOn counts (s.session p).grantAge, grant := s.grantOf ps b p } := by
  unfold allocatedSession
  dsimp only
  rw [if_pos (List.contains_iff_mem.mpr mem), if_pos ⟨charging, swap_any_iff.mpr other⟩]

/-- A WAITING session admitted, or the runner of the swap, starts anew. -/
theorem State.allocatedSession_starts (mem : p ∈ ps)
    (new : (s.session p).state ≠ .charging ∨ s.swap.map (·.2) = some p) : s.allocatedSession ps b counts p =
      { s.session p with state := .charging, grantAge := 0, waitCount := 0, grant := s.grantOf ps b p } := by
  unfold allocatedSession
  dsimp only
  rw [if_pos (List.contains_iff_mem.mpr mem), if_neg]
  rintro ⟨charging, other⟩
  exact new.elim (fun h => h charging) (fun h => swap_any_iff.mp other h)

/-- Whoever is admitted charges. -/
theorem State.allocatedSession_charging (mem : p ∈ ps) : (s.allocatedSession ps b counts p).state = .charging := by
  by_cases goesOn : (s.session p).state = .charging ∧ s.swap.map (·.2) ≠ some p
  · rw [allocatedSession_continues mem goesOn.1 goesOn.2]
    exact goesOn.1
  · rw [allocatedSession_starts mem (or_iff_not_imp_left.mpr fun charging =>
      by_contra fun other => goesOn ⟨not_not.mp charging, other⟩)]

theorem State.eligible_eq (wants : (s.session p).state = .waiting ∨ (s.session p).state = .charging) :
    s.eligible p = s.asksPower p := by
  rw [Bool.eq_iff_iff, eligible_iff]
  exact ⟨And.right, fun asks => ⟨wants, asks⟩⟩

/-- A CHARGING session not admitted waits, if it asks for power. -/
theorem State.allocatedSession_stops (out : p ∉ ps) (charging : (s.session p).state = .charging) :
    s.allocatedSession ps b counts p =
      if s.asksPower p then { s.session p with state := .waiting, grantAge := 0, waitCount := 0, grant := 0 }
      else { s.session p with grant := 0 } := by
  unfold allocatedSession
  dsimp only
  rw [if_neg fun mem => out (List.contains_iff_mem.mp mem), if_pos charging, eligible_eq (.inr charging)]

/-- A WAITING session not admitted waits on, and counts if it asks for power. -/
theorem State.allocatedSession_waits (out : p ∉ ps) (waiting : (s.session p).state = .waiting) :
    s.allocatedSession ps b counts p =
      if s.asksPower p then { s.session p with waitCount := countOn counts (s.session p).waitCount, grant := 0 }
      else { s.session p with grant := 0 } := by
  unfold allocatedSession
  dsimp only
  rw [if_neg fun mem => out (List.contains_iff_mem.mp mem), if_neg (by rw [waiting]; decide), if_pos waiting,
    eligible_eq (.inl waiting)]

/-- Every other session is as before. -/
theorem State.allocatedSession_others (out : p ∉ ps) (notWaiting : (s.session p).state ≠ .waiting)
    (notCharging : (s.session p).state ≠ .charging) : s.allocatedSession ps b counts p = s.session p := by
  unfold allocatedSession
  dsimp only
  rw [if_neg fun mem => out (List.contains_iff_mem.mp mem), if_neg notCharging, if_neg notWaiting]

theorem State.admitted_wants (mem : p ∈ s.admitted b) :
    (s.session p).state = .charging ∨ (s.session p).state = .waiting :=
  (mem_candidates (admitted_listed mem).1).2

/-- In CURTAIL no grant rises (R83). -/
theorem State.allocatedSession_curtail (curtail : s.lsu.esc = .curtail) :
    (s.allocatedSession (s.admitted b) b counts p).grant ≤ (s.session p).grant := by
  by_cases mem : p ∈ s.admitted b
  · rw [allocatedSession_grant mem]
    have ceiling : s.shareCeiling p = min (s.ceiling p) (s.session p).grant := if_pos curtail
    exact (grantOf_bounds mem).2.trans (ceiling.trans_le (min_le_right _ _))
  by_cases charging : (s.session p).state = .charging
  · rw [allocatedSession_stops mem charging]
    split <;> exact Nat.zero_le _
  by_cases waiting : (s.session p).state = .waiting
  · rw [allocatedSession_waits mem waiting]
    split <;> exact Nat.zero_le _
  · rw [allocatedSession_others mem waiting charging]

/-! ## The queue -/

/-- The queue after the allocation: the runner at the tail, the admitted out, the CHARGING left out in (R76, R80, R81; log
entry 19). -/
theorem State.allocatedQueue_eq (s : State) (ps : List Point) : s.allocatedQueue ps =
    (s.alu.queue ++ (s.swap.map (·.2)).toList).filter (fun p => decide (p ∉ ps)) ++
      s.candidates.filter
        (fun p => decide ((s.session p).state = .charging ∧ p ∉ ps ∧ s.swap.map (·.2) ≠ some p)) := by
  have runner : s.swap.toList.map (·.2) = (s.swap.map (·.2)).toList := by cases s.swap <;> rfl
  have outside (p : Point) : (!ps.contains p) = decide (p ∉ ps) := by simp
  unfold allocatedQueue
  dsimp only
  rw [runner]
  simp only [outside]
  congr 1
  refine List.filter_congr fun p _ => ?_
  rw [Bool.eq_iff_iff]
  cases s.swap.map (·.2) with
  | none => simp
  | some r => simp [and_assoc, eq_comm (a := p) (b := r)]

theorem State.allocation_queue (s : State) :
    ((s.takeRequest (.budget s.budgetToTake.1 s.budgetToTake.2)).allocate s.budgetToTake.1 s.budgetToTake.2).alu.queue =
      s.allocatedQueue (s.admitted s.budgetToTake.1) := by
  rw [allocate_alu]
  rfl

/-- The allocation leaves the time base. -/
theorem State.allocate_timeBase (s : State) (b : Nat) (counts : Bool) :
    (s.allocate b counts).ssu.timeBase = s.ssu.timeBase := by
  have formed : (s.formSet (s.admitted b) b).ssu = s.ssu := formSet_only _ _ .ssu (by decide)
  unfold allocate
  dsimp only
  rw [withAlu_ssu, withSsu_ssu, formed]

end Sys2Proof.Machine
end

section
/-! SUPPORT. The statement about the sessions of an allocation. -/

open Sys2Proof Sys2Proof.Machine Sys2Proof.Machine.State

/-- Settles O15: R79 fixes the groups, the walk takes the front of the list, and each session moves as R81 says. -/
theorem allocationMovesTheSessions : Obligations.AllocationMovesTheSessions := by
  intro s g1 g2 g3 groups
  obtain ⟨rfl, rfl, rfl⟩ := groups.eq
  rw [listOf_groups]
  dsimp only
  rw [← admissionList_eq]
  obtain ⟨k, inside, taken, covered, stopped⟩ := s.admitted_take s.budgetToTake.1
  refine ⟨_, k, execAllocation_eq s, allocate_timeBase _ _ _, inside, covered, stopped, taken, ?_, fun p => ?_⟩
  · rw [allocation_queue, allocatedQueue_eq, taken]
  rw [allocation_session, ← taken]
  have admitted (mem : p ∈ s.admitted s.budgetToTake.1) := admitted_wants mem
  have curtail := allocatedSession_curtail (s := s) (p := p) (b := s.budgetToTake.1) (counts := s.budgetToTake.2)
  generalize s.admitted s.budgetToTake.1 = ps at *
  generalize s.budgetToTake = budget at *
  obtain ⟨b, counts⟩ := budget
  refine ⟨s.allocatedSession_kept _ _ _ _, fun mem => ?_, fun out charging asks => ?_, fun out charging asks => ?_,
    fun out waiting => ?_, fun notWaiting notCharging => ?_, curtail⟩
  · refine ⟨allocatedSession_charging mem, allocatedSession_grant mem counts, fun charging other => ?_, fun new => ?_⟩
    · rw [allocatedSession_continues mem charging other, countOn_eq]
      exact ⟨rfl, rfl⟩
    · rw [allocatedSession_starts mem new]
      exact ⟨rfl, rfl⟩
  · rw [allocatedSession_stops out charging, if_pos asks]
    exact ⟨rfl, rfl, rfl, rfl⟩
  · rw [allocatedSession_stops out charging, if_neg (by rw [asks]; decide)]
    exact ⟨charging, rfl, rfl, rfl⟩
  · rw [allocatedSession_waits out waiting, countOn_eq]
    cases s.asksPower p <;> cases counts <;> exact ⟨waiting, rfl, rfl, rfl⟩
  · exact allocatedSession_others (fun mem => (admitted mem).elim notCharging notWaiting) notWaiting notCharging

end

section
/-! SUPPORT. The frames of the field link: their characters, the frame formed for each kind of node, and what its
sending leaves (R103, R104, R106 to R108, R116). -/

namespace Sys2Proof.Machine

open Sys2Proof State

variable {s : State} {n : Fin 26} {p : Point} {bytes frame : List Byte} {x y : Node}

/-! ## Characters -/

/-- A running exclusive or tells whether the number of bits set, beside the bit it started from, is odd. -/
theorem parity_foldl (f : Nat → Bool) (places : List Nat) (odd : Bool) :
    ((places.filter f).length + (if places.foldl (fun odd i => odd ^^ f i) odd then 1 else 0)) % 2 =
      if odd then 1 else 0 := by
  induction places generalizing odd with
  | nil => cases odd <;> rfl
  | cons i places ih =>
    have rest := ih (odd ^^ f i)
    rw [List.foldl_cons]
    cases set : f i with
    | false =>
      rw [set, Bool.xor_false] at rest
      rw [List.filter_cons_of_neg (by simp [set]), Bool.xor_false]
      exact rest
    | true =>
      rw [set, Bool.xor_true] at rest
      rw [List.filter_cons_of_pos set, List.length_cons, Bool.xor_true]
      cases odd with
      | false => simp only [Bool.not_false, if_true, Bool.false_eq_true, if_false] at rest ⊢; omega
      | true => simp only [Bool.not_true, if_true, Bool.false_eq_true, if_false] at rest ⊢; omega

/-- The characters of the link are those of R103. -/
theorem linkCharacters : LinkCharacters where
  character b := ⟨evenParity b, rfl, parity_foldl b.getLsbD (List.range 8) false⟩
  frame := ⟨rfl, fun _ _ => rfl⟩

/-! ## The frame formed for a node -/

theorem leBytes_one (b : Byte) : leBytes 1 b.toNat = [b] := by
  simp [leBytes]

/-- The sequence of a frame with initial value 0, as R108 gives it. -/
theorem Node.nextSequence_zero (x : Node) :
    x.nextSequence 0 = if x.sentValue = 0 then x.sequence else x.sequence + 1 := by
  simp only [nextSequence, eq_comm]

/-- An ABSENT node is sent nothing, every other node is sent a frame (R106, R107). -/
theorem State.formFrame_some (enrolled : (s.node n).state ≠ .absent) : ∃ f, s.formFrame n = some f := by
  unfold formFrame
  dsimp only
  split
  · next absent => exact absurd absent enrolled
  all_goals exact ⟨_, rfl⟩

/-- An ONLINE charge point's SET frame carries its value to send (R89, R107). -/
theorem State.formFrame_set (charger : s.chargerNode (pointNode p)) (on : (s.node (pointNode p)).state = .online) :
    s.formFrame (pointNode p) = some
      (linkFrame (pointNode p).val 0x12 ([(s.node (pointNode p)).sequence] ++ leBytes 2 s.alu.points[p].value ++
          leBytes 4 (s.node (pointNode p)).failsafe),
        { s.node (pointNode p) with
          sentValue := s.alu.points[p].value, sentPower := s.alu.points[p].power
          sentFailsafe := (s.node (pointNode p)).failsafe }) := by
  obtain ⟨-, canopy, battery⟩ := charger
  have point : s.alu.points[(pointNode p).val]? = some s.alu.points[p] := Vector.getElem?_eq_getElem p.isLt
  simp only [formFrame, on, point, Option.getD_some, setFrame, leBytes_one]

/-- A charge point that is not ONLINE is sent its limits in a CFG frame with initial value 0 (R107). -/
theorem State.formFrame_cfgCharger (charger : s.chargerNode n) (enrolled : (s.node n).state ≠ .absent)
    (off : (s.node n).state ≠ .online) :
    s.formFrame n = some
      (linkFrame n.val 0x11 ([(s.node n).sequence] ++ leBytes 1 (s.node n).kind.code ++ leBytes 4 (s.node n).maximum ++
          leBytes 4 (s.node n).minimum ++ leBytes 4 (s.node n).failsafe ++ leBytes 4 0),
        { s.node n with sentValue := 0, sentPower := 0, sentFailsafe := (s.node n).failsafe }) := by
  obtain ⟨-, canopy, battery⟩ := charger
  cases state : (s.node n).state with
  | absent => exact absurd state enrolled
  | online => exact absurd state off
  | joining => simp only [formFrame, state, cfgFrame, leBytes_one]
  | lost => simp only [formFrame, state, cfgFrame, leBytes_one]

theorem State.formFrame_cap (kind : (s.node n).kind = .canopy) (on : (s.node n).state = .online) :
    s.formFrame n = some
      (linkFrame n.val 0x13 ([(s.node n).nextSequence s.canopyCap] ++ leBytes 4 s.canopyCap ++
          leBytes 4 (s.node n).failsafe),
        { s.node n with
          sequence := (s.node n).nextSequence s.canopyCap, sentValue := s.canopyCap
          sentFailsafe := (s.node n).failsafe }) := by
  simp only [formFrame, kind, on, capFrame, leBytes_one]

theorem State.formFrame_cfgCanopy (kind : (s.node n).kind = .canopy) (enrolled : (s.node n).state ≠ .absent)
    (off : (s.node n).state ≠ .online) :
    s.formFrame n = some
      (linkFrame n.val 0x11 ([(s.node n).nextSequence 0] ++ leBytes 1 4 ++ leBytes 4 s.bau.pPvRat ++ leBytes 4 0 ++
          leBytes 4 (s.node n).failsafe ++ leBytes 4 0),
        { s.node n with
          sequence := (s.node n).nextSequence 0, sentValue := 0, sentFailsafe := (s.node n).failsafe }) := by
  simp only [formFrame, kind, cfgFrame, leBytes_one, NodeKind.code]

theorem State.formFrame_batt (kind : (s.node n).kind = .battery) (on : (s.node n).state = .online) :
    s.formFrame n = some
      (linkFrame n.val 0x14 ([(s.node n).nextSequence s.batteryOrder] ++ leBytesInt 4 s.batteryOrder),
        { s.node n with sequence := (s.node n).nextSequence s.batteryOrder, sentValue := s.batteryOrder }) := by
  simp only [formFrame, kind, on, battFrame, leBytes_one]

theorem State.formFrame_cfgBattery (kind : (s.node n).kind = .battery) (enrolled : (s.node n).state ≠ .absent)
    (off : (s.node n).state ≠ .online) :
    s.formFrame n = some
      (linkFrame n.val 0x11 ([(s.node n).nextSequence 0] ++ leBytes 1 5 ++ leBytes 4 s.bau.pBdMax ++
          leBytes 4 s.bau.pBcMax ++ leBytes 4 0 ++ leBytes 4 0),
        { s.node n with sequence := (s.node n).nextSequence 0, sentValue := 0, sentFailsafe := 0 }) := by
  simp only [formFrame, kind, cfgFrame, leBytes_one, NodeKind.code]

/-! ## Its sending -/

theorem execFrameSend_idle (h : ¬∃ n, s.flc.Polls n) : execFrameSend s = .next s := by
  have nothing : s.flc.toPoll = none := Option.eq_none_iff_forall_ne_some.mpr fun n due => h ⟨n, Flc.toPoll_iff.mp due⟩
  simp only [execFrameSend, nothing]

theorem execFrameSend_sends (due : s.flc.Polls n) (formed : s.formFrame n = some (bytes, x)) :
    execFrameSend s = .next (s.sendFrame n bytes x) := by
  simp only [execFrameSend, Flc.toPoll_iff.mpr due, formed]

/-- A sent frame is on the line and its entry in the table. -/
theorem State.sendFrame_carries (formed : s.formFrame n = some (bytes, x)) (known : s.formFrame n = some (frame, y)) :
    (s.sendFrame n bytes x).node n = y ∧ (s.sendFrame n bytes x).flc.line = linkBits frame := by
  obtain ⟨rfl, rfl⟩ := Prod.mk.inj (Option.some.inj (formed.symm.trans known))
  exact ⟨withNode_node_self s n _, rfl⟩

theorem State.sendFrame_others (s : State) (n : Fin 26) (bytes : List Byte) (x : Node) :
    s.otherNodesSame n (s.sendFrame n bytes x) := withNode_otherNodes s n x

theorem State.sendFrame_flc (s : State) (n : Fin 26) (bytes : List Byte) (x : Node) :
    (s.sendFrame n bytes x).flc = { s.flc with
      nodes := (s.sendFrame n bytes x).flc.nodes, exchange := some ⟨n, false, false⟩, replyTimer := 0
      nextNode := n.val + 1, line := (s.sendFrame n bytes x).flc.line } := rfl

/-! ## The ZERO frame -/

theorem execZeroFrame_due (pending : s.flc.broadcastPending = true) (idle : s.flc.exchange = none) :
    execZeroFrame s = .next (s.withFlc { s.flc with broadcastPending := false, line := linkBits zeroFrame }) := by
  simp only [execZeroFrame, pending, idle, and_self, if_true]

theorem execZeroFrame_idle (h : ¬(s.flc.broadcastPending = true ∧ s.flc.exchange = none)) :
    execZeroFrame s = .next s := congrArg Host.Outcome.next (if_neg h)

end Sys2Proof.Machine
end

section
/-! SUPPORT. The statements of Chapter 6 about the frames sent. -/

open Sys2Proof Sys2Proof.Machine Sys2Proof.Machine.State

/-- Settles O22: the ZERO frame has no payload, and only the due one is sent. -/
theorem theZeroFrameClearsTheBroadcastMark : Obligations.TheZeroFrameClearsTheBroadcastMark := by
  intro s
  by_cases due : s.flc.broadcastPending = true ∧ s.flc.exchange = none
  · exact ⟨_, execZeroFrame_due due.1 due.2, withFlc_only _, fun _ _ => rfl, fun none => absurd due none⟩
  · exact ⟨s, execZeroFrame_idle due, onlyChanges_refl, fun pending idle => absurd ⟨pending, idle⟩ due, fun _ => rfl⟩

/-- Settles O21, by the kind of the polled node, in and out of ONLINE. -/
theorem framesCarryTheValuesInForce : Obligations.FramesCarryTheValuesInForce := by
  refine ⟨linkCharacters, fun s => ⟨execFrameSend_idle, fun n due => ?_⟩⟩
  have enrolled : (s.node n).state ≠ .absent := due.enrolled
  obtain ⟨⟨bytes, x⟩, formed⟩ := formFrame_some enrolled
  refine ⟨_, execFrameSend_sends due formed, sendFrame_only _ _ _, sendFrame_others _ _ _ _, due.running,
    sendFrame_flc _ _ _ _, ?_, ?_, ?_, ?_, ?_, ?_⟩
  · rintro p rfl charger on
    exact sendFrame_carries formed (formFrame_set charger on)
  · exact fun charger off => sendFrame_carries formed (formFrame_cfgCharger charger enrolled off)
  · exact fun canopy on => sendFrame_carries formed (formFrame_cap canopy on)
  · intro canopy off
    have known := formFrame_cfgCanopy canopy enrolled off
    rw [Node.nextSequence_zero] at known
    exact sendFrame_carries formed known
  · exact fun battery on => sendFrame_carries formed (formFrame_batt battery on)
  · intro battery off
    have known := formFrame_cfgBattery battery enrolled off
    rw [Node.nextSequence_zero] at known
    exact sendFrame_carries formed known

end

section
/-! SUPPORT. A REPORT read back from the bytes of its frame, and what a valid one leaves (R104, R109 to R112). -/

namespace Sys2Proof.Machine

open Sys2Proof State

variable {s : State} {n : Fin 26} {p : Point} {a : Nat} {kind : Byte} {payload : List Byte} {echo : Byte}
  {report : Report}

/-! ## Fields read back -/

/-- A number of `k` bytes fits the field of `k` bytes it is written to. -/
theorem bytes_hold {k w : Nat} (v : BitVec w) (fits : 2 ^ w ≤ 256 ^ k := by decide) : v.toNat % 256 ^ k = v.toNat :=
  Nat.mod_eq_of_lt (lt_of_lt_of_le v.isLt fits)

theorem fieldAt_drop (bytes : List Byte) (i j k : Nat) : fieldAt (bytes.drop i) j k = fieldAt bytes (i + j) k := by
  rw [fieldAt, List.drop_drop, fieldAt]

theorem byteAt_of_field {bytes : List Byte} {i : Nat} {b : Byte} (h : fieldAt bytes i 1 = b.toNat % 256 ^ 1) :
    byteAt bytes i = b := by
  rw [byteAt, h, bytes_hold, BitVec.ofNat_toNat, BitVec.setWidth_eq]

theorem longAt_of_field {bytes : List Byte} {i : Nat} {v : Word32} (h : fieldAt bytes i 4 = v.toNat % 256 ^ 4) :
    longAt bytes i = v := by
  rw [longAt, h, bytes_hold, BitVec.ofNat_toNat, BitVec.setWidth_eq]

/-! ## The parts of a frame -/

/-- The bytes that the CRC of a frame covers (R104). -/
def frameBody (a : Nat) (kind : Byte) (payload : List Byte) : List Byte :=
  BitVec.ofNat 8 a :: kind :: BitVec.ofNat 8 payload.length :: payload

theorem linkFrame_eq (a : Nat) (kind : Byte) (payload : List Byte) : linkFrame a kind payload =
    startByte :: (frameBody a kind payload ++ leBytes 2 (crc16 (frameBody a kind payload)).toNat) := rfl

theorem linkFrame_length (a : Nat) (kind : Byte) (payload : List Byte) :
    (linkFrame a kind payload).length = payload.length + 6 := by
  rw [linkFrame_eq, List.length_cons, List.length_append, length_leBytes]
  rfl

theorem linkFrame_byte0 : byteAt (linkFrame a kind payload) 0 = startByte := Laws.FrameLength.byteAt_zero _ _

theorem linkFrame_byte1 : byteAt (linkFrame a kind payload) 1 = BitVec.ofNat 8 a := Laws.FrameLength.byteAt_zero _ _

theorem linkFrame_byte2 : byteAt (linkFrame a kind payload) 2 = kind := Laws.FrameLength.byteAt_zero _ _

/-- The bytes of a frame with at most 16 payload bytes are a complete reply. -/
theorem linkFrame_complete (short : payload.length ≤ 16) : completeReply (linkFrame a kind payload) = true := by
  have field : fieldAt (linkFrame a kind payload) 3 1 = payload.length := by
    simp [linkFrame_eq, frameBody, fieldAt, leNat]
    omega
  simp [completeReply, field, linkFrame_length, short, Nat.add_comm]

theorem linkFrame_payload : replyPayload (linkFrame a kind payload) = payload := by
  rw [replyPayload, linkFrame_length]
  simp [linkFrame_eq, frameBody]

theorem linkFrame_crcAgrees : crcAgrees (linkFrame a kind payload) = true := by
  have size : (frameBody a kind payload).length = payload.length + 3 := rfl
  have body : ((linkFrame a kind payload).drop 1).take (payload.length + 3) = frameBody a kind payload := by
    rw [linkFrame_eq, List.drop_one, List.tail_cons, List.take_left' size]
  have crc : (linkFrame a kind payload).drop (payload.length + 4) =
      leBytes 2 (crc16 (frameBody a kind payload)).toNat := by
    rw [linkFrame_eq, List.drop_succ_cons, List.drop_left' size]
  rw [crcAgrees, linkFrame_length, beq_iff_eq]
  show wordAt _ (payload.length + 4) = crc16 (((linkFrame a kind payload).drop 1).take (payload.length + 3))
  rw [body, wordAt, fieldAt, crc, List.take_of_length_le (by rw [length_leBytes]), leNat_leBytes, bytes_hold (k := 2),
    BitVec.ofNat_toNat, BitVec.setWidth_eq]

/-- A REPORT frame from the polled node is valid when its payload reads as one (R110). -/
theorem classify_report (short : payload.length ≤ 16) (reads : parseReport n payload = some (echo, report)) :
    classify n false (linkFrame n.val 0x20 payload) = some (.valid echo report) := by
  have checks : (crcAgrees (linkFrame n.val 0x20 payload) &&
      byteAt (linkFrame n.val 0x20 payload) 1 == BitVec.ofNat 8 n.val &&
      byteAt (linkFrame n.val 0x20 payload) 2 == 0x20 && !false) = true := by
    simp [linkFrame_crcAgrees, linkFrame_byte1, linkFrame_byte2]
  rw [classify_complete (linkFrame_complete short), if_neg (not_not.mpr linkFrame_byte0), if_pos checks,
    linkFrame_payload, reads]

/-! ## The payloads of the three kinds of REPORT -/

/-- The bytes of a layout have its width and read as its fields. -/
theorem layoutBytes_reads {b : List Byte} {xs : List (Nat × Nat)} (h : b = layoutBytes xs) :
    b.length = (xs.map Prod.fst).sum ∧ carries b xs := by
  subst h
  exact ⟨length_layoutBytes xs, layoutBytes_carries xs⟩

variable {b : List Byte} {fault : Byte} {register power request available : Word32} {plugged : Bool} {soc : Word16}

theorem parseReport_point (payload : b = [1, echo] ++ leBytes 4 register.toNat ++ leBytes 4 power.toNat ++
      leBytes 4 request.toNat ++ [if plugged then 1 else 0, fault]) :
    parseReport (pointNode p) b = some (echo, .chargePoint register power.toNat request.toNat plugged fault) := by
  have layout : b = layoutBytes [(1, (1 : Byte).toNat), (1, echo.toNat), (4, register.toNat), (4, power.toNat),
      (4, request.toNat), (1, (if plugged then 1 else 0 : Byte).toNat), (1, fault.toNat)] := by
    simp only [payload, layoutBytes, leBytes_one, List.append_assoc, List.cons_append, List.nil_append]
  obtain ⟨size, fields⟩ := layoutBytes_reads layout
  simp only [carries, List.drop_drop, fieldAt_drop, Nat.reduceAdd] at fields
  obtain ⟨variant, echoed, registered, drawn, asked, plug, faulty, -⟩ := fields
  rw [parseReport, if_pos (show (pointNode p).val < 24 from p.isLt), byteAt_of_field variant, byteAt_of_field echoed,
    longAt_of_field registered, drawn, asked, byteAt_of_field plug, byteAt_of_field faulty, bytes_hold, bytes_hold]
  cases plugged <;> exact if_pos ⟨size, by decide⟩

theorem parseReport_canopy
    (payload : b = [2, echo] ++ leBytes 4 power.toNat ++ leBytes 4 available.toNat ++ [fault]) :
    parseReport 24 b = some (echo, .canopy power.toNat available.toNat fault) := by
  have layout : b = layoutBytes [(1, (2 : Byte).toNat), (1, echo.toNat), (4, power.toNat), (4, available.toNat),
      (1, fault.toNat)] := by
    simp only [payload, layoutBytes, leBytes_one, List.append_assoc, List.cons_append, List.nil_append]
  obtain ⟨size, fields⟩ := layoutBytes_reads layout
  simp only [carries, List.drop_drop, fieldAt_drop, Nat.reduceAdd] at fields
  obtain ⟨variant, echoed, drawn, offered, faulty, -⟩ := fields
  rw [parseReport, if_neg (by decide), if_pos (by decide), byteAt_of_field variant, byteAt_of_field echoed, drawn,
    offered, byteAt_of_field faulty, bytes_hold, bytes_hold]
  exact if_pos ⟨size, rfl⟩

theorem parseReport_battery
    (payload : b = [3, echo] ++ leBytes 4 power.toNat ++ leBytes 2 soc.toNat ++ [fault]) :
    parseReport 25 b = some (echo, .battery power.toInt soc.toNat fault) := by
  have layout : b = layoutBytes [(1, (3 : Byte).toNat), (1, echo.toNat), (4, power.toNat), (2, soc.toNat),
      (1, fault.toNat)] := by
    simp only [payload, layoutBytes, leBytes_one, List.append_assoc, List.cons_append, List.nil_append]
  obtain ⟨size, fields⟩ := layoutBytes_reads layout
  simp only [carries, List.drop_drop, fieldAt_drop, Nat.reduceAdd] at fields
  obtain ⟨variant, echoed, drawn, charged, faulty, -⟩ := fields
  rw [parseReport, if_neg (by decide), if_neg (by decide), byteAt_of_field variant, byteAt_of_field echoed,
    longAt_of_field drawn, charged, byteAt_of_field faulty, bytes_hold]
  exact if_pos ⟨size, rfl⟩

/-! ## A valid REPORT -/

/-- The entry after a valid REPORT: a JOINING or LOST node is ONLINE again (R111). -/
theorem Node.reported_eq (x : Node) (echo : Byte) (report : Report) :
    x.reported echo report = { x with
      report := some report, lastEcho := some echo, misses := 0, replyCount := x.replyCount + 1
      state := if x.state = .joining ∨ x.state = .lost then .online else x.state } := by
  unfold reported
  cases x.state <;> rfl

/-- A REPORT taken but not yet handed on: the entry and NODE_JOINED (R111). -/
def State.entered (n : Fin 26) (echo : Byte) (report : Report) (s : State) : State :=
  let t := s.withNode n ((s.node n).reported echo report)
  if (s.node n).state = .joining ∨ (s.node n).state = .lost then t.raise .s .nodeJoined [n.val] else t

theorem State.takeReport_point (p : Point) (echo : Byte) (report : Report) :
    s.takeReport (pointNode p) echo report =
      ((s.entered (pointNode p) echo report).send (.reportToAllocator p echo report)).send
        (.reportToSession p echo report) := by
  simp only [takeReport, nodePoint_pointNode, entered]

theorem State.takeReport_station (station : 24 ≤ n.val) (echo : Byte) (report : Report) :
    s.takeReport n echo report = s.entered n echo report := by
  have noPoint : nodePoint n = none := dif_neg (not_lt.mpr station)
  simp only [takeReport, noPoint, entered]

theorem State.entered_only (n : Fin 26) (echo : Byte) (report : Report) :
    s.onlyChanges [.flc, .noticesS] (s.entered n echo report) :=
  onlyChanges_ite (onlyChanges_then (withNode_only n _) (raise_only .s _ _)) (onlyChanges_mono (withNode_only n _))

theorem State.entered_flc (n : Fin 26) (echo : Byte) (report : Report) :
    (s.entered n echo report).flc = (s.withNode n ((s.node n).reported echo report)).flc := by
  unfold entered
  dsimp only
  split
  · exact raise_only .s _ _ .flc (by decide)
  · rfl

theorem State.entered_noticesS (n : Fin 26) (echo : Byte) (report : Report) :
    (s.entered n echo report).noticesS =
      if (s.node n).state = .joining ∨ (s.node n).state = .lost then s.noticesS.raise 2 [n.val] else s.noticesS := by
  unfold entered
  dsimp only
  split
  · rfl
  · rfl

/-- No REPORT makes an entry ABSENT or takes it out of it. -/
theorem Node.reported_absent (x : Node) (echo : Byte) (report : Report) :
    (x.reported echo report).state = .absent ↔ x.state = .absent := by
  unfold reported
  cases x.state <;> simp

theorem State.takeReport_flc (n : Fin 26) (echo : Byte) (report : Report) :
    (s.takeReport n echo report).flc = (s.withNode n ((s.node n).reported echo report)).flc := by
  rw [← entered_flc]
  exact reportRequests_only n echo report .flc (by decide)

theorem State.takeReport_noticesS (n : Fin 26) (echo : Byte) (report : Report) :
    (s.takeReport n echo report).noticesS =
      if (s.node n).state = .joining ∨ (s.node n).state = .lost then s.noticesS.raise 2 [n.val] else s.noticesS := by
  rw [← entered_noticesS n echo report]
  exact reportRequests_only n echo report .noticesS (by decide)

theorem State.takeReport_node (n m : Fin 26) (echo : Byte) (report : Report) :
    (s.takeReport n echo report).node m = if m = n then (s.node n).reported echo report else s.node m := by
  rw [node, takeReport_flc]
  exact withNode_node s n m _

theorem State.takeReport_requests (p : Point) (echo : Byte) (report : Report) :
    (s.takeReport (pointNode p) echo report).requests =
      s.requests ++ [.reportToAllocator p echo report, .reportToSession p echo report] := by
  have kept : (s.entered (pointNode p) echo report).requests = s.requests :=
    entered_only (pointNode p) echo report .requests (by decide)
  rw [takeReport_point, send, withRequests_requests, send, withRequests_requests, kept, List.append_assoc]
  rfl

/-- A valid REPORT, the exchange ended after it (R106, R111, R112). -/
theorem State.takeReport_reportTaken (n : Fin 26) (echo : Byte) (report : Report) :
    s.ReportTaken n echo report (s.takeReport n echo report).closeExchange where
  ended := by
    refine closeExchange_ended ?_ fun m => ?_
    · rw [takeReport_flc]
      rfl
    · rw [takeReport_node]
      split
      · next same => rw [same]; exact Node.reported_absent _ _ _
      · exact Iff.rfl
  entry := by rw [closeExchange_node, takeReport_node, if_pos rfl, Node.reported_eq]
  others m other := by rw [closeExchange_node, takeReport_node, if_neg other]
  notice := takeReport_noticesS n echo report
  handed p point := by
    subst point
    exact takeReport_requests p echo report
  kept station := by
    show (s.takeReport n echo report).requests = s.requests
    rw [takeReport_station station]
    exact entered_only n echo report .requests (by decide)

/-- The frame of a REPORT that fits the polled node ends its exchange with the REPORT taken (R110). -/
theorem execReplyReceived_report (polled : s.flc.exchange = some ⟨n, false, false⟩) (address : a = n.val)
    (reads : parseReport n payload = some (echo, report)) (short : payload.length ≤ 16) :
    exec (.replyReceived (linkFrame a 0x20 payload)) s = .next (s.takeReport n echo report).closeExchange := by
  subst address
  exact execReplyReceived_ends polled (classify_report short reads)

theorem State.reportTaken_only (n : Fin 26) (echo : Byte) (report : Report) :
    s.onlyChanges [.flc, .noticesS, .requests] (s.takeReport n echo report).closeExchange :=
  onlyChanges_then (takeReport_only n echo report) closeExchange_only

/-- The REPORT of node 24 or 25 goes no further than the node table (R112). -/
theorem State.reportTaken_station (station : 24 ≤ n.val) (echo : Byte) (report : Report) :
    s.onlyChanges [.flc, .noticesS] (s.takeReport n echo report).closeExchange := by
  rw [takeReport_station station]
  exact onlyChanges_then (entered_only n echo report) closeExchange_only

end Sys2Proof.Machine
end

section
/-! SUPPORT. The statement of Chapter 6 about valid REPORTs. -/

open Sys2Proof Sys2Proof.Machine Sys2Proof.Machine.State

/-- Settles O23: each kind's frame is read back field by field, and its REPORT taken. -/
theorem validReportsUpdateTheEntry : Obligations.ValidReportsUpdateTheEntry := by
  refine ⟨fun p echo fault register power request plugged s polled => ?_,
    fun echo fault power available s polled => ?_, fun echo fault power soc s polled => ?_⟩
  · exact ⟨_, execReplyReceived_report polled rfl (parseReport_point rfl) (by simp [length_leBytes]),
      reportTaken_only _ _ _, takeReport_reportTaken _ _ _⟩
  · exact ⟨_, execReplyReceived_report polled rfl (parseReport_canopy rfl) (by simp [length_leBytes]),
      reportTaken_station (by decide) _ _, takeReport_reportTaken _ _ _⟩
  · exact ⟨_, execReplyReceived_report polled rfl (parseReport_battery rfl) (by simp [length_leBytes]),
      reportTaken_station (by decide) _ _, takeReport_reportTaken _ _ _⟩

end

section
/-! SUPPORT. The start of a poll round, and what a judgement leaves of the round (R94, R103, R106). -/

namespace Sys2Proof.Machine

open Sys2Proof State

variable {s t : State} {x : Flc} {n : Fin 26}

/-! ## The start of a round -/

/-- A round that starts takes the held settings and clears the start's mark (R103, R106). -/
theorem Flc.beginRound_kept (x : Flc) :
    x.beginRound.exchange = x.exchange ∧ x.beginRound.line = x.line ∧ x.beginRound.held = x.held ∧
      x.beginRound.startPending = false ∧ x.beginRound.overruns = x.overruns ∧ x.beginRound.inForce = x.held := by
  unfold beginRound
  split
  · exact ⟨rfl, rfl, rfl, rfl, rfl, rfl⟩
  · exact ⟨rfl, rfl, rfl, rfl, rfl, rfl⟩

theorem Flc.beginRound_none (absent : ∀ m : Fin 26, x.nodes[m].state = .absent) : x.beginRound.running = false := by
  simp only [beginRound, firstFrom_eq_none (k := 0) fun m _ => absent m]

theorem Flc.beginRound_first (enrolled : x.nodes[n].state ≠ .absent)
    (before : ∀ m : Fin 26, m < n → x.nodes[m].state = .absent) :
    x.beginRound.running = true ∧ x.beginRound.nextNode = n.val := by
  simp only [beginRound, firstFrom_eq (Nat.zero_le n.val) enrolled fun m _ below => before m below, and_self]

/-- A close while a round runs (R106). -/
theorem Flc.periodClose_overrun (runs : x.running = true) :
    x.periodClose = { x with overruns := min 65535 (x.overruns + 1), startPending := true } := if_pos runs

/-- A close between rounds (R106). -/
theorem Flc.periodClose_begins (rests : x.running = false) : x.periodClose = x.beginRound := by
  simp only [periodClose, rests, Bool.false_eq_true, if_false]

/-! ## A judgement and the round -/

/-- Between the two states the link has changed in its pending broadcast and its entries at most, and no entry has
become ABSENT or left it. -/
structure State.RoundStands (s t : State) : Prop where
  link : t.flc = { s.flc with nodes := t.flc.nodes, broadcastPending := t.flc.broadcastPending }
  absent : ∀ n, (t.node n).state = .absent ↔ (s.node n).state = .absent

theorem State.RoundStands.of_flc (same : t.flc = s.flc) : s.RoundStands t where
  link := by rw [same]
  absent n := by rw [node, same, node]

/-- An ALL-ZERO request writes the pending broadcast, sequences and sent values (R94). -/
theorem State.allZeroRequest_roundStands (s : State) : s.RoundStands s.allZeroRequest where
  link := by
    unfold allZeroRequest Flc.mapPoints
    dsimp only
    rw [withFlc_flc, handValues_flc]
  absent n := by
    have zeroed := s.allZeroRequest_into
    rcases node_cases n with ⟨p, rfl⟩ | station
    · rw [zeroed.chargers p]
    · rw [zeroed.others n station]

/-- An ALL-ZERO request after a change outside the link. -/
theorem State.RoundStands.zeroed (before : t.flc = s.flc) : s.RoundStands t.allZeroRequest := by
  have stands := t.allZeroRequest_roundStands
  refine ⟨?_, fun n => ?_⟩
  · rw [← before]
    exact stands.link
  · rw [stands.absent, node, before, node]

/-- No judgement moves the poll round (R20 to R26, R94). -/
theorem State.JudgedInto.roundStands (judged : s.JudgedInto t) : s.RoundStands t := by
  cases judged with
  | stays l _ => exact .of_flc rfl
  | moves e l _ _ _ _ => exact .of_flc (escalate_only e .flc (by decide))
  | sheds _ => exact .zeroed (escalate_only .shed .flc (by decide))
  | trips _ =>
    rw [enterTripped_eq]
    obtain ⟨link, absent⟩ : s.RoundStands s.moveToTripped.allZeroRequest :=
      .zeroed (moveToTripped_only .flc (by decide))
    exact ⟨link, absent⟩

/-- What a close does to the link: the judgement leaves the round, then the round starts or is overrun (R106). -/
theorem State.closePeriod_round (r : Reading) :
    ∃ v, s.RoundStands v ∧ (s.closePeriod r).flc = v.flc.periodClose := by
  obtain ⟨link, absent⟩ := JudgedInto.roundStands
    (applyJudgement_judged (s := s.withCmu (s.cmu.close s.site.tBal r (s.lsu.judge r))) (s.lsu.judge r))
  exact ⟨s.judgedAt r, ⟨link, absent⟩, closePeriod_flc r⟩

end Sys2Proof.Machine
end

section
/-! SUPPORT. The statement of Chapter 6 about the start of a round. -/

open Sys2Proof Sys2Proof.Machine Sys2Proof.Machine.State

/-- Settles O29: the judgement leaves the round as it stands, and the close then finds one running or none. -/
theorem aPeriodCloseStartsAPollRound : Obligations.APeriodCloseStartsAPollRound := by
  intro x s
  obtain ⟨v, stands, closed⟩ := (s.withCmu (s.cmu.accumulate x)).closePeriod_round (s.cmu.accumulate x).formReading
  refine ⟨_, execPeriodClose_eq x s, ?_⟩
  rw [closed]
  have absent (n : Fin 26) : v.flc.nodes[n].state = .absent ↔ (s.node n).state = .absent := stands.absent n
  have link : v.flc = { s.flc with nodes := v.flc.nodes, broadcastPending := v.flc.broadcastPending } := stands.link
  cases rounds : s.flc.running with
  | true =>
    rw [Flc.periodClose_overrun (by rw [link]; exact rounds), link]
    exact ⟨rfl, rfl, rfl, fun _ => ⟨rounds, rfl, rfl, rfl, rfl⟩, fun rests => Bool.noConfusion rests⟩
  | false =>
    rw [Flc.periodClose_begins (by rw [link]; exact rounds)]
    obtain ⟨exchange, line, held, pending, overruns, inForce⟩ := v.flc.beginRound_kept
    refine ⟨exchange.trans (by rw [link]), line.trans (by rw [link]), held.trans (by rw [link]),
      fun runs => Bool.noConfusion runs, fun _ => ⟨pending, overruns.trans (by rw [link]), inForce.trans (by rw [link]),
        fun all => ?_, fun n enrolled before => ?_⟩⟩
    · exact Flc.beginRound_none fun n => (absent n).mpr (all n)
    · exact Flc.beginRound_first (mt (absent n).mp enrolled) fun m below => (absent m).mpr (before m below)

end

section
/-! SUPPORT. CONFIGURE POINT: its clamps, the entry it leaves, and a change of kind (R90, R95, R99, R100, R117). -/

namespace Sys2Proof.Machine

open Sys2Proof State

variable {s u : State} {p : Point} {k : NodeKind} {kind : Byte} {a b f : Word32} {maximum minimum failsafe : Nat}

@[simp] theorem State.ok_node (port : Port) (clamped : Bool) (result : List Byte) (n : Fin 26) :
    (s.ok port clamped result).node n = s.node n := by
  rw [node, ok_flc, node]

/-! ## Operands -/

theorem kindOperand_none (h : kind ≠ 1 ∧ kind ≠ 2 ∧ kind ≠ 3) : kindOperand kind = none := by
  obtain ⟨h1, h2, h3⟩ := h
  rw [kindOperand, if_neg h1, if_neg h2, if_neg h3]

/-- The clamps of R99 in their order: the failsafe falls under the clamped maximum. -/
theorem clampPoint_eq (k : NodeKind) (a b f : Nat) :
    let top := if k = .dc then max 1400 (min 150000 a) else max 60 (min 800 a)
    clampPoint k a b f =
      ⟨top, if k = .dc then min 20000 b else max 60 (min 160 b), min f top⟩ := by
  simp only [clampPoint, clampTo, Nat.zero_max]

theorem configurePointOp_refused {point : Byte} (h : 24 ≤ point.toNat ∨ (kind ≠ 1 ∧ kind ≠ 2 ∧ kind ≠ 3)) :
    configurePointOp point kind a b f s = s.turnDown .s .refused .badValue := by
  unfold configurePointOp
  rcases h with point | kind
  · rw [pointOperand_none point]
  · rw [kindOperand_none kind]
    cases pointOperand point <;> rfl

theorem configurePointOp_busy (known : kindOperand kind = some k)
    (busy : (s.node (pointNode p)).kind ≠ k ∧ (s.session p).state ≠ .free) :
    configurePointOp (BitVec.ofNat 8 p.val) kind a b f s = s.turnDown .s .busy .state := by
  simp only [configurePointOp, pointOperand_point, known, if_pos busy]

theorem configurePointOp_accepted (known : kindOperand kind = some k)
    (accepted : ¬((s.node (pointNode p)).kind ≠ k ∧ (s.session p).state ≠ .free))
    (clamps : clampPoint k a.toNat b.toNat f.toNat = ⟨maximum, minimum, failsafe⟩) :
    configurePointOp (BitVec.ofNat 8 p.val) kind a b f s =
      (s.configurePoint p k ⟨maximum, minimum, failsafe⟩).ok .s
        (decide (¬(a.toNat = maximum ∧ b.toNat = minimum ∧ f.toNat = failsafe))) [] := by
  have flag : ((⟨maximum, minimum, failsafe⟩ : PointLimits) != ⟨a.toNat, b.toNat, f.toNat⟩) =
      decide (¬(a.toNat = maximum ∧ b.toNat = minimum ∧ f.toNat = failsafe)) := by
    rw [bne, beq_eq_decide, ← decide_not, decide_eq_decide, PointLimits.mk.injEq]
    simp only [eq_comm]
  simp only [configurePointOp, pointOperand_point, known, if_neg accepted, clamps, flag]

/-! ## The entry -/

/-- The entry an accepted CONFIGURE POINT leaves: enrolled, given its limits, or changed in kind (R100). -/
def Node.configured (x : Node) (k : NodeKind) (l : PointLimits) : Node :=
  let y := { x with kind := k, maximum := l.maximum, minimum := l.minimum, failsafe := l.failsafe }
  if x.state = .absent then { y with state := .joining }
  else if x.kind = k then y
  else { y with state := .joining, misses := 0, report := none, lastEcho := none }

variable {x : Node} {l : PointLimits}

theorem Node.configured_absent (absent : x.state = .absent) : x.configured k l =
    { x with
      kind := k, maximum := l.maximum, minimum := l.minimum, failsafe := l.failsafe, state := .joining } :=
  if_pos absent

theorem Node.configured_limits (enrolled : x.state ≠ .absent) (same : x.kind = k) : x.configured k l =
    { x with kind := k, maximum := l.maximum, minimum := l.minimum, failsafe := l.failsafe } :=
  (if_neg enrolled).trans (if_pos same)

theorem Node.configured_changed (enrolled : x.state ≠ .absent) (other : x.kind ≠ k) : x.configured k l =
    { x with
      kind := k, maximum := l.maximum, minimum := l.minimum, failsafe := l.failsafe, state := .joining, misses := 0
      report := none, lastEcho := none } := (if_neg enrolled).trans (if_neg other)

/-- The configured entry keeps what was sent and counted. -/
theorem Node.configured_eq (x : Node) (k : NodeKind) (l : PointLimits) : x.configured k l =
    { x with
      kind := k, maximum := l.maximum, minimum := l.minimum, failsafe := l.failsafe
      state := (x.configured k l).state, misses := (x.configured k l).misses
      report := (x.configured k l).report, lastEcho := (x.configured k l).lastEcho } := by
  unfold configured
  dsimp only
  split
  · rfl
  split
  · rfl
  · rfl

/-! ## The change before the point is taken out of ONLINE -/

/-- The entry placed, and a change of kind noted in the exchange in progress (R100, R117; log entry 16). -/
def State.placeConfig (p : Point) (k : NodeKind) (l : PointLimits) (s : State) : State :=
  let t := s.withNode (pointNode p) ((s.node (pointNode p)).configured k l)
  if (s.node (pointNode p)).state = .absent ∨ (s.node (pointNode p)).kind = k then t
  else t.withFlc (t.flc.markKindChanged (pointNode p))

theorem State.configurePoint_leaves (on : (s.node (pointNode p)).state = .online)
    (other : (s.node (pointNode p)).kind ≠ k) : s.configurePoint p k l = (s.placeConfig p k l).leaveOnline p := by
  have enrolled : (s.node (pointNode p)).state ≠ .absent := by simp [on]
  unfold configurePoint placeConfig
  dsimp only
  rw [if_neg enrolled, if_neg other, if_pos on, if_neg (not_or.mpr ⟨enrolled, other⟩),
    Node.configured_changed enrolled other]

theorem State.configurePoint_stays (stays : (s.node (pointNode p)).state ≠ .online ∨ (s.node (pointNode p)).kind = k) :
    s.configurePoint p k l = s.placeConfig p k l := by
  unfold configurePoint placeConfig
  dsimp only
  by_cases absent : (s.node (pointNode p)).state = .absent
  · rw [if_pos absent, if_pos (.inl absent), Node.configured_absent absent]
  by_cases same : (s.node (pointNode p)).kind = k
  · rw [if_neg absent, if_pos same, if_pos (.inr same), Node.configured_limits absent same]
  · rw [if_neg absent, if_neg same, if_neg (stays.resolve_right same), if_neg (not_or.mpr ⟨absent, same⟩),
      Node.configured_changed absent same]

theorem State.placeConfig_node (n : Fin 26) : (s.placeConfig p k l).node n =
    if n = pointNode p then (s.node (pointNode p)).configured k l else s.node n := by
  unfold placeConfig
  dsimp only
  split
  · exact withNode_node _ _ _ _
  · exact withNode_node _ _ _ _

theorem State.placeConfig_flc : (s.placeConfig p k l).flc =
    { s.flc with nodes := (s.placeConfig p k l).flc.nodes, exchange := (s.placeConfig p k l).flc.exchange } := by
  unfold placeConfig
  dsimp only
  split
  · rfl
  · rfl

theorem State.placeConfig_only : s.onlyChanges [.flc] (s.placeConfig p k l) :=
  onlyChanges_ite (withNode_only _ _) (onlyChanges_then (withNode_only _ _) (withFlc_only _))

theorem State.placeConfig_exchange_same
    (keeps : (s.node (pointNode p)).state = .absent ∨ (s.node (pointNode p)).kind = k) :
    (s.placeConfig p k l).flc.exchange = s.flc.exchange := by
  simp only [placeConfig, if_pos keeps]
  rfl

theorem State.placeConfig_exchange_marked
    (changes : ¬((s.node (pointNode p)).state = .absent ∨ (s.node (pointNode p)).kind = k)) :
    (s.placeConfig p k l).flc.exchange =
      s.flc.exchangeMarked (pointNode p) (fun e => { e with kindChanged := true }) := by
  simp only [placeConfig, if_neg changes]
  rfl

/-! ## The whole change -/

/-- The staging test after it hands out sequences and touches nothing else of the link. -/
theorem State.configurePoint_link (p : Point) (k : NodeKind) (l : PointLimits) (s : State) :
    (s.configurePoint p k l).flc = { (s.placeConfig p k l).flc with nodes := (s.configurePoint p k l).flc.nodes } ∧
    ∀ n, { (s.configurePoint p k l).node n with sequence := 0 } =
      { (s.placeConfig p k l).node n with sequence := 0 } := by
  by_cases stays : (s.node (pointNode p)).state ≠ .online ∨ (s.node (pointNode p)).kind = k
  · rw [configurePoint_stays stays]
    exact ⟨rfl, fun _ => rfl⟩
  · obtain ⟨on, other⟩ := not_or.mp stays
    rw [configurePoint_leaves (not_not.mp on) other]
    obtain ⟨link, entries, -⟩ := leaveOnline_all p (s.placeConfig p k l)
    exact ⟨link, entries⟩

theorem State.configurePoint_exchange (p : Point) (k : NodeKind) (l : PointLimits) (s : State) :
    (s.configurePoint p k l).flc.exchange = (s.placeConfig p k l).flc.exchange := by
  rw [(configurePoint_link p k l s).1]

theorem State.configurePoint_entry (p : Point) (k : NodeKind) (l : PointLimits) (s : State) :
    (s.configurePoint p k l).node (pointNode p) = { (s.node (pointNode p)).configured k l with
      sequence := ((s.configurePoint p k l).node (pointNode p)).sequence } := by
  have entry := (configurePoint_link p k l s).2 (pointNode p)
  rw [placeConfig_node, if_pos rfl] at entry
  exact Node.eq_of_sequences entry

/-- What CONFIGURE POINT writes in every case, and what it keeps (R99, R100). -/
theorem State.configurePoint_settings (p : Point) (k : NodeKind) (l : PointLimits) (s : State) :
    let y := (s.configurePoint p k l).node (pointNode p)
    y = { s.node (pointNode p) with
      kind := k, maximum := l.maximum, minimum := l.minimum, failsafe := l.failsafe
      state := y.state, misses := y.misses, report := y.report, lastEcho := y.lastEcho, sequence := y.sequence } := by
  have entry := configurePoint_entry p k l s
  rw [Node.configured_eq] at entry
  dsimp only
  rw [entry]

theorem State.configurePoint_others (p : Point) (k : NodeKind) (l : PointLimits) (s : State) :
    s.otherNodesSameButSequences (pointNode p) (s.configurePoint p k l) := by
  intro n other
  rw [(configurePoint_link p k l s).2 n, placeConfig_node, if_neg other]

/-- A change of kind takes an ONLINE point out of ONLINE (R95; log entry 17). -/
theorem State.configurePoint_leftOnline (on : (s.node (pointNode p)).state = .online)
    (other : (s.node (pointNode p)).kind ≠ k) (alu : u.alu = (s.configurePoint p k l).alu)
    (nodes : ∀ n, u.node n = (s.configurePoint p k l).node n) : s.LeftOnline p u := by
  rw [configurePoint_leaves on other] at alu nodes
  refine (leaveOnline_into p (s.placeConfig p k l)).congr p (placeConfig_only .alu (by decide)) ?_ ?_ ?_ ?_ alu ?_ ?_
  · rw [now, placeConfig_only .ssu (by decide), now]
  · intro q apart
    rw [online, placeConfig_node, if_neg fun same => apart (pointNode_injective same), online]
  · intro n
    rw [placeConfig_node]
    split
    · next same => rw [same, Node.configured_eq]
    · rfl
  · intro n station
    rw [placeConfig_node, if_neg]
    rintro rfl
    exact absurd p.isLt (not_lt.mpr station)
  · exact fun n => by rw [nodes]
  · exact fun n _ => nodes n

end Sys2Proof.Machine
end

section
/-! SUPPORT. The statement of Chapter 6 about CONFIGURE POINT. -/

open Sys2Proof Sys2Proof.Machine Sys2Proof.Machine.State

/-- Settles O25: refused, busy, or the entry placed and, on a change of kind, the point out of ONLINE. -/
theorem configurePointEnrolsOrChangesACharger : Obligations.ConfigurePointEnrolsOrChangesACharger := by
  refine ⟨fun point kind a b f s bad => ⟨_, rfl, ?_⟩, ?_⟩
  · show s.turnedAway .s .refused .badValue (configurePointOp point kind a b f s)
    rw [configurePointOp_refused bad]
    exact turnDown_turnedAway _ _ _
  intro p k kind a b f s known x maximum minimum failsafe
  have clamps : clampPoint k a.toNat b.toNat f.toNat = ⟨maximum, minimum, failsafe⟩ := clampPoint_eq _ _ _ _
  clear_value failsafe minimum maximum
  refine ⟨configurePointOp (BitVec.ofNat 8 p.val) kind a b f s, rfl, fun busy => ?_, fun accepted => ?_⟩
  · rw [configurePointOp_busy known busy]
    exact turnDown_turnedAway _ _ _
  have only := configurePointOp_only (s := s) (BitVec.ofNat 8 p.val) kind a b f
  rw [configurePointOp_accepted known accepted clamps] at only ⊢
  simp only [ok_node, ok_flc, ok_alu]
  have settings := configurePoint_settings p k ⟨maximum, minimum, failsafe⟩ s
  have staysAs (stays : x.state ≠ .online ∨ x.kind = k) :=
    configurePoint_stays (l := ⟨maximum, minimum, failsafe⟩) stays
  refine ⟨ok_answered _ _ _ (configurePoint_only _ _ _ .replies (by decide)), only, (congrArg Node.kind settings :),
    (congrArg Node.maximum settings :), (congrArg Node.minimum settings :), (congrArg Node.failsafe settings :),
    (congrArg Node.sentValue settings :), (congrArg Node.sentPower settings :),
    (congrArg Node.sentFailsafe settings :), (congrArg Node.frameErrors settings :),
    (congrArg Node.replyCount settings :), ?_,
    configurePoint_others p k _ s, fun stays => ?_, fun absent => ?_, fun enrolled same => ?_, fun enrolled other => ?_,
    fun on other => configurePoint_leftOnline on other (ok_alu _ _ _) (ok_node _ _ _), fun off => ?_⟩
  · rw [(configurePoint_link p k _ s).1, placeConfig_flc]
  · rw [staysAs stays]
    exact ⟨placeConfig_only .alu (by decide), fun n other => (placeConfig_node n).trans (if_neg other)⟩
  · rw [configurePoint_exchange, placeConfig_exchange_same (.inl absent), staysAs (.inl (by rw [absent]; decide)),
      placeConfig_node, if_pos rfl, Node.configured_absent absent]
    exact ⟨rfl, rfl⟩
  · rw [configurePoint_exchange, placeConfig_exchange_same (.inr same), staysAs (.inr same), placeConfig_node,
      if_pos rfl, Node.configured_limits enrolled same]
    exact ⟨rfl, rfl⟩
  · have entry := configurePoint_entry p k ⟨maximum, minimum, failsafe⟩ s
    rw [Node.configured_changed enrolled other] at entry
    exact ⟨congrArg Node.state entry, congrArg Node.misses entry, congrArg Node.report entry,
      congrArg Node.lastEcho entry, (configurePoint_exchange _ _ _ _).trans
        (placeConfig_exchange_marked (not_or.mpr ⟨enrolled, other⟩))⟩
  · rw [staysAs (.inl off), placeConfig_node, if_pos rfl, Node.configured_eq]

end

section
/-! SUPPORT. REMOVE POINT: the entry it clears, the point it takes out of ONLINE and the round it moves on (R90, R95,
R102, R106). -/

namespace Sys2Proof.Machine

open Sys2Proof State

variable {s u : State} {n : Fin 26} {p : Point}

/-! ## Its checks -/

theorem State.nodeInUse_iff (s : State) (n : Fin 26) :
    s.nodeInUse n = true ↔ ∃ p, pointNode p = n ∧ (s.session p).state ≠ .free := by
  rw [nodeInUse, Option.any_eq_true]
  refine exists_congr fun p => and_congr ⟨pointNode_of_nodePoint, ?_⟩ bne_iff_ne
  rintro rfl
  exact nodePoint_pointNode p

theorem removePointOp_refused {node : Byte} (h : 26 ≤ node.toNat) :
    removePointOp node s = s.turnDown .s .refused .badValue := by
  simp only [removePointOp, nodeOperand_none h]

theorem removePointOp_busy (busy : s.nodeInUse n = true) :
    removePointOp (BitVec.ofNat 8 n.val) s = s.turnDown .s .busy .state := by
  simp only [removePointOp, nodeOperand_node, if_pos busy]

theorem removePointOp_absent (unused : ¬s.nodeInUse n = true) (absent : (s.node n).state = .absent) :
    removePointOp (BitVec.ofNat 8 n.val) s = s.ok .s false [] := by
  simp only [removePointOp, nodeOperand_node, if_neg unused, if_pos absent]

theorem removePointOp_removes (unused : ¬s.nodeInUse n = true) (enrolled : (s.node n).state ≠ .absent) :
    removePointOp (BitVec.ofNat 8 n.val) s = (s.removeNode n).ok .s false [] := by
  simp only [removePointOp, nodeOperand_node, if_neg unused, if_neg enrolled]

/-! ## The round -/

/-- The link once a node's entry is cleared: the exchange in progress marked, or between exchanges the round moved on
(R102, R106). -/
def Flc.afterRemoval (x : Flc) (n : Fin 26) : Flc :=
  if (x.markRemoved n).exchange = none then (x.markRemoved n).advance else x.markRemoved n

theorem Flc.markRemoved_eq (x : Flc) (n : Fin 26) :
    x.markRemoved n = { x with exchange := x.exchangeMarked n (fun e => { e with removed := true }) } := rfl

theorem Flc.exchangeMarked_none {x : Flc} {mark : Exchange → Exchange} :
    x.exchangeMarked n mark = none ↔ x.exchange = none := Option.map_eq_none_iff

theorem Flc.afterRemoval_kept (x : Flc) (n : Fin 26) :
    (x.afterRemoval n).held = x.held ∧ (x.afterRemoval n).overruns = x.overruns ∧ (x.afterRemoval n).line = x.line ∧
      (x.afterRemoval n).broadcastPending = x.broadcastPending ∧
      (x.afterRemoval n).exchange = x.exchangeMarked n (fun e => { e with removed := true }) ∧
      (x.afterRemoval n).nodes = x.nodes := by
  obtain ⟨held, overruns, broadcast, line, exchange, nodes⟩ := (x.markRemoved n).advance_kept
  unfold afterRemoval
  split
  · exact ⟨held, overruns, line, broadcast, exchange, nodes⟩
  · exact ⟨rfl, rfl, rfl, rfl, rfl, rfl⟩

/-- During an exchange the round stays as it is (R102; log entry 15). -/
theorem Flc.afterRemoval_during {x : Flc} (busy : x.exchange ≠ none) : x.afterRemoval n = x.markRemoved n :=
  if_neg (mt exchangeMarked_none.mp busy)

/-- Between exchanges the round moves on (R106; log entry 15). -/
theorem Flc.afterRemoval_between {x : Flc} (idle : x.exchange = none) : x.RoundMoved (x.afterRemoval n) := by
  have gone : (x.markRemoved n).exchange = none := exchangeMarked_none.mpr idle
  rw [afterRemoval, if_pos gone]
  exact roundMoved_congr (advance_moved _) rfl rfl rfl rfl rfl fun _ => Iff.rfl

/-! ## The entry -/

/-- The node's entry cleared, its point out of ONLINE before (R95, R102). -/
def State.clearNode (n : Fin 26) (s : State) : State :=
  let t := s.leaveIfOnline n
  t.withNode n ((t.node n).removed (nodePoint n).isSome)

theorem State.leaveIfOnline_point (on : (s.node (pointNode p)).state = .online) :
    s.leaveIfOnline (pointNode p) = s.leaveOnline p := by
  simp only [leaveIfOnline, nodePoint_pointNode, online, on, beq_self_eq_true, if_true]

/-- A node that is not ONLINE, or is not a charge point's, takes no point out of ONLINE (R95). -/
theorem State.leaveIfOnline_stays (stays : (s.node n).state ≠ .online ∨ 24 ≤ n.val) : s.leaveIfOnline n = s := by
  unfold leaveIfOnline
  split
  · next p point =>
    obtain rfl := pointNode_of_nodePoint point
    refine if_neg fun on => ?_
    rcases stays with off | station
    · exact off (by simpa [online] using on)
    · exact absurd p.isLt (not_lt.mpr station)
  · rfl

/-- The staging test on leaving ONLINE hands out sequences and touches nothing else of the link (R91, R95). -/
theorem State.leaveIfOnline_link (s : State) (n : Fin 26) :
    (s.leaveIfOnline n).flc = { s.flc with nodes := (s.leaveIfOnline n).flc.nodes } ∧
    ∀ m, { (s.leaveIfOnline n).node m with sequence := 0 } = { s.node m with sequence := 0 } := by
  unfold leaveIfOnline
  split
  · split
    · next p _ _ =>
      obtain ⟨link, entries, -⟩ := leaveOnline_all p s
      exact ⟨link, entries⟩
    · exact ⟨rfl, fun _ => rfl⟩
  · exact ⟨rfl, fun _ => rfl⟩

theorem State.clearNode_node (m : Fin 26) : (s.clearNode n).node m =
    if m = n then ((s.leaveIfOnline n).node n).removed (nodePoint n).isSome else (s.leaveIfOnline n).node m :=
  withNode_node _ _ _ _

theorem State.clearNode_flc (s : State) (n : Fin 26) :
    (s.clearNode n).flc = { s.flc with nodes := (s.clearNode n).flc.nodes } := by
  have placed : (s.clearNode n).flc = { (s.leaveIfOnline n).flc with nodes := (s.clearNode n).flc.nodes } := rfl
  exact placed.trans (by rw [(leaveIfOnline_link s n).1])

theorem State.removeNode_flc (s : State) (n : Fin 26) :
    (s.removeNode n).flc = (s.clearNode n).flc.afterRemoval n := rfl

theorem State.removeNode_nodes (s : State) (n : Fin 26) : (s.removeNode n).flc.nodes = (s.clearNode n).flc.nodes := by
  obtain ⟨-, -, -, -, -, nodes⟩ := (s.clearNode n).flc.afterRemoval_kept n
  exact nodes

theorem State.removeNode_node (m : Fin 26) : (s.removeNode n).node m =
    if m = n then ((s.leaveIfOnline n).node n).removed (nodePoint n).isSome else (s.leaveIfOnline n).node m := by
  rw [← clearNode_node, node, removeNode_nodes, node]

theorem State.removeNode_alu (s : State) (n : Fin 26) : (s.removeNode n).alu = (s.leaveIfOnline n).alu := rfl

/-- The entry is cleared but for the sequence, which the loss of ONLINE may have moved (R89, R102, R108). -/
theorem State.removeNode_entry (s : State) (n : Fin 26) : (s.removeNode n).node n =
    { (s.node n).removed (nodePoint n).isSome with sequence := ((s.removeNode n).node n).sequence } := by
  have entry : (s.removeNode n).node n = ((s.leaveIfOnline n).node n).removed (nodePoint n).isSome :=
    (removeNode_node n).trans (if_pos rfl)
  rw [entry, Node.eq_of_sequences ((leaveIfOnline_link s n).2 n)]
  rfl

theorem State.removeNode_others (s : State) (n : Fin 26) : s.otherNodesSameButSequences n (s.removeNode n) := by
  intro m other
  rw [removeNode_node, if_neg other]
  exact (leaveIfOnline_link s n).2 m

/-- With no point to take out of ONLINE, the removal reaches the node's entry only. -/
theorem State.removeNode_stays (stays : (s.node n).state ≠ .online ∨ 24 ≤ n.val) :
    (s.removeNode n).alu = s.alu ∧ s.otherNodesSame n (s.removeNode n) ∧
      (s.removeNode n).node n = (s.node n).removed (nodePoint n).isSome := by
  have same := leaveIfOnline_stays stays
  refine ⟨?_, fun m other => ?_, ?_⟩
  · rw [removeNode_alu, same]
  · rw [removeNode_node, if_neg other, same]
  · rw [removeNode_node, if_pos rfl, same]

/-- The removal of an ONLINE charge point (R95; log entry 17). -/
theorem State.removeNode_leftOnline (on : (s.node (pointNode p)).state = .online)
    (alu : u.alu = (s.removeNode (pointNode p)).alu)
    (nodes : ∀ m, u.node m = (s.removeNode (pointNode p)).node m) : s.LeftOnline p u := by
  have left := leaveIfOnline_point on
  rw [removeNode_alu, left] at alu
  have entries (m : Fin 26) : u.node m =
      if m = pointNode p then ((s.leaveOnline p).node (pointNode p)).removed (nodePoint (pointNode p)).isSome
      else (s.leaveOnline p).node m := by
    rw [nodes, removeNode_node, left]
  refine (leaveOnline_into p s).congr p rfl rfl (fun _ _ => rfl) (fun _ => rfl) (fun _ _ => rfl) alu (fun m => ?_)
    fun m station => ?_
  · rw [entries]
    split
    · next same => rw [same]; rfl
    · rfl
  · rw [entries, if_neg]
    rintro rfl
    exact absurd p.isLt (not_lt.mpr station)

end Sys2Proof.Machine
end

section
/-! SUPPORT. The statement of Chapter 6 about REMOVE POINT. -/

open Sys2Proof Sys2Proof.Machine Sys2Proof.Machine.State

/-- Settles O26: refused, busy, absent, or the entry cleared and the round moved on or its exchange marked. -/
theorem removePointClearsTheEntry : Obligations.RemovePointClearsTheEntry := by
  refine ⟨fun node s high => ⟨removePointOp node s, rfl, ?_⟩, fun n s => ?_⟩
  · rw [removePointOp_refused high]
    exact turnDown_turnedAway _ _ _
  intro x busy
  have inUse : s.nodeInUse n = true ↔ busy := nodeInUse_iff s n
  refine ⟨removePointOp (BitVec.ofNat 8 n.val) s, rfl, fun occupied => ?_, fun unused absent => ?_,
    fun unused enrolled => ?_⟩
  · rw [removePointOp_busy (inUse.mpr occupied)]
    exact turnDown_turnedAway _ _ _
  · rw [removePointOp_absent (mt inUse.mp unused) absent]
    exact ⟨ok_answered _ _ _ rfl, ok_only _ _ _⟩
  have only := removePointOp_only (s := s) (BitVec.ofNat 8 n.val)
  rw [removePointOp_removes (mt inUse.mp unused) enrolled] at only ⊢
  simp only [ok_node, ok_flc, ok_alu]
  have entry := removeNode_entry s n
  have link := clearNode_flc s n
  obtain ⟨held, overruns, line, broadcast, exchange, -⟩ := (s.clearNode n).flc.afterRemoval_kept n
  refine ⟨ok_answered _ _ _ (removeNode_only n .replies (by decide)), only, (congrArg Node.state entry :),
    (congrArg Node.report entry :), (congrArg Node.lastEcho entry :), (congrArg Node.misses entry :),
    (congrArg Node.frameErrors entry :), (congrArg Node.replyCount entry :), (congrArg Node.sentValue entry :),
    (congrArg Node.sentPower entry :), (congrArg Node.sentFailsafe entry :), ?_, fun during => ?_, fun between => ?_,
    ?_, ?_, ?_, ?_, removeNode_others s n, fun off => ?_, fun point => ?_, fun station => ?_, ?_⟩
  · exact exchange.trans (by rw [link]; rfl)
  · rw [removeNode_flc, Flc.afterRemoval_during (by rw [link]; exact during), Flc.markRemoved_eq, link]
    exact ⟨rfl, rfl, rfl, rfl⟩
  · rw [removeNode_nodes, ← link]
    exact Flc.afterRemoval_between (by rw [link]; exact between)
  · exact held.trans (by rw [link])
  · exact overruns.trans (by rw [link])
  · exact line.trans (by rw [link])
  · exact broadcast.trans (by rw [link])
  · obtain ⟨alu, others, own⟩ := removeNode_stays (.inl off)
    exact ⟨alu, others, (congrArg Node.sequence own :)⟩
  · have charger : (nodePoint n).isSome = true := by rw [nodePoint, dif_pos point]; rfl
    rw [charger] at entry
    exact ⟨(congrArg Node.kind entry :), (congrArg Node.maximum entry :), (congrArg Node.minimum entry :),
      (congrArg Node.failsafe entry :)⟩
  · have charger : (nodePoint n).isSome = false := by rw [nodePoint, dif_neg (not_lt.mpr station)]; rfl
    obtain ⟨alu, others, own⟩ := removeNode_stays (.inr station)
    rw [charger] at own
    exact ⟨(congrArg Node.kind own :), (congrArg Node.failsafe own :), alu, (congrArg Node.sequence own :), others⟩
  · rintro p rfl on
    exact removeNode_leftOnline on (ok_alu _ _ _) (ok_node _ _ _)

end

section
/-! SUPPORT. A second tick: the lapse of the lease, its count, the calendar and the idle seconds (R10 to R12, R14, R16,
R63, R144). -/

namespace Sys2Proof.Machine

open Sys2Proof State

variable {s t : State}

/-! ## The lease -/

theorem State.lapse_lsu : s.lapse.lsu = { s.lsu with
    lease := .lapsed, leaseCount := 0
    lEff := s.lsu.limitFor s.lsu.line .lapsed
    checkLimit := s.lsu.checkAfter (s.lsu.limitFor s.lsu.line .lapsed) } := by
  unfold lapse
  rw [republishAndAsk_lsu, raise_lsu, withLsu_lsu, Lsu.republish_eq, Lsu.effective_eq_limitFor]
  rfl

/-- A lapse asks for a recompute when L_eff changes (R12, R16). -/
theorem State.lapse_requests :
    if s.lsu.limitFor s.lsu.line .lapsed = s.lsu.lEff then s.lapse.requests = s.requests
    else s.asksRecompute s.lapse := by
  have requests : s.lapse.requests = _ := republishAndAsk_requests
  rw [raise_lsu, withLsu_lsu, Lsu.effective_eq_limitFor] at requests
  split
  · next same => exact requests.trans (if_pos same)
  · next changed => exact (requests.trans (if_neg changed)).trans (sendRecompute_asks rfl rfl)

theorem State.lapse_lapsed : s.leaseLapsed s.lapse :=
  ⟨lapse_lsu, republishAndAsk_only .noticesS (by decide), lapse_requests⟩

theorem State.leaseTick_lapses (live : s.lsu.lease = .live) (last : s.lsu.leaseCount ≤ 1) :
    s.leaseTick = s.lapse := by
  simp only [leaseTick, live, if_pos last]

theorem State.leaseTick_counts (live : s.lsu.lease = .live) (more : 1 < s.lsu.leaseCount) :
    s.leaseTick = s.withLsu { s.lsu with leaseCount := s.lsu.leaseCount - 1 } := by
  simp only [leaseTick, live, if_neg (not_le.mpr more)]

theorem State.leaseTick_stays (off : s.lsu.lease ≠ .live) : s.leaseTick = s := by
  unfold leaseTick
  split
  · next live => exact absurd live off
  · rfl
  · rfl

theorem execLeaseLapse_live (live : s.lsu.lease = .live) : execLeaseLapse s = .next s.lapse := by
  simp only [execLeaseLapse, live]

theorem execLeaseLapse_stays (off : s.lsu.lease ≠ .live) : execLeaseLapse s = .next s := by
  unfold execLeaseLapse
  split
  · next live => exact absurd live off
  · rfl
  · rfl

/-! ## The calendar and the idle seconds -/

/-- A second tick before the lease: the calendar advanced (R144), then the idle seconds (R63). -/
def State.tickClocks (s : State) : State :=
  (s.withTfu { s.tfu with calendar := s.tfu.calendar + 1, secondTimer := 0 }).withSsu
    { s.ssu with sessions := s.ssu.sessions.map Session.idleTick }

theorem execSecondTick_eq (s : State) : execSecondTick s = .next s.tickClocks.leaseTick := rfl

theorem Session.idleTick_eq (x : Session) : x.idleTick =
    if x.state = .done then { x with idleSeconds := min 4294967295 (x.idleSeconds + 1) } else x := by
  cases state : x.state with
  | done => rw [idleTick, state]; rfl
  | _ => rw [idleTick, state]; rfl

theorem State.tickClocks_session (s : State) (p : Point) : s.tickClocks.session p = (s.session p).idleTick :=
  Vector.getElem_map _ _

end Sys2Proof.Machine
end

section
/-! SUPPORT. The statement about the second tick and the lapse of the lease. -/

open Sys2Proof Sys2Proof.Machine Sys2Proof.Machine.State

/-- Settles O7: the clocks advance first and leave the lease alone; then the lease's three cases. -/
theorem secondTickCountsTheLeaseDown : Obligations.SecondTickCountsTheLeaseDown := by
  refine ⟨fun s => ?_, fun s => ?_⟩
  · have units := leaseTick_only (s := s.tickClocks)
    have records : s.tickClocks.leaseTick.ssu = s.tickClocks.ssu := units .ssu (by decide)
    refine ⟨s.tickClocks.leaseTick, execSecondTick_eq s, execSecondTick_only (execSecondTick_eq s),
      units .tfu (by decide), (congrArg Ssu.timeBase records :), fun p => ?_, fun live last => ?_, fun live more => ?_,
      fun off => ?_⟩
    · rw [session, records]
      exact (s.tickClocks_session p).trans (s.session p).idleTick_eq
    · rw [leaseTick_lapses (s := s.tickClocks) live last]
      exact lapse_lapsed (s := s.tickClocks)
    · rw [leaseTick_counts (s := s.tickClocks) live more]
      exact ⟨rfl, rfl, rfl⟩
    · rw [leaseTick_stays (s := s.tickClocks) off]
      exact ⟨rfl, rfl, rfl⟩
  · by_cases live : s.lsu.lease = .live
    · exact ⟨s.lapse, execLeaseLapse_live live, onlyChanges_mono lapse_only, fun _ => lapse_lapsed, absurd live⟩
    · exact ⟨s, execLeaseLapse_stays live, onlyChanges_refl, fun lease => absurd lease live, fun _ => rfl⟩

end

section
/-! SUPPORT. LOAD TARIFF: its four checks, the edition it stores, the records it moves to PREVIOUS (R137 to R139). -/

namespace Sys2Proof.Machine

open Sys2Proof State

variable {s : State} {u : Tfu} {x : TariffOperand}

/-! ## The checks -/

/-- The part of check 1 about one slot (R138): it holds an edition of that number. -/
theorem slotHolds_iff {slot : Option HeldEdition} {number : Word16} :
    slot.all (fun h => h.edition.number != number) = false ↔ ∃ h, slot = some h ∧ h.edition.number = number := by
  cases slot with
  | none => simp
  | some h => simp

theorem numberCheck_fails : numberCheck u x = false ↔ tariffNumberBad u x := by
  unfold numberCheck tariffNumberBad
  rw [Bool.and_eq_false_iff, Bool.and_eq_false_iff, slotHolds_iff, slotHolds_iff, bne_eq_false_iff_eq, or_assoc]

theorem permissionOperand_none_iff {b : Byte} : (permissionOperand b).isSome = false ↔ b ≠ 0 ∧ b ≠ 1 := by
  constructor
  · intro unknown
    refine ⟨?_, ?_⟩ <;> rintro rfl <;> exact absurd unknown (by decide)
  · intro other
    rw [permissionOperand, settingOperand_none other]
    rfl

theorem permissionCheck_fails : permissionCheck x = false ↔ tariffPermissionBad x := by
  unfold permissionCheck tariffPermissionBad
  rw [List.all_eq_false]
  simp only [Bool.not_eq_true, permissionOperand_none_iff]

theorem scheduleCheck_fails : scheduleCheck x = false ↔ tariffScheduleBad x := by
  unfold scheduleCheck tariffScheduleBad
  rw [Bool.and_eq_false_iff, Bool.and_eq_false_iff, Bool.and_eq_false_iff, List.all_eq_false, or_assoc, or_assoc]
  simp only [Bool.not_eq_true, Bool.and_eq_false_iff, decide_eq_false_iff_not, not_le, Nat.lt_one_iff]
  rfl

theorem previousUnused_fails : previousUnused u = false ↔ previousReferenced u := by
  unfold previousUnused previousReferenced
  cases u.previous with
  | none => simp
  | some h => simp

/-! ## The outcome of each check -/

/-- What the checks above have in common: a check whose failure is not the case answers true. -/
theorem check_passes {check : Bool} {bad : Prop} (fails : check = false ↔ bad) (good : ¬bad) : check = true :=
  Bool.eq_true_of_not_eq_false (mt fails.mp good)

theorem loadTariffOp_badValue (bad : tariffNumberBad s.tfu x ∨ tariffPermissionBad x) :
    loadTariffOp x s = s.turnDown .c .refused .badValue := by
  rw [← numberCheck_fails, ← permissionCheck_fails] at bad
  unfold loadTariffOp
  rcases bad with number | permission
  · rw [number]; rfl
  · rw [permission]; exact ite_self _

theorem loadTariffOp_badSchedule (number : ¬tariffNumberBad s.tfu x) (permission : ¬tariffPermissionBad x)
    (bad : tariffScheduleBad x) : loadTariffOp x s = s.turnDown .c .refused .badSchedule := by
  rw [loadTariffOp, check_passes numberCheck_fails number, check_passes permissionCheck_fails permission,
    scheduleCheck_fails.mpr bad]
  rfl

theorem loadTariffOp_inUse (number : ¬tariffNumberBad s.tfu x) (permission : ¬tariffPermissionBad x)
    (schedule : ¬tariffScheduleBad x) (bad : previousReferenced s.tfu) :
    loadTariffOp x s = s.turnDown .c .refused .inUse := by
  rw [loadTariffOp, check_passes numberCheck_fails number, check_passes permissionCheck_fails permission,
    check_passes scheduleCheck_fails schedule, previousUnused_fails.mpr bad]
  rfl

theorem loadTariffOp_accepted (number : ¬tariffNumberBad s.tfu x) (permission : ¬tariffPermissionBad x)
    (schedule : ¬tariffScheduleBad x) (previous : ¬previousReferenced s.tfu) :
    loadTariffOp x s = (s.placeEdition (storeEdition x)).ok .c (tariffClamped x) [] := by
  rw [loadTariffOp, check_passes numberCheck_fails number, check_passes permissionCheck_fails permission,
    check_passes scheduleCheck_fails schedule, check_passes previousUnused_fails previous]
  rfl

/-! ## The edition stored -/

/-- A permission that is no setting is stored as not permitted; check 2 lets none through (R138). -/
theorem permissionOperand_getD (b : Byte) : (permissionOperand b).getD false = decide (b = 1) := by
  by_cases setting : b = 0 ∨ b = 1
  · rw [permissionOperand, settingOperand_some setting]
    rfl
  · rw [permissionOperand, settingOperand_none (not_or.mp setting)]
    exact (decide_eq_false fun on => setting (.inr on)).symm

theorem storeBand_eq (b : BandOperand) : storeBand b =
    ⟨b.standard.toNat, min b.solar.toNat b.standard.toNat, decide (b.permission = 1)⟩ := by
  rw [storeBand, permissionOperand_getD]

theorem storeEdition_eq (x : TariffOperand) : storeEdition x =
    { number := x.edition
      bands := x.bands.map fun b =>
        ⟨b.standard.toNat, min b.solar.toNat b.standard.toNat, decide (b.permission = 1)⟩
      schedule := (x.places.toList.take x.count.toNat).map fun q => ⟨q.minute.toNat, Fin.ofNat 4 q.band.toNat⟩
      sessionFee := x.sessionFee.toNat
      idleFee := x.idleFee.toNat
      idleGrace := min x.idleGrace.toNat 240
      idleCap := x.idleCap.toNat } := by
  rw [storeEdition, funext storeBand_eq]
  rfl

theorem tariffClamped_eq (x : TariffOperand) : tariffClamped x =
    decide ((∃ b ∈ x.bands.toList, b.standard.toNat < b.solar.toNat) ∨ 240 < x.idleGrace.toNat) := by
  rw [tariffClamped, Bool.decide_or, List.any_eq]
  simp only [decide_eq_true_eq]

/-! ## The records -/

theorem State.placeEdition_session (e : Edition) (s : State) (p : Point) :
    (s.placeEdition e).session p = (s.session p).afterLoad :=
  Vector.getElem_map _ _

end Sys2Proof.Machine
end

section
/-! SUPPORT. The statement of Chapter 8 about LOAD TARIFF. -/

open Sys2Proof Sys2Proof.Machine Sys2Proof.Machine.State

/-- Settles O36: a refusal by the first check that fails, or the edition placed. -/
theorem loadTariffChecksInOrderAndPlacesTheEdition : Obligations.LoadTariffChecksInOrderAndPlacesTheEdition := by
  intro x s places
  refine ⟨loadTariffOp x s, rfl, fun bad => ?_, fun number permission bad => ?_,
    fun number permission schedule bad => ?_, fun number permission schedule previous => ?_⟩
  · rw [loadTariffOp_badValue bad]
    exact turnDown_turnedAway _ _ _
  · rw [loadTariffOp_badSchedule number permission bad]
    exact turnDown_turnedAway _ _ _
  · rw [loadTariffOp_inUse number permission schedule bad]
    exact turnDown_turnedAway _ _ _
  · have only := loadTariffOp_only (s := s) x
    rw [loadTariffOp_accepted number permission schedule previous] at only ⊢
    rw [← tariffClamped_eq]
    refine ⟨ok_answered _ _ _ rfl, onlyChanges_mono only, ?_, fun p => ?_⟩
    · rw [← storeEdition_eq]
      exact ok_only _ _ _ .tfu (by decide)
    · rw [ok_session, placeEdition_session, Session.afterLoad]

end

section
/-! SUPPORT. The bytes of a stored word, and what a reset leaves of the receipt array (R153, R174; log entry 11). -/

namespace Sys2Proof.Machine

open Sys2Proof

variable {r t : Rlg} {a w slot : Nat}

/-! ## Words and their bytes -/

theorem getElem?_leBytes {k i : Nat} (n : Nat) (h : i < k) : (leBytes k n)[i]? = some (BitVec.ofNat 8 (n / 256 ^ i)) := by
  induction k generalizing n i with
  | zero => omega
  | succ k ih =>
    cases i with
    | zero => simp [leBytes]
    | succ i => rw [leBytes, List.getElem?_cons_succ, ih _ (by omega), Nat.div_div_eq_div_mul, Nat.pow_succ']

theorem Rlg.getElem?_rawBytes {k i : Nat} (h : i < k) : (r.rawBytes a k)[i]? = some (r.rawByte (a + i)) := by
  induction k generalizing a i with
  | zero => omega
  | succ k ih =>
    cases i with
    | zero => rfl
    | succ i => rw [rawBytes, List.getElem?_cons_succ, ih (by omega), Nat.add_right_comm, Nat.add_assoc]

theorem Rlg.length_rawBytes (a k : Nat) : (r.rawBytes a k).length = k := by
  induction k generalizing a with
  | zero => rfl
  | succ k ih => rw [rawBytes, List.length_cons, ih]

/-- A list of bytes is what its number is written as. -/
theorem leBytes_leNat (bs : List Byte) : leBytes bs.length (leNat bs) = bs := by
  induction bs with
  | nil => rfl
  | cons b bs ih =>
    have low : b.toNat < 256 := b.isLt
    rw [List.length_cons, leBytes, leNat, show (b.toNat + 256 * leNat bs) / 256 = leNat bs by omega, ih]
    congr 1
    exact BitVec.eq_of_toNat_eq (by rw [BitVec.toNat_ofNat]; omega)

theorem leNat_lt (bs : List Byte) : leNat bs < 256 ^ bs.length := by
  induction bs with
  | nil => simp [leNat]
  | cons b bs ih =>
    have low : b.toNat < 256 := b.isLt
    rw [leNat, List.length_cons, Nat.pow_succ]
    omega

/-- The eight bytes of a word are the number it holds. -/
theorem Rlg.rawBytes_rawWord (w : Nat) : r.rawBytes (8 * w) 8 = leBytes 8 (r.rawWord w).toNat := by
  have back := leBytes_leNat (r.rawBytes (8 * w) 8)
  have small : _ < 2 ^ 64 := length_rawBytes (r := r) (8 * w) 8 ▸ leNat_lt (r.rawBytes (8 * w) 8)
  rw [length_rawBytes] at back
  rw [rawWord, BitVec.toNat_ofNat, Nat.mod_eq_of_lt small, back]

/-- One byte of a word. -/
theorem Rlg.rawByte_rawWord {i : Nat} (h : i < 8) : r.rawByte (8 * w + i) = (r.rawWord w).extractLsb' (8 * i) 8 := by
  have both := congrArg (·[i]?) (r.rawBytes_rawWord w)
  simp only [getElem?_rawBytes h, getElem?_leBytes _ h, Option.some.injEq] at both
  rw [both]
  refine BitVec.eq_of_toNat_eq ?_
  rw [BitVec.extractLsb'_toNat, BitVec.toNat_ofNat, Nat.shiftRight_eq_div_pow, Nat.pow_mul]

/-- The word stored is the word the array holds. -/
theorem Rlg.rawByte_storeWord_same {x : ArrayResult} (h : a / 8 = w) :
    (r.storeWord w x).rawByte a = x.value.extractLsb' (8 * (a % 8)) 8 := by
  have split : a = 8 * w + a % 8 := by omega
  rw [split, rawByte_rawWord (by omega), rawWord_storeWord, Nat.mul_add_mod, Nat.mod_mod]

theorem Rlg.rawByte_storeWord_other {x : ArrayResult} (h : a / 8 ≠ w) : (r.storeWord w x).rawByte a = r.rawByte a :=
  rawByte_storeBytes_other (by rw [length_leBytes]; omega)

/-- The mark word of a slot of the array. -/
theorem isMarkWord_mark {i : Nat} (h : slot < 2048) (low : 120 ≤ i) (high : i < 128) :
    isMarkWord ((slotAddress slot + i) / 8) = true := by
  have word : (slotAddress slot + i) / 8 = 16 * slot + 15 := by
    unfold slotAddress
    omega
  rw [word, isMarkWord]
  simp
  omega

/-! ## Residues -/

/-- A residue changes no byte of another word, nor of another place of its mark word. -/
theorem Rlg.storeAt_elsewhere {x : ArrayResult} {p : ArrayPlace} (h : inArray p) (other : a / 8 ≠ placeWord p) :
    (r.storeAt x p).readByte a = r.readByte a ∧ (r.storeAt x p).rawByte a = r.rawByte a := by
  cases p with
  | word w => exact ⟨readByte_storeWord_other other, rawByte_storeWord_other other⟩
  | markByte slot i =>
    have mark := isMarkWord_mark (i := 120 + i.val) h (by omega) (by omega)
    have away : a ≠ slotAddress slot + 120 + i.val := by
      rintro rfl
      apply other
      simp only [placeWord, slotAddress]
      omega
    exact ⟨readByte_storeMarkByte_other (Nat.add_assoc .. ▸ mark) away, rawByte_storeByte_other away⟩

/-- The bits that stand at 1 in one byte stand at 1 in the other. -/
theorem and_eq_left_of_and {x y z : Byte} (h : x = y &&& z) : x &&& y = x := by
  rw [h, BitVec.and_comm y z, BitVec.and_assoc, BitVec.and_self]

/-- What an interrupted program left turns bits from 1 to 0 only (R153). -/
theorem Rlg.storeAt_programmed {before : Rlg} {x : ArrayResult} {p : ArrayPlace}
    (kept : r.rawByte a &&& before.rawByte a = r.rawByte a) :
    (r.storeAt ⟨before.rawAt p &&& x.value, x.code⟩ p).rawByte a &&& before.rawByte a =
      (r.storeAt ⟨before.rawAt p &&& x.value, x.code⟩ p).rawByte a := by
  cases p with
  | word w =>
    by_cases same : a / 8 = w
    · have held : before.rawByte a = (before.rawWord w).extractLsb' (8 * (a % 8)) 8 := by
        rw [← rawByte_rawWord (by omega)]
        congr 1
        omega
      refine and_eq_left_of_and (z := x.value.extractLsb' (8 * (a % 8)) 8) ((rawByte_storeWord_same same).trans ?_)
      rw [held]
      exact BitVec.extractLsb'_and
    · rw [show (r.storeAt _ (.word w)).rawByte a = _ from rawByte_storeWord_other same]
      exact kept
  | markByte slot i =>
    by_cases same : a = slotAddress slot + 120 + i.val
    · subst same
      refine and_eq_left_of_and (rawByte_storeByte_same.trans (?_ : _ = _ &&& x.value.truncate 8))
      rw [rawAt]
      simp
    · rw [show (r.storeAt _ (.markByte slot i)).rawByte a = _ from rawByte_storeByte_other same]
      exact kept

/-- A reset has kept a byte that no erase was reaching: it reads as before unless a program was reaching it, and then no bit
has turned from 0 to 1 (R153; log entry 11). -/
structure Rlg.ByteKept (before : Rlg) (a : Nat) (t : Rlg) : Prop where
  read : before.programReaches (a / 8) = false → t.readByte a = before.readByte a
  bits : t.rawByte a &&& before.rawByte a = t.rawByte a

theorem Rlg.ByteKept.congr {before : Rlg} (h : before.ByteKept a r)
    (same : t.readByte a = r.readByte a ∧ t.rawByte a = r.rawByte a) : before.ByteKept a t where
  read away := same.1.trans (h.read away)
  bits := by rw [same.2]; exact h.bits

theorem placeExists_iff {p : ArrayPlace} : placeExists p = true ↔ inArray p := by
  cases p with
  | word w =>
    simp only [placeExists, inArray, isMarkWord, Bool.and_eq_true, Bool.not_eq_true', decide_eq_true_eq,
      Bool.and_eq_false_iff, decide_eq_false_iff_not, beq_eq_false_iff_ne, ne_eq, not_and_or]
    rfl
  | markByte slot i => simp [placeExists, inArray]

theorem Rlg.applyResidue_keeps {before : Rlg} {x : Residue} (place : inArray x.place)
    (away : before.eraseReaches (a / 8) = false) (h : before.ByteKept a r) : before.ByteKept a (r.applyResidue before x) := by
  unfold applyResidue
  dsimp only
  split
  · next erased =>
    have other : a / 8 ≠ placeWord x.place := by
      rintro same
      rw [same, erased] at away
      cases away
    split
    · next inSlots =>
      have header : a / 8 ≠ 32768 + placeWord x.place / 2048 := by
        rintro same
        have reached : before.eraseReaches (32768 + placeWord x.place / 2048) = true := by
          revert erased
          unfold eraseReaches
          cases before.erase with
          | none => simp
          | some e => simp; omega
        rw [same, reached] at away
        cases away
      exact (h.congr ⟨readByte_storeWord_other header, rawByte_storeWord_other header⟩).congr (storeAt_elsewhere place other)
    · exact h.congr (storeAt_elsewhere place other)
  · split
    · next programmed =>
      refine ⟨fun quiet => ?_, storeAt_programmed h.bits⟩
      have other : a / 8 ≠ placeWord x.place := by
        rintro same
        rw [same, programmed] at quiet
        cases quiet
      exact (storeAt_elsewhere place other).1.trans (h.read quiet)
    · exact h

theorem Rlg.foldl_applyResidue_keeps {before : Rlg} {xs : List Residue} (places : ∀ x ∈ xs, inArray x.place)
    (away : before.eraseReaches (a / 8) = false) (h : before.ByteKept a r) :
    before.ByteKept a (xs.foldl (fun t x => t.applyResidue before x) r) := by
  induction xs generalizing r with
  | nil => exact h
  | cons x xs ih =>
    obtain ⟨first, rest⟩ := List.forall_mem_cons.mp places
    exact ih rest (applyResidue_keeps first away h)

end Sys2Proof.Machine
end

section
/-! SUPPORT. The statement about the array at device reset. -/

open Sys2Proof Sys2Proof.Machine

/-- Settles O2: each residue keeps every byte that was not being written, and the others' bits at 0. -/
theorem deviceResetKeepsTheArray : Obligations.DeviceResetKeepsTheArray := by
  intro left s places
  have exist : left.all (fun x => placeExists x.place) = true :=
    List.all_eq_true.mpr fun x mem => placeExists_iff.mpr (places x mem)
  refine ⟨s.deviceReset left, if_pos exist, fun a away => ?_⟩
  have start : s.rlg.ByteKept a (Rlg.reset s.rlg.cells s.rlg.codes) := ⟨fun _ => rfl, BitVec.and_self⟩
  have kept : s.rlg.ByteKept a (s.rlg.afterReset left) := by
    refine Rlg.foldl_applyResidue_keeps (fun x mem => places x ?_) away start
    rcases List.mem_append.mp mem with header | slot
    · exact (List.mem_filter.mp header).1
    · exact (List.mem_filter.mp slot).1
  exact ⟨kept.read, kept.bits⟩

end

section
/-! SUPPORT. Words read and counted, the receipts and orphans that are returned, and the checks of COLLECT RECEIPT and CLOSE
ORPHAN (R163, R166 to R168, R176, R177). -/

namespace Sys2Proof.Machine

open Sys2Proof State

variable {s t : State} {r : Rlg}

/-! ## Counts -/

/-- The two counts of R166 after so many words that read CORRECTED and so many that read DAMAGED. -/
def Rlg.withCounts (r : Rlg) (single double : Nat) : Rlg :=
  { r with
    secCount := if single = 0 then r.secCount else min 65535 (r.secCount + single)
    dedCount := if double = 0 then r.dedCount else min 65535 (r.dedCount + double) }

theorem Rlg.withCounts_add (r : Rlg) (a b c d : Nat) :
    (r.withCounts a b).withCounts c d = r.withCounts (a + c) (b + d) := by
  have saturates (x m n : Nat) : (if n = 0 then (if m = 0 then x else min 65535 (x + m))
      else min 65535 ((if m = 0 then x else min 65535 (x + m)) + n)) =
      if m + n = 0 then x else min 65535 (x + (m + n)) := by
    repeat' split
    all_goals omega
  simp only [withCounts, saturates]

theorem Rlg.countWord_eq (r : Rlg) (w : Nat) :
    r.countWord w =
      r.withCounts (if r.code w = .corrected then 1 else 0) (if r.code w = .damaged then 1 else 0) := by
  unfold countWord
  cases code : r.code w <;> simp [withCounts, satAdd]

/-- How many of `k` words read so. -/
def Rlg.wordsShowing (r : Rlg) (w k : Nat) (x : Integrity) : Nat :=
  ((List.range k).filter (fun i => r.code (w + i) == x)).length

theorem Rlg.wordsShowing_succ (r : Rlg) (w k : Nat) (x : Integrity) :
    r.wordsShowing w (k + 1) x = (if r.code w = x then 1 else 0) + r.wordsShowing (w + 1) k x := by
  have shift : (fun i => r.code (w + i) == x) ∘ Nat.succ = fun i => r.code (w + 1 + i) == x :=
    funext fun i => by simp only [Function.comp, Nat.succ_eq_add_one, Nat.add_right_comm, Nat.add_assoc]
  rw [wordsShowing, List.range_succ_eq_map, List.filter_cons, List.filter_map, shift, wordsShowing]
  by_cases first : r.code w = x
  · simp [first, Nat.add_comm]
  · simp [first]

/-- `k` words read move the two counts only, by the words that do not read CLEAN (R166). -/
theorem Rlg.countWords_eq (r : Rlg) (w k : Nat) :
    r.countWords w k = r.withCounts (r.wordsShowing w k .corrected) (r.wordsShowing w k .damaged) := by
  induction k generalizing r w with
  | zero => rfl
  | succ k ih =>
    rw [countWords, ih, countWord_eq, withCounts_add, wordsShowing_succ, wordsShowing_succ]
    rfl

theorem State.countWords_read (slot : Nat) : s.slotWasRead slot (s.withRlg (s.rlg.countWords (16 * slot) 16)) :=
  Rlg.countWords_eq _ _ _

/-! ## Receipts and orphans returned -/

theorem worst_range {n : Nat} (f : Nat → Integrity) :
    worst ((List.range n).map f) =
      if ∃ i : Fin n, f i.val = .damaged then .damaged
      else if ∃ i : Fin n, f i.val = .corrected then .corrected else .clean := by
  have among (x : Integrity) : ((List.range n).map f).contains x = true ↔ ∃ i : Fin n, f i.val = x := by
    simp only [List.contains_iff_mem, List.mem_map, List.mem_range]
    exact ⟨fun ⟨i, low, same⟩ => ⟨⟨i, low⟩, same⟩, fun ⟨i, same⟩ => ⟨i.val, i.isLt, same⟩⟩
  simp only [worst, among]

theorem Rlg.status_eq (r : Rlg) (slot : Nat) : r.status (16 * slot) 16 = r.readStatus slot :=
  worst_range fun i => r.code (16 * slot + i)

theorem flagCode_byte (b : Bool) : leBytes 1 (flagCode b) = [if b then 1 else 0] := by
  cases b <;> rfl

theorem Rlg.receiptBytes_eq (r : Rlg) (number slot : Nat) :
    r.receiptBytes number slot = leBytes 2 slot ++ leBytes 1 (r.slotState slot).code ++
      [if r.queue.any (fun q => q.isCollect && q.number == number) then 1 else 0] ++
      r.readBytes (slotAddress slot) 128 ++ leBytes 1 (integrityCode (r.readStatus slot)) := by
  rw [receiptBytes, flagCode_byte, status_eq]
  rfl

theorem State.giveReceipt_given (p : Port) (number slot : Nat) : s.ReceiptGiven p number slot (s.giveReceipt p number slot) where
  answer := by
    rw [← Rlg.receiptBytes_eq]
    exact ok_answered p false _ rfl
  frame := giveReceipt_only p number slot
  read := (ok_only p false _ .rlg (by decide)).trans (countWords_read slot)

theorem Rlg.inErase_iff {slot : Nat} :
    r.inErase slot = true ↔ r.sectors[slotSector slot] = .erasing ∨ r.sectors[slotSector slot] = .eraseSuspended := by
  simp [inErase]

theorem Rlg.collectPending_iff {n : Nat} : r.collectPending n = true ↔ ∃ q ∈ r.queue, q.isCollect = true ∧ q.number = n := by
  simp [collectPending]

theorem Rlg.orphanQueued_iff {n : Nat} :
    r.orphanQueued n = true ↔ ∃ q ∈ r.queue, q.isPort = true ∧ q.isCollect = false ∧ q.number = n := by
  simp [orphanQueued, and_assoc]

/-- The lower of the best entry so far and the next one (R168). -/
def lowerEntry (best : Option (Nat × Nat)) (e : Nat × Nat) : Option (Nat × Nat) :=
  match best with
  | none => some e
  | some x => if e.1 < x.1 then some e else some x

/-- The only lowest entry is the one found. -/
theorem foldl_lowerEntry {xs : List (Nat × Nat)} {x : Nat × Nat} {best : Option (Nat × Nat)}
    (least : ∀ y ∈ xs, y = x ∨ x.1 < y.1) (before : ∀ y, best = some y → y = x ∨ x.1 < y.1) (there : x ∈ xs ∨ best = some x) :
    xs.foldl lowerEntry best = some x := by
  induction xs generalizing best with
  | nil => exact there.resolve_left List.not_mem_nil
  | cons y xs ih =>
    obtain ⟨first, rest⟩ := List.forall_mem_cons.mp least
    rw [List.foldl_cons]
    rcases best with _ | b
    · refine ih rest (fun z same => Option.some.inj same ▸ first) ?_
      rcases List.mem_cons.mp (there.resolve_right (by simp)) with rfl | later
      · exact .inr rfl
      · exact .inl later
    · have known := before b rfl
      rw [lowerEntry]
      split
      · next lower =>
        refine ih rest (fun z same => Option.some.inj same ▸ first) ?_
        rcases there with mem | same
        · exact (List.mem_cons.mp mem).elim (fun e => .inr (e ▸ rfl)) .inl
        · cases same
          rcases first with rfl | high
          · omega
          · omega
      · next high =>
        refine ih rest (fun z same => Option.some.inj same ▸ known) ?_
        rcases there with mem | same
        · rcases List.mem_cons.mp mem with rfl | later
          · rcases known with rfl | greater
            · exact .inr rfl
            · omega
          · exact .inl later
        · exact .inr same

theorem Rlg.mem_uncollected {x : Nat × Nat} :
    x ∈ r.index.filter (fun e => r.slotState e.2 == .closed && !r.collectPending e.1) ↔ x ∈ r.index ∧ r.uncollected x := by
  have pending : r.collectPending x.1 = false ↔ ∀ q ∈ r.queue, ¬(q.isCollect = true ∧ q.number = x.1) := by
    rw [← Bool.not_eq_true, collectPending_iff]
    simp
  rw [List.mem_filter, Bool.and_eq_true, beq_iff_eq, Bool.not_eq_true', pending]
  rfl

theorem Rlg.nextReceipt_some {x : Nat × Nat} (mem : x ∈ r.index) (uncollected : r.uncollected x)
    (least : ∀ y ∈ r.index, r.uncollected y → y = x ∨ x.1 < y.1) : r.nextReceipt = some x :=
  foldl_lowerEntry (fun y among => least y (mem_uncollected.mp among).1 (mem_uncollected.mp among).2) (fun _ none => nomatch none)
    (.inl (mem_uncollected.mpr ⟨mem, uncollected⟩))

theorem Rlg.nextReceipt_none (h : ∀ x ∈ r.index, ¬r.uncollected x) : r.nextReceipt = none := by
  have empty := List.eq_nil_iff_forall_not_mem.mpr fun x mem =>
    h x (mem_uncollected.mp mem).1 (mem_uncollected.mp mem).2
  rw [nextReceipt, empty]
  rfl

theorem Rlg.closingErased_iff {slot : Nat} :
    r.closingErased slot = true ↔ ∀ i : Fin 11, r.wordErased (16 * slot + 4 + i.val) = true := by
  simp only [closingErased, List.all_eq_true, List.mem_range]
  exact ⟨fun all i => all i.val i.isLt, fun all i low => all ⟨i, low⟩⟩

/-- READ NEXT ORPHAN past its checks (R176; log entry 23). -/
theorem readNextOrphanOp_gives {n slot : Nat} {rest : List Nat} (orphans : s.rlg.orphans = n :: rest)
    (running : s.rlg.logState ≠ .starting) (known : s.rlg.slotOf n = some slot) :
    readNextOrphanOp s = (s.withRlg (s.rlg.countWords (16 * slot) 16)).ok .c false (s.rlg.orphanBytes n slot) := by
  simp only [readNextOrphanOp, if_neg running, orphans, known, Option.getD_some]

theorem Rlg.orphanBytes_eq (r : Rlg) (n slot : Nat) :
    r.orphanBytes n slot = leBytes 4 n ++ leBytes 2 slot ++ r.readBytes (slotAddress slot) 32 ++
      [if ∀ i : Fin 11, r.wordErased (16 * slot + 4 + i.val) = true then 1 else 0,
        if ∃ q ∈ r.queue, q.isPort = true ∧ q.isCollect = false ∧ q.number = n then 1 else 0] ++
      leBytes 1 (integrityCode (r.readStatus slot)) := by
  simp only [orphanBytes, flagCode_byte, status_eq, closingErased_iff, orphanQueued_iff, List.append_assoc,
    List.cons_append, List.nil_append]

end Sys2Proof.Machine
end

section
/-! SUPPORT. The statement about the commands that read slots. -/

open Sys2Proof Sys2Proof.Machine Sys2Proof.Machine.State

/-- Settles O47: each read by its checks in order, then the slot returned and its words counted. -/
theorem receiptReadsReturnTheSlotAndCountItsWords : Obligations.ReceiptReadsReturnTheSlotAndCountItsWords := by
  refine ⟨fun p number s => ⟨_, rfl, fun starting => ?_, fun running unknown => ?_,
      fun slot known running => ⟨fun erased => ?_, fun notErasing notSuspended => ?_⟩⟩,
    fun s => ⟨readNextReceiptOp s, rfl, fun starting => ?_, fun running nothing => ?_,
      fun x mem running uncollected least => ?_⟩,
    fun s => ⟨readNextOrphanOp s, rfl, fun starting => ?_, fun running nothing => ?_,
      fun n rest orphans running slot known => ⟨?_, readNextOrphanOp_only, ?_⟩⟩⟩
  · rw [if_pos starting]
    exact turnDown_turnedAway p .busy .starting
  · rw [if_neg running, unknown]
    exact turnDown_turnedAway p .refused .notFound
  · rw [if_neg running, known]
    dsimp only
    rw [if_pos (Rlg.inErase_iff.mpr erased)]
    exact turnDown_turnedAway p .busy .state
  · rw [if_neg running, known]
    dsimp only
    rw [if_neg fun erased => (Rlg.inErase_iff.mp erased).elim notErasing notSuspended]
    exact giveReceipt_given p number.toNat slot
  · rw [readNextReceiptOp, if_pos starting]
    exact turnDown_turnedAway .c .busy .starting
  · rw [readNextReceiptOp, if_neg running, Rlg.nextReceipt_none nothing]
    exact turnDown_turnedAway .c .refused .notFound
  · rw [readNextReceiptOp, if_neg running, Rlg.nextReceipt_some mem uncollected least]
    exact giveReceipt_given .c x.1 x.2
  · rw [readNextOrphanOp, if_pos starting]
    exact turnDown_turnedAway .c .busy .starting
  · rw [readNextOrphanOp, if_neg running, nothing]
    exact turnDown_turnedAway .c .refused .notFound
  · rw [readNextOrphanOp_gives orphans running known, ← Rlg.orphanBytes_eq]
    exact ok_answered .c false _ rfl
  · rw [readNextOrphanOp_gives orphans running known]
    exact (ok_only .c false _ .rlg (by decide)).trans (countWords_read slot)

end

section
/-! SUPPORT. The checks of COLLECT RECEIPT and CLOSE ORPHAN and the requests they queue (R151, R163, R177). -/

namespace Sys2Proof.Machine

open Sys2Proof State

variable {s t : State} {r : Rlg} {n slot : Nat}

/-! ## COLLECT RECEIPT -/

/-- COLLECT RECEIPT of a number in the index, the log READY (R163). -/
theorem collectReceiptOp_known (ready : s.rlg.logState = .ready) (known : s.rlg.slotOf n = some slot) :
    collectReceiptOp n s =
      if s.rlg.slotState slot = .collected ∨ s.rlg.collectPending n = true then s.turnDown .c .refused .already
      else if s.rlg.slotState slot = .opened then s.turnDown .c .refused .state
      else if 8 ≤ s.rlg.portRequests then s.turnDown .c .busy .full
      else (s.enqueue ⟨.collect, n, slot, 0⟩).ok .c false [] := by
  simp only [collectReceiptOp, ready, known, reduceCtorEq, if_false]

theorem State.enqueued_ok (q : ProgramRequest) : ((s.enqueue q).ok .c false []).rlg = s.rlg.afterJoin q :=
  (ok_only .c false [] .rlg (by decide)).trans (enqueue_rlg q)

/-! ## CLOSE ORPHAN -/

theorem State.heldBySession_iff : s.heldBySession n = true ↔ ∃ p, (s.session p).state ≠ .free ∧ (s.session p).number = n := by
  simp only [heldBySession, List.any_eq_true, Bool.and_eq_true, bne_iff_ne, beq_iff_eq]
  exact ⟨fun ⟨p, _, both⟩ => ⟨p, both⟩, fun ⟨p, both⟩ => ⟨p, List.mem_ofFn.mpr ⟨p, rfl⟩, both⟩⟩

/-- The refusal of a number that is no orphan's (R177, order 3). -/
theorem State.notOrphan_known (known : s.rlg.slotOf n = some slot) :
    (s.rlg.slotState slot = .closed ∨ s.rlg.slotState slot = .collected → s.notOrphan n = .already) ∧
    (s.rlg.slotState slot = .opened → s.notOrphan n = if s.heldBySession n then .state else .notFound) := by
  refine ⟨fun done => ?_, fun opened => ?_⟩
  · rcases done with state | state <;> simp only [notOrphan, known, state]
  · simp only [notOrphan, known, opened]

/-- The checks of CLOSE ORPHAN before that of the orphan list (R177). -/
theorem closeOrphanOp_known {register : Word32} (running : s.rlg.logState ≠ .starting) (valid : s.tfu.calendarValid = true) :
    closeOrphanOp n register s =
      if n ∈ s.rlg.orphans then
        if s.rlg.orphanQueued n then s.turnDown .c .refused .already
        else if 8 ≤ s.rlg.portRequests then s.turnDown .c .busy .full
        else (s.closeOrphan n register).ok .c false []
      else s.turnDown .c .refused (s.notOrphan n) := by
  by_cases listed : n ∈ s.rlg.orphans <;>
    simp [closeOrphanOp, running, valid, listed]

/-- The difference of two registers (R177). -/
theorem register_difference (register : Word32) {start : Nat} (small : start < 4294967296) :
    (register - BitVec.ofNat 32 start).toNat = (register.toNat + 4294967296 - start) % 4294967296 := by
  rw [BitVec.toNat_sub, BitVec.toNat_ofNat, Nat.mod_eq_of_lt (a := start) (b := 2 ^ 32) small, Nat.add_comm,
    Nat.add_sub_assoc small.le register.toNat]

theorem totalAmount_idle (fee energy : Nat) : totalAmount fee energy 0 = min (fee + energy) top32 := by
  rw [totalAmount, Nat.add_zero]

theorem top32_eq : top32 = 4294967295 := rfl

theorem replicate_zero : Vector.replicate 4 0 = #v[0, 0, 0, 0] := rfl

theorem set_first (n : Nat) : (Vector.replicate 4 0).set 0 n = #v[n, 0, 0, 0] := rfl

/-- The part of an orphan's receipt, from the numbers of its opening part (R151, R177). -/
theorem orphanPart_eq {calendar register : Word32} {start price fee mwh : Nat}
    (difference : 1000 * (register - BitVec.ofNat 32 start).toNat = mwh) :
    orphanPart calendar (BitVec.ofNat 32 start) register price fee =
      { closeTime := calendar, meterEnd := register, reason := .powerLoss, meterSuspect := false, nodeLostSeen := false
        tripSeen := false, disputed := 0
        accounts := ⟨#v[0, 0, 0, 0], #v[0, 0, 0, 0], #v[min mwh 4294967295, 0, 0, 0]⟩
        idleSeconds := 0, energy := min ((mwh * price + 500000) / 1000000) 4294967295, idle := 0
        total := min (fee + min ((mwh * price + 500000) / 1000000) 4294967295) 4294967295 } := by
  rw [orphanPart, orphanEnergyAmount, roundCents, totalAmount_idle, orphanAccounts, difference, set_first, replicate_zero,
    top32_eq]

theorem Rlg.length_readBytes (a k : Nat) : (r.readBytes a k).length = k := by
  rw [readBytes_eq, List.length_map, List.length_range]

theorem Rlg.longField_lt (slot offset : Nat) : r.longField slot offset < 4294967296 := by
  have small := leNat_lt (r.readBytes (slotAddress slot + offset) 4)
  rwa [length_readBytes] at small

end Sys2Proof.Machine
end

section
/-! SUPPORT. The statement about COLLECT RECEIPT and CLOSE ORPHAN. -/

open Sys2Proof Sys2Proof.Machine Sys2Proof.Machine.State

/-- Settles O46: the checks of each in their order; past them the request joins the queue. -/
theorem portRequestsAreCheckedInOrderAndQueued : Obligations.PortRequestsAreCheckedInOrderAndQueued := by
  refine ⟨fun number s => ⟨collectReceiptOp number.toNat s, rfl, fun starting => ?_, fun fault => ?_,
      fun ready unknown => ?_, fun slot known ready => ?_⟩,
    fun number register s => ⟨closeOrphanOp number.toNat register s, rfl, fun starting => ?_, fun running invalid => ?_,
      fun running valid unlisted => ?_, fun running valid listed queued => ?_, fun running valid listed queued full => ?_,
      fun slot known running valid listed queued full => ?_⟩⟩
  · rw [collectReceiptOp, if_pos starting]
    exact turnDown_turnedAway .c .busy .starting
  · simp only [collectReceiptOp, fault, reduceCtorEq, if_false, if_true]
    exact turnDown_turnedAway .c .refused .storeFault
  · simp only [collectReceiptOp, ready, unknown, reduceCtorEq, if_false]
    exact turnDown_turnedAway .c .refused .notFound
  · simp only [collectReceiptOp_known ready known, Rlg.collectPending_iff]
    refine ⟨fun already => ?_, fun opened queued => ?_, fun collected opened queued full => ?_,
      fun collected opened queued full => ?_⟩
    · rw [if_pos already]
      exact turnDown_turnedAway .c .refused .already
    · rw [if_neg (by simp [opened, queued]), if_pos opened]
      exact turnDown_turnedAway .c .refused .state
    · rw [if_neg (not_or.mpr ⟨collected, queued⟩), if_neg opened, if_pos (show 8 ≤ s.rlg.portRequests from full)]
      exact turnDown_turnedAway .c .busy .full
    · rw [if_neg (not_or.mpr ⟨collected, queued⟩), if_neg opened, if_neg (show ¬8 ≤ s.rlg.portRequests from full)]
      exact ⟨ok_answered .c false [] rfl, ok_after .c false [] (enqueue_only _), enqueued_ok _⟩
  · rw [closeOrphanOp, if_pos starting]
    exact turnDown_turnedAway .c .busy .starting
  · rw [closeOrphanOp, if_neg running, if_pos invalid]
    exact turnDown_turnedAway .c .refused .noTime
  · rw [closeOrphanOp_known running valid, if_neg unlisted]
    refine ⟨fun unknown => ?_, fun slot known => ⟨fun done => ?_, fun opened held => ?_, fun opened free => ?_⟩⟩
    · rw [notOrphan, unknown]
      exact turnDown_turnedAway .c .refused .notFound
    · rw [(notOrphan_known known).1 done]
      exact turnDown_turnedAway .c .refused .already
    · rw [(notOrphan_known known).2 opened, if_pos (heldBySession_iff.mpr held)]
      exact turnDown_turnedAway .c .refused .state
    · rw [(notOrphan_known known).2 opened, if_neg fun held => free (heldBySession_iff.mp held)]
      exact turnDown_turnedAway .c .refused .notFound
  · rw [closeOrphanOp_known running valid, if_pos listed, if_pos (Rlg.orphanQueued_iff.mpr queued)]
    exact turnDown_turnedAway .c .refused .already
  · rw [closeOrphanOp_known running valid, if_pos listed, if_neg fun q => queued (Rlg.orphanQueued_iff.mp q), if_pos (show 8 ≤ s.rlg.portRequests from full)]
    exact turnDown_turnedAway .c .busy .full
  · have part := @orphanPart_eq s.tfu.calendar register (s.rlg.longField slot 16)
      (leNat (s.rlg.readBytes (slotAddress slot + 20) 2)) (leNat (s.rlg.readBytes (slotAddress slot + 22) 2)) _
      (congrArg (1000 * ·) (register_difference register (s.rlg.longField_lt slot 16)))
    intro start price fee mwh energy _
    rw [closeOrphanOp_known running valid, if_pos listed, if_neg fun q => queued (Rlg.orphanQueued_iff.mp q), if_neg (show ¬8 ≤ s.rlg.portRequests from full),
      closeOrphan, known, Option.getD_some]
    simp only [part]
    refine ⟨ok_answered .c false [] rfl, ok_after .c false [] (onlyChanges_then (withRlg_only _) (enqueue_only _) (hs := [.rlg])), ?_⟩
    simp only [arraySame, enqueued_ok, withRlg_rlg, Rlg.countWords_eq]
    exact ⟨fun _ => rfl, rfl, rfl, rfl⟩

end

section
/-! SUPPORT. What a program attempt leaves in the array (R153): words of a slot, its marks, and their verify. -/

namespace Sys2Proof.Machine

open Sys2Proof

variable {r t u : Rlg} {a w slot : Nat} {m : Mark} {o : ProgramOutcome}

/-! ## Programs in a slot -/

/-- Between the two logs only the array may differ. -/
def Rlg.ArrayOnly (r t : Rlg) : Prop := t = { r with cells := t.cells, codes := t.codes }

theorem Rlg.ArrayOnly.trans (h : r.ArrayOnly t) (k : t.ArrayOnly u) : r.ArrayOnly u := by
  unfold ArrayOnly at *
  rw [k, h]

/-- The address is one of the slot's. -/
def inSlot (slot a : Nat) : Prop := slotAddress slot ≤ a ∧ a < slotAddress slot + 128

theorem inSlot_mark (slot : Nat) (m : Mark) : inSlot slot (slotAddress slot + markOffset m) := by
  cases m <;> simp [inSlot, markOffset]

theorem not_inSlot_mark {new : Nat} (other : new ≠ slot) (m : Mark) : ¬inSlot new (slotAddress slot + markOffset m) := by
  rintro ⟨low, high⟩
  cases m <;> simp only [slotAddress, markOffset] at low high <;> omega

/-- Programs of words 0 to 14 of a slot and of some of its marks lie between the two logs. -/
structure Rlg.ProgrammedIn (r : Rlg) (slot : Nat) (ms : List Mark) (t : Rlg) : Prop where
  array : r.ArrayOnly t
  outside : ∀ a, ¬inSlot slot a → t.rawByte a = r.rawByte a ∧ t.readByte a = r.readByte a
  marks : ∀ m, m ∉ ms → t.rawByte (slotAddress slot + markOffset m) = r.rawByte (slotAddress slot + markOffset m)

theorem Rlg.ProgrammedIn.refl {ms : List Mark} : r.ProgrammedIn slot ms r := ⟨rfl, fun _ _ => ⟨rfl, rfl⟩, fun _ _ => rfl⟩

theorem Rlg.ProgrammedIn.trans {ms : List Mark} (h : r.ProgrammedIn slot ms t) (k : t.ProgrammedIn slot ms u) :
    r.ProgrammedIn slot ms u where
  array := h.array.trans k.array
  outside a away := ⟨(k.outside a away).1.trans (h.outside a away).1, (k.outside a away).2.trans (h.outside a away).2⟩
  marks m none := (k.marks m none).trans (h.marks m none)

theorem Rlg.ProgrammedIn.mono {ms ns : List Mark} (h : r.ProgrammedIn slot ms t) (sub : ∀ m ∈ ms, m ∈ ns) :
    r.ProgrammedIn slot ns t :=
  ⟨h.array, h.outside, fun m none => h.marks m fun mem => none (sub m mem)⟩

/-! ## Words -/

/-- What reaches a word, as the model looks it up. -/
theorem wordLeft_eq (o : ProgramOutcome) (w : Nat) (asked : Word64) :
    (((o.words.find? (fun y : WordResult => y.word.val == w)).map (fun y : WordResult => y.left)).getD
      ⟨asked, .clean⟩).value = o.wordLeft w asked := by
  unfold ProgramOutcome.wordLeft
  cases o.words.find? (fun y : WordResult => y.word.val == w) <;> rfl

theorem Rlg.programWord_array (asked : Word64) (x : Option ArrayResult) : r.ArrayOnly (r.programWord w asked x).1 := by
  have stored (bs : List Byte) : ∀ (v : Rlg) (c : Nat), v.ArrayOnly (v.storeBytes c bs) := by
    induction bs with
    | nil => exact fun _ _ => rfl
    | cons b bs ih => exact fun v c => ArrayOnly.trans (t := v.storeByte c b) rfl (ih _ _)
  exact (stored _ _ _).trans rfl

/-- Words programmed in turn: where they may write, what their verify compares, and what a good one says (R153). -/
structure Rlg.WordsTaken (r : Rlg) (slot first : Nat) (asked : List Word64) (o : ProgramOutcome) (y : Rlg × Bool) : Prop where
  array : r.ArrayOnly y.1
  elsewhere : ∀ a, ¬(8 * (16 * slot + first) ≤ a ∧ a < 8 * (16 * slot + first + asked.length)) →
    y.1.rawByte a = r.rawByte a ∧ y.1.readByte a = r.readByte a
  verdict : y.2 = true ↔ ∀ i x, asked[i]? = some x →
    r.rawWord (16 * slot + (first + i)) &&& o.wordLeft (first + i) x = x
  held : y.2 = true → ∀ i x, asked[i]? = some x → y.1.rawWord (16 * slot + (first + i)) = x

theorem Rlg.rawWord_congr (h : ∀ a, a / 8 = w → t.rawByte a = r.rawByte a) : t.rawWord w = r.rawWord w := by
  unfold rawWord
  rw [rawBytes_congr fun a low high => h a (by omega)]

theorem Rlg.programWords_taken (first : Nat) (asked : List Word64) :
    r.WordsTaken slot first asked o (Rlg.programWords slot o.words first asked r) := by
  induction asked generalizing r first with
  | nil => exact ⟨rfl, fun _ _ => ⟨rfl, rfl⟩, by simp [programWords], by simp⟩
  | cons x xs ih =>
    obtain ⟨result, eq⟩ : ∃ y, y = (o.words.find? (fun y => y.word.val == first)).map (·.left) := ⟨_, rfl⟩
    have left : (result.getD ⟨x, .clean⟩).value = o.wordLeft first x := eq ▸ wordLeft_eq o first x
    have verified : (r.programWord (16 * slot + first) x result).2 = true ↔
        r.rawWord (16 * slot + first) &&& o.wordLeft first x = x := by
      simp only [programWord, left, beq_iff_eq]
    obtain ⟨outside, good⟩ := programWord_keeps (r := r) (w := 16 * slot + first) x result
    have kept := programWord_array (r := r) (w := 16 * slot + first) x result
    simp only [programWords, ← eq]
    generalize r.programWord (16 * slot + first) x result = v at *
    obtain ⟨array, elsewhere, verdict, held⟩ := ih (r := v.1) (first + 1)
    have later (i : Nat) : v.1.rawWord (16 * slot + (first + 1 + i)) = r.rawWord (16 * slot + (first + 1 + i)) :=
      rawWord_congr fun a word => (outside a (by omega)).1
    simp only [later] at verdict
    refine ⟨kept.trans array, fun a away => ?_, ?_, fun both => ?_⟩
    · rw [List.length_cons] at away
      obtain ⟨raw, read⟩ := elsewhere a (by omega)
      obtain ⟨raw', read'⟩ := outside a (by omega)
      exact ⟨raw.trans raw', read.trans read'⟩
    · rw [Bool.and_eq_true, verified, verdict]
      constructor
      · rintro ⟨first', rest⟩ (_ | i) y at_
        · cases at_
          exact first'
        · rw [show first + (i + 1) = first + 1 + i by omega]
          exact rest i y at_
      · refine fun all => ⟨all 0 x rfl, fun i y at_ => ?_⟩
        rw [show first + 1 + i = first + (i + 1) by omega]
        exact all (i + 1) y at_
    · obtain ⟨first', rest⟩ := Bool.and_eq_true_iff.mp both
      rintro (_ | i) y at_
      · cases at_
        rw [← good first']
        exact rawWord_congr fun a word => (elsewhere a (by omega)).1
      · rw [show first + (i + 1) = first + 1 + i by omega]
        exact held rest i y at_

theorem Rlg.rawBytes_add (a n m : Nat) : r.rawBytes a (m + n) = r.rawBytes a m ++ r.rawBytes (a + m) n := by
  induction m generalizing a with
  | zero => rw [Nat.zero_add]; rfl
  | succ m ih => rw [Nat.add_right_comm, rawBytes, rawBytes, ih, List.cons_append, Nat.add_right_comm]; rfl

/-- Words that hold what a list of bytes fills them with hold its bytes. -/
theorem Rlg.rawBytes_words {k : Nat} {bytes : List Byte} (length : bytes.length = 8 * k)
    (held : ∀ i, i < k → r.rawWord (w + i) = BitVec.ofNat 64 (fieldAt bytes (8 * i) 8)) :
    r.rawBytes (8 * w) (8 * k) = bytes := by
  induction k generalizing w bytes with
  | zero => rw [List.length_eq_zero_iff.mp length]; rfl
  | succ k ih =>
    have taken : (bytes.take 8).length = 8 := by rw [List.length_take]; omega
    have first : r.rawBytes (8 * w) 8 = bytes.take 8 := by
      have small : _ < 2 ^ 64 := taken ▸ leNat_lt (bytes.take 8)
      have back := leBytes_leNat (bytes.take 8)
      rw [rawBytes_rawWord, ← Nat.add_zero w, held 0 (by omega), BitVec.toNat_ofNat, fieldAt, Nat.mul_zero, List.drop_zero,
        Nat.mod_eq_of_lt small]
      rwa [taken] at back
    have rest := ih (w := w + 1) (bytes := bytes.drop 8) (by rw [List.length_drop]; omega) fun i low => by
      rw [show w + 1 + i = w + (i + 1) by omega, held (i + 1) (by omega), fieldAt, fieldAt, List.drop_drop]
      rw [Nat.mul_succ, Nat.add_comm]
    rw [Nat.mul_succ, Nat.add_comm, rawBytes_add, first, ← Nat.mul_succ, rest, List.take_append_drop]

theorem getElem?_wordsOf {k i : Nat} (bytes : List Byte) {x : Word64} :
    (wordsOf k bytes)[i]? = some x ↔ i < k ∧ BitVec.ofNat 64 (fieldAt bytes (8 * i) 8) = x := by
  rw [wordsOf, List.getElem?_map]
  by_cases low : i < k
  · simp [low]
  · simp [low]

/-- The words of a part programmed in turn (R153, R160 to R162). -/
theorem Rlg.programWords_part {first k : Nat} {bytes : List Byte} (length : bytes.length = 8 * k) (inside : first + k ≤ 15)
    {y : Rlg × Bool} (h : y = Rlg.programWords slot o.words first (wordsOf k bytes) r) :
    r.ProgrammedIn slot [] y.1 ∧
    (y.2 = true ↔ ∀ i, i < k →
      r.rawWord (16 * slot + (first + i)) &&& o.wordLeft (first + i) (BitVec.ofNat 64 (fieldAt bytes (8 * i) 8)) =
        BitVec.ofNat 64 (fieldAt bytes (8 * i) 8)) ∧
    (y.2 = true → y.1.rawBytes (slotAddress slot + 8 * first) (8 * k) = bytes) := by
  obtain ⟨array, elsewhere, verdict, held⟩ := h ▸ programWords_taken (slot := slot) (o := o) (r := r) first (wordsOf k bytes)
  have count : (wordsOf k bytes).length = k := by rw [wordsOf, List.length_map, List.length_range]
  rw [count] at elsewhere
  refine ⟨⟨array, fun a away => elsewhere a fun within => away ?_, fun m _ => (elsewhere _ fun within => ?_).1⟩,
    verdict.trans ⟨fun all i low => all i _ ((getElem?_wordsOf bytes).mpr ⟨low, rfl⟩), fun all i x at_ => ?_⟩, fun good => ?_⟩
  · unfold inSlot slotAddress
    omega
  · cases m <;> simp only [slotAddress, markOffset] at within <;> omega
  · obtain ⟨low, rfl⟩ := (getElem?_wordsOf bytes).mp at_
    exact all i low
  · rw [show slotAddress slot + 8 * first = 8 * (16 * slot + first) by unfold slotAddress; omega]
    refine rawBytes_words length fun i low => ?_
    rw [Nat.add_assoc]
    exact held good i _ ((getElem?_wordsOf bytes).mpr ⟨low, rfl⟩)

/-! ## Marks -/

theorem markLeft_eq (o : ProgramOutcome) (m : Mark) :
    ((((o.marks.find? (fun y : MarkResult => y.mark == m)).map (fun y : MarkResult => y.left)).getD
      ⟨0, .clean⟩).value).truncate 8 = o.markLeft m := by
  unfold ProgramOutcome.markLeft
  cases o.marks.find? (fun y : MarkResult => y.mark == m) <;> rfl

theorem markCode_eq (o : ProgramOutcome) (m : Mark) :
    (((o.marks.find? (fun y : MarkResult => y.mark == m)).map (fun y : MarkResult => y.left)).getD
      ⟨0, .clean⟩).code = o.markCode m := by
  unfold ProgramOutcome.markCode
  cases o.marks.find? (fun y : MarkResult => y.mark == m) <;> rfl

/-- The bits of a byte held against those of a word. -/
theorem zeroExtend_and (x : Byte) (y : Word64) : x.zeroExtend 64 &&& y = (x &&& y.truncate 8).zeroExtend 64 := by
  refine BitVec.eq_of_getLsbD_eq fun i bound => ?_
  by_cases low : i < 8
  · simp [low, bound]
  · simp [BitVec.getLsbD_of_ge x i (not_lt.mp low)]

/-- A stored mark byte changes what no byte of another word reads; the address of its check code is another word's only where
it is a multiple of 8, and then its own word's. -/
theorem Rlg.readByte_storeMarkByte_word {c : Nat} {x : ArrayResult} (other : c / 8 ≠ a / 8) :
    (r.storeMarkByte a x).readByte c = r.readByte c :=
  readByte_congr (rawByte_storeByte_other fun same => other (same ▸ rfl)) (codeAt_withCode_other fun same =>
    other (by rw [← codeAddress_div, same]))

/-- Of the marks the opened mark alone begins a word, so no other mark's check code is read with another byte. -/
theorem Rlg.readByte_storeMarkByte_mark {c : Nat} {x : ArrayResult} (within : a % 8 ≠ 0) (other : c ≠ a) :
    (r.storeMarkByte a x).readByte c = r.readByte c := by
  refine readByte_congr (rawByte_storeByte_other other) (codeAt_withCode_other ?_)
  unfold codeAddress
  split
  · exact other
  · omega

/-- One mark programmed (R153). -/
theorem Rlg.programMark_taken (slot : Nat) (m : Mark) :
    r.ProgrammedIn slot [m] (r.programMark slot m o.marks).1 ∧
    r.MarkTaken slot m o (r.programMark slot m o.marks).1 ∧
    ((r.programMark slot m o.marks).2 = true ↔
      r.rawByte (slotAddress slot + markOffset m) &&& o.markLeft m = 0) := by
  have byte : (r.programMark slot m o.marks).1.rawByte (slotAddress slot + markOffset m) =
      r.rawByte (slotAddress slot + markOffset m) &&& o.markLeft m := by
    refine rawByte_storeByte_same.trans ?_
    rw [zeroExtend_and, markLeft_eq]
    simp
  refine ⟨⟨rfl, fun a away => ⟨?_, ?_⟩, fun n other => ?_⟩, ⟨byte, codeAt_withCode_same.trans (markCode_eq o m)⟩, ?_⟩
  · exact rawByte_storeByte_other fun same => away (same ▸ inSlot_mark slot m)
  · refine readByte_storeMarkByte_word fun same => away ?_
    cases m <;> simp only [slotAddress, markOffset] at same <;> unfold inSlot slotAddress <;> omega
  · refine rawByte_storeByte_other fun same => other (List.mem_singleton.mpr ?_)
    cases m <;> cases n <;> simp [markOffset] at same ⊢
  · have compared : (r.programMark slot m o.marks).2 = ((r.rawByte (slotAddress slot + markOffset m)).zeroExtend 64 &&&
        (((o.marks.find? (fun y : MarkResult => y.mark == m)).map (fun y : MarkResult => y.left)).getD ⟨0, .clean⟩).value == 0) := rfl
    rw [compared, beq_iff_eq, zeroExtend_and, markLeft_eq]
    refine ⟨fun zero => ?_, fun zero => by rw [zero]; rfl⟩
    simpa using congrArg (BitVec.truncate 8) zero

/-- A mark programmed after other programs of its slot, or of another one, that left its byte alone. -/
theorem Rlg.MarkTaken.after (h : t.MarkTaken slot m o u)
    (same : t.rawByte (slotAddress slot + markOffset m) = r.rawByte (slotAddress slot + markOffset m)) :
    r.MarkTaken slot m o u :=
  ⟨same ▸ h.byte, h.code⟩

theorem Rlg.rawByte_programMark_other {ms : List MarkResult} (other : a ≠ slotAddress slot + markOffset m) :
    (r.programMark slot m ms).1.rawByte a = r.rawByte a :=
  rawByte_storeByte_other other

/-! ## Parts and records -/

/-- The words of a part and, their verify good, its mark (R160, R161). -/
def Rlg.programPart (r : Rlg) (slot first : Nat) (words : List Word64) (m : Mark) (o : ProgramOutcome) : Rlg × Bool :=
  let w := Rlg.programWords slot o.words first words r
  if w.2 then w.1.programMark slot m o.marks else (w.1, false)

/-- A program of a part of a slot with its mark (R153, R160, R161). -/
structure Rlg.PartTaken (r : Rlg) (slot first k : Nat) (bytes : List Byte) (ms : List Mark) (o : ProgramOutcome)
    (y : Rlg × Bool) : Prop where
  programmed : r.ProgrammedIn slot ms y.1
  verdict : y.2 = true ↔ r.Verifies slot first k bytes ms o
  bytes : y.2 = true → y.1.rawBytes (slotAddress slot + 8 * first) (8 * k) = bytes
  marks : y.2 = true → ∀ m ∈ ms, y.1.rawByte (slotAddress slot + markOffset m) = 0

/-- Words below the mark word are no mark's. -/
theorem Rlg.rawBytes_programMark {ms : List MarkResult} {first k : Nat} (inside : first + k ≤ 15) :
    (r.programMark slot m ms).1.rawBytes (slotAddress slot + 8 * first) (8 * k) =
      r.rawBytes (slotAddress slot + 8 * first) (8 * k) :=
  rawBytes_congr fun c low high => rawByte_programMark_other (by cases m <;> simp only [markOffset] <;> omega)

theorem Rlg.programPart_taken {first k : Nat} {bytes : List Byte} (length : bytes.length = 8 * k) (inside : first + k ≤ 15)
    (m : Mark) : r.PartTaken slot first k bytes [m] o (r.programPart slot first (wordsOf k bytes) m o) := by
  obtain ⟨programmed, verdict, held⟩ := programWords_part (r := r) (slot := slot) (o := o) length inside rfl
  unfold programPart
  generalize Rlg.programWords slot o.words first (wordsOf k bytes) r = v at *
  obtain ⟨marked, taken, mark⟩ := programMark_taken (r := v.1) (o := o) slot m
  have before := programmed.marks m List.not_mem_nil
  rw [before] at mark
  have both : (∀ n ∈ [m], r.rawByte (slotAddress slot + markOffset n) &&& o.markLeft n = 0) ↔
      r.rawByte (slotAddress slot + markOffset m) &&& o.markLeft m = 0 := List.forall_mem_singleton
  by_cases good : v.2 = true
  · simp only [good, if_true]
    refine ⟨(programmed.mono (by simp)).trans marked, ?_, fun _ => ?_, fun zero => List.forall_mem_singleton.mpr ?_⟩
    · rw [mark]
      exact ⟨fun zero => ⟨verdict.mp good, both.mpr zero⟩, fun all => both.mp all.marks⟩
    · rw [rawBytes_programMark inside]
      exact held good
    · rw [taken.byte, before]
      exact mark.mp zero
  · simp only [good]
    exact ⟨programmed.mono (by simp), ⟨nofun, fun all => absurd (verdict.mpr all.words) good⟩, nofun, nofun⟩

/-- A whole record with both its marks, but for an origin that reads DAMAGED (R162). -/
def Rlg.programRecord (r : Rlg) (damaged : Bool) (slot : Nat) (words : List Word64) (o : ProgramOutcome) : Rlg × Bool :=
  let w := if damaged then (r, false) else Rlg.programWords slot o.words 0 words r
  let m := if w.2 then w.1.programMark slot .opened o.marks else (w.1, false)
  let c := if w.2 then m.1.programMark slot .closed o.marks else (m.1, false)
  (c.1, m.2 && c.2)

theorem Rlg.programRecord_damaged (words : List Word64) : r.programRecord true slot words o = (r, false) := rfl

theorem Rlg.programRecord_taken {bytes : List Byte} (length : bytes.length = 120) :
    r.PartTaken slot 0 15 bytes [.opened, .closed] o (r.programRecord false slot (wordsOf 15 bytes) o) := by
  obtain ⟨programmed, verdict, held⟩ := programWords_part (r := r) (slot := slot) (o := o) (first := 0) (k := 15) length (by decide)
    rfl
  unfold programRecord
  simp only [Bool.false_eq_true, if_false]
  generalize Rlg.programWords slot o.words 0 (wordsOf 15 bytes) r = v at *
  obtain ⟨marked, taken, opened⟩ := programMark_taken (r := v.1) (o := o) slot .opened
  obtain ⟨marked', taken', closed⟩ := programMark_taken (r := (v.1.programMark slot .opened o.marks).1) (o := o) slot .closed
  have beforeOpened := programmed.marks .opened List.not_mem_nil
  have beforeClosed : (v.1.programMark slot .opened o.marks).1.rawByte (slotAddress slot + markOffset .closed) = _ :=
    (marked.marks .closed (by decide)).trans (programmed.marks .closed List.not_mem_nil)
  rw [beforeOpened] at opened
  rw [beforeClosed] at closed
  have both : (∀ n ∈ [Mark.opened, .closed], r.rawByte (slotAddress slot + markOffset n) &&& o.markLeft n = 0) ↔
      r.rawByte (slotAddress slot + markOffset .opened) &&& o.markLeft .opened = 0 ∧
        r.rawByte (slotAddress slot + markOffset .closed) &&& o.markLeft .closed = 0 := by
    rw [List.forall_mem_cons, List.forall_mem_singleton]
  by_cases good : v.2 = true
  · simp only [good, if_true]
    refine ⟨((programmed.mono (by simp)).trans (marked.mono (by simp))).trans (marked'.mono (by simp)),
      Bool.and_eq_true_iff.trans ?_, fun _ => ?_,
      fun zero => List.forall_mem_cons.mpr ⟨?_, List.forall_mem_singleton.mpr ?_⟩⟩
    · rw [opened, closed]
      exact ⟨fun zero => ⟨verdict.mp good, both.mpr zero⟩, fun all => both.mp all.marks⟩
    · rw [rawBytes_programMark (by decide), rawBytes_programMark (by decide)]
      exact held good
    · rw [marked'.marks .opened (by decide), taken.byte, beforeOpened]
      exact opened.mp (Bool.and_eq_true_iff.mp zero).1
    · rw [taken'.byte, beforeClosed]
      exact closed.mp (Bool.and_eq_true_iff.mp zero).2
  · simp only [good]
    exact ⟨programmed.mono (by simp), ⟨nofun, fun all => absurd (verdict.mpr all.words) good⟩, nofun, nofun⟩

theorem length_openingBytes (part : OpeningPart) : (openingBytes part).length = 32 := by
  simp [openingBytes, length_leBytes]

theorem length_closingBytes (part : ClosingPart) (number : Nat) (origin : Option Nat) :
    (closingBytes part number origin).length = 88 := by
  simp [closingBytes, accountBytes, bandBytes, length_leBytes]

end Sys2Proof.Machine
end

section
/-! SUPPORT. What ends a program request: notices told, the erase test, a suspended erase resumed, a third failure, and the
session freed (R59, R71, R159, R164, R165, R169 to R171, R191). -/

namespace Sys2Proof.Machine

open Sys2Proof State

variable {s t u v : State} {p : Point} {r x y : Rlg} {ns : List Nat} {slot n : Nat}

/-! ## Notices -/

theorem getLsbD_numberMask {k : Nat} (ns : List Nat) (low : k < 32) : (numberMask ns).getLsbD k = true ↔ k ∈ ns := by
  have bits (m : Word32) : (ns.foldl (fun m n => m ||| ((1#32) <<< n)) m).getLsbD k = true ↔ m.getLsbD k = true ∨ k ∈ ns := by
    induction ns generalizing m with
    | nil => simp
    | cons n ns ih =>
      have bit : ((1#32) <<< n).getLsbD k = true ↔ k = n := by
        rw [BitVec.getLsbD_shiftLeft]
        simp [low]
        omega
      rw [List.foldl_cons, ih, BitVec.getLsbD_or, Bool.or_eq_true, bit, List.mem_cons, or_assoc]
  rw [numberMask, bits]
  simp

theorem getLsbD_rankBit (k j : Fin 16) : (rankBit k.val).getLsbD j.val = true ↔ j = k := by
  revert k j
  decide

/-- Every pending kind and every number of a detail set still stands (R191). -/
structure Notices.Within (n m : Notices) : Prop where
  pending : ∀ k : Fin 16, n.pending.getLsbD k.val = true → m.pending.getLsbD k.val = true
  details : ∀ (k : Fin 16) (i : Nat), n.details[k].getLsbD i = true → m.details[k].getLsbD i = true

theorem Notices.Within.refl {n : Notices} : n.Within n := ⟨fun _ h => h, fun _ _ h => h⟩

theorem Notices.Within.trans {n m l : Notices} (h : n.Within m) (k : m.Within l) : n.Within l :=
  ⟨fun i set => k.pending i (h.pending i set), fun i j set => k.details i j (h.details i j set)⟩

theorem Notices.Within.tells {n m : Notices} {k : Fin 16} (h : n.Within m) (told : n.tells k ns) : m.tells k ns :=
  ⟨h.pending k told.1, fun i mem low => h.details k i (told.2 i mem low)⟩

theorem Notices.raise_details (n : Notices) (k j : Fin 16) (ns : List Nat) :
    (n.raise k ns).details[j] = if j = k then n.details[k] ||| numberMask ns else n.details[j] := by
  change (n.details.set k (n.details[k] ||| numberMask ns))[j] = _
  by_cases same : j = k
  · subst same
    simp
  · rw [if_neg same]
    simp [Fin.val_ne_of_ne (Ne.symm same)]

theorem Notices.raise_within (n : Notices) (k : Fin 16) (ns : List Nat) : n.Within (n.raise k ns) where
  pending i set := by
    change (n.pending ||| rankBit k).getLsbD i = true
    rw [BitVec.getLsbD_or, set, Bool.true_or]
  details i j set := by
    rw [raise_details]
    split
    · next same => rw [BitVec.getLsbD_or, ← same, set, Bool.true_or]
    · exact set

theorem Notices.raise_tells (n : Notices) (k : Fin 16) (ns : List Nat) : (n.raise k ns).tells k ns := by
  refine ⟨?_, fun i mem low => ?_⟩
  · change (n.pending ||| rankBit k).getLsbD k = true
    rw [BitVec.getLsbD_or, (getLsbD_rankBit k k).mpr rfl, Bool.or_true]
  · rw [raise_details, if_pos rfl, BitVec.getLsbD_or, (getLsbD_numberMask ns low).mpr mem, Bool.or_true]

/-- On neither port has a notice been taken away. -/
structure State.NoticesKept (s t : State) : Prop where
  site : s.noticesS.Within t.noticesS
  charge : s.noticesC.Within t.noticesC

theorem State.NoticesKept.refl : s.NoticesKept s := ⟨.refl, .refl⟩

theorem State.NoticesKept.trans (h : s.NoticesKept t) (k : t.NoticesKept u) : s.NoticesKept u :=
  ⟨h.site.trans k.site, h.charge.trans k.charge⟩

theorem State.NoticesKept.of_only {fs : List Field} (h : s.onlyChanges fs t) (site : .noticesS ∉ fs := by decide)
    (charge : .noticesC ∉ fs := by decide) : s.NoticesKept t := by
  have a : t.noticesS = s.noticesS := h .noticesS site
  have b : t.noticesC = s.noticesC := h .noticesC charge
  exact ⟨a ▸ .refl, b ▸ .refl⟩

theorem State.raise_noticesKept (q : Port) (k : NoticeKind) (ns : List Nat) : s.NoticesKept (s.raise q k ns) := by
  cases q
  · exact ⟨Notices.raise_within _ _ _, .refl⟩
  · exact ⟨.refl, Notices.raise_within _ _ _⟩

theorem State.raiseBoth_noticesKept (k : NoticeKind) (ns : List Nat) : s.NoticesKept (s.raiseBoth k ns) :=
  (raise_noticesKept .s k ns).trans (raise_noticesKept .c k ns)

/-! ## The erase test -/

/-- The log as the erase test leaves it (R170). -/
def Rlg.tested (r : Rlg) : Rlg :=
  { (match r.eraseDue, r.queue with
      | some k, [] => r.startErase k
      | _, _ => r) with spaceLow := r.spaceIsLow }

theorem State.eraseTest_tested : s.eraseTest.rlg = s.rlg.tested := by
  simp only [eraseTest]
  split
  · exact raiseBoth_rlg _ _ _
  · rfl

theorem State.eraseTest_noticesKept : s.NoticesKept s.eraseTest := by
  unfold eraseTest
  dsimp only
  split
  · exact (NoticesKept.of_only (withRlg_only _)).trans (raiseBoth_noticesKept _ _)
  · exact .of_only (withRlg_only _)

/-- With a request in the queue no erase starts (R170). -/
theorem Rlg.tested_queued (h : r.queue ≠ []) : r.tested = { r with spaceLow := r.spaceIsLow } := by
  unfold tested
  split
  · next empty => exact absurd empty h
  · rfl

/-- What ends a request leaves of the log: the array, what is known of slots and numbers, the ring; an erase may have started
or resumed (R170, R171). -/
structure Rlg.Tidied (r t : Rlg) : Prop where
  array : t.cells = r.cells ∧ t.codes = r.codes
  slots : t.slotStates = r.slotStates
  index : t.index = r.index
  next : t.nextNumber = r.nextNumber
  orphans : t.orphans = r.orphans
  fill : t.fill = r.fill ∧ t.lastActive = r.lastActive
  sectors : ∀ k : Fin 16, t.sectors[k] = r.sectors[k] ∨
    t.sectors[k] = .erasing ∧ (r.sectors[k] = .full ∨ r.sectors[k] = .eraseSuspended)

theorem Rlg.Tidied.trans (h : r.Tidied x) (k : x.Tidied y) : r.Tidied y where
  array := ⟨k.array.1.trans h.array.1, k.array.2.trans h.array.2⟩
  slots := k.slots.trans h.slots
  index := k.index.trans h.index
  next := k.next.trans h.next
  orphans := k.orphans.trans h.orphans
  fill := ⟨k.fill.1.trans h.fill.1, k.fill.2.trans h.fill.2⟩
  sectors j := by
    rcases h.sectors j with same | ⟨erasing, was⟩
    · rw [← same]
      exact k.sectors j
    · rcases k.sectors j with same' | ⟨_, full | suspended⟩
      · exact .inr ⟨same'.trans erasing, was⟩
      · rw [full] at erasing
        cases erasing
      · rw [suspended] at erasing
        cases erasing

theorem Rlg.SameScan.tidied (h : r.SameScan x) : r.Tidied x where
  array := h.array
  slots := h.slots
  index := h.index
  next := h.next
  orphans := h.orphans
  fill := h.fill
  sectors k := (h.sectors k).imp_right fun both => ⟨both.2, .inl both.1⟩

/-- The fields the tidying may change where the ring stands still. -/
theorem Rlg.Tidied.of_same (array : x.cells = r.cells ∧ x.codes = r.codes) (slots : x.slotStates = r.slotStates)
    (index : x.index = r.index) (next : x.nextNumber = r.nextNumber) (orphans : x.orphans = r.orphans)
    (fill : x.fill = r.fill ∧ x.lastActive = r.lastActive) (sectors : x.sectors = r.sectors) : r.Tidied x :=
  ⟨array, slots, index, next, orphans, fill, fun _ => .inl (by rw [sectors])⟩

theorem Rlg.Tidied.readByte (h : r.Tidied x) (a : Nat) : x.readByte a = r.readByte a := by
  simp only [Rlg.readByte, rawByte, correction, codeAt, h.array.1, h.array.2]

theorem Rlg.Tidied.rawByte (h : r.Tidied x) (a : Nat) : x.rawByte a = r.rawByte a := by
  simp only [Rlg.rawByte, h.array.1]

theorem Rlg.Tidied.rawBytes (h : r.Tidied x) (a k : Nat) : x.rawBytes a k = r.rawBytes a k :=
  rawBytes_congr fun c _ _ => h.rawByte c

theorem Rlg.Tidied.slotState (h : r.Tidied x) (slot : Nat) : x.slotState slot = r.slotState slot := by
  rw [Rlg.slotState, h.slots, Rlg.slotState]

theorem Rlg.Tidied.slotOf (h : r.Tidied x) (n : Nat) : x.slotOf n = r.slotOf n := by
  rw [Rlg.slotOf, h.index, Rlg.slotOf]

theorem Rlg.Tidied.markTaken {m : Mark} {o : ProgramOutcome} (h : x.Tidied y) (taken : r.MarkTaken slot m o x) :
    r.MarkTaken slot m o y :=
  ⟨(h.rawByte _).trans taken.byte, by rw [codeAt, h.array.2]; exact taken.code⟩

theorem Rlg.FillMoved.tidied (h : r.FillMoved slot x) (k : x.Tidied y) : r.FillMoved slot y where
  fill := k.fill.1.trans h.fill
  last := k.fill.2.trans h.last
  sectors j := by
    rcases k.sectors j with same | ⟨erasing, was⟩
    · rw [same]
      exact h.sectors j
    · rcases h.sectors j with after | ⟨before, _⟩
      · exact .inr ⟨erasing, after ▸ was⟩
      · rw [before] at was
        simp at was

theorem Rlg.resumeErase_tidied : r.Tidied r.resumeErase ∧ r.resumeErase.logState = r.logState ∧ r.resumeErase.queue = r.queue := by
  have same : r.Tidied r := .of_same ⟨rfl, rfl⟩ rfl rfl rfl rfl ⟨rfl, rfl⟩ rfl
  unfold resumeErase
  split
  · next e _ =>
    split
    · next runs =>
      refine ⟨⟨⟨rfl, rfl⟩, rfl, rfl, rfl, rfl, ⟨rfl, rfl⟩, fun k => ?_⟩, rfl, rfl⟩
      rw [sectors_set]
      split
      · next at_ => exact .inr ⟨rfl, .inr (at_ ▸ runs.1)⟩
      · exact .inl rfl
    · exact ⟨same, rfl, rfl⟩
  · exact ⟨same, rfl, rfl⟩

/-- The head request taken off the queue. -/
def State.withoutHead (s : State) : State := s.withRlg { s.rlg with queue := s.rlg.queue.tail, programming := false }

/-- What an empty queue brings: a suspended erase resumes, and the erase test (R159, R170, R171). -/
def State.whenEmpty (s : State) : State :=
  match s.rlg.queue with
  | [] => (s.withRlg s.rlg.resumeErase).eraseTest
  | _ => s

theorem State.endRequest_eq : s.endRequest = s.withoutHead.whenEmpty := rfl

theorem State.failHead_eq (ns : List Nat) : s.failHead ns = (s.withoutHead.thirdFailure ns).whenEmpty := rfl

theorem State.withoutHead_tidied : s.rlg.Tidied s.withoutHead.rlg := .of_same ⟨rfl, rfl⟩ rfl rfl rfl rfl ⟨rfl, rfl⟩ rfl

theorem State.whenEmpty_only : s.onlyChanges [.rlg, .noticesS, .noticesC] s.whenEmpty := by
  unfold whenEmpty
  split
  · exact onlyChanges_then (withRlg_only _) eraseTest_only
  · exact onlyChanges_refl

theorem State.whenEmpty_noticesKept : s.NoticesKept s.whenEmpty := by
  unfold whenEmpty
  split
  · exact (NoticesKept.of_only (withRlg_only _)).trans eraseTest_noticesKept
  · exact .refl

theorem State.whenEmpty_tidied :
    s.rlg.Tidied s.whenEmpty.rlg ∧ s.whenEmpty.rlg.logState = s.rlg.logState ∧ s.whenEmpty.rlg.queue = s.rlg.queue := by
  unfold whenEmpty
  split
  · obtain ⟨resumed, log, queue⟩ := Rlg.resumeErase_tidied (r := s.rlg)
    obtain ⟨test, log', queue'⟩ := eraseTest_rlg (s.withRlg s.rlg.resumeErase)
    exact ⟨resumed.trans test.tidied, log'.trans log, queue'.trans queue⟩
  · exact ⟨.of_same ⟨rfl, rfl⟩ rfl rfl rfl rfl ⟨rfl, rfl⟩ rfl, rfl, rfl⟩

/-- The head request has ended (R159). -/
theorem State.endRequest_tidied : s.rlg.Tidied s.endRequest.rlg ∧ s.endRequest.rlg.logState = s.rlg.logState ∧
    s.endRequest.rlg.queue = s.rlg.queue.tail := by
  obtain ⟨tidied, log, queue⟩ := whenEmpty_tidied (s := s.withoutHead)
  exact ⟨withoutHead_tidied.trans tidied, log, queue⟩

theorem State.endRequest_noticesKept : s.NoticesKept s.endRequest :=
  (NoticesKept.of_only (withRlg_only _)).trans whenEmpty_noticesKept

/-! ## The sessions at the entry into FAULT -/

theorem State.faultClose_session (p : Point) : (s.faultClose p).session p = s.closedByFault p := by
  unfold faultClose closedByFault
  dsimp only
  simp only [Session.closable_iff, Session.running]
  split
  · exact (startClose_started .storeFault).record
  · split
    · exact withSession_same p _
    · rfl

theorem State.faultClose_others (p : Point) : s.otherSessionsSame p (s.faultClose p) := by
  unfold faultClose
  split
  · exact (startClose_started .storeFault).others
  · split
    · exact withSession_others p _
    · exact fun _ _ => rfl

/-- What a fault close makes of a record reads the record and the calendar. -/
theorem State.closedByFault_congr (record : t.session p = s.session p) (calendar : t.tfu.calendar = s.tfu.calendar) :
    t.closedByFault p = s.closedByFault p := by
  simp only [closedByFault, record, calendar]

/-- The closes of other points leave a point's record. -/
theorem State.faultCloses_apart {ps : List Point} (h : p ∉ ps) : ∀ v : State,
    (ps.foldl faultClose v).session p = v.session p := by
  induction ps with
  | nil => exact fun _ => rfl
  | cons q ps ih =>
    intro v
    obtain ⟨other, rest⟩ := not_or.mp (mt List.mem_cons.mpr h)
    exact (ih rest _).trans (faultClose_others q p other)

/-- Every session at the entry into FAULT (R69). -/
theorem State.faultCloseAll_session (p : Point) : s.faultCloseAll.session p = s.closedByFault p := by
  have once : allPoints.Nodup := List.nodup_ofFn.mpr Function.injective_id
  obtain ⟨before, after, split⟩ : ∃ before after, allPoints = before ++ p :: after :=
    List.append_of_mem (List.mem_ofFn.mpr ⟨p, rfl⟩)
  rw [split, List.nodup_middle, List.nodup_cons, List.mem_append, not_or] at once
  obtain ⟨⟨notBefore, notAfter⟩, _⟩ := once
  have only : s.onlyChanges [.ssu, .alu, .requests] (before.foldl faultClose s) :=
    onlyChanges_foldl (fun _ a => faultClose_only a) _
  have books : (before.foldl faultClose s).tfu = s.tfu := only .tfu (by decide)
  unfold faultCloseAll
  rw [split, List.foldl_append, List.foldl_cons, faultCloses_apart notAfter, faultClose_session]
  exact closedByFault_congr (faultCloses_apart notBefore s) (by rw [books])

/-! ## Third failures -/

theorem State.thirdFailure_fault (ns : List Nat) (h : s.rlg.logState = .fault) :
    s.thirdFailure ns = s.raiseBoth .storeFault ns := if_pos h

theorem State.thirdFailure_enters (ns : List Nat) (h : s.rlg.logState ≠ .fault) :
    s.thirdFailure ns = (s.raiseBoth .storeFault ns).enterFault := if_neg h

theorem State.raiseBoth_tells (k : NoticeKind) (ns : List Nat) :
    (s.raiseBoth k ns).noticesS.tells k.rank ns ∧ (s.raiseBoth k ns).noticesC.tells k.rank ns :=
  ⟨Notices.raise_tells _ _ _, Notices.raise_tells _ _ _⟩

theorem State.enterFault_rlg :
    s.enterFault.rlg = { s.rlg with logState := .fault, queue := s.rlg.queue.filter (fun q => !q.isCollect) } :=
  faultCloseAll_only .rlg (by decide)

theorem State.enterFault_session (p : Point) : s.enterFault.session p = s.closedByFault p :=
  faultCloseAll_session p

theorem State.thirdFailure_noticesKept (ns : List Nat) : s.NoticesKept (s.thirdFailure ns) := by
  by_cases fault : s.rlg.logState = .fault
  · rw [thirdFailure_fault ns fault]
    exact raiseBoth_noticesKept _ _
  · rw [thirdFailure_enters ns fault]
    exact (raiseBoth_noticesKept _ _).trans (.of_only enterFault_only)

/-- A third failure (R164, R165, R69). -/
theorem State.thirdFailure_taken (ns : List Nat) :
    s.FaultTaken ns none (s.thirdFailure ns) ∧ (s.thirdFailure ns).rlg.queue = s.queueAfterFault s.rlg.queue := by
  have frame : s.onlyChanges [.rlg, .ssu, .tfu, .alu, .requests, .noticesS, .noticesC] (s.thirdFailure ns) :=
    onlyChanges_mono (thirdFailure_only ns)
  have told := raiseBoth_tells (s := s) .storeFault ns
  by_cases fault : s.rlg.logState = .fault
  · rw [thirdFailure_fault ns fault] at *
    refine ⟨⟨?_, told, fun away => absurd fault away, fun q _ => ?_, frame⟩, ?_⟩
    · rw [raiseBoth_rlg]
      exact fault
    · rw [if_pos fault]
      rfl
    · rw [queueAfterFault, if_pos fault, raiseBoth_rlg]
  · rw [thirdFailure_enters ns fault] at *
    have kept := NoticesKept.of_only (s := s.raiseBoth .storeFault ns) enterFault_only
    have queue : (s.raiseBoth .storeFault ns).enterFault.rlg.queue = s.queueAfterFault s.rlg.queue := by
      rw [enterFault_rlg, raiseBoth_rlg, queueAfterFault, if_neg fault]
    refine ⟨⟨by rw [enterFault_rlg], ⟨kept.site.tells told.1, kept.charge.tells told.2⟩, fun _ q mem => ?_, fun q _ => ?_,
      frame⟩, queue⟩
    · rw [queue, queueAfterFault, if_neg fault] at mem
      simpa using (List.mem_filter.mp mem).2
    · rw [if_neg fault]
      exact enterFault_session q

/-- A third failure counts from an earlier state whose log and records agree, the failing one aside. -/
theorem State.FaultTaken.since {early failing : Option Point} (h : v.FaultTaken ns early t)
    (frame : s.onlyChanges [.rlg, .ssu, .tfu, .alu, .requests, .noticesS, .noticesC] v)
    (log : v.rlg.logState = s.rlg.logState) (calendar : v.tfu.calendar = s.tfu.calendar)
    (records : ∀ q, failing ≠ some q → v.session q = s.session q)
    (fewer : ∀ q, failing ≠ some q → early ≠ some q := by exact fun _ _ => nofun) : s.FaultTaken ns failing t where
  state := h.state
  told := h.told
  collects := log ▸ h.collects
  sessions q other := by
    rw [h.sessions q (fewer q other), log, records q other, closedByFault_congr (records q other) calendar]
  frame := onlyChanges_trans frame h.frame

/-- It stands after what an empty queue then brings. -/
theorem State.FaultTaken.until {failing : Option Point} (h : s.FaultTaken ns failing t)
    (frame : t.onlyChanges [.rlg, .noticesS, .noticesC] u) (log : u.rlg.logState = t.rlg.logState)
    (queue : u.rlg.queue = t.rlg.queue) (notices : t.NoticesKept u) : s.FaultTaken ns failing u where
  state := log.trans h.state
  told := ⟨notices.site.tells h.told.1, notices.charge.tells h.told.2⟩
  collects := queue ▸ h.collects
  sessions q other := by
    rw [session, frame .ssu (by decide)]
    exact h.sessions q other
  frame := onlyChanges_then h.frame frame

/-- Of a failed head request the log keeps array, slots, numbers and ring (R164). -/
structure State.HeadFailed (s : State) (ns : List Nat) (t : State) : Prop where
  taken : s.FaultTaken ns none t
  tidied : s.rlg.Tidied t.rlg
  queue : t.rlg.queue = s.queueAfterFault s.rlg.queue.tail
  tfu : t.tfu = s.tfu
  notices : s.NoticesKept t

theorem State.failHead_failed (ns : List Nat) : s.HeadFailed ns (s.failHead ns) := by
  obtain ⟨taken, queue⟩ := thirdFailure_taken (s := s.withoutHead) ns
  have entered := (thirdFailure_rlg s.withoutHead ns).tidied
  have books : (s.withoutHead.thirdFailure ns).tfu = s.tfu := thirdFailure_only ns .tfu (by decide)
  have raised : s.NoticesKept (s.withoutHead.thirdFailure ns) :=
    (NoticesKept.of_only (withRlg_only _)).trans (thirdFailure_noticesKept ns)
  rw [failHead_eq]
  obtain ⟨tidied, log, same⟩ := whenEmpty_tidied (s := s.withoutHead.thirdFailure ns)
  have ended := taken.until whenEmpty_only log same whenEmpty_noticesKept
  exact ⟨ended.since (onlyChanges_mono (withRlg_only _)) rfl rfl fun _ _ => rfl,
    (withoutHead_tidied.trans entered).trans tidied, same.trans queue, (whenEmpty_only .tfu (by decide)).trans books,
    raised.trans whenEmpty_noticesKept⟩

/-! ## The session freed -/

theorem Tfu.dropRef_slot (x : Tfu) (k j : TariffSlot) :
    (x.dropRef k).slot j = if j = k then (x.slot j).map (fun h => { h with refs := h.refs - 1 }) else x.slot j := by
  cases k <;> cases j <;> rfl

theorem State.freeSession_freed (p : Point) : s.sessionFreed p (s.freeSession p) :=
  ⟨withSession_same p _, Tfu.dropRef_slot _ _⟩

theorem State.freeSession_others (p : Point) : s.otherSessionsSame p (s.freeSession p) :=
  (withSession_others p Session.free (s := s.withTfu _))

/-- The record freed stays so. -/
theorem State.sessionFreed.until (h : s.sessionFreed p t) (ssu : u.ssu = t.ssu) (tfu : u.tfu = t.tfu) : s.sessionFreed p u := by
  refine ⟨?_, fun k => ?_⟩
  · rw [session, ssu]
    exact h.1
  · rw [tfu]
    exact h.2 k

/-- The record freed counts from an earlier state with the same books and the same tariff slot in the record. -/
theorem State.sessionFreed.since (h : v.sessionFreed p t) (tfu : v.tfu = s.tfu)
    (slot : (v.session p).tariffSlot = (s.session p).tariffSlot) : s.sessionFreed p t := by
  unfold sessionFreed at *
  rwa [tfu, slot] at h

end Sys2Proof.Machine
end

section
/-! SUPPORT. The program of a collected mark and the closing of a session in its own slot (R153, R161, R163, R71). -/

namespace Sys2Proof.Machine

open Sys2Proof State

variable {s t : State} {r x y : Rlg} {slot n attempts : Nat} {o : ProgramOutcome} {rest : List ProgramRequest}

/-! ## Logs that differ in the array -/

theorem Rlg.ArrayOnly.queue (h : r.ArrayOnly x) : x.queue = r.queue := by rw [h]

theorem Rlg.ArrayOnly.slotStates (h : r.ArrayOnly x) : x.slotStates = r.slotStates := by rw [h]

theorem Rlg.ArrayOnly.slotState (h : r.ArrayOnly x) (q : Nat) : x.slotState q = r.slotState q := by
  rw [Rlg.slotState, h.slotStates, Rlg.slotState]

theorem Rlg.ArrayOnly.index (h : r.ArrayOnly x) : x.index = r.index := by rw [h]

theorem Rlg.ArrayOnly.logState (h : r.ArrayOnly x) : x.logState = r.logState := by rw [h]

theorem Rlg.ArrayOnly.orphans (h : r.ArrayOnly x) : x.orphans = r.orphans := by rw [h]

theorem Rlg.ArrayOnly.nextNumber (h : r.ArrayOnly x) : x.nextNumber = r.nextNumber := by rw [h]

theorem Rlg.ArrayOnly.fill (h : r.ArrayOnly x) : x.fill = r.fill ∧ x.lastActive = r.lastActive := by
  rw [h]
  exact ⟨rfl, rfl⟩

theorem Rlg.ArrayOnly.sectors (h : r.ArrayOnly x) : x.sectors = r.sectors := by rw [h]

/-! ## Slot states -/

theorem Rlg.slotState_withSlotState_same {z : SlotState} : (r.withSlotState slot z).slotState slot = z :=
  sparseGet_sparseSet_same

theorem Rlg.slotState_withSlotState_other {q : Nat} {z : SlotState} (other : q ≠ slot) :
    (r.withSlotState slot z).slotState q = r.slotState q :=
  sparseGet_sparseSet_other other

/-! ## COLLECT_PROGRAM -/

/-- The head request is a COLLECT and no erase runs (R163). -/
theorem execCollectProgram_head (idle : s.rlg.erasing = false) (head : s.rlg.queue = ⟨.collect, n, slot, attempts⟩ :: rest)
    {m : Rlg × Bool} (program : s.rlg.programMark slot .collected o.marks = m) :
    exec (.collectProgram o) s = .next (
      if m.2 then ((s.withRlg (m.1.withSlotState slot .collected)).eraseTest).endRequest
      else if attempts + 1 < 3 then (s.withRlg m.1).retryHead ⟨.collect, n, slot, attempts + 1⟩
      else if ((s.withRlg m.1).failHead []).rlg.markSet slot .collected then
        (((s.withRlg m.1).failHead []).withRlg
          (((s.withRlg m.1).failHead []).rlg.withSlotState slot .collected)).eraseTest
      else (s.withRlg m.1).failHead []) := by
  subst program
  change execCollectProgram o s = _
  simp only [execCollectProgram, idle, head, Bool.false_eq_true, if_false]

/-- A request of which the last programs changed array and slot states has ended (R159). -/
theorem State.endRequest_after {v : Rlg} (tidied : v.Tidied t.rlg) (queue : t.rlg.queue = s.rlg.queue) {q : ProgramRequest}
    (head : s.rlg.queue = q :: rest) : v.Tidied t.endRequest.rlg ∧ t.endRequest.rlg.queue = rest := by
  obtain ⟨end_, _, tail⟩ := endRequest_tidied (s := t)
  exact ⟨tidied.trans end_, by rw [tail, queue, head]; rfl⟩

theorem Rlg.Tidied.refl : r.Tidied r := .of_same ⟨rfl, rfl⟩ rfl rfl rfl rfl ⟨rfl, rfl⟩ rfl

/-- The look at a mark (log entry 47). -/
theorem Rlg.markSet_collected : r.markSet slot .collected = true ↔ r.readByte (slotAddress slot + 122) ≠ 0xFF :=
  bne_iff_ne

/-- The third failure of the program of a collected mark, and the look at the mark (R164; log entry 47). -/
theorem State.collectFailed {m : Rlg} (array : s.rlg.ArrayOnly m) {q : ProgramRequest} (head : s.rlg.queue = q :: rest)
    (look : t = if ((s.withRlg m).failHead []).rlg.markSet slot .collected then
        (((s.withRlg m).failHead []).withRlg (((s.withRlg m).failHead []).rlg.withSlotState slot .collected)).eraseTest
      else (s.withRlg m).failHead []) :
    s.FaultTaken [] none t ∧ t.rlg.queue = s.queueAfterFault rest ∧ (∀ a, t.rlg.rawByte a = m.rawByte a) ∧
    (∀ a, t.rlg.readByte a = m.readByte a) ∧ (∀ j, j ≠ slot → t.rlg.slotState j = s.rlg.slotState j) ∧
    t.rlg.slotState slot =
      if t.rlg.readByte (slotAddress slot + 122) = 0xFF then s.rlg.slotState slot else .collected := by
  obtain ⟨taken, tidied, queue, _, _⟩ := failHead_failed (s := s.withRlg m) []
  have since : s.FaultTaken [] none ((s.withRlg m).failHead []) :=
    taken.since (onlyChanges_mono (withRlg_only m)) array.logState rfl fun _ _ => rfl
  have left : ((s.withRlg m).failHead []).rlg.queue = s.queueAfterFault rest := by
    rw [queue, withRlg_rlg, array.queue, head, queueAfterFault, withRlg_rlg, array.logState, queueAfterFault, List.tail_cons]
  generalize (s.withRlg m).failHead [] = u at *
  have states (j : Nat) : u.rlg.slotState j = s.rlg.slotState j := (tidied.slotState j).trans (array.slotState j)
  by_cases set : u.rlg.markSet slot .collected = true
  · rw [if_pos set] at look
    subst look
    obtain ⟨scan, log, same⟩ := eraseTest_rlg (u.withRlg (u.rlg.withSlotState slot .collected))
    have only : u.onlyChanges [.rlg, .noticesS, .noticesC] (u.withRlg (u.rlg.withSlotState slot .collected)).eraseTest :=
      onlyChanges_then (withRlg_only _) eraseTest_only
    have read (a : Nat) : _ = u.rlg.readByte a := scan.tidied.readByte a
    refine ⟨since.until only log same ((NoticesKept.of_only (withRlg_only _)).trans eraseTest_noticesKept), same.trans left,
      fun a => (scan.tidied.rawByte a).trans (tidied.rawByte a), fun a => (read a).trans (tidied.readByte a),
      fun j other => ?_, ?_⟩
    · rw [scan.tidied.slotState]
      exact (Rlg.slotState_withSlotState_other other).trans (states j)
    · rw [scan.tidied.slotState, read, if_neg (Rlg.markSet_collected.mp set)]
      exact Rlg.slotState_withSlotState_same
  · rw [if_neg set] at look
    subst look
    refine ⟨since, left, tidied.rawByte, tidied.readByte, fun j _ => states j, ?_⟩
    rw [if_pos (not_not.mp (mt Rlg.markSet_collected.mpr set))]
    exact states slot

end Sys2Proof.Machine
end

section
/-! SUPPORT. The statement about the program of a collected mark. -/

open Sys2Proof Sys2Proof.Machine Sys2Proof.Machine.State

/-- Settles O44: the verify decides between the state COLLECTED, another attempt, and the third failure with its look. -/
theorem collectProgramsSetTheCollectedMark : Obligations.CollectProgramsSetTheCollectedMark := by
  intro o s number slot attempts rest idle head written
  obtain ⟨programmed, taken, verdict⟩ := Rlg.programMark_taken (r := s.rlg) (o := o) slot .collected
  have others (a : Nat) (other : a ≠ slotAddress slot + 122) :
      (s.rlg.programMark slot .collected o.marks).1.readByte a = s.rlg.readByte a :=
    Rlg.readByte_storeMarkByte_mark (by simp only [slotAddress, markOffset]; omega) other
  obtain ⟨m, program⟩ : ∃ m, s.rlg.programMark slot .collected o.marks = m := ⟨_, rfl⟩
  rw [program] at programmed taken verdict others
  refine ⟨_, execCollectProgram_head idle head program, ?_⟩
  obtain ⟨array, _, _⟩ := programmed
  by_cases good : m.2 = true
  · rw [if_pos good]
    obtain ⟨test, _, queue⟩ := eraseTest_rlg (s.withRlg (m.1.withSlotState slot .collected))
    obtain ⟨tidied, rest_⟩ := endRequest_after test.tidied (queue.trans array.queue) head
    refine ⟨(tidied.rawByte _).trans taken.byte, fun a other => (tidied.readByte a).trans (others a other),
      fun q other => ?_, fun _ => ⟨?_, rest_, ?_⟩, fun bad => absurd (verdict.mp good) bad⟩
    · rw [tidied.slotState]
      exact (Rlg.slotState_withSlotState_other other).trans (array.slotState q)
    · rw [tidied.slotState]
      exact Rlg.slotState_withSlotState_same
    · exact onlyChanges_then (onlyChanges_then (withRlg_only _) eraseTest_only (hs := [.rlg, .noticesS, .noticesC]))
        endRequest_only
  have bad : written ≠ 0 := mt verdict.mpr good
  rw [if_neg good]
  by_cases again : attempts + 1 < 3
  · rw [if_pos again]
    refine ⟨taken.byte, others, fun q _ => array.slotState q, fun zero => absurd zero bad, fun _ => ⟨fun _ => ⟨?_, ?_, ?_⟩,
      fun third => by omega⟩⟩
    · rw [← List.tail_cons (a := (⟨.collect, number, slot, attempts⟩ : ProgramRequest)) (as := rest), ← head, ← array.queue]
      rfl
    · exact onlyChanges_then (withRlg_only _) (retryHead_only _)
    · exact array.slotStates
  · rw [if_neg again]
    obtain ⟨fault, queue, raw, read, states, look⟩ := collectFailed (slot := slot) array head rfl
    exact ⟨(raw _).trans taken.byte, fun a other => (read a).trans (others a other), states, fun zero => absurd zero bad,
      fun _ => ⟨fun first => absurd first (by omega), fun _ => ⟨fault, queue, look⟩⟩⟩

end

section
/-! SUPPORT. A closing in the session's own slot (R153, R161, R71). -/

namespace Sys2Proof.Machine

open Sys2Proof State

variable {s t : State} {p : Point} {r v x : Rlg} {y : Rlg × Bool} {slot n attempts : Nat} {o : ProgramOutcome}
  {rest : List ProgramRequest} {part : ClosingPart}

/-- Between the two logs reads may have been counted (R166). -/
def Rlg.CountsOnly (r x : Rlg) : Prop := x = { r with secCount := x.secCount, dedCount := x.dedCount }

theorem Rlg.CountsOnly.refl : r.CountsOnly r := rfl

theorem Rlg.countWords_countsOnly (w k : Nat) : r.CountsOnly (r.countWords w k) := by
  rw [countWords_eq]
  rfl

theorem Rlg.CountsOnly.slotState (h : r.CountsOnly x) (q : Nat) : x.slotState q = r.slotState q := by
  rw [h]
  rfl

theorem Rlg.CountsOnly.tidied (h : r.CountsOnly x) : r.Tidied x := by
  rw [h]
  exact .of_same ⟨rfl, rfl⟩ rfl rfl rfl rfl ⟨rfl, rfl⟩ rfl

theorem Rlg.CountsOnly.queue (h : r.CountsOnly x) : x.queue = r.queue := by rw [h]

theorem Rlg.CountsOnly.logState (h : r.CountsOnly x) : x.logState = r.logState := by rw [h]

theorem Rlg.CountsOnly.index (h : r.CountsOnly x) : x.index = r.index := by rw [h]

/-- What a verify compares stands in the array alone. -/
theorem Rlg.Tidied.verifies {first k : Nat} {bytes : List Byte} {ms : List Mark} (h : r.Tidied x) :
    x.Verifies slot first k bytes ms o ↔ r.Verifies slot first k bytes ms o := by
  have words (w : Nat) : x.rawWord w = r.rawWord w := rawWord_congr fun a _ => h.rawByte a
  have bytes (a : Nat) : x.rawByte a = r.rawByte a := h.rawByte a
  constructor
  · rintro ⟨all, marks⟩
    exact ⟨by simpa only [words] using all, by simpa only [bytes] using marks⟩
  · rintro ⟨all, marks⟩
    exact ⟨by simpa only [words] using all, by simpa only [bytes] using marks⟩

/-- A closing tried in place (R161). -/
theorem State.closeInPlace_eq {q : ProgramRequest} (h : s.rlg.programPart q.slot 4 (wordsOf 11 (closingBytes part q.number none)) .closed o = y) :
    s.closeInPlace part q o =
      if y.2 then (s.withRlg (y.1.withSlotState q.slot .closed), true) else (s.withRlg y.1, false) := by
  subst h
  rfl

/-- What a closing in place leaves in the array, its words read before or not (R161). -/
theorem State.closedInPlace (counted : s.rlg.CountsOnly v)
    (taken : v.PartTaken slot 4 11 (closingBytes part n none) [.closed] o y) (good : y.2 = true)
    (tidied : (y.1.withSlotState slot .closed).Tidied t.rlg) :
    s.ClosedInPlace slot t ∧ t.rlg.rawBytes (slotAddress slot + 32) 88 = closingBytes part n none ∧
      t.rlg.rawByte (slotAddress slot + 121) = 0 := by
  obtain ⟨⟨array, outside, _⟩, _, bytes, marks⟩ := taken
  refine ⟨⟨?_, ?_, fun a away => ?_⟩, ?_, ?_⟩
  · rw [tidied.slotState]
    exact Rlg.slotState_withSlotState_same
  · exact tidied.index.trans (array.index.trans counted.index)
  · rw [tidied.readByte a]
    exact (outside a away).2.trans (counted.tidied.readByte a)
  · rw [tidied.rawBytes]
    exact bytes good
  · rw [tidied.rawByte]
    exact marks good .closed (List.mem_singleton_self _)

/-! ## The session's end -/

/-- A session has ended with its request: freed, SESSION_CLOSED raised, the head request off the queue (R71, R159). -/
structure State.SessionEnded (s : State) (p : Point) (t : State) : Prop where
  freed : s.sessionFreed p t
  others : s.otherSessionsSame p t
  told : t.noticesC.tells 8 [p.val]
  frame : s.onlyChanges [.rlg, .ssu, .tfu, .noticesS, .noticesC] t
  tidied : s.rlg.Tidied t.rlg
  queue : t.rlg.queue = s.rlg.queue.tail
  log : t.rlg.logState = s.rlg.logState

theorem State.closingCompleted_ended : s.SessionEnded p (s.closingCompleted p).endRequest := by
  obtain ⟨tidied, log, queue⟩ := endRequest_tidied (s := s.closingCompleted p)
  have same : (s.closingCompleted p).rlg = s.rlg := closingCompleted_only p .rlg (by decide)
  have ssu : (s.closingCompleted p).endRequest.ssu = (s.freeSession p).ssu := endRequest_only .ssu (by decide)
  have tfu : (s.closingCompleted p).endRequest.tfu = (s.freeSession p).tfu := endRequest_only .tfu (by decide)
  rw [same] at tidied log queue
  exact ⟨(freeSession_freed p).until ssu tfu, (freeSession_others p).of_ssu ssu,
    endRequest_noticesKept.charge.tells (Notices.raise_tells _ _ _),
    onlyChanges_then (closingCompleted_only p) endRequest_only, tidied, queue, log⟩

/-- It counts from an earlier state with the same books and records, but for the slot of the record. -/
theorem State.SessionEnded.since {u : State} (h : u.SessionEnded p t)
    (frame : s.onlyChanges [.rlg, .ssu, .noticesS, .noticesC] u) (others : s.otherSessionsSame p u)
    (tariff : (u.session p).tariffSlot = (s.session p).tariffSlot) :
    s.sessionFreed p t ∧ s.otherSessionsSame p t ∧ s.onlyChanges [.rlg, .ssu, .tfu, .noticesS, .noticesC] t :=
  ⟨h.freed.since (frame .tfu (by decide)) tariff, fun q other => (h.others q other).trans (others q other),
    onlyChanges_then frame h.frame⟩

/-! ## CLOSING_PROGRAM -/

/-- The head request is a closing at its first attempt and no erase runs (R161). -/
theorem execClosingProgram_head (idle : s.rlg.erasing = false) (head : s.rlg.queue = ⟨.closing p part, n, slot, 0⟩ :: rest)
    (program : s.rlg.programPart slot 4 (wordsOf 11 (closingBytes part n none)) .closed o = y) :
    exec (.closingProgram o) s = .next (
      if y.2 then ((s.withRlg (y.1.withSlotState slot .closed)).closingCompleted p).endRequest
      else (s.withRlg y.1).retryHead ⟨.closing p part, n, slot, 1⟩) := by
  change execClosingProgram o s = _
  simp only [execClosingProgram, idle, head, Bool.false_eq_true, if_false,
    closeInPlace_eq (q := ⟨.closing p part, n, slot, 0⟩) program]
  by_cases good : y.2 = true <;> simp only [good, if_true, if_false, Bool.false_eq_true]

end Sys2Proof.Machine
end

section
/-! SUPPORT. The statement about a closing in the session's own slot. -/

open Sys2Proof Sys2Proof.Machine Sys2Proof.Machine.State

/-- Settles O41: the verify decides between the closed slot with the session freed and a relocation as the next attempt. -/
theorem closingProgramsWriteInPlaceFirst : Obligations.ClosingProgramsWriteInPlaceFirst := by
  intro o s p part number slot rest idle head verifies
  have taken := Rlg.programPart_taken (r := s.rlg) (slot := slot) (o := o) (length_closingBytes part number none) (first := 4) (k := 11)
    (by decide) .closed
  obtain ⟨y, program⟩ : ∃ y, s.rlg.programPart slot 4 (wordsOf 11 (closingBytes part number none)) .closed o = y := ⟨_, rfl⟩
  rw [program] at taken
  refine ⟨_, execClosingProgram_head idle head program, ?_⟩
  obtain ⟨array, outside, _⟩ := taken.programmed
  by_cases good : y.2 = true
  · rw [if_pos good]
    have ended := closingCompleted_ended (s := s.withRlg (y.1.withSlotState slot .closed)) (p := p)
    obtain ⟨freed, others, frame⟩ := ended.since (onlyChanges_mono (withRlg_only _)) (fun _ _ => rfl) rfl
    obtain ⟨closed, bytes, mark⟩ := closedInPlace .refl taken good ended.tidied
    refine ⟨fun _ => ⟨closed, freed, others, ended.told, frame, ?_, ended.log.trans array.logState, bytes, mark⟩,
      fun bad => absurd (taken.verdict.mp good) bad⟩
    rw [ended.queue]
    change y.1.queue.tail = rest
    rw [array.queue, head, List.tail_cons]
  · rw [if_neg good]
    refine ⟨fun all => absurd (taken.verdict.mpr all) good, fun _ => ⟨onlyChanges_then (withRlg_only _) (retryHead_only _),
      fun a away => (outside a away).2, array.slotStates, array.index, ?_⟩⟩
    change _ :: y.1.queue.tail = _
    rw [array.queue, head, List.tail_cons]

end

section
/-! SUPPORT. A slot that becomes BAD, the reservation of another, and the attempts of an opening (R58, R59, R153 to R155, R157,
R158, R160). -/

namespace Sys2Proof.Machine

open Sys2Proof State

variable {s t u : State} {p : Point} {r v x z : Rlg} {y : Rlg × Bool} {slot new n attempts : Nat} {o : ProgramOutcome}
  {rest : List ProgramRequest} {part : OpeningPart} {ms : List Mark}

/-! ## The number index -/

theorem Rlg.slotOf_setIndex_same : (r.setIndex n slot).slotOf n = some slot := by
  have gone : (r.index.filter (fun e => e.1 != n)).find? (fun e => e.1 == n) = none :=
    List.find?_eq_none.mpr fun e mem => by simpa using (List.mem_filter.mp mem).2
  simp [slotOf, setIndex, List.find?_append, gone]

theorem Rlg.slotOf_setIndex_other {m : Nat} (other : m ≠ n) : (r.setIndex n slot).slotOf m = r.slotOf m := by
  have kept : (r.index.filter (fun e => e.1 != n)).find? (fun e => e.1 == m) = r.index.find? (fun e => e.1 == m) := by
    rw [List.find?_filter]
    congr 1
    funext e
    by_cases same : e.1 = m
    · simp [same, other]
    · simp [same]
  have last : (n == m) = false := beq_false_of_ne other.symm
  simp [slotOf, setIndex, List.find?_append, kept, last]

/-! ## A slot that becomes BAD -/

/-- Programs in a slot, then its bad mark: the slot is BAD, and the rest of the log stands (R160, R162). -/
structure Rlg.Spoiled (r : Rlg) (slot : Nat) (o : ProgramOutcome) (x : Rlg) : Prop where
  bad : x.slotState slot = .bad
  states : ∀ q, q ≠ slot → x.slotState q = r.slotState q
  mark : r.MarkTaken slot .bad o x
  elsewhere : ∀ a, ¬inSlot slot a → x.readByte a = r.readByte a
  index : x.index = r.index
  orphans : x.orphans = r.orphans
  next : x.nextNumber = r.nextNumber
  fill : x.fill = r.fill ∧ x.lastActive = r.lastActive
  sectors : x.sectors = r.sectors
  queue : x.queue = r.queue
  log : x.logState = r.logState

/-- With a request in the queue the erase test after a bad mark only moves the space-low mark (R170). -/
theorem State.markBad_spoiled (programmed : s.rlg.ProgrammedIn slot ms v) (noBad : .bad ∉ ms) (queued : s.rlg.queue ≠ []) :
    s.rlg.Spoiled slot o ((s.withRlg v).markBad slot o.marks).rlg := by
  obtain ⟨marked, taken, _⟩ := Rlg.programMark_taken (r := v) (o := o) slot .bad
  have inside := (programmed.mono (ns := .bad :: ms) fun _ mem => .tail _ mem).trans (marked.mono (by simp))
  have array := inside.array
  have before := taken.after (programmed.marks _ noBad)
  rw [markBad, withRlg_rlg]
  generalize (v.programMark slot .bad o.marks).1 = b at *
  have queue : (b.withSlotState slot .bad).queue ≠ [] := array.queue.trans_ne queued
  rw [eraseTest_tested, withRlg_rlg, Rlg.tested_queued queue]
  exact ⟨Rlg.slotState_withSlotState_same (r := b) (slot := slot) (z := .bad),
    fun q other => (Rlg.slotState_withSlotState_other (r := b) (z := .bad) other).trans (array.slotState q),
    ⟨before.byte, before.code⟩, fun a away => (inside.outside a away).2, array.index, array.orphans,
    array.nextNumber, array.fill, array.sectors, array.queue, array.logState⟩

theorem Rlg.erasedCount_congr (fill : x.fill = r.fill) (sectors : x.sectors = r.sectors)
    (states : ∀ q, x.slotState q = .erased ↔ r.slotState q = .erased) : x.erasedCount = r.erasedCount := by
  have same (q : Nat) : (x.slotState q == .erased) = (r.slotState q == .erased) := by
    rw [Bool.eq_iff_iff, beq_iff_eq, beq_iff_eq, states]
  simp only [erasedCount, fill, sectors, same]

/-- A slot counted no longer before and after it became BAD. -/
theorem Rlg.Spoiled.erasedCount (h : r.Spoiled slot o x) (reserved : r.slotState slot = .reserved) :
    x.erasedCount = r.erasedCount := by
  refine erasedCount_congr h.fill.1 h.sectors fun q => ?_
  by_cases same : q = slot
  · rw [same, h.bad, reserved]
    simp
  · rw [h.states q same]

/-! ## Another slot -/

/-- The move of the fill position reads the ring alone. -/
theorem Rlg.FillMoved.since (h : x.FillMoved new z) (sectors : x.sectors = r.sectors) (last : x.lastActive = r.lastActive) :
    r.FillMoved new z where
  fill := by simpa only [sectors, last] using h.fill
  last := by simpa only [sectors, last] using h.last
  sectors k := by simpa only [sectorAfter, sectors, last] using h.sectors k

theorem Rlg.activateSuccessor_keeps : r.activateSuccessor.index = r.index ∧ r.activateSuccessor.orphans = r.orphans ∧
    r.activateSuccessor.logState = r.logState := by
  unfold activateSuccessor
  split <;> exact ⟨rfl, rfl, rfl⟩

/-- A reservation leaves the number index, the orphans and the log state alone (R155). -/
theorem Rlg.reserve_keeps (h : r.reserve = some (new, x)) :
    x.index = r.index ∧ x.orphans = r.orphans ∧ x.logState = r.logState := by
  unfold reserve at h
  split at h
  · cases h
  · dsimp only at h
    split at h
    · cases h
      exact activateSuccessor_keeps
    · cases h
      exact ⟨rfl, rfl, rfl⟩

/-- Another slot has been reserved, its erase test made (R158, R170). -/
structure State.TookSlot (s : State) (new : Nat) (u : State) : Prop where
  can : s.rlg.canReserve new
  reserved : s.rlg.Reserved new u.rlg
  index : u.rlg.index = s.rlg.index
  orphans : u.rlg.orphans = s.rlg.orphans
  log : u.rlg.logState = s.rlg.logState
  frame : s.onlyChanges [.rlg, .noticesS, .noticesC] u

theorem State.reserveAgain_takes (can : s.rlg.canReserve new) :
    ∃ u, s.reserveWith s.rlg.reserveAgain = some (new, u) ∧ s.TookSlot new u := by
  obtain ⟨some_, fill⟩ := can
  obtain ⟨u, taken, reserved⟩ := reserveWith_reserved fill
  rw [show s.rlg.reserveAgain = s.rlg.reserve from if_neg some_.ne']
  obtain ⟨x, step, _⟩ := Rlg.reserve_reserved fill
  obtain ⟨index, orphans, log⟩ := Rlg.reserve_keeps step
  have frame := reserveWith_only taken
  rw [step] at taken
  simp only [reserveWith, Option.map_some, Option.some.injEq, Prod.mk.injEq, true_and] at taken
  subst taken
  obtain ⟨scan, log', _⟩ := eraseTest_rlg (s.withRlg x)
  refine ⟨_, by rw [step]; rfl, ⟨some_, fill⟩, reserved, scan.index.trans index, scan.orphans.trans orphans,
    log'.trans log, frame⟩

theorem State.reserveAgain_none (h : s.rlg.erasedCount = 0) : s.reserveWith s.rlg.reserveAgain = none := by
  rw [Rlg.reserveAgain, if_pos h]
  rfl

theorem Rlg.Reserved.rawByte (h : r.Reserved new x) (a : Nat) : x.rawByte a = r.rawByte a := by
  simp only [Rlg.rawByte, h.array.1]

/-- An attempt takes a slot or none. -/
theorem State.reserveAgain_cases (s : State) : s.reserveWith s.rlg.reserveAgain = none ∨
    ∃ new u, s.reserveWith s.rlg.reserveAgain = some (new, u) ∧ s.TookSlot new u := by
  by_cases none : s.rlg.erasedCount = 0
  · exact .inl (reserveAgain_none none)
  cases fill : s.rlg.fill with
  | none =>
    left
    rw [Rlg.reserveAgain, if_neg none, Rlg.reserve, fill]
    rfl
  | some new =>
    obtain ⟨u, taken, took⟩ := reserveAgain_takes (s := s) ⟨Nat.pos_of_ne_zero none, fill⟩
    exact .inr ⟨new, u, taken, took⟩

theorem State.retryHead_tidied (q : ProgramRequest) : s.rlg.Tidied (s.retryHead q).rlg :=
  .of_same ⟨rfl, rfl⟩ rfl rfl rfl rfl ⟨rfl, rfl⟩ rfl

/-! ## An opening that succeeds -/

/-- The opening completes: the session waits, or starts the close that was pending (R58). -/
structure State.Opened (s : State) (p : Point) (t : State) : Prop where
  others : s.otherSessionsSame p t
  told : t.noticesC.tells 6 [p.val]
  frame : s.onlyChanges [.ssu, .alu, .requests, .noticesC] t
  waits : (s.session p).pendingClose = none →
    t.session p = { s.session p with state := .waiting, waitCount := 0, zeroRequests := 0 } ∧
    t.alu.queue = s.alu.queue ++ [p]
  closes : ∀ reason, (s.session p).pendingClose = some reason →
    t.session p = { s.session p with
      state := .closing, grant := 0, pendingClose := none, ending := some ⟨reason, s.tfu.calendar⟩
      finalWait := some 0 }

theorem State.openingCompleted_opened (s : State) (p : Point) : s.Opened p (s.openingCompleted p) := by
  have frame := openingCompleted_only (s := s) p
  unfold openingCompleted at *
  split at frame
  · next pending =>
    exact ⟨fun q other => withSession_others p _ q other, Notices.raise_tells _ _ _, frame,
      fun _ => ⟨withSession_same p _, rfl⟩, fun reason has => absurd (pending.symm.trans has) nofun⟩
  · next reason pending =>
    obtain ⟨record, _, others⟩ := startClose_started (s := s) (p := p) reason
    refine ⟨others, Notices.raise_tells _ _ _, frame, fun none => absurd (pending.symm.trans none) nofun, fun other has => ?_⟩
    rw [pending] at has
    cases has
    exact record

theorem Tfu.dropRef_calendar (x : Tfu) (k : TariffSlot) : (x.dropRef k).calendar = x.calendar := by
  cases k <;> rfl

/-! ## OPENING_PROGRAM -/

/-- The head request is an opening and no erase runs (R160). -/
theorem execOpeningProgram_head (idle : s.rlg.erasing = false)
    (head : s.rlg.queue = ⟨.opening p part, n, slot, attempts⟩ :: rest)
    (program : s.rlg.programPart slot 0 (wordsOf 4 (openingBytes part)) .opened o = y) :
    exec (.openingProgram o) s = .next (
      if y.2 then ((s.withRlg ((y.1.withSlotState slot .opened).setIndex n slot)).openingCompleted p).endRequest
      else (s.withRlg y.1).openingAttemptFailed p ⟨.opening p part, n, slot, attempts⟩ o.marks) := by
  subst program
  change execOpeningProgram o s = _
  simp only [execOpeningProgram, idle, head, Bool.false_eq_true, if_false]
  rfl

/-- The session moves to another slot, and the request is tried again (R158, R160). -/
theorem State.openingAttemptFailed_again (again : attempts < 2) {q : ProgramRequest} (count : q.attempts = attempts)
    {m : State} (marked : s.markBad q.slot o.marks = m) (taken : m.reserveWith m.rlg.reserveAgain = some (new, u)) :
    s.openingAttemptFailed p q o.marks =
      (u.withSession p { u.session p with slot := new }).retryHead { q with slot := new, attempts := attempts + 1 } := by
  subst marked count
  simp only [openingAttemptFailed, if_pos (Nat.add_lt_add_right again 1), taken]

/-- No attempt or no slot is left (R59, R164). -/
theorem State.openingAttemptFailed_last {q : ProgramRequest} {m : State} (marked : s.markBad q.slot o.marks = m)
    (last : 2 ≤ q.attempts ∨ m.reserveWith m.rlg.reserveAgain = none) :
    s.openingAttemptFailed p q o.marks = (m.openingFailed p).failHead [p.val] := by
  subst marked
  unfold openingAttemptFailed
  by_cases again : q.attempts + 1 < 3
  · simp only [if_pos again, last.resolve_left (by omega)]
  · simp only [if_neg again]

/-- The opening has failed: the session is freed, and FAULT entered (R59, R164). -/
structure State.OpeningLost (s : State) (p : Point) (t : State) : Prop where
  freed : s.sessionFreed p t
  told : t.noticesC.tells 7 [p.val]
  fault : s.FaultTaken [p.val] (some p) t
  tidied : s.rlg.Tidied t.rlg
  queue : t.rlg.queue = s.queueAfterFault s.rlg.queue.tail

theorem State.openingFailed_lost : s.OpeningLost p ((s.openingFailed p).failHead [p.val]) := by
  have frame := openingFailed_only (s := s) p
  have log : (s.openingFailed p).rlg = s.rlg := frame .rlg (by decide)
  obtain ⟨taken, tidied, queue, tfu, notices⟩ := failHead_failed (s := s.openingFailed p) [p.val]
  have freed : s.sessionFreed p (s.openingFailed p) := freeSession_freed p
  have gone : ((s.openingFailed p).failHead [p.val]).session p = Session.free := by
    rw [taken.sessions p nofun, closedByFault, freed.1]
    simp [Session.free]
  refine ⟨⟨gone, fun k => ?_⟩, notices.charge.tells (Notices.raise_tells _ _ _), ?_, ?_, ?_⟩
  · rw [tfu]
    exact freed.2 k
  · refine taken.since (onlyChanges_mono frame) (by rw [log]) ?_ fun q other => ?_
    · exact Tfu.dropRef_calendar _ _
    · exact freeSession_others p q fun same => other (same ▸ rfl)
  · rwa [log] at tidied
  · rw [queue, queueAfterFault, queueAfterFault, log]

/-! ## The three ends of an opening attempt -/

/-- A verified attempt has opened the slot, and the session waits or closes (R58, R157, R160). -/
structure State.OpeningVerified (s : State) (p : Point) (part : OpeningPart) (n slot : Nat) (t : State) : Prop where
  elsewhere : s.otherSlotsRead slot t
  slotState : t.rlg.slotState slot = .opened
  index : t.rlg.slotOf n = some slot
  otherNumbers : ∀ m, m ≠ n → t.rlg.slotOf m = s.rlg.slotOf m
  queue : t.rlg.queue = s.rlg.queue.tail
  log : t.rlg.logState = s.rlg.logState
  fill : t.rlg.fill = s.rlg.fill
  others : s.otherSessionsSame p t
  told : t.noticesC.tells 6 [p.val]
  frame : s.onlyChanges [.rlg, .ssu, .alu, .requests, .noticesS, .noticesC] t
  bytes : t.rlg.rawBytes (slotAddress slot) 32 = openingBytes part
  mark : t.rlg.rawByte (slotAddress slot + 120) = 0
  waits : (s.session p).pendingClose = none →
    t.session p = { s.session p with state := .waiting, waitCount := 0, zeroRequests := 0 } ∧
    t.alu.queue = s.alu.queue ++ [p]
  closes : ∀ reason, (s.session p).pendingClose = some reason →
    t.session p = { s.session p with
      state := .closing, grant := 0, pendingClose := none, ending := some ⟨reason, s.tfu.calendar⟩
      finalWait := some 0 }

theorem State.endRequest_verified (taken : s.rlg.PartTaken slot 0 4 (openingBytes part) [.opened] o y) (good : y.2 = true) :
    s.OpeningVerified p part n slot
      ((s.withRlg ((y.1.withSlotState slot .opened).setIndex n slot)).openingCompleted p).endRequest := by
  obtain ⟨array, outside, _⟩ := taken.programmed
  have opened := openingCompleted_opened (s.withRlg ((y.1.withSlotState slot .opened).setIndex n slot)) p
  have same : ((s.withRlg ((y.1.withSlotState slot .opened).setIndex n slot)).openingCompleted p).rlg = _ :=
    opened.frame .rlg (by decide)
  generalize (s.withRlg ((y.1.withSlotState slot .opened).setIndex n slot)).openingCompleted p = v at *
  obtain ⟨tidied, log, queue⟩ := endRequest_tidied (s := v)
  have notices := endRequest_noticesKept (s := v)
  have only := endRequest_only (s := v)
  rw [same, withRlg_rlg] at tidied log queue
  have record (q : Point) : v.endRequest.session q = v.session q := by
    rw [session, only .ssu (by decide), session]
  have waiting : v.endRequest.alu = v.alu := only .alu (by decide)
  have frame := onlyChanges_then (withRlg_only _) opened.frame (hs := [.rlg, .ssu, .alu, .requests, .noticesC])
  refine ⟨fun a away => (tidied.readByte a).trans (outside a away).2, ?_, ?_, fun m other => ?_, ?_, log.trans array.logState,
    tidied.fill.1.trans array.fill.1, fun q other => (record q).trans (opened.others q other),
    notices.charge.tells opened.told, onlyChanges_then frame only, ?_, ?_, fun none => ?_, fun reason pending => ?_⟩
  · rw [tidied.slotState]
    exact Rlg.slotState_withSlotState_same (r := y.1) (slot := slot) (z := .opened)
  · rw [tidied.slotOf]
    exact Rlg.slotOf_setIndex_same
  · rw [tidied.slotOf, Rlg.slotOf_setIndex_other other, Rlg.slotOf, Rlg.slotOf, ← array.index]
    rfl
  · rw [queue]
    exact congrArg List.tail array.queue
  · rw [tidied.rawBytes]
    exact taken.bytes good
  · rw [tidied.rawByte]
    exact taken.marks good .opened (List.mem_singleton_self _)
  · rw [record, waiting]
    exact opened.waits none
  · rw [record]
    exact opened.closes reason pending

/-- The lost opening told from the state before its bad mark (R59, R164). -/
theorem State.OpeningLost.since {m : State} (h : m.OpeningLost p t) (spoiled : s.rlg.Spoiled slot o m.rlg)
    (frame : s.onlyChanges [.rlg, .noticesS, .noticesC] m) :
    s.sessionFreed p t ∧ s.FaultTaken [p.val] (some p) t ∧ t.rlg.queue = s.queueAfterFault s.rlg.queue.tail := by
  have records (q : Point) : m.session q = s.session q := by rw [session, frame .ssu (by decide), session]
  have books : m.tfu = s.tfu := frame .tfu (by decide)
  refine ⟨h.freed.since books (by rw [records]), ?_, ?_⟩
  · exact h.fault.since (onlyChanges_mono frame) spoiled.log (by rw [books]) (fun q _ => records q) fun _ other => other
  · rw [h.queue, spoiled.queue, queueAfterFault, queueAfterFault, spoiled.log]

/-- After a failed attempt another slot is the session's, and the request is tried again (R158, R160). -/
structure State.OpeningMoved (s : State) (p : Point) (slot new : Nat) (o : ProgramOutcome) (q : ProgramRequest) (t : State) :
    Prop where
  elsewhere : s.otherSlotsRead slot t
  mark : s.rlg.MarkTaken slot .bad o t.rlg
  bad : new ≠ slot → t.rlg.slotState slot = .bad
  reserved : t.rlg.slotState new = .reserved
  moved : s.rlg.FillMoved new t.rlg
  states : ∀ k, k ≠ slot → k ≠ new → t.rlg.slotState k = s.rlg.slotState k
  session : t.session p = { s.session p with slot := new }
  others : s.otherSessionsSame p t
  queue : t.rlg.queue = q :: s.rlg.queue.tail
  frame : s.onlyChanges [.rlg, .ssu, .noticesS, .noticesC] t
  next : t.rlg.nextNumber = s.rlg.nextNumber
  log : t.rlg.logState = s.rlg.logState

theorem State.TookSlot.openingMoved {m : State} (took : m.TookSlot new u) (spoiled : s.rlg.Spoiled slot o m.rlg)
    (frame : s.onlyChanges [.rlg, .noticesS, .noticesC] m) (q : ProgramRequest) :
    s.OpeningMoved p slot new o q ((u.withSession p { u.session p with slot := new }).retryHead q) := by
  have frame' : s.onlyChanges [.rlg, .noticesS, .noticesC] u := onlyChanges_then frame took.frame
  have records (k : Point) : u.session k = s.session k := by rw [session, frame' .ssu (by decide), session]
  have held := onlyChanges_then frame' (withSession_only p { u.session p with slot := new })
    (hs := [.rlg, .ssu, .noticesS, .noticesC])
  obtain ⟨_, reserved, _, _, log, _⟩ := took
  refine ⟨fun a away => (reserved.readByte a).trans (spoiled.elsewhere a away), ⟨?_, ?_⟩,
    fun other => (reserved.slotState_other other.symm).trans spoiled.bad, reserved.slotState_same,
    (reserved.moved.since spoiled.sectors spoiled.fill.2).tidied (retryHead_tidied _),
    fun k notSlot notNew => (reserved.slotState_other notNew).trans (spoiled.states k notSlot), ?_, fun k different => ?_, ?_,
    onlyChanges_then held (retryHead_only _), reserved.next.trans spoiled.next, log.trans spoiled.log⟩
  · exact (reserved.rawByte _).trans spoiled.mark.byte
  · refine Eq.trans ?_ spoiled.mark.code
    rw [Rlg.codeAt, Rlg.codeAt, ← reserved.array.2]
    rfl
  · rw [← records p]
    exact withSession_same p _
  · rw [← records k]
    exact withSession_others p _ k different
  · change _ :: u.rlg.queue.tail = _
    rw [reserved.queue, spoiled.queue]

end Sys2Proof.Machine
end

section
/-! SUPPORT. The statement about opening attempts. -/

open Sys2Proof Sys2Proof.Machine Sys2Proof.Machine.State

/-- Settles O40: the verify decides; past a failed one the slot is BAD, and another slot is taken or the opening lost. -/
theorem openingProgramsOpenTheSlotOrTakeAnother : Obligations.OpeningProgramsOpenTheSlotOrTakeAnother := by
  intro o s p part number slot attempts rest idle head verifies
  have taken := Rlg.programPart_taken (r := s.rlg) (slot := slot) (o := o) (length_openingBytes part) (first := 0) (k := 4)
    (by decide) .opened
  obtain ⟨y, program⟩ : ∃ y, s.rlg.programPart slot 0 (wordsOf 4 (openingBytes part)) .opened o = y := ⟨_, rfl⟩
  rw [program] at taken
  refine ⟨_, execOpeningProgram_head idle head program, ?_⟩
  have tail : s.rlg.queue.tail = rest := by rw [head, List.tail_cons]
  by_cases good : y.2 = true
  · rw [if_pos good]
    have h : s.OpeningVerified p part number slot _ := endRequest_verified taken good
    exact ⟨h.elsewhere, fun _ => ⟨h.slotState, h.index, h.otherNumbers, h.queue.trans tail, h.log, h.fill, h.others, h.told,
      h.frame, h.bytes, h.mark, h.waits, h.closes⟩, fun bad => absurd (taken.verdict.mp good) bad,
      fun bad => absurd (taken.verdict.mp good) bad⟩
  rw [if_neg good]
  have bad : ¬verifies := mt taken.verdict.mpr good
  have spoiled := markBad_spoiled (o := o) taken.programmed (by decide) (by rw [head]; exact List.cons_ne_nil _ _)
  have frame : s.onlyChanges [.rlg, .noticesS, .noticesC] ((s.withRlg y.1).markBad slot o.marks) :=
    onlyChanges_then (withRlg_only _) (markBad_only slot o.marks)
  obtain ⟨m, mark⟩ : ∃ m, (s.withRlg y.1).markBad slot o.marks = m := ⟨_, rfl⟩
  rw [mark] at spoiled frame
  by_cases last : 2 ≤ attempts ∨ m.reserveWith m.rlg.reserveAgain = none
  · rw [openingAttemptFailed_last (q := ⟨.opening p part, number, slot, attempts⟩) mark last]
    have lost := openingFailed_lost (s := m) (p := p)
    obtain ⟨freed, fault, queue⟩ := lost.since spoiled frame
    refine ⟨fun a away => (lost.tidied.readByte a).trans (spoiled.elsewhere a away), fun all => absurd all bad,
      fun _ => lost.tidied.markTaken spoiled.mark, fun _ reserved => ⟨fun new can again other => ?_, fun _ =>
        ⟨(lost.tidied.slotState slot).trans spoiled.bad, freed, lost.told, fault, tail ▸ queue,
          lost.tidied.next.trans spoiled.next⟩⟩⟩
    obtain ⟨u, took, _⟩ := reserveAgain_takes (s := m) (new := new)
      ⟨(spoiled.erasedCount reserved).symm ▸ can.1, spoiled.fill.1.trans can.2⟩
    rcases last with third | none
    · omega
    · rw [none] at took
      cases took
  · obtain ⟨notThird, some_⟩ := not_or.mp last
    obtain ⟨new, u, reserve, took⟩ := m.reserveAgain_cases.resolve_left some_
    rw [openingAttemptFailed_again (not_le.mp notThird) (q := ⟨.opening p part, number, slot, attempts⟩) rfl mark reserve]
    have h := took.openingMoved (p := p) spoiled frame ⟨.opening p part, number, new, attempts + 1⟩
    obtain ⟨count, fill⟩ := took.can
    refine ⟨h.elsewhere, fun all => absurd all bad, fun _ => h.mark, fun _ was => ⟨fun new' can again other => ?_, fun none => ?_⟩⟩
    · have same : some new = some new' := fill.symm.trans (spoiled.fill.1.trans can.2)
      cases same
      exact ⟨h.bad other, h.reserved, h.moved, h.states, h.session, h.others, tail ▸ h.queue, h.frame, h.next, h.log⟩
    · rw [spoiled.erasedCount was] at count
      rcases none with third | empty
      · exact absurd third notThird
      · omega

end

section
/-! SUPPORT. Relocation attempts (R153, R155, R158, R162). -/

namespace Sys2Proof.Machine

open Sys2Proof State

variable {s t u m : State} {r v x z : Rlg} {y : Rlg × Bool} {slot new n : Nat} {o : ProgramOutcome} {part : ClosingPart}
  {q : ProgramRequest}

/-! ## A slot taken after reads -/

theorem Rlg.CountsOnly.ring (h : r.CountsOnly x) : x.fill = r.fill ∧ x.lastActive = r.lastActive ∧ x.sectors = r.sectors := by
  rw [h]
  exact ⟨rfl, rfl, rfl⟩

theorem Rlg.CountsOnly.erasedCount (h : r.CountsOnly x) : x.erasedCount = r.erasedCount :=
  erasedCount_congr h.ring.1 h.ring.2.2 fun q => by rw [h.slotState]

/-- Words read before a slot is taken are only counted. -/
theorem State.reserveAgain_counted (counted : s.rlg.CountsOnly r) (can : s.rlg.canReserve new) :
    ∃ u, (s.withRlg r).reserveWith r.reserveAgain = some (new, u) ∧ s.TookSlot new u := by
  obtain ⟨fill, last, sectors⟩ := counted.ring
  have can' : (s.withRlg r).rlg.canReserve new := ⟨counted.erasedCount.symm ▸ can.1, fill.trans can.2⟩
  obtain ⟨u, taken, took⟩ := reserveAgain_takes can'
  obtain ⟨moved, array, slots, next, queue⟩ := took.reserved
  refine ⟨u, taken, can, ⟨moved.since sectors last, ⟨array.1.trans counted.tidied.array.1, array.2.trans counted.tidied.array.2⟩,
    slots.trans ?_, next.trans counted.tidied.next, queue.trans counted.queue⟩, took.index.trans counted.index,
    took.orphans.trans counted.tidied.orphans, took.log.trans counted.logState, onlyChanges_then (withRlg_only r) took.frame⟩
  rw [withRlg_rlg, Rlg.withSlotState, counted.tidied.slots]
  rfl

/-! ## A record moved -/

/-- The log with the record's states and index entry moved, and the origin's superseded mark programmed once (R162). -/
def Rlg.recordMoved (r : Rlg) (n slot new : Nat) (o : ProgramOutcome) : Rlg :=
  ((((r.withSlotState new .closed).withSlotState slot .superseded).setIndex n new).programMark slot .superseded o.marks).1

/-- The bytes a relocation writes: the origin's opening words as read and corrected, and the closing part (R162). -/
def Rlg.movedRecord (r : Rlg) (part : ClosingPart) (n slot : Nat) : List Byte :=
  r.readBytes (slotAddress slot) 32 ++ closingBytes part n (some slot)

theorem Rlg.length_movedRecord : (r.movedRecord part n slot).length = 120 := by
  rw [movedRecord, List.length_append, length_readBytes, length_closingBytes]

/-- The programs of a relocation attempt, past its reservation, with their verify (R162). -/
def Rlg.relocationPrograms (r : Rlg) (part : ClosingPart) (n slot new : Nat) (o : ProgramOutcome) : Rlg × Bool :=
  (r.countWords (16 * slot) 4).programRecord (r.status (16 * slot) 4 == .damaged) new (wordsOf 15 (r.movedRecord part n slot)) o

theorem State.relocate_eq (taken : s.reserveWith s.rlg.reserveAgain = some (new, u))
    (programs : u.rlg.relocationPrograms part q.number q.slot new o = y) :
    s.relocate part q o =
      if y.2 then ((u.withRlg (y.1.recordMoved q.number q.slot new o)).eraseTest, .moved new)
      else ((u.withRlg y.1).markBad new o.marks, .failed) := by
  subst programs
  rw [relocate, taken]
  rfl

/-- What a good relocation attempt leaves: the record in the new slot, and the fill position moved on (R162). -/
structure State.Moved (s : State) (part : ClosingPart) (n slot new : Nat) (o : ProgramOutcome) (t : State) : Prop where
  into : s.RelocatedInto n slot new o t
  bytes : s.RelocatedBytes part n slot new t
  fill : s.rlg.FillMoved new t.rlg
  orphans : t.rlg.orphans = s.rlg.orphans
  queue : t.rlg.queue = s.rlg.queue
  log : t.rlg.logState = s.rlg.logState
  frame : s.onlyChanges [.rlg, .noticesS, .noticesC] t

/-- What a failed relocation attempt leaves: the new slot BAD, and the fill position moved on (R162). -/
structure State.NotMoved (s : State) (n slot new : Nat) (o : ProgramOutcome) (t : State) : Prop where
  failed : s.RelocationFailed n slot new o t
  fill : s.rlg.FillMoved new t.rlg
  orphans : t.rlg.orphans = s.rlg.orphans
  queue : t.rlg.queue = s.rlg.queue
  log : t.rlg.logState = s.rlg.logState
  frame : s.onlyChanges [.rlg, .noticesS, .noticesC] t

/-- The move of the fill position stands while the ring does. -/
theorem Rlg.FillMoved.until (h : r.FillMoved new x) (fill : z.fill = x.fill ∧ z.lastActive = x.lastActive)
    (sectors : z.sectors = x.sectors) : r.FillMoved new z :=
  ⟨fill.1.trans h.fill, fill.2.trans h.last, by rw [sectors]; exact h.sectors⟩

/-- The array and the counted words after a reservation. -/
theorem State.TookSlot.read (took : s.TookSlot new u) (a : Nat) :
    (u.rlg.countWords (16 * slot) 4).rawByte a = s.rlg.rawByte a ∧
      (u.rlg.countWords (16 * slot) 4).readByte a = s.rlg.readByte a := by
  have counted := Rlg.countWords_countsOnly (r := u.rlg) (16 * slot) 4
  exact ⟨(counted.tidied.rawByte a).trans (took.reserved.rawByte a), (counted.tidied.readByte a).trans (took.reserved.readByte a)⟩

theorem State.TookSlot.movedRecord (took : s.TookSlot new u) : u.rlg.movedRecord part n slot = s.rlg.movedRecord part n slot := by
  simp only [Rlg.movedRecord, Rlg.readBytes_eq, took.reserved.readByte]

theorem State.TookSlot.damaged (took : s.TookSlot new u) :
    u.rlg.status (16 * slot) 4 = .damaged ↔ ∃ i : Fin 4, s.rlg.code (16 * slot + i.val) = .damaged := by
  have codes (w : Nat) : u.rlg.code w = s.rlg.code w := by
    simp only [Rlg.code, Rlg.codeAt, took.reserved.array.2]
  rw [Rlg.opening_damaged]
  simp only [codes]

/-- The programs of an attempt whose origin reads well (R162). -/
theorem State.TookSlot.programs (took : s.TookSlot new u) (clean : ¬∃ i : Fin 4, s.rlg.code (16 * slot + i.val) = .damaged) :
    (u.rlg.countWords (16 * slot) 4).PartTaken new 0 15 (s.rlg.movedRecord part n slot) [.opened, .closed] o
      (u.rlg.relocationPrograms part n slot new o) := by
  have reads : (u.rlg.status (16 * slot) 4 == Integrity.damaged) = false := beq_false_of_ne (mt took.damaged.mp clean)
  rw [Rlg.relocationPrograms, reads, took.movedRecord]
  exact Rlg.programRecord_taken Rlg.length_movedRecord

/-- The verify of an attempt (R153, R162). -/
theorem State.TookSlot.verdict (took : s.TookSlot new u) :
    (u.rlg.relocationPrograms part n slot new o).2 = true ↔
      (¬∃ i : Fin 4, s.rlg.code (16 * slot + i.val) = .damaged) ∧
        s.rlg.Verifies new 0 15 (s.rlg.movedRecord part n slot) [.opened, .closed] o := by
  by_cases clean : ∃ i : Fin 4, s.rlg.code (16 * slot + i.val) = .damaged
  · have reads : (u.rlg.status (16 * slot) 4 == Integrity.damaged) = true := beq_iff_eq.mpr (took.damaged.mpr clean)
    rw [Rlg.relocationPrograms, reads, Rlg.programRecord_damaged]
    exact ⟨nofun, fun both => absurd clean both.1⟩
  · have words (w : Nat) : (u.rlg.countWords (16 * slot) 4).rawWord w = s.rlg.rawWord w :=
      Rlg.rawWord_congr fun a _ => (took.read a).1
    refine (took.programs (part := part) (n := n) (o := o) clean).verdict.trans ⟨fun all => ⟨clean, ?_, ?_⟩, fun both => ⟨?_, ?_⟩⟩
    · simpa only [words] using all.words
    · simpa only [took.read] using all.marks
    · simpa only [words] using both.2.words
    · simpa only [took.read] using both.2.marks

/-- Where the programs of an attempt write (R162). -/
theorem State.TookSlot.programmed (took : s.TookSlot new u) :
    (u.rlg.countWords (16 * slot) 4).ProgrammedIn new [.opened, .closed] (u.rlg.relocationPrograms part n slot new o).1 := by
  by_cases clean : ∃ i : Fin 4, s.rlg.code (16 * slot + i.val) = .damaged
  · have reads : (u.rlg.status (16 * slot) 4 == Integrity.damaged) = true := beq_iff_eq.mpr (took.damaged.mpr clean)
    rw [Rlg.relocationPrograms, reads, Rlg.programRecord_damaged]
    exact .refl
  · exact (took.programs clean).programmed

/-- Moving the record writes one byte of the array, the origin's superseded mark. -/
theorem Rlg.recordMoved_moves (other : new ≠ slot) (h : r.recordMoved n slot new o = x) :
    x.slotState new = .closed ∧ x.slotState slot = .superseded ∧ x.slotOf n = some new ∧
    (∀ k, k ≠ n → x.slotOf k = r.slotOf k) ∧ r.MarkTaken slot .superseded o x ∧
    (∀ a, a ≠ slotAddress slot + 124 → x.rawByte a = r.rawByte a ∧ x.readByte a = r.readByte a) ∧
    (x.fill = r.fill ∧ x.lastActive = r.lastActive) ∧ x.sectors = r.sectors ∧ x.orphans = r.orphans ∧ x.queue = r.queue ∧
    x.logState = r.logState := by
  have others (a : Nat) (away : a ≠ slotAddress slot + 124) : x.rawByte a = r.rawByte a ∧ x.readByte a = r.readByte a := by
    subst h
    exact ⟨rawByte_programMark_other away,
      readByte_storeMarkByte_mark (by simp only [slotAddress, markOffset]; omega) away⟩
  obtain ⟨⟨array, _, _⟩, mark, _⟩ := programMark_taken
    (r := ((r.withSlotState new .closed).withSlotState slot .superseded).setIndex n new) (o := o) slot .superseded
  rw [show (programMark _ slot .superseded o.marks).1 = x from h] at array mark
  refine ⟨?_, ?_, ?_, fun k away => ?_, ⟨mark.byte, mark.code⟩, others, array.fill, array.sectors, array.orphans, array.queue,
    array.logState⟩
  · rw [array.slotState]
    exact (slotState_withSlotState_other (r := r.withSlotState new .closed) (z := .superseded) other).trans
      slotState_withSlotState_same
  · rw [array.slotState]
    exact slotState_withSlotState_same (r := r.withSlotState new .closed) (slot := slot) (z := .superseded)
  · rw [slotOf, array.index]
    exact slotOf_setIndex_same
  · rw [slotOf, array.index]
    exact slotOf_setIndex_other away

/-- A relocation attempt that verifies (R162). -/
theorem State.relocate_moved (reads : s.rlg.CountsOnly r) (can : s.rlg.canReserve new) (other : new ≠ q.slot)
    (clean : ¬∃ i : Fin 4, s.rlg.code (16 * q.slot + i.val) = .damaged)
    (verifies : s.rlg.Verifies new 0 15 (s.rlg.movedRecord part q.number q.slot) [.opened, .closed] o) :
    ∃ t, (s.withRlg r).relocate part q o = (t, .moved new) ∧ s.Moved part q.number q.slot new o t := by
  obtain ⟨u, taken, took⟩ := reserveAgain_counted reads can
  have good := took.verdict.mpr ⟨clean, verifies⟩
  have programs := took.programs (part := part) (n := q.number) (o := o) clean
  have eq := relocate_eq (part := part) (o := o) (q := q) taken rfl
  rw [if_pos good] at eq
  refine ⟨_, eq, ?_⟩
  have read := fun a => took.read (slot := q.slot) a
  have counted := Rlg.countWords_countsOnly (r := u.rlg) (16 * q.slot) 4
  generalize u.rlg.relocationPrograms part q.number q.slot new o = y at *
  obtain ⟨programmed, _, bytes, marks⟩ := programs
  obtain ⟨x, move⟩ : ∃ x, y.1.recordMoved q.number q.slot new o = x := ⟨_, rfl⟩
  obtain ⟨closed, aside, index, numbers, mark, elsewhere, ring, sectors, orphans, queue, log⟩ :=
    Rlg.recordMoved_moves other move
  rw [move]
  obtain ⟨scan, log', queue'⟩ := eraseTest_rlg (u.withRlg x)
  have tidied : x.Tidied (u.withRlg x).eraseTest.rlg := scan.tidied
  have inNew {a : Nat} (low : slotAddress new ≤ a) (high : a < slotAddress new + 128) : a ≠ slotAddress q.slot + 124 :=
    fun same => not_inSlot_mark other .superseded (same ▸ ⟨low, high⟩ : inSlot new _)
  have written : x.rawBytes (slotAddress new) 120 = s.rlg.movedRecord part q.number q.slot :=
    (Rlg.rawBytes_congr fun a low high => (elsewhere a (inNew low (by omega))).1).trans (bytes good)
  rw [show 120 = 32 + 88 from rfl, Rlg.rawBytes_add, Rlg.movedRecord] at written
  obtain ⟨opening, closing⟩ := List.append_inj written (by rw [Rlg.length_rawBytes, Rlg.length_readBytes])
  have same (k : Nat) : y.1.slotOf k = s.rlg.slotOf k := by
    rw [Rlg.slotOf, programmed.array.index, counted.index, took.index, Rlg.slotOf]
  have fill := (took.reserved.moved.tidied counted.tidied).until programmed.array.fill programmed.array.sectors
  refine ⟨⟨?_, ?_, ?_, ?_, fun k away => ?_, fun a away notMark => ?_⟩, ⟨?_, ?_, ?_⟩, ?_, ?_, ?_, ?_, ?_⟩
  · rw [tidied.slotState, closed]
  · rw [tidied.slotState, aside]
  · refine tidied.markTaken (mark.after ?_)
    exact ((programmed.outside _ (not_inSlot_mark other .superseded)).1).trans (read _).1
  · rw [tidied.slotOf, index]
  · rw [tidied.slotOf, numbers k away, same]
  · rw [tidied.readByte, (elsewhere a notMark).2]
    exact (programmed.outside a away).2.trans (read a).2
  · rw [tidied.rawBytes, opening]
  · rw [tidied.rawBytes, closing]
  · rw [tidied.rawByte, tidied.rawByte, (elsewhere _ (inNew (by omega) (by omega))).1,
      (elsewhere _ (inNew (by omega) (by omega))).1]
    exact ⟨marks good .opened (by simp), marks good .closed (by simp)⟩
  · exact (fill.until ring sectors).tidied tidied
  · exact tidied.orphans.trans (orphans.trans (programmed.array.orphans.trans (counted.tidied.orphans.trans took.orphans)))
  · exact queue'.trans (queue.trans (programmed.array.queue.trans (counted.queue.trans took.reserved.queue)))
  · exact log'.trans (log.trans (programmed.array.logState.trans (counted.logState.trans took.log)))
  · exact onlyChanges_then (onlyChanges_then took.frame (withRlg_only _) (hs := [.rlg, .noticesS, .noticesC])) eraseTest_only

/-- A relocation attempt that fails (R162). -/
theorem State.relocate_failed (reads : s.rlg.CountsOnly r) (can : s.rlg.canReserve new) (other : new ≠ q.slot) (queued : s.rlg.queue ≠ [])
    (bad : (∃ i : Fin 4, s.rlg.code (16 * q.slot + i.val) = .damaged) ∨
      ¬s.rlg.Verifies new 0 15 (s.rlg.movedRecord part q.number q.slot) [.opened, .closed] o) :
    ∃ t, (s.withRlg r).relocate part q o = (t, .failed) ∧ s.NotMoved q.number q.slot new o t := by
  obtain ⟨u, taken, took⟩ := reserveAgain_counted reads can
  have failed : ¬(u.rlg.relocationPrograms part q.number q.slot new o).2 = true := fun good =>
    bad.elim (took.verdict.mp good).1 fun wrong => wrong (took.verdict.mp good).2
  have eq := relocate_eq (part := part) (o := o) (q := q) taken rfl
  rw [if_neg failed] at eq
  refine ⟨_, eq, ?_⟩
  have programmed := took.programmed (part := part) (n := q.number) (slot := q.slot) (o := o)
  have read := fun a => took.read (slot := q.slot) a
  have counted := Rlg.countWords_countsOnly (r := u.rlg) (16 * q.slot) 4
  generalize u.rlg.relocationPrograms part q.number q.slot new o = y at *
  have nonempty : ((u.withRlg (u.rlg.countWords (16 * q.slot) 4)).rlg.queue) ≠ [] :=
    (counted.queue.trans took.reserved.queue).trans_ne queued
  have spoiled := markBad_spoiled (s := u.withRlg (u.rlg.countWords (16 * q.slot) 4)) (o := o) programmed (by decide) nonempty
  change (u.rlg.countWords (16 * q.slot) 4).Spoiled new o ((u.withRlg y.1).markBad new o.marks).rlg at spoiled
  have frame := onlyChanges_then (onlyChanges_then took.frame (withRlg_only y.1) (hs := [.rlg, .noticesS, .noticesC]))
    (markBad_only new o.marks) (hs := [.rlg, .noticesS, .noticesC])
  have fill := took.reserved.moved.tidied counted.tidied
  refine ⟨⟨spoiled.bad, spoiled.mark.after (read _).1, ?_, ?_, fun a away => (spoiled.elsewhere a away).trans (read a).2⟩,
    fill.until spoiled.fill spoiled.sectors, ?_, ?_, ?_, frame⟩
  · rw [spoiled.states _ other.symm, counted.slotState, took.reserved.slotState_other other.symm]
  · rw [Rlg.slotOf, spoiled.index, counted.index, took.index, Rlg.slotOf]
  · exact spoiled.orphans.trans (counted.tidied.orphans.trans took.orphans)
  · exact spoiled.queue.trans (counted.queue.trans took.reserved.queue)
  · exact spoiled.log.trans (counted.logState.trans took.log)

theorem State.relocate_none (h : s.rlg.erasedCount = 0) : s.relocate part q o = (s, .noSlot) := by
  rw [relocate, reserveAgain_none h]

/-! ## What follows an attempt -/

theorem State.RelocatedInto.until (h : s.RelocatedInto n slot new o t) (tidied : t.rlg.Tidied u.rlg) :
    s.RelocatedInto n slot new o u where
  taken := (tidied.slotState new).trans h.taken
  setAside := (tidied.slotState slot).trans h.setAside
  mark := tidied.markTaken h.mark
  index := (tidied.slotOf n).trans h.index
  otherNumbers k away := (tidied.slotOf k).trans (h.otherNumbers k away)
  elsewhere a away notMark := (tidied.readByte a).trans (h.elsewhere a away notMark)

theorem State.RelocatedBytes.until (h : s.RelocatedBytes part n slot new t) (tidied : t.rlg.Tidied u.rlg) :
    s.RelocatedBytes part n slot new u where
  opening := (tidied.rawBytes _ _).trans h.opening
  closing := (tidied.rawBytes _ _).trans h.closing
  marks := ⟨(tidied.rawByte _).trans h.marks.1, (tidied.rawByte _).trans h.marks.2⟩

theorem State.RelocationFailed.until (h : s.RelocationFailed n slot new o t) (tidied : t.rlg.Tidied u.rlg) :
    s.RelocationFailed n slot new o u where
  bad := (tidied.slotState new).trans h.bad
  mark := tidied.markTaken h.mark
  origin := (tidied.slotState slot).trans h.origin
  index := (tidied.slotOf n).trans h.index
  elsewhere a away := (tidied.readByte a).trans (h.elsewhere a away)

/-- A third failure follows the attempt (R164). -/
theorem State.failHead_since {ns : List Nat} {rest : List ProgramRequest} (head : s.rlg.queue = q :: rest)
    (queue : m.rlg.queue = s.rlg.queue) (log : m.rlg.logState = s.rlg.logState)
    (frame : s.onlyChanges [.rlg, .noticesS, .noticesC] m) :
    s.FaultTaken ns none (m.failHead ns) ∧ m.rlg.Tidied (m.failHead ns).rlg ∧
      (m.failHead ns).rlg.queue = s.queueAfterFault rest := by
  obtain ⟨taken, tidied, left, _, _⟩ := failHead_failed (s := m) ns
  refine ⟨taken.since (onlyChanges_mono frame) log (by rw [frame .tfu (by decide)]) fun p _ => ?_, tidied, ?_⟩
  · rw [session, frame .ssu (by decide), session]
  · rw [left, queue, head, List.tail_cons, queueAfterFault, queueAfterFault, log]

/-- A session being closed is left alone by the entry into FAULT (R69). -/
theorem State.closedByFault_closing {p : Point} (closing : (s.session p).state = .closing) :
    s.closedByFault p = s.session p := by
  simp [closedByFault, closing]

end Sys2Proof.Machine
end

section
/-! SUPPORT. The relocation of a session's record, and orphan closings (R71, R72, R158, R161, R162, R164, R176, R177). -/

namespace Sys2Proof.Machine

open Sys2Proof State

variable {s t u m : State} {p : Point} {slot new n point attempts : Nat} {o : ProgramOutcome} {part : ClosingPart}
  {q : ProgramRequest} {rest : List ProgramRequest} {y : Rlg × Bool}

/-! ## RELOCATION -/

/-- What a relocation attempt of a session's record leads to (R162, R71, R72). -/
def State.relocationEnd (p : Point) (q : ProgramRequest) : State × Relocated → State
  | (t, .moved slot) => ((t.withSession p { t.session p with slot }).closingCompleted p).endRequest
  | (t, .failed) => if q.attempts + 1 < 3 then t.retryHead { q with attempts := q.attempts + 1 } else t.failHead [p.val]
  | (t, .noSlot) => t.failHead [p.val]

/-- The head request is a closing past its first attempt and no erase runs (R162). -/
theorem execRelocation_head (past : 0 < attempts) (idle : s.rlg.erasing = false)
    (head : s.rlg.queue = ⟨.closing p part, n, slot, attempts⟩ :: rest) :
    exec (.relocation o) s = .next (relocationEnd p ⟨.closing p part, n, slot, attempts⟩
      (s.relocate part ⟨.closing p part, n, slot, attempts⟩ o)) := by
  obtain ⟨k, rfl⟩ := Nat.exists_eq_add_of_lt past
  rw [Nat.zero_add] at *
  change execRelocation o s = _
  simp only [execRelocation, idle, head, Bool.false_eq_true, if_false]
  rcases s.relocate part ⟨.closing p part, n, slot, k + 1⟩ o with ⟨t, _ | _ | _⟩ <;> rfl

/-- The session frees once its record has moved (R71, R162). -/
theorem State.Moved.ended (h : s.Moved part n slot new o m) (head : s.rlg.queue = q :: rest)
    (t_eq : t = ((m.withSession p { m.session p with slot := new }).closingCompleted p).endRequest) :
    s.RelocatedInto n slot new o t ∧ s.RelocatedBytes part n slot new t ∧ s.rlg.FillMoved new t.rlg ∧ s.sessionFreed p t ∧
      s.otherSessionsSame p t ∧ s.onlyChanges [.rlg, .ssu, .tfu, .noticesS, .noticesC] t ∧ t.noticesC.tells 8 [p.val] ∧
      t.rlg.queue = rest ∧ t.rlg.logState = s.rlg.logState := by
  subst t_eq
  have ended := closingCompleted_ended (s := m.withSession p { m.session p with slot := new }) (p := p)
  have records (j : Point) : m.session j = s.session j := by rw [session, h.frame .ssu (by decide), session]
  have only : s.onlyChanges [.rlg, .ssu, .noticesS, .noticesC] (m.withSession p { m.session p with slot := new }) :=
    onlyChanges_then h.frame (withSession_only p _)
  obtain ⟨freed, others, frame⟩ := ended.since only (fun j other => (withSession_others p _ j other).trans (records j)) (by
    rw [withSession_same, records])
  have tidied : m.rlg.Tidied _ := ended.tidied
  refine ⟨h.into.until tidied, h.bytes.until tidied, h.fill.tidied tidied, freed, others, frame, ended.told, ?_,
    ended.log.trans h.log⟩
  rw [ended.queue]
  change m.rlg.queue.tail = rest
  rw [h.queue, head, List.tail_cons]

/-! ## ORPHAN_CLOSING -/

/-- What a relocation attempt of an orphan closing leads to (R162, R177). -/
def State.orphanEnd (point : Nat) (q : ProgramRequest) : State × Relocated → State
  | (t, .moved _) => t.orphanClosed q.number
  | (t, .failed) => if q.attempts + 1 < 3 then t.retryHead { q with attempts := q.attempts + 1 } else t.failHead [point]
  | (t, .noSlot) => t.failHead [point]

theorem State.orphanRelocation_eq : s.orphanRelocation point part q o = orphanEnd point q (s.relocate part q o) := by
  unfold orphanRelocation
  rcases s.relocate part q o with ⟨t, _ | _ | _⟩ <;> rfl

/-- The state the attempt begins in: at the first one the closing words have been read (log entry 23). -/
def State.orphanRead (s : State) (slot attempts : Nat) : State :=
  if attempts = 0 then s.withRlg (s.rlg.countWords (16 * slot + 4) 11) else s

theorem State.orphanRead_eq (s : State) (slot attempts : Nat) :
    ∃ r, s.rlg.CountsOnly r ∧ s.orphanRead slot attempts = s.withRlg r := by
  unfold orphanRead
  split
  · exact ⟨_, Rlg.countWords_countsOnly _ _, rfl⟩
  · exact ⟨s.rlg, .refl, rfl⟩

/-- The head request is an orphan closing and no erase runs: in place (R177). -/
theorem execOrphanClosing_inPlace (idle : s.rlg.erasing = false)
    (head : s.rlg.queue = ⟨.orphanClosing point part, n, slot, 0⟩ :: rest)
    (erased : ∀ i : Fin 11, s.rlg.wordErased (16 * slot + 4 + i.val) = true)
    (program : (s.rlg.countWords (16 * slot + 4) 11).programPart slot 4 (wordsOf 11 (closingBytes part n none)) .closed o = y) :
    exec (.orphanClosing o) s = .next (
      if y.2 then ((s.withRlg (y.1.withSlotState slot .closed)).orphanClosed n)
      else (s.withRlg y.1).retryHead ⟨.orphanClosing point part, n, slot, 1⟩) := by
  change execOrphanClosing o s = _
  simp only [execOrphanClosing, idle, head, Bool.false_eq_true, if_false, if_true, Rlg.closingErased_iff.mpr erased,
    closeInPlace_eq (s := s.withRlg (s.rlg.countWords (16 * slot + 4) 11)) (q := ⟨.orphanClosing point part, n, slot, 0⟩) program]
  by_cases good : y.2 = true <;> simp only [good, if_true, if_false, Bool.false_eq_true] <;> rfl

/-- Otherwise it relocates (R177). -/
theorem execOrphanClosing_relocates (idle : s.rlg.erasing = false)
    (head : s.rlg.queue = ⟨.orphanClosing point part, n, slot, attempts⟩ :: rest)
    (notInPlace : ¬(attempts = 0 ∧ ∀ i : Fin 11, s.rlg.wordErased (16 * slot + 4 + i.val) = true)) :
    exec (.orphanClosing o) s = .next (orphanEnd point ⟨.orphanClosing point part, n, slot, attempts⟩
      ((s.orphanRead slot attempts).relocate part ⟨.orphanClosing point part, n, slot, attempts⟩ o)) := by
  change execOrphanClosing o s = _
  simp only [execOrphanClosing, idle, head, Bool.false_eq_true, if_false, orphanRead]
  by_cases first : attempts = 0
  · have used : ¬s.rlg.closingErased slot = true := fun erased => notInPlace ⟨first, Rlg.closingErased_iff.mp erased⟩
    simp only [if_pos first, if_neg used, orphanRelocation_eq]
  · simp only [if_neg first, orphanRelocation_eq]

/-- The orphan closed leaves the list, and its request the queue (R176, R159). -/
theorem State.orphanClosed_ended (head : s.rlg.queue = q :: rest) (queue : m.rlg.queue = s.rlg.queue)
    (orphans : m.rlg.orphans = s.rlg.orphans) (frame : s.onlyChanges [.rlg, .noticesS, .noticesC] m) :
    (m.orphanClosed n).rlg.orphans = s.rlg.orphans.filter (fun k => k != n) ∧ (m.orphanClosed n).rlg.queue = rest ∧
      s.onlyChanges [.rlg, .noticesS, .noticesC] (m.orphanClosed n) := by
  obtain ⟨tidied, _, left⟩ :=
    endRequest_tidied (s := m.withRlg { m.rlg with orphans := m.rlg.orphans.filter (fun k => k != n) })
  refine ⟨?_, ?_, onlyChanges_then (onlyChanges_then frame (withRlg_only _) (hs := [.rlg, .noticesS, .noticesC]))
    endRequest_only⟩
  · rw [orphanClosed, tidied.orphans, ← orphans]
    rfl
  · rw [orphanClosed, left]
    change m.rlg.queue.tail = rest
    rw [queue, head, List.tail_cons]

/-- The log with the orphan's number gone from the list (R176). -/
def State.withoutOrphan (n : Nat) (s : State) : State :=
  s.withRlg { s.rlg with orphans := s.rlg.orphans.filter (fun k => k != n) }

theorem State.orphanClosed_tidied : (m.withoutOrphan n).rlg.Tidied (m.orphanClosed n).rlg :=
  endRequest_tidied.1

/-- A record closed in place stays so when its orphan ends. -/
theorem State.ClosedInPlace.orphanClosed {a k : Nat} {bytes : List Byte} (h : s.ClosedInPlace slot m)
    (held : m.rlg.rawBytes a k = bytes) :
    s.ClosedInPlace slot (m.orphanClosed n) ∧ (m.orphanClosed n).rlg.rawBytes a k = bytes := by
  have tidied := orphanClosed_tidied (m := m) (n := n)
  have same : (m.withoutOrphan n).rlg.rawBytes a k = m.rlg.rawBytes a k := Rlg.rawBytes_congr fun _ _ _ => rfl
  exact ⟨⟨(tidied.slotState slot).trans h.closed, tidied.index.trans h.index,
    fun c away => (tidied.readByte c).trans (h.elsewhere c away)⟩, (tidied.rawBytes a k).trans (same.trans held)⟩

/-- A record moved stays so when its orphan ends: the list is none of the array, the slots or the ring. -/
theorem State.Moved.orphanClosed (h : s.Moved part n slot new o m) :
    s.RelocatedInto n slot new o (m.orphanClosed n) ∧ s.RelocatedBytes part n slot new (m.orphanClosed n) ∧
      s.rlg.FillMoved new (m.orphanClosed n).rlg := by
  obtain ⟨taken, setAside, mark, index, otherNumbers, elsewhere⟩ := h.into
  have into : s.RelocatedInto n slot new o (m.withoutOrphan n) :=
    ⟨taken, setAside, ⟨mark.byte, mark.code⟩, index, otherNumbers, elsewhere⟩
  have bytes : s.RelocatedBytes part n slot new (m.withoutOrphan n) :=
    ⟨h.bytes.opening, h.bytes.closing, h.bytes.marks⟩
  have fill : s.rlg.FillMoved new (m.withoutOrphan n).rlg := h.fill.until ⟨rfl, rfl⟩ rfl
  exact ⟨into.until orphanClosed_tidied, bytes.until orphanClosed_tidied, fill.tidied orphanClosed_tidied⟩

end Sys2Proof.Machine
end

section
/-! SUPPORT. The statement about relocations. -/

open Sys2Proof Sys2Proof.Machine Sys2Proof.Machine.State

/-- Settles O42: an attempt moves the record, fails, or finds no slot. -/
theorem relocationsMoveTheRecordToAFreshSlot : Obligations.RelocationsMoveTheRecordToAFreshSlot := by
  intro o s p part number slot attempts rest past idle head damaged record verifies
  have queued : s.rlg.queue ≠ [] := by
    rw [head]
    exact List.cons_ne_nil _ _
  refine ⟨_, execRelocation_head past idle head, fun new can other clean good => ?_, fun new can other bad => ?_, fun full => ?_⟩
  · obtain ⟨m, attempt, moved⟩ := relocate_moved (q := ⟨.closing p part, number, slot, attempts⟩) .refl can other clean good
    change s.relocate part _ o = _ at attempt
    rw [attempt]
    exact moved.ended head rfl
  · obtain ⟨m, attempt, failed, fill, _, queue, log, frame⟩ :=
      relocate_failed (q := ⟨.closing p part, number, slot, attempts⟩) .refl can other queued bad
    change s.relocate part _ o = _ at attempt
    rw [attempt, relocationEnd]
    have records : m.session p = s.session p := by rw [session, frame .ssu (by decide), session]
    by_cases again : attempts + 1 < 3
    · rw [if_pos again]
      have tidied := retryHead_tidied (s := m) ⟨.closing p part, number, slot, attempts + 1⟩
      refine ⟨failed.until tidied, fill.tidied tidied, fun _ => ⟨records, ?_, onlyChanges_then frame (retryHead_only _), log⟩,
        fun third => by omega⟩
      change _ :: m.rlg.queue.tail = _
      rw [queue, head, List.tail_cons]
    · rw [if_neg again]
      obtain ⟨fault, tidied, left⟩ := failHead_since (ns := [p.val]) head queue log frame
      refine ⟨failed.until tidied, fill.tidied tidied, fun first => absurd first (by omega), fun _ closing => ⟨?_, fault, left⟩⟩
      rw [fault.sessions p nofun, closedByFault_closing closing, ite_self]
  · rw [relocate_none full, relocationEnd]
    obtain ⟨fault, tidied, left⟩ := failHead_since (m := s) (ns := [p.val]) head rfl rfl onlyChanges_refl
    exact ⟨fault, tidied.readByte, tidied.slots, left⟩

end

section
/-! SUPPORT. The statement about orphan closings. -/

open Sys2Proof Sys2Proof.Machine Sys2Proof.Machine.State

/-- Settles O43: in place while the closing words read erased, else by relocation; the number leaves the list at success. -/
theorem orphanClosingsEndTheOrphan : Obligations.OrphanClosingsEndTheOrphan := by
  intro o s point part number slot attempts rest idle head damaged inPlace written record verifies ended
  have queued : s.rlg.queue ≠ [] := by
    rw [head]
    exact List.cons_ne_nil _ _
  by_cases place : inPlace
  · obtain ⟨first, erased⟩ := id place
    subst first
    have counted := Rlg.countWords_countsOnly (r := s.rlg) (16 * slot + 4) 11
    have taken := Rlg.programPart_taken (r := s.rlg.countWords (16 * slot + 4) 11) (slot := slot) (o := o)
      (length_closingBytes part number none) (first := 4) (k := 11) (by decide) .closed
    obtain ⟨y, program⟩ : ∃ y, (s.rlg.countWords (16 * slot + 4) 11).programPart slot 4
      (wordsOf 11 (closingBytes part number none)) .closed o = y := ⟨_, rfl⟩
    rw [program] at taken
    have verdict := taken.verdict.trans counted.tidied.verifies
    have array := taken.programmed.array
    have queue : y.1.queue = s.rlg.queue := array.queue.trans counted.queue
    refine ⟨_, execOrphanClosing_inPlace idle head erased program, fun _ good => ?_, fun _ bad => ?_,
      fun new _ notInPlace => absurd place notInPlace, fun new _ notInPlace => absurd place notInPlace,
      fun notInPlace => absurd place notInPlace⟩
    · rw [if_pos (verdict.mpr good)]
      obtain ⟨closed, bytes, _⟩ := closedInPlace (t := s.withRlg (y.1.withSlotState slot .closed)) counted taken
        (verdict.mpr good) .refl
      obtain ⟨inPlace_, bytes_⟩ := closed.orphanClosed (n := number) bytes
      exact ⟨inPlace_, orphanClosed_ended head queue (array.orphans.trans counted.tidied.orphans)
        (onlyChanges_mono (withRlg_only _)), bytes_⟩
    · rw [if_neg (mt verdict.mp bad)]
      refine ⟨onlyChanges_then (withRlg_only _) (retryHead_only _),
        fun a away => (taken.programmed.outside a away).2.trans (counted.tidied.readByte a),
        array.slotStates.trans counted.tidied.slots, array.orphans.trans counted.tidied.orphans, ?_⟩
      change _ :: y.1.queue.tail = _
      rw [queue, head, List.tail_cons]
  · obtain ⟨r, counted, read⟩ := orphanRead_eq s slot attempts
    refine ⟨_, execOrphanClosing_relocates idle head place, fun yes => absurd yes place, fun yes => absurd yes place,
      fun new can _ other clean good => ?_, fun new can _ other bad => ?_, fun _ full => ?_⟩
    all_goals rw [read]
    · obtain ⟨m, attempt, moved⟩ :=
        relocate_moved (q := ⟨.orphanClosing point part, number, slot, attempts⟩) counted can other clean good
      rw [attempt, orphanEnd]
      obtain ⟨into, bytes, fill⟩ := moved.orphanClosed (n := number)
      exact ⟨into, bytes, fill, orphanClosed_ended head moved.queue moved.orphans moved.frame⟩
    · obtain ⟨m, attempt, failed, fill, orphans, queue, log, frame⟩ :=
        relocate_failed (q := ⟨.orphanClosing point part, number, slot, attempts⟩) counted can other queued bad
      rw [attempt, orphanEnd]
      by_cases again : attempts + 1 < 3
      · rw [if_pos again]
        have tidied := retryHead_tidied (s := m) ⟨.orphanClosing point part, number, slot, attempts + 1⟩
        refine ⟨failed.until tidied, fill.tidied tidied, orphans, fun _ => ⟨?_, onlyChanges_then frame (retryHead_only _)⟩,
          fun third => by omega⟩
        change _ :: m.rlg.queue.tail = _
        rw [queue, head, List.tail_cons]
      · rw [if_neg again]
        obtain ⟨fault, tidied, left⟩ := failHead_since (ns := [point]) head queue log frame
        exact ⟨failed.until tidied, fill.tidied tidied, tidied.orphans.trans orphans, fun first => absurd first (by omega),
          fun _ => ⟨fault, left⟩⟩
    · rw [relocate_none (counted.erasedCount.trans full), orphanEnd]
      obtain ⟨fault, tidied, left⟩ := failHead_since (m := s.withRlg r) (ns := [point]) head counted.queue counted.logState
        (onlyChanges_mono (withRlg_only r))
      exact ⟨fault, (counted.tidied.trans tidied).readByte, (counted.tidied.trans tidied).orphans, left⟩

end

section
/-! SUPPORT. What the start-up scan leaves (R173 to R176): its programs, the states, the index, the orphans and the notices. -/

namespace Sys2Proof.Machine

open Sys2Proof State

variable {s t u : State} {r x : Rlg} {fs : List ScanResult} {slot n next : Nat} {ts : List ScanTarget} {k : Fin 16}

/-! ## The scan's programs -/

theorem Rlg.programByte_array (a : Nat) (z : Option ArrayResult) : r.ArrayOnly (r.programByte a z).1 := rfl

theorem Rlg.scanProgram_array (target : ScanTarget) : r.ArrayOnly (r.scanProgram next fs target).1 := by
  have tries {program : Rlg → Option ArrayResult → Rlg × Bool} (one : ∀ (v : Rlg) z, v.ArrayOnly (program v z).1)
      (zs : List ArrayResult) : r.ArrayOnly (Rlg.programTries program 3 zs r).1 :=
    (programTries_ind ArrayOnly (fun _ => True) (fun _ => rfl) (fun _ _ _ => ArrayOnly.trans) one (fun _ _ _ => trivial) 3 zs r).1
  cases target with
  | header k => exact tries (fun v z => programWord_array (r := v) _ z) _
  | superseded slot => exact tries (fun v z => programByte_array (r := v) _ z) _
  | gap slot => exact tries (fun v z => programByte_array (r := v) _ z) _

theorem Rlg.scanPrograms_array : r.ArrayOnly (Rlg.scanPrograms next fs ts r).1 := by
  induction ts generalizing r with
  | nil => rfl
  | cons target ts ih => exact (scanProgram_array target).trans ih

theorem Rlg.scanWrites_array : r.ArrayOnly (r.scanWrites fs).1 := scanPrograms_array

theorem Rlg.scanned_queue : (r.scanned fs).queue = r.queue := by
  unfold scanned
  dsimp only
  exact scanWrites_array.queue

theorem Rlg.rawByte_scanned (a : Nat) : (r.scanned fs).rawByte a = (r.scanWrites fs).1.rawByte a := by
  rw [rawByte, scanned_cells, rawByte]

theorem Rlg.readByte_scanned (a : Nat) : (r.scanned fs).readByte a = (r.scanWrites fs).1.readByte a := by
  simp only [readByte, rawByte, correction, codeAt, scanned_cells, scanned_codes]

/-- A program of the scan stands in a mark byte 123 or 124 of a slot, or in the header of an empty sector (R174, R175). -/
theorem Rlg.mem_scanTargets {target : ScanTarget} : target ∈ r.scanTargets ↔
    (∃ k : Fin 16, r.isEmpty k ∧ r.wordErased (32768 + k.val) = true ∧ target = .header k) ∨
    (∃ slot ∈ r.origins, target = .superseded (Fin.ofNat 2048 slot)) ∨
    ∃ slot ∈ r.gaps, target = .gap (Fin.ofNat 2048 slot) := by
  simp only [scanTargets, List.mem_append, List.mem_map, List.mem_filter, mem_allSectors, true_and, Bool.and_eq_true,
    sectorFree_iff, or_assoc]
  refine or_congr ⟨?_, ?_⟩ (or_congr ?_ ?_)
  · rintro ⟨k, ⟨empty, erased⟩, rfl⟩
    exact ⟨k, empty, erased, rfl⟩
  · rintro ⟨k, empty, erased, rfl⟩
    exact ⟨k, ⟨empty, erased⟩, rfl⟩
  · exact ⟨fun ⟨slot, mem, eq⟩ => ⟨slot, mem, eq.symm⟩, fun ⟨slot, mem, eq⟩ => ⟨slot, mem, eq.symm⟩⟩
  · exact ⟨fun ⟨slot, mem, eq⟩ => ⟨slot, mem, eq.symm⟩, fun ⟨slot, mem, eq⟩ => ⟨slot, mem, eq.symm⟩⟩

/-- No header is programmed twice. -/
theorem Rlg.scanTargets_once (k : Fin 16) : r.scanTargets.count (.header k) ≤ 1 := by
  have nodup : ((allSectors.filter (fun k => r.sectorFree k && r.wordErased (32768 + k.val))).map ScanTarget.header).Nodup :=
    ((List.nodup_ofFn.mpr Function.injective_id).filter _).map fun _ _ same => by injection same
  have marks {f : Nat → ScanTarget} (noHeader : ∀ slot, f slot ≠ .header k) (slots : List Nat) :
      (slots.map f).count (.header k) = 0 :=
    List.count_eq_zero_of_not_mem fun mem => by
      obtain ⟨slot, _, same⟩ := List.mem_map.mp mem
      exact noHeader slot same
  rw [scanTargets, List.count_append, List.count_append, marks (f := fun slot => .superseded (Fin.ofNat 2048 slot)) (fun _ => nofun),
    marks (f := fun slot => .gap (Fin.ofNat 2048 slot)) (fun _ => nofun)]
  exact List.nodup_iff_count_le_one.mp nodup _

/-- A byte of no target is as the scan found it. -/
theorem Rlg.scanned_untouched {a : Nat} (h : ∀ target ∈ r.scanTargets, ¬targetHas target a) :
    (r.scanned fs).rawByte a = r.rawByte a ∧ (r.scanned fs).readByte a = r.readByte a := by
  obtain ⟨raw, read⟩ := (scanPrograms_spec (next := r.scannedNext) (fs := fs) r.scanTargets r).1 a h
  rw [rawByte_scanned, readByte_scanned]
  exact ⟨raw, read⟩

/-- Bytes of the slots but marks 123 and 124, and those past the headers, are no program's of the scan. -/
theorem Rlg.notTarget {a : Nat} (h : a < 262144 ∧ a % 128 ≠ 123 ∧ a % 128 ≠ 124 ∨ 262272 ≤ a) :
    ∀ target ∈ r.scanTargets, ¬targetHas target a := by
  intro target _
  cases target with
  | header k =>
    intro (has : a / 8 = 32768 + k.val)
    omega
  | superseded slot =>
    intro (has : a = slotAddress slot + 124)
    unfold slotAddress at has
    omega
  | gap slot =>
    intro (has : a = slotAddress slot + 123)
    unfold slotAddress at has
    omega

/-- Of the headers only those of empty sectors that read erased are programmed (R175). -/
theorem Rlg.scanned_header (h : ¬(r.isEmpty k ∧ r.wordErased (32768 + k.val) = true)) :
    (r.scanned fs).rawWord (32768 + k.val) = r.rawWord (32768 + k.val) := by
  refine rawWord_congr fun a word => (scanned_untouched fun target mem has => ?_).1
  rcases mem_scanTargets.mp mem with ⟨j, empty, erased, rfl⟩ | ⟨slot, _, rfl⟩ | ⟨slot, _, rfl⟩
  · have same : a / 8 = 32768 + j.val := has
    obtain rfl : j = k := Fin.ext (by omega)
    exact h ⟨empty, erased⟩
  · have same : a = slotAddress (Fin.ofNat 2048 slot) + 124 := has
    unfold slotAddress at same
    omega
  · have same : a = slotAddress (Fin.ofNat 2048 slot) + 123 := has
    unfold slotAddress at same
    omega

/-- With no third failure every program of the scan has taken (R175). -/
theorem Rlg.scanned_holds (h : r.scanFails fs = false) {target : ScanTarget} (mem : target ∈ r.scanTargets) :
    (r.scanWrites fs).1.targetHolds r.scannedNext target := by
  have good : (r.scanWrites fs).2 = true := by simpa [scanFails] using h
  exact (scanPrograms_spec (next := r.scannedNext) (fs := fs) r.scanTargets r).2.2 good scanTargets_once target mem

theorem Rlg.scanned_headerProgrammed (h : r.scanFails fs = false) (empty : r.isEmpty k)
    (erased : r.wordErased (32768 + k.val) = true) :
    (r.scanned fs).rawWord (32768 + k.val) = BitVec.ofNat 64 r.scannedNext := by
  have holds := scanned_holds (fs := fs) h (mem_scanTargets.mpr (.inl ⟨k, empty, erased, rfl⟩))
  rw [← show (r.scanWrites fs).1.rawWord (32768 + k.val) = BitVec.ofNat 64 r.scannedNext from holds]
  exact rawWord_congr fun a _ => rawByte_scanned a

theorem Rlg.scanned_aside (h : r.scanFails fs = false) {new origin : Nat} (aside : r.SetsAside new origin) :
    (r.scanned fs).rawByte (slotAddress origin + 124) = 0 := by
  have holds := scanned_holds (fs := fs) h
    (mem_scanTargets.mpr (.inr (.inl ⟨origin, mem_origins.mpr ⟨new, aside⟩, rfl⟩)))
  have same : (Fin.ofNat 2048 origin).val = origin := Nat.mod_eq_of_lt aside.slots.2
  rw [rawByte_scanned, ← same]
  exact holds

theorem Rlg.scanned_gapMarked (h : r.scanFails fs = false) (gap : slot ∈ r.gaps) :
    (r.scanned fs).rawByte (slotAddress slot + 123) = 0 := by
  have holds := scanned_holds (fs := fs) h (mem_scanTargets.mpr (.inr (.inr ⟨slot, gap, rfl⟩)))
  have same : (Fin.ofNat 2048 slot).val = slot := Nat.mod_eq_of_lt (mem_gaps.mp gap).1
  rw [rawByte_scanned, ← same]
  exact holds

/-! ## States, numbers and orphans -/

theorem Rlg.scanned_slotState (low : slot < 2048) : (r.scanned fs).slotState slot = r.scannedState slot := by
  rw [slotState, scanned_slotStates, sparseGet_scannedStates low]

/-- An empty slot outside an interrupted erase that the scan makes BAD is a gap (R174). -/
theorem Rlg.gap_of_bad (uninterrupted : r.interrupted (slotSector slot) = false)
    (erased : ∀ w : Fin 16, r.wordErased (16 * slot + w.val) = true) (bad : r.scannedState slot = .bad) : slot ∈ r.gaps := by
  rw [scannedState_unused uninterrupted (slotUsed_false.mpr erased)] at bad
  split at bad
  · next gap => exact List.contains_iff_mem.mp gap
  · cases bad

theorem Rlg.mem_scannedStates {e : Nat × SlotState} :
    e ∈ r.scannedStates r.origins r.gaps ↔ e.1 < 2048 ∧ e.2 = r.scannedState e.1 ∧ e.2 ≠ .erased := by
  simp only [scannedStates, List.mem_filter, List.mem_map, List.mem_range, bne_iff_ne]
  constructor
  · rintro ⟨⟨slot, low, rfl⟩, used⟩
    exact ⟨low, rfl, used⟩
  · rintro ⟨low, state, used⟩
    exact ⟨⟨e.1, low, Prod.ext rfl state.symm⟩, used⟩

theorem Rlg.scannedStates_rising : (r.scannedStates r.origins r.gaps).Pairwise (fun e f => e.1 < f.1) := by
  refine List.Pairwise.filter _ (List.pairwise_map.mpr ?_)
  exact List.pairwise_lt_range

/-- The entry of the number index that the scan makes of a slot's state. -/
def Rlg.entryOf (r : Rlg) (e : Nat × SlotState) : Option (Nat × Nat) :=
  match e.2 with
  | .opened => (r.slotNumber e.1).map (·, e.1)
  | .closed => (r.slotNumber e.1).map (·, e.1)
  | .collected => (r.slotNumber e.1).map (·, e.1)
  | _ => none

theorem Rlg.scannedIndex_eq : r.scannedIndex = (r.scannedStates r.origins r.gaps).filterMap r.entryOf := rfl

theorem Rlg.entryOf_some {e : Nat × SlotState} {y : Nat × Nat} : r.entryOf e = some y ↔
    (e.2 = .opened ∨ e.2 = .closed ∨ e.2 = .collected) ∧ r.numberRead e.1 = some y.1 ∧ y.2 = e.1 := by
  obtain ⟨slot, state⟩ := e
  obtain ⟨m, at_⟩ := y
  have numbered : (r.slotNumber slot).map (·, slot) = some (m, at_) ↔ r.numberRead slot = some m ∧ at_ = slot := by
    rw [slotNumber_eq, Option.map_eq_some_iff]
    constructor
    · rintro ⟨_, some_, eq⟩
      cases eq
      exact ⟨some_, rfl⟩
    · rintro ⟨some_, rfl⟩
      exact ⟨m, some_, rfl⟩
  cases state <;> simp [entryOf, numbered]

theorem Rlg.mem_scannedIndex : (n, slot) ∈ r.scannedIndex ↔ slot < 2048 ∧ r.numberRead slot = some n ∧
    (r.scannedState slot = .opened ∨ r.scannedState slot = .closed ∨ r.scannedState slot = .collected) := by
  rw [scannedIndex_eq, List.mem_filterMap]
  constructor
  · rintro ⟨e, mem, entry⟩
    obtain ⟨low, state, _⟩ := mem_scannedStates.mp mem
    obtain ⟨kept, number, same⟩ := entryOf_some.mp entry
    change slot = e.1 at same
    subst same
    exact ⟨low, number, state ▸ kept⟩
  · rintro ⟨low, number, kept⟩
    refine ⟨(slot, r.scannedState slot), mem_scannedStates.mpr ⟨low, rfl, ?_⟩, entryOf_some.mpr ⟨kept, number, rfl⟩⟩
    rcases kept with state | state | state <;> simp [state]

theorem Rlg.scannedIndex_rising : (r.scannedIndex.map Prod.snd).Pairwise (· < ·) := by
  rw [List.pairwise_map, scannedIndex_eq, List.pairwise_filterMap]
  refine scannedStates_rising.imp fun rising y of z of' => ?_
  rw [(entryOf_some.mp of).2.2, (entryOf_some.mp of').2.2]
  exact rising

theorem Rlg.mem_scannedOrphans : n ∈ r.scannedOrphans ↔
    ∃ slot : Fin 2048, r.scannedState slot = .opened ∧ r.numberRead slot = some n := by
  simp only [scannedOrphans, List.mem_insertionSort, List.mem_filterMap, List.mem_filter, mem_scannedStates, beq_iff_eq,
    slotNumber_eq]
  constructor
  · rintro ⟨e, ⟨⟨low, state, _⟩, opened⟩, number⟩
    exact ⟨⟨e.1, low⟩, state.symm.trans opened, number⟩
  · rintro ⟨slot, opened, number⟩
    exact ⟨(slot.val, .opened), ⟨⟨slot.isLt, opened.symm, nofun⟩, rfl⟩, number⟩

theorem Rlg.scannedOrphans_sorted : r.scannedOrphans.Pairwise (· ≤ ·) := List.pairwise_insertionSort _ _

theorem Rlg.mem_orphanPoints {j : Nat} : j ∈ r.orphanPoints ↔
    ∃ n slot, n ∈ r.orphans ∧ r.slotOf n = some slot ∧ (r.readByte (slotAddress slot + 4)).toNat = j := by
  simp only [orphanPoints, List.mem_filterMap, Option.map_eq_some_iff]
  exact ⟨fun ⟨n, mem, slot, at_, point⟩ => ⟨n, slot, mem, at_, point⟩, fun ⟨n, slot, mem, at_, point⟩ => ⟨n, mem, slot, at_, point⟩⟩

/-! ## Sectors -/

theorem Rlg.scanned_sector (k : Fin 16) : (r.scanned fs).sectors[k] = r.scannedSector k := by
  simp

/-- A sector that the erase test may have found FULL (R170, R174). -/
theorem Rlg.SameScan.sector (h : (r.scanned fs).SameScan x) (k : Fin 16) :
    x.sectors[k] = r.scannedSector k ∨ r.scannedSector k = .full ∧ x.sectors[k] = .erasing := by
  have sector := h.sectors k
  rwa [scanned_sector] at sector

theorem Rlg.scannedSector_active {f : Nat} (h : r.scannedActive = some (k, f)) : r.scannedSector k = .active := by
  simp [scannedSector, h]

/-- The ACTIVE sector with its fill position (R174, R155). -/
theorem Rlg.SameScan.active (h : (r.scanned fs).SameScan x) {f : Nat} (active : r.scannedActive = some (k, f)) :
    x.sectors[k] = .active ∧ x.lastActive = k ∧ x.fill = some f := by
  refine ⟨?_, ?_, ?_⟩
  · rcases h.sector k with same | ⟨full, _⟩
    · rw [same, scannedSector_active active]
    · rw [scannedSector_active active] at full
      cases full
  · rw [h.fill.2, scanned_lastActive, active]
    rfl
  · rw [h.fill.1, scanned_fill, active]
    rfl

end Sys2Proof.Machine
end

section
/-! SUPPORT. The end of the start-up scan (R173 to R176). -/

namespace Sys2Proof.Machine

open Sys2Proof State

variable {s t u : State} {r x : Rlg} {fs : List ScanResult} {slot last newest : Nat} {k : Fin 16}

/-! ## The ring -/

/-- What the scan makes of a run (R174, R155). -/
theorem Rlg.SameScan.runFound (h : (r.scanned fs).SameScan x) {last : Fin 16} (ends : r.EndsRun last)
    (newest_ : r.NewestIs last newest) : r.RunFound last newest x where
  gaps slot low uninterrupted used erased gap := by
    rw [h.tidied.slotState, scanned_slotState low]
    exact scannedState_gap ends newest_ low uninterrupted used erased gap
  ahead slot sector later := by
    rw [h.tidied.slotState, scanned_slotState (by omega)]
    exact scannedState_ahead ends newest_ sector later
  tail room := h.active ((scannedActive_eq ends newest_).1 room)
  next filled empty := h.active ((scannedActive_eq ends newest_).2.1 filled empty)
  full filled used := by
    have none := (scannedActive_eq ends newest_).2.2 filled used
    refine ⟨fun j active => ?_, ?_, ?_⟩
    · have found : r.scannedSector j = .active := by
        rcases h.sector j with same | ⟨_, erasing⟩
        · rw [← same, active]
        · rw [active] at erasing
          cases erasing
      rcases r.scannedSector_eq j with ⟨_, f, some_⟩ | ⟨free, _⟩ | ⟨full, _⟩
      · rw [none] at some_
        cases some_
      · rw [free] at found
        cases found
      · rw [full] at found
        cases found
    · rw [h.fill.2, scanned_lastActive, none]
      exact lastOfRun_eq ends
    · rw [h.fill.1, scanned_fill, none]
      rfl

theorem Rlg.SameScan.emptySector (h : (r.scanned fs).SameScan x) (empty : r.isEmpty k) :
    x.sectors[k] = .free ∨ x.sectors[k] = .active ∧ x.lastActive = k := by
  rcases r.scannedSector_eq k with ⟨_, f, active⟩ | ⟨free, _⟩ | ⟨_, used, _⟩
  · obtain ⟨state, last, _⟩ := h.active active
    exact .inr ⟨state, last⟩
  · rcases h.sector k with same | ⟨full, _⟩
    · exact .inl (same.trans free)
    · rw [free] at full
      cases full
  · exact absurd empty used

/-- With every sector empty sector 0 is ACTIVE (R174). -/
theorem Rlg.SameScan.allEmpty (h : (r.scanned fs).SameScan x) (empty : ∀ k, r.isEmpty k) :
    x.sectors[0] = .active ∧ x.lastActive = 0 ∧ x.fill = some 0 := by
  have active : r.scannedActive = some (0, 0) := by rw [scannedActive, if_pos (allFree_iff.mpr empty)]
  exact h.active (k := 0) active

theorem Rlg.SameScan.usedSector (h : (r.scanned fs).SameScan x) (used : ¬r.isEmpty k) :
    x.sectors[k] = .full ∨ x.sectors[k] = .erasing ∨ x.sectors[k] = .active ∧ x.lastActive = k := by
  rcases r.scannedSector_eq k with ⟨_, f, active⟩ | ⟨_, empty, _⟩ | ⟨full, _⟩
  · obtain ⟨state, last, _⟩ := h.active active
    exact .inr (.inr ⟨state, last⟩)
  · exact absurd empty used
  · rcases h.sector k with same | ⟨_, erasing⟩
    · exact .inl (same.trans full)
    · exact .inr (.inl erasing)

/-! ## Notices of other kinds -/

theorem State.raiseBoth_details {kind : NoticeKind} {j : Fin 16} (other : j ≠ kind.rank) (ns : List Nat) :
    (s.raiseBoth kind ns).noticesC.details[j] = s.noticesC.details[j] :=
  (Notices.raise_details s.noticesC kind.rank j ns).trans (if_neg other)

theorem State.eraseTest_details {j : Fin 16} (other : j ≠ 3) : s.eraseTest.noticesC.details[j] = s.noticesC.details[j] := by
  unfold eraseTest
  dsimp only
  split
  · exact raiseBoth_details (kind := .spaceLow) other []
  · rfl

theorem State.thirdFailure_details {j : Fin 16} (other : j ≠ 13) (ns : List Nat) :
    (s.thirdFailure ns).noticesC.details[j] = s.noticesC.details[j] := by
  have told := raiseBoth_details (s := s) (kind := .storeFault) other ns
  by_cases fault : s.rlg.logState = .fault
  · rw [thirdFailure_fault ns fault, told]
  · have entered : ((s.raiseBoth .storeFault ns).enterFault).noticesC = (s.raiseBoth .storeFault ns).noticesC :=
      enterFault_only .noticesC (by decide)
    rw [thirdFailure_enters ns fault, entered, told]

/-! ## The end of the scan -/

/-- The state with a log that the scan has read, READY (R173). -/
def State.readyWith (x : Rlg) (s : State) : State := s.withRlg { x with logState := .ready }

theorem State.readyWith_log : (s.readyWith x).rlg.logState = .ready := rfl

theorem State.readyWith_queue : (s.readyWith x).rlg.queue = x.queue := rfl

theorem State.readyWith_closedByFault (p : Point) : (s.readyWith x).closedByFault p = s.closedByFault p := rfl

/-- The end of the scan with the log it read: the third failure of one of its programs, and the erase test (R173, R175). -/
def State.scanEnd (x : Rlg) (fails : Bool) (s : State) : State :=
  (if fails then (s.readyWith x).thirdFailure [] else s.readyWith x).eraseTest

theorem State.scanEnd_good : s.scanEnd x false = (s.readyWith x).eraseTest := rfl

theorem State.scanEnd_fails : s.scanEnd x true = ((s.readyWith x).thirdFailure []).eraseTest := rfl

/-- The orphans told on port C (R173). -/
def State.orphansTold (s : State) : State :=
  if s.rlg.orphans.isEmpty then s else s.raise .c .orphansFound s.rlg.orphanPoints

theorem State.scan_eq (fs : List ScanResult) (s : State) :
    s.scan fs = (s.scanEnd (s.rlg.scanned fs) (s.rlg.scanFails fs)).orphansTold := rfl

theorem State.orphansTold_raised : s.orphansTold.rlg = s.rlg ∧ s.onlyChanges [.noticesC] s.orphansTold ∧
    s.NoticesKept s.orphansTold := by
  unfold orphansTold
  split
  · exact ⟨rfl, onlyChanges_refl, .refl⟩
  · exact ⟨raise_rlg _ _ _ _, raise_only .c _ _, raise_noticesKept _ _ _⟩

/-- With no third failure the log is READY (R173). -/
theorem State.scanEnd_ready : (s.scanEnd x false).rlg.logState = .ready ∧
    s.onlyChanges [.rlg, .noticesS, .noticesC] (s.scanEnd x false) ∧ (s.scanEnd x false).rlg.queue = x.queue := by
  obtain ⟨_, log, queue⟩ := eraseTest_rlg (s.readyWith x)
  rw [scanEnd_good]
  exact ⟨log.trans readyWith_log, onlyChanges_then (withRlg_only _) eraseTest_only, queue.trans readyWith_queue⟩

theorem State.scan_ready (good : s.rlg.scanFails fs = false) : (s.scan fs).rlg.logState = .ready ∧
    s.onlyChanges [.rlg, .noticesS, .noticesC] (s.scan fs) ∧ (s.scan fs).rlg.queue = s.rlg.queue := by
  obtain ⟨log, frame, queue⟩ := scanEnd_ready (s := s) (x := s.rlg.scanned fs)
  rw [Rlg.scanned_queue] at queue
  rw [scan_eq, good]
  generalize s.scanEnd (s.rlg.scanned fs) false = u at *
  obtain ⟨same, only, _⟩ := orphansTold_raised (s := u)
  rw [same]
  exact ⟨log, onlyChanges_then frame only, queue⟩

/-- A third failure of one of the scan's programs (R164, R175). -/
theorem State.scanEnd_fault (starting : s.rlg.logState = .starting) : s.FaultTaken [] none (s.scanEnd x true) := by
  obtain ⟨⟨state, told, collects, sessions, frame⟩, _⟩ := thirdFailure_taken (s := s.readyWith x) []
  have ready : (s.readyWith x).rlg.logState ≠ .fault := by
    rw [readyWith_log]
    nofun
  have fault : s.FaultTaken [] none ((s.readyWith x).thirdFailure []) := by
    refine ⟨state, told, fun _ => collects ready, fun q _ => ?_, onlyChanges_then (withRlg_only _) frame⟩
    rw [sessions q nofun, if_neg ready, if_neg (by rw [starting]; nofun), readyWith_closedByFault]
  obtain ⟨_, log, queue⟩ := eraseTest_rlg ((s.readyWith x).thirdFailure [])
  rw [scanEnd_fails]
  exact fault.until eraseTest_only log queue eraseTest_noticesKept

theorem State.scan_fails (starting : s.rlg.logState = .starting) (fails : s.rlg.scanFails fs = true) :
    s.FaultTaken [] none (s.scan fs) := by
  have fault := scanEnd_fault (x := s.rlg.scanned fs) starting
  rw [scan_eq, fails]
  generalize s.scanEnd (s.rlg.scanned fs) true = u at *
  obtain ⟨same, only, kept⟩ := orphansTold_raised (s := u)
  exact fault.until (onlyChanges_mono only) (by rw [same]) (by rw [same]) kept

/-- Before ORPHANS_FOUND is raised its detail set is as it was. -/
theorem State.scanEnd_details (fails : Bool) :
    (s.scanEnd x fails).noticesC.details[(4 : Fin 16)] = s.noticesC.details[(4 : Fin 16)] := by
  cases fails
  · exact eraseTest_details (s := s.readyWith x) (by decide)
  · rw [scanEnd_fails, eraseTest_details (by decide)]
    exact thirdFailure_details (s := s.readyWith x) (by decide) []

theorem State.orphansTold_tells :
    (s.orphansTold.rlg.orphans ≠ [] → s.orphansTold.noticesC.pending.getLsbD 4 = true) ∧
    ∀ j, j < 32 → (s.orphansTold.noticesC.details[(4 : Fin 16)].getLsbD j = true ↔
      s.noticesC.details[(4 : Fin 16)].getLsbD j = true ∨ j ∈ s.orphansTold.rlg.orphanPoints) := by
  rw [orphansTold_raised.1, orphansTold]
  split
  · next empty =>
    have none : s.rlg.orphans = [] := List.isEmpty_iff.mp empty
    refine ⟨fun some_ => absurd none some_, fun j _ => ?_⟩
    simp [Rlg.orphanPoints, none]
  · refine ⟨fun _ => (Notices.raise_tells s.noticesC 4 _).1, fun j low => ?_⟩
    change (s.noticesC.raise 4 _).details[(4 : Fin 16)].getLsbD j = true ↔ _
    rw [Notices.raise_details, if_pos rfl, BitVec.getLsbD_or, Bool.or_eq_true, getLsbD_numberMask _ low]

/-- The points of the orphans join the detail set of ORPHANS_FOUND (R173, R191). -/
theorem State.scan_orphans (fs : List ScanResult) (s : State) :
    ((s.scan fs).rlg.orphans ≠ [] → (s.scan fs).noticesC.pending.getLsbD 4 = true) ∧
    ∀ j, j < 32 → ((s.scan fs).noticesC.details[(4 : Fin 16)].getLsbD j = true ↔
      s.noticesC.details[(4 : Fin 16)].getLsbD j = true ∨ j ∈ (s.scan fs).rlg.orphanPoints) := by
  rw [scan_eq, ← scanEnd_details (s := s) (x := s.rlg.scanned fs) (s.rlg.scanFails fs)]
  exact orphansTold_tells

end Sys2Proof.Machine
end

section
/-! SUPPORT. The statement about the start-up scan. -/

open Sys2Proof Sys2Proof.Machine Sys2Proof.Machine.State

/-- Settles O45: the scan's end keeps what the scan derived, the erase test aside. -/
theorem theScanRebuildsTheLog : Obligations.TheScanRebuildsTheLog := by
  intro fs s
  refine ⟨fun past => congrArg Host.Outcome.next (if_neg past), fun starting => ?_⟩
  intro r
  have scan := scan_rlg fs s
  have tidied := scan.tidied
  obtain ⟨pending, details⟩ := scan_orphans fs s
  have states {slot : Nat} (low : slot < 2048) : (s.scan fs).rlg.slotState slot = r.scannedState slot :=
    (tidied.slotState slot).trans (Rlg.scanned_slotState low)
  have words (w : Nat) : (s.scan fs).rlg.rawWord w = (r.scanned fs).rawWord w := Rlg.rawWord_congr fun a _ => tidied.rawByte a
  have index : (s.scan fs).rlg.index = r.scannedIndex := scan.index.trans (Rlg.scanned_index fs r)
  have orphans : (s.scan fs).rlg.orphans = r.scannedOrphans := scan.orphans.trans (Rlg.scanned_orphans fs r)
  have next : (s.scan fs).rlg.nextNumber = r.scannedNext := scan.next.trans (Rlg.scanned_nextNumber fs r)
  refine ⟨s.scan fs, congrArg Host.Outcome.next (if_pos starting), scan_ready, scan_fails starting, fun k => Rlg.interrupted_iff,
    fun slot low within => ?_, fun slot low outside => ?_, fun slot low empty => ?_, fun last newest => scan.runFound,
    fun empty => scan.allEmpty empty, fun k => scan.emptySector, fun k => scan.usedSector, fun h takes greatest small => ?_,
    fun n slot => ?_, ?_, fun n => ?_, ?_, pending, fun j low => ?_, fun a low notGap notAside => ?_, fun a high => ?_,
    fun k none => ?_, fun good => ⟨fun k empty erased => ?_, fun new origin aside => ?_, fun slot low outside bad erased => ?_⟩⟩
  · rw [states low]
    exact Rlg.scannedState_interrupted within
  · rw [states low]
    exact Rlg.scannedState_classified outside
  · rw [states low]
    exact Rlg.scannedState_empty low empty
  · rw [next]
    exact Rlg.scannedNext_eq takes greatest small
  · rw [index, Rlg.mem_scannedIndex]
    refine and_congr_right fun low => ?_
    rw [states low]
  · rw [index]
    exact Rlg.scannedIndex_rising
  · rw [orphans, Rlg.mem_scannedOrphans]
    exact exists_congr fun slot => by rw [states slot.isLt]
  · rw [orphans]
    exact Rlg.scannedOrphans_sorted
  · rw [details j low, Rlg.mem_orphanPoints]
  · exact (tidied.readByte a).trans (Rlg.scanned_untouched (Rlg.notTarget (.inl ⟨low, notGap, notAside⟩))).2
  · exact (tidied.readByte a).trans (Rlg.scanned_untouched (Rlg.notTarget (.inr high))).2
  · rw [words]
    exact Rlg.scanned_header none
  · rw [words, next]
    exact Rlg.scanned_headerProgrammed good empty erased
  · rw [tidied.rawByte]
    exact Rlg.scanned_aside good aside
  · rw [states low] at bad
    rw [tidied.rawByte]
    exact Rlg.scanned_gapMarked good (Rlg.gap_of_bad outside erased bad)

end

section
/-! SUPPORT. The erase test and its events: what makes the log tested, what keeps it so, and what is no event (R170, R171; log
entries 10, 24, 25, 27 and 42). -/

namespace Sys2Proof.Machine

open Sys2Proof State

variable {s t u m : State} {r x y : Rlg} {slot : Nat} {k : Fin 16} {ns : List Nat} {q : ProgramRequest}

/-! ## The erase test -/

/-- A slot does not keep its sector from being erased (R170). -/
theorem Rlg.slotErasable_iff : r.slotErasable slot = true ↔ r.slotIsDone slot := by
  have window (n : Nat) : r.retained n = true ↔ r.nextNumber ≤ n + r.rRet ∧ n < r.nextNumber := by
    rw [retained, Bool.and_eq_true, decide_eq_true_eq, decide_eq_true_eq]
  have outside : ((r.numberOf slot).all fun n => !r.retained n) = true ↔
      ∀ n, r.numberOf slot = some n → ¬(r.nextNumber ≤ n + r.rRet ∧ n < r.nextNumber) := by
    cases r.numberOf slot <;> simp [← window]
  unfold slotErasable slotIsDone
  cases state : r.slotState slot <;> simp [outside]

/-- The erase that is due (R170). -/
theorem Rlg.eraseDue_iff : r.eraseDue = some k ↔ r.isDue k := by
  have eligible (j : Fin 16) : r.eligible j = true ↔ ∀ i, i < 128 → r.slotIsDone (128 * j.val + i) := by
    simp only [Rlg.eligible, List.all_eq_true, List.mem_range, slotErasable_iff]
  unfold eraseDue isDue
  by_cases can : r.logState = .ready ∧ r.erase = none ∧ r.erasedCount < 256
  · rw [if_pos can]
    obtain ⟨ready, idle, few⟩ := can
    cases oldest : r.oldestFull with
    | none => simp
    | some j =>
      by_cases all : r.eligible j = true
      · simp only [all, if_true, Option.some.injEq]
        exact ⟨fun same => same ▸ ⟨ready, idle, few, rfl, (eligible j).mp all⟩, fun due => due.2.2.2.1⟩
      · simp only [all, Bool.false_eq_true, if_false]
        refine ⟨nofun, fun ⟨_, _, _, same, due⟩ => absurd ((eligible j).mpr ?_) all⟩
        cases same
        exact due
  · rw [if_neg can]
    exact ⟨nofun, fun ⟨ready, idle, few, _⟩ => absurd ⟨ready, idle, few⟩ can⟩

theorem Rlg.eraseDue_none : r.eraseDue = none ↔ ∀ k, ¬r.isDue k := by
  rw [Option.eq_none_iff_forall_ne_some]
  exact forall_congr' fun k => not_congr eraseDue_iff

/-- Space is low at a test (R170; log entry 42). -/
theorem Rlg.spaceIsLow_iff : r.spaceIsLow = true ↔
    r.erasedCount < 256 ∧ (r.erase = none ∨ r.logState = .fault) ∧ ∀ k, ¬r.isDue k := by
  have stopped : (!r.eraseInProgress) = true ↔ r.erase = none ∨ r.logState = .fault := by
    unfold eraseInProgress
    cases r.erase <;> simp
  rw [spaceIsLow, Bool.and_eq_true, Bool.and_eq_true, decide_eq_true_eq, stopped, Option.isNone_iff_eq_none, eraseDue_none,
    and_assoc]

/-- What the erase test looks at is the same in both logs, and an empty queue of the second is one of the first. -/
structure Rlg.SameTest (r x : Rlg) : Prop where
  count : x.erasedCount = r.erasedCount
  erase : x.erase = none ↔ r.erase = none
  log : x.logState = r.logState
  oldest : x.oldestFull = r.oldestFull
  done : ∀ slot, x.slotIsDone slot ↔ r.slotIsDone slot
  low : x.spaceLow = r.spaceLow
  queue : x.queue = [] → r.queue = []

theorem Rlg.SameTest.isDue (h : r.SameTest x) (k : Fin 16) : x.isDue k ↔ r.isDue k := by
  simp only [Rlg.isDue, h.count, h.erase, h.log, h.oldest, h.done]

theorem Rlg.Tested.until (h : r.Tested) (same : r.SameTest x) : x.Tested where
  mark := by
    simp only [same.isDue, same.low, same.count, same.erase, same.log]
    exact h.mark
  started empty k due := h.started (same.queue empty) k ((same.isDue k).mp due)

/-- After the erase test the log is tested (R170). -/
theorem Rlg.tested_tested : r.tested.Tested := by
  unfold tested
  split
  · next k due queue =>
    obtain ⟨ready, _⟩ := eraseDue_iff.mp due
    have runs : (r.startErase k).erase ≠ none := nofun
    have low : r.spaceIsLow = false := Bool.eq_false_iff.mpr fun low =>
      (spaceIsLow_iff.mp low).2.2 k (eraseDue_iff.mp due)
    refine ⟨?_, fun _ j due => runs due.2.1⟩
    change r.spaceIsLow = true ↔ _ ∧ ((r.startErase k).erase = none ∨ r.logState = .fault) ∧ _
    rw [low, ready]
    exact ⟨nofun, fun both => both.2.1.elim (fun none => absurd none runs) nofun⟩
  · next rest =>
    refine ⟨spaceIsLow_iff, fun empty j due => ?_⟩
    exact rest j (eraseDue_iff.mpr due) empty

theorem State.eraseTest_isTested : s.eraseTest.rlg.Tested := by
  rw [eraseTest_tested]
  exact Rlg.tested_tested

/-- While an erase stands no other is due: the test moves the space-low mark only (R170). -/
theorem Rlg.tested_erase (h : r.erase ≠ none) : r.tested = { r with spaceLow := r.spaceIsLow } := by
  have none : r.eraseDue = none := eraseDue_none.mpr fun k due => h due.2.1
  rw [tested, none]

/-! ## SPACE_LOW -/

/-- Where the space-low mark goes from clear to set SPACE_LOW stands on both ports; no notice is taken away (R170). -/
structure State.LowTold (s t : State) : Prop where
  kept : s.NoticesKept t
  told : s.rlg.spaceLow = false → t.rlg.spaceLow = true →
    t.noticesS.pending.getLsbD 3 = true ∧ t.noticesC.pending.getLsbD 3 = true

theorem State.LowTold.of_same (kept : s.NoticesKept t) (same : t.rlg.spaceLow = s.rlg.spaceLow) : s.LowTold t :=
  ⟨kept, fun clear set => absurd (same.symm.trans set) (by rw [clear]; nofun)⟩

theorem State.LowTold.refl : s.LowTold s := .of_same .refl rfl

theorem State.LowTold.trans (h : s.LowTold t) (k : t.LowTold u) : s.LowTold u := by
  refine ⟨h.kept.trans k.kept, fun clear set => ?_⟩
  by_cases before : t.rlg.spaceLow = true
  · obtain ⟨site, charge⟩ := h.told clear before
    exact ⟨k.kept.site.pending 3 site, k.kept.charge.pending 3 charge⟩
  · exact k.told (Bool.eq_false_iff.mpr before) set

theorem State.eraseTest_lowTold : s.LowTold s.eraseTest := by
  refine ⟨eraseTest_noticesKept, fun clear set => ?_⟩
  have low : s.rlg.spaceIsLow = true := by
    rw [eraseTest_tested] at set
    exact set
  simp only [eraseTest, low, clear, Bool.not_false, Bool.and_true, if_true]
  exact ⟨(Notices.raise_tells _ _ _).1, (Notices.raise_tells _ _ _).1⟩

/-- A new log with the old space-low mark. -/
theorem State.withRlg_lowTold (same : x.spaceLow = s.rlg.spaceLow) : s.LowTold (s.withRlg x) :=
  .of_same (.of_only (withRlg_only x)) same

theorem State.LowTold.of_rlg (kept : s.NoticesKept t) (same : t.rlg = s.rlg) : s.LowTold t :=
  .of_same kept (by rw [same])

/-! ## Steps that are no event -/

/-- No event of R170's list lies between the two logs, and the queue does not become empty. -/
structure Rlg.Uneventful (r x : Rlg) : Prop where
  fill : x.fill = r.fill
  slots : ∀ slot, x.slotState slot ≠ r.slotState slot →
    ¬(x.slotState slot = .collected ∨ x.slotState slot = .bad ∨ x.slotState slot = .superseded)
  erase : r.erase ≠ none → x.erase ≠ none
  queue : r.queue ≠ [] → x.queue ≠ []
  log : x.logState = r.logState
  low : x.spaceLow = r.spaceLow

theorem Rlg.Uneventful.noEvent (h : r.Uneventful x) : ¬r.testEvent x := by
  rintro (fill | ⟨slot, moved, kind⟩ | ⟨some_, none⟩ | ⟨queued, empty⟩ | ⟨starting, past⟩)
  · exact fill h.fill
  · exact h.slots slot moved kind
  · exact h.erase some_ none
  · exact h.queue queued empty
  · exact past (h.log.trans starting)

theorem Rlg.Uneventful.refl : r.Uneventful r := ⟨rfl, fun _ moved => absurd rfl moved, id, id, rfl, rfl⟩

/-- With the slot states as they are the second log's events are none. -/
theorem Rlg.Uneventful.of_same (fill : x.fill = r.fill) (slots : x.slotStates = r.slotStates)
    (erase : r.erase ≠ none → x.erase ≠ none) (queue : r.queue ≠ [] → x.queue ≠ []) (log : x.logState = r.logState)
    (low : x.spaceLow = r.spaceLow) : r.Uneventful x :=
  ⟨fill, fun slot moved => absurd (by rw [slotState, slots, slotState]) moved, erase, queue, log, low⟩

/-- What the erase and program events of R159 and R170 ask of every command but DEVICE_RESET and STARTUP_SCAN. -/
structure State.EraseRuled (s t : State) : Prop where
  tested : t.rlg.logState = s.rlg.logState → s.rlg.testEvent t.rlg → t.rlg.Tested
  low : s.rlg.spaceLow = false → t.rlg.spaceLow = true →
    t.noticesS.pending.getLsbD 3 = true ∧ t.noticesC.pending.getLsbD 3 = true
  resumed : ∀ e, s.rlg.queue ≠ [] → t.rlg.queue = [] → t.rlg.logState ≠ .fault → s.rlg.erase = some e →
    s.rlg.sectors[e.sector] = .eraseSuspended → (s.rlg.fill ≠ none → s.rlg.lastActive ≠ e.sector) →
      t.rlg.sectors[e.sector] = .erasing ∧ t.rlg.erase = some { e with sinceResume := 0 }

theorem Rlg.Uneventful.ruled (h : s.rlg.Uneventful t.rlg) : s.EraseRuled t where
  tested _ event := absurd event h.noEvent
  low clear set := absurd (h.low.symm.trans set) (by rw [clear]; nofun)
  resumed _ queued empty := absurd empty (h.queue queued)

theorem State.EraseRuled.refl : s.EraseRuled s := Rlg.Uneventful.refl.ruled

/-- A log that is tested in the end, its queue not emptied. -/
theorem State.EraseRuled.of_tested (tested : t.rlg.Tested) (low : s.LowTold t)
    (queue : s.rlg.queue ≠ [] → t.rlg.queue ≠ [] ∨ t.rlg.logState = .fault) : s.EraseRuled t where
  tested _ _ := tested
  low := low.told
  resumed _ queued empty away := absurd empty ((queue queued).resolve_right away)

/-! ## The work of a program before its request ends -/

/-- Between the two states a program of the head request did its work: the queue stands and with it every suspended erase,
and the ring keeps clear of its sector (R159, R171). -/
structure State.Worked (s t : State) : Prop where
  low : s.LowTold t
  erase : t.rlg.erase = s.rlg.erase
  queue : t.rlg.queue = s.rlg.queue
  log : t.rlg.logState = s.rlg.logState
  ring : ∀ k : Fin 16, s.rlg.sectors[k] = .eraseSuspended → (s.rlg.fill ≠ none → s.rlg.lastActive ≠ k) →
    t.rlg.sectors[k] = .eraseSuspended ∧ (t.rlg.fill ≠ none → t.rlg.lastActive ≠ k)

theorem State.Worked.trans (h : s.Worked t) (k : t.Worked u) : s.Worked u where
  low := h.low.trans k.low
  erase := k.erase.trans h.erase
  queue := k.queue.trans h.queue
  log := k.log.trans h.log
  ring j suspended clear := by
    obtain ⟨suspended', clear'⟩ := h.ring j suspended clear
    exact k.ring j suspended' clear'

/-- A log in which queue, erase and ring stand. -/
theorem State.withRlg_worked (low : x.spaceLow = s.rlg.spaceLow) (erase : x.erase = s.rlg.erase)
    (queue : x.queue = s.rlg.queue) (log : x.logState = s.rlg.logState) (fill : x.fill = s.rlg.fill ∧ x.lastActive = s.rlg.lastActive)
    (sectors : x.sectors = s.rlg.sectors) : s.Worked (s.withRlg x) := by
  refine ⟨withRlg_lowTold low, erase, queue, log, fun k suspended clear => ?_⟩
  rw [withRlg_rlg, sectors, fill.1, fill.2]
  exact ⟨suspended, clear⟩

theorem State.Worked.of_rlg (kept : s.NoticesKept t) (same : t.rlg = s.rlg) : s.Worked t := by
  refine ⟨.of_rlg kept same, ?_, ?_, ?_, fun k suspended clear => ?_⟩
  all_goals rw [same]
  exact ⟨suspended, clear⟩

theorem Rlg.ArrayOnly.worked (h : s.rlg.ArrayOnly x) : s.Worked (s.withRlg x) := by
  refine withRlg_worked ?_ ?_ h.queue h.logState h.fill h.sectors
  · rw [h]
  · rw [h]

/-- With a request in the queue the erase test starts no erase (R170). -/
theorem State.eraseTest_worked (queued : s.rlg.queue ≠ []) : s.Worked s.eraseTest := by
  have rlg : s.eraseTest.rlg = { s.rlg with spaceLow := s.rlg.spaceIsLow } := by
    rw [eraseTest_tested, Rlg.tested_queued queued]
  refine ⟨eraseTest_lowTold, ?_, ?_, ?_, fun k suspended clear => ?_⟩
  all_goals rw [rlg]
  exact ⟨suspended, clear⟩

/-- A reservation keeps clear of a sector whose erase is suspended (R155, R171). -/
theorem Rlg.reserve_worked (h : s.rlg.reserve = some (slot, x)) : s.Worked (s.withRlg x) := by
  unfold Rlg.reserve at h
  cases fill : s.rlg.fill with
  | none => simp [fill] at h
  | some f =>
    simp only [fill] at h
    split at h
    · cases h
      unfold activateSuccessor
      split
      · next free =>
        obtain ⟨_, free⟩ := free
        refine ⟨withRlg_lowTold rfl, rfl, rfl, rfl, fun k suspended clear => ?_⟩
        have notLast : k ≠ s.rlg.lastActive := (clear (by simp [fill])).symm
        have before (j : Fin 16) : (s.rlg.sectors.set s.rlg.lastActive .full)[j] =
            if j = s.rlg.lastActive then .full else s.rlg.sectors[j] := sectors_set _ _ _ _
        have notNext : k ≠ nextSector s.rlg.lastActive := by
          rintro rfl
          have free' : (s.rlg.sectors.set s.rlg.lastActive .full)[nextSector s.rlg.lastActive] = .free := free
          rw [before, if_neg notLast, suspended] at free'
          cases free'
        refine ⟨?_, fun _ => notNext.symm⟩
        refine (sectors_set (s.rlg.sectors.set s.rlg.lastActive .full) (nextSector s.rlg.lastActive) k .active).trans ?_
        rw [if_neg notNext, before, if_neg notLast, suspended]
      · refine ⟨withRlg_lowTold rfl, rfl, rfl, rfl, fun k suspended clear => ⟨?_, fun some_ => absurd rfl some_⟩⟩
        have notLast : k ≠ s.rlg.lastActive := (clear (by simp [fill])).symm
        refine (sectors_set s.rlg.sectors s.rlg.lastActive k .full).trans ?_
        rw [if_neg notLast, suspended]
    · cases h
      exact ⟨withRlg_lowTold rfl, rfl, rfl, rfl, fun k suspended clear => ⟨suspended, fun _ => clear (by simp [fill])⟩⟩

/-- A slot taken for an attempt, its erase test made (R158, R170). -/
theorem State.reserveAgain_worked (queued : s.rlg.queue ≠ []) (h : s.reserveWith s.rlg.reserveAgain = some (slot, u)) :
    s.Worked u ∧ u.rlg.Tested := by
  unfold reserveWith Rlg.reserveAgain at h
  split at h
  · cases h
  · cases reserved : s.rlg.reserve with
    | none => rw [reserved] at h; cases h
    | some z =>
      obtain ⟨at_, y⟩ := z
      rw [reserved] at h
      cases h
      have worked := Rlg.reserve_worked reserved
      exact ⟨worked.trans (eraseTest_worked (worked.queue.trans_ne queued)), eraseTest_isTested⟩

/-- The bad mark with its erase test (R160, R162). -/
theorem State.markBad_worked (queued : s.rlg.queue ≠ []) (slot : Nat) (ms : List MarkResult) :
    s.Worked (s.markBad slot ms) ∧ (s.markBad slot ms).rlg.Tested := by
  have marked : s.Worked (s.withRlg ((s.rlg.programMark slot .bad ms).1.withSlotState slot .bad)) :=
    withRlg_worked rfl rfl rfl rfl ⟨rfl, rfl⟩ rfl
  exact ⟨marked.trans (eraseTest_worked (marked.queue.trans_ne queued)), eraseTest_isTested⟩

/-! ## The request's end -/

/-- The work was no event, or left the log tested. -/
structure State.WorkTested (s m : State) : Prop where
  worked : s.Worked m
  tested : m.rlg.Tested ∨ s.rlg.Uneventful m.rlg

/-- The head request off the queue: no event while others wait (R159, R170). -/
theorem State.WorkTested.withoutHead (h : s.WorkTested m) (more : m.rlg.queue.tail ≠ []) {x : Rlg}
    (left : x = m.withoutHead.rlg) : x.Tested ∨ s.rlg.Uneventful x := by
  subst left
  refine h.tested.imp (fun tested => tested.until ⟨rfl, Iff.rfl, rfl, rfl, fun _ => Iff.rfl, rfl, fun empty => absurd empty more⟩)
    fun quiet => ⟨quiet.fill, quiet.slots, quiet.erase, fun _ => more, quiet.log, quiet.low⟩

/-- What an empty queue brings leaves the log tested (R170). -/
theorem State.whenEmpty_tested (empty : s.rlg.queue = []) : s.whenEmpty.rlg.Tested := by
  unfold whenEmpty
  rw [empty]
  exact eraseTest_isTested

theorem State.whenEmpty_waits (more : s.rlg.queue ≠ []) : s.whenEmpty = s := by
  unfold whenEmpty
  split
  · next empty => exact absurd empty more
  · rfl

theorem State.resumeErase_lowTold : s.LowTold (s.withRlg s.rlg.resumeErase) := by
  refine withRlg_lowTold ?_
  unfold Rlg.resumeErase
  split
  · split <;> rfl
  · rfl

theorem State.whenEmpty_lowTold : s.LowTold s.whenEmpty := by
  unfold whenEmpty
  split
  · exact resumeErase_lowTold.trans eraseTest_lowTold
  · exact .refl

/-- An erase suspended resumes when the queue becomes empty (R171). -/
theorem State.whenEmpty_resumes {e : Erase} (empty : s.rlg.queue = []) (erase : s.rlg.erase = some e)
    (suspended : s.rlg.sectors[e.sector] = .eraseSuspended) (running : s.rlg.logState ≠ .fault) :
    s.whenEmpty.rlg.sectors[e.sector] = .erasing ∧ s.whenEmpty.rlg.erase = some { e with sinceResume := 0 } := by
  have resumed : s.rlg.resumeErase =
      { s.rlg with sectors := s.rlg.sectors.set e.sector .erasing, erase := some { e with sinceResume := 0 } } := by
    simp only [Rlg.resumeErase, erase, suspended, running, ne_eq, not_false_eq_true, and_self, if_true]
  unfold whenEmpty
  rw [empty]
  dsimp only
  rw [eraseTest_tested, withRlg_rlg, resumed, Rlg.tested_erase (Option.some_ne_none _)]
  exact ⟨(sectors_set _ _ _ _).trans (if_pos rfl), rfl⟩

theorem State.withoutHead_lowTold : s.LowTold s.withoutHead := withRlg_lowTold rfl

/-- The request ends well (R159, R170, R171). -/
theorem State.WorkTested.ended (h : s.WorkTested m) : s.EraseRuled m.endRequest := by
  rw [endRequest_eq]
  have low : s.LowTold m.withoutHead := h.worked.low.trans withoutHead_lowTold
  by_cases last : m.withoutHead.rlg.queue = []
  · refine ⟨fun _ _ => whenEmpty_tested last, (low.trans whenEmpty_lowTold).told,
      fun e _ _ running erase suspended clear => ?_⟩
    rw [whenEmpty_tidied.2.1] at running
    obtain ⟨stays, _⟩ := h.worked.ring e.sector suspended clear
    exact whenEmpty_resumes last (h.worked.erase.trans erase) stays running
  · rw [whenEmpty_waits last]
    rcases h.withoutHead last rfl with tested | quiet
    · exact .of_tested tested low fun _ => .inl last
    · exact quiet.ruled

theorem State.thirdFailure_lowTold (ns : List Nat) : s.LowTold (s.thirdFailure ns) := by
  refine .of_same (thirdFailure_noticesKept ns) ?_
  by_cases fault : s.rlg.logState = .fault
  · rw [thirdFailure_fault ns fault, raiseBoth_rlg]
  · rw [thirdFailure_enters ns fault, enterFault_rlg, raiseBoth_rlg]

/-- The request ends with a third failure (R164, R165). -/
theorem State.WorkTested.failed (h : s.WorkTested m) (ns : List Nat) : s.EraseRuled (m.failHead ns) := by
  rw [failHead_eq]
  obtain ⟨taken, _⟩ := thirdFailure_taken (s := m.withoutHead) ns
  have low : s.LowTold (m.withoutHead.thirdFailure ns).whenEmpty :=
    ((h.worked.low.trans withoutHead_lowTold).trans (thirdFailure_lowTold ns)).trans whenEmpty_lowTold
  have fault : (m.withoutHead.thirdFailure ns).whenEmpty.rlg.logState = .fault := whenEmpty_tidied.2.1.trans taken.state
  refine ⟨fun same event => ?_, low.told, fun _ _ _ running => absurd fault running⟩
  by_cases last : (m.withoutHead.thirdFailure ns).rlg.queue = []
  · exact whenEmpty_tested last
  · have already : m.withoutHead.rlg.logState = .fault := h.worked.log.trans (same.symm.trans fault)
    have rlg : (m.withoutHead.thirdFailure ns).rlg = m.withoutHead.rlg := by
      rw [thirdFailure_fault ns already, raiseBoth_rlg]
    have more : m.withoutHead.rlg.queue ≠ [] := by rwa [← rlg]
    rw [whenEmpty_waits last, rlg] at event ⊢
    exact (h.withoutHead more rfl).resolve_right fun quiet => quiet.noEvent event

/-- The request is tried again (R158, R160 to R163). -/
theorem State.WorkTested.retried (h : s.WorkTested m) (q : ProgramRequest) : s.EraseRuled (m.retryHead q) := by
  rcases h.tested with tested | quiet
  · have same : m.rlg.SameTest (m.retryHead q).rlg :=
      ⟨rfl, Iff.rfl, rfl, rfl, fun _ => Iff.rfl, rfl, nofun⟩
    exact .of_tested (tested.until same) (h.worked.low.trans (withRlg_lowTold rfl)) fun _ => .inl nofun
  · exact Rlg.Uneventful.ruled ⟨quiet.fill, quiet.slots, quiet.erase, fun _ => nofun, quiet.log, quiet.low⟩

end Sys2Proof.Machine
end

section
/-! SUPPORT. The commands between two erase tests: those that are no event, and those that work on the head request (R155 to
R165, R169 to R177). -/

namespace Sys2Proof.Machine

open Sys2Proof State

variable {s t u m : State} {r x y : Rlg} {p : Point} {o : ProgramOutcome} {q : ProgramRequest}

/-! ## Commands that are no event -/

theorem Rlg.Uneventful.trans (h : r.Uneventful x) (k : x.Uneventful y) : r.Uneventful y where
  fill := k.fill.trans h.fill
  slots slot moved := by
    by_cases last : y.slotState slot = x.slotState slot
    · rw [last] at moved ⊢
      exact h.slots slot moved
    · exact k.slots slot last
  erase some_ := k.erase (h.erase some_)
  queue some_ := k.queue (h.queue some_)
  log := k.log.trans h.log
  low := k.low.trans h.low

/-- Between the two states the log saw no event. -/
def State.Calm (s t : State) : Prop := s.rlg.Uneventful t.rlg

theorem State.Calm.refl : s.Calm s := Rlg.Uneventful.refl

theorem State.Calm.trans (h : s.Calm t) (k : t.Calm u) : s.Calm u := Rlg.Uneventful.trans h k

theorem State.Calm.of_only {fs : List Field} (h : s.onlyChanges fs t) (away : .rlg ∉ fs := by decide) : s.Calm t := by
  have same : t.rlg = s.rlg := h .rlg away
  rw [Calm, same]
  exact .refl

theorem State.Calm.then_only {fs : List Field} (h : s.Calm t) (k : t.onlyChanges fs u) (away : .rlg ∉ fs := by decide) :
    s.Calm u := h.trans (.of_only k away)

theorem State.Calm.ite {b : Prop} [Decidable b] (h : s.Calm t) (k : s.Calm u) : s.Calm (if b then t else u) := by
  split
  · exact h
  · exact k

theorem Rlg.CountsOnly.calm (h : s.rlg.CountsOnly x) : s.Calm (s.withRlg x) := by
  rw [h]
  exact .of_same rfl rfl id id rfl rfl

/-- A request that joins is no event (R159, R170). -/
theorem State.enqueue_calm (q : ProgramRequest) : s.Calm (s.enqueue q) := by
  have joined : (s.rlg.afterJoin q).queue ≠ [] := by
    change s.rlg.queue ++ [q] ≠ []
    simp
  rw [Calm, enqueue_rlg]
  refine .of_same rfl rfl (fun some_ => ?_) (fun _ => joined) rfl rfl
  change s.rlg.erase.map _ ≠ none
  rwa [ne_eq, Option.map_eq_none_iff]

theorem State.endFinalWait_calm (p : Point) : s.Calm (s.endFinalWait p) :=
  (Calm.of_only (withSession_only p _)).trans (enqueue_calm _)

theorem State.finalWaitTick_calm (p : Point) : s.Calm (s.finalWaitTick p) := by
  unfold finalWaitTick
  dsimp only
  split
  · exact .ite (.of_only (withSession_only p _)) ((Calm.of_only (withSession_only p _)).trans (endFinalWait_calm p))
  · exact .refl

theorem State.finalWaitTicks_calm : s.Calm s.finalWaitTicks := by
  have all (ps : List Point) : ∀ v : State, v.Calm (ps.foldl finalWaitTick v) := by
    induction ps with
    | nil => exact fun _ => .refl
    | cons p ps ih => exact fun v => (finalWaitTick_calm p).trans (ih _)
  exact all _ s

theorem State.closePeriod_calm (x : Reading) : s.Calm (s.closePeriod x) := by
  have judged : s.Calm (((s.withCmu (s.cmu.close s.site.tBal x (s.lsu.judge x))).applyJudgement (s.lsu.judge x)).send
      (.newReading x)) :=
    ((Calm.of_only (withCmu_only _)).then_only (applyJudgement_only _)).then_only (send_only _)
  exact ((judged.then_only (withLsu_only _)).trans finalWaitTicks_calm).then_only (withFlc_only _)

theorem execPeriodClose_calm {x : Stretch} (h : execPeriodClose x s = .next t) : s.Calm t := by
  obtain rfl := Host.Outcome.next.inj h
  exact (Calm.of_only (withCmu_only _)).trans (closePeriod_calm _)

theorem execFinalWaitExpiry_calm (h : execFinalWaitExpiry p s = .next t) : s.Calm t := by
  obtain rfl := Host.Outcome.next.inj h
  exact .ite ((Calm.of_only (withSession_only p _)).trans (endFinalWait_calm p)) .refl

theorem State.sessionReport_calm (p : Point) (e : Byte) (z : Word32) (n : Nat) (b : Bool) : s.Calm (s.sessionReport p e z n b) := by
  have final (v : State) : v.Calm (v.finalTest p e) := .ite (endFinalWait_calm p) .refl
  exact (((Calm.of_only (accountReport_only p z)).trans (final _)).then_only (plugTest_only p b)).then_only
    (requestTest_only p n)

theorem execSessionReport_calm (h : execSessionReport p s = .next t) : s.Calm t := by
  obtain rfl := Host.Outcome.next.inj h
  split
  · have taken (z : Request) : s.Calm (s.takeRequest z) := .of_only (takeRequest_only z)
    dsimp only
    split
    · exact .ite (taken _) ((taken _).trans (sessionReport_calm _ _ _ _ _))
    · exact taken _
    · exact taken _
  · exact .refl

theorem execProgramStart_calm (h : execProgramStart s = .next t) : s.Calm t := by
  obtain rfl := Host.Outcome.next.inj h
  exact .ite .refl (.of_same rfl rfl id id rfl rfl)

theorem execEraseSuspend_calm (h : execEraseSuspend s = .next t) : s.Calm t := by
  obtain rfl := Host.Outcome.next.inj h
  split
  · exact .ite (.of_same rfl rfl id id rfl rfl) .refl
  · exact .refl

theorem State.turnDown_calm (port : Port) (a : Status) (b : Reason) : s.Calm (s.turnDown port a b) :=
  .of_only (turnDown_only _ _ _)

theorem State.giveReceipt_calm (port : Port) (n slot : Nat) : s.Calm (s.giveReceipt port n slot) :=
  (Rlg.countWords_countsOnly _ _).calm.then_only (ok_only _ _ _)

theorem execReadReceipt_calm {port : Port} {n : Word32} (h : execReadReceipt port n s = .next t) : s.Calm t := by
  obtain rfl := Host.Outcome.next.inj h
  refine .ite (turnDown_calm _ _ _) ?_
  split
  · exact turnDown_calm _ _ _
  · exact .ite (turnDown_calm _ _ _) (giveReceipt_calm _ _ _)

theorem readNextReceiptOp_calm : s.Calm (readNextReceiptOp s) := by
  refine .ite (turnDown_calm _ _ _) ?_
  split
  · exact turnDown_calm _ _ _
  · exact giveReceipt_calm _ _ _

theorem collectReceiptOp_calm (n : Nat) : s.Calm (collectReceiptOp n s) := by
  refine .ite (turnDown_calm _ _ _) (.ite (turnDown_calm _ _ _) ?_)
  split
  · exact turnDown_calm _ _ _
  · exact .ite (turnDown_calm _ _ _) (.ite (turnDown_calm _ _ _)
      (.ite (turnDown_calm _ _ _) ((enqueue_calm _).then_only (ok_only _ _ _))))

theorem readNextOrphanOp_calm : s.Calm (readNextOrphanOp s) := by
  refine .ite (turnDown_calm _ _ _) ?_
  split
  · exact turnDown_calm _ _ _
  · exact (Rlg.countWords_countsOnly _ _).calm.then_only (ok_only _ _ _)

theorem closeOrphanOp_calm (n : Nat) (register : Word32) : s.Calm (closeOrphanOp n register s) :=
  .ite (turnDown_calm _ _ _) (.ite (turnDown_calm _ _ _) (.ite (turnDown_calm _ _ _) (.ite (turnDown_calm _ _ _)
    (.ite (turnDown_calm _ _ _)
      (((Rlg.countWords_countsOnly _ _).calm.trans (enqueue_calm _)).then_only (ok_only _ _ _))))))

theorem State.onCharge_calm {f : State → State} (port : Port) (h : s.Calm (f s)) : s.Calm (s.onCharge port f) := by
  cases port
  · exact .of_only (wrongPort_only .s)
  · exact h

/-! ## OPEN SESSION and SET RETENTION -/

/-- What leaves the log alone after an erase test leaves it tested. -/
theorem State.EraseRuled.then_only {fs : List Field} (h : s.EraseRuled t) (k : t.onlyChanges fs u)
    (away : .rlg ∉ fs ∧ .noticesS ∉ fs ∧ .noticesC ∉ fs := by decide) : s.EraseRuled u := by
  obtain ⟨rlg, site, charge⟩ := away
  have same : u.rlg = t.rlg := k .rlg rlg
  have sameS : u.noticesS = t.noticesS := k .noticesS site
  have sameC : u.noticesC = t.noticesC := k .noticesC charge
  constructor
  all_goals rw [same]
  · exact h.tested
  · rw [sameS, sameC]
    exact h.low
  · exact h.resumed

theorem setRetentionOp_ruled (n : Nat) : s.EraseRuled (setRetentionOp n s) := by
  have rule {t : State} (h : s.EraseRuled t) : s.EraseRuled (t.ok .s (decide (1024 < n)) []) := h.then_only (ok_only _ _ _)
  refine rule ?_
  split
  · exact Rlg.Uneventful.ruled (.of_same rfl rfl id id rfl rfl)
  split
  · exact Rlg.Uneventful.ruled (.of_same rfl rfl id id rfl rfl)
  · obtain ⟨_, _, queue⟩ := eraseTest_rlg (s.withRlg { s.rlg with rRet := min n 1024 })
    have told : s.LowTold (s.withRlg { s.rlg with rRet := min n 1024 }) := withRlg_lowTold rfl
    exact .of_tested eraseTest_isTested (told.trans eraseTest_lowTold) fun queued => .inl (queue.trans_ne queued)

theorem Rlg.reserve_low {slot : Nat} (h : r.reserve = some (slot, x)) : x.spaceLow = r.spaceLow := by
  unfold Rlg.reserve at h
  split at h
  · cases h
  · dsimp only at h
    split at h
    · cases h
      unfold activateSuccessor
      split <;> rfl
    · cases h
      rfl

/-- A reservation with its erase test leaves the log tested (R158, R170). -/
theorem State.reserveWith_tests {slot : Nat} (h : s.reserveWith s.rlg.reserve = some (slot, u)) :
    u.rlg.Tested ∧ s.LowTold u := by
  cases reserved : s.rlg.reserve with
  | none => rw [reserved] at h; cases h
  | some z =>
    obtain ⟨at_, y⟩ := z
    rw [reserved] at h
    cases h
    exact ⟨eraseTest_isTested, (withRlg_lowTold (Rlg.reserve_low reserved)).trans eraseTest_lowTold⟩

theorem Rlg.afterJoin_sameTest (q : ProgramRequest) : r.SameTest (r.afterJoin q) where
  count := rfl
  erase := Option.map_eq_none_iff
  log := rfl
  oldest := rfl
  done _ := Iff.rfl
  low := rfl
  queue empty := by
    change r.queue ++ [q] = [] at empty
    simp at empty

/-- The session opened and its request queued after the test (R57, R159). -/
theorem State.opened_ruled {slot : Nat} {part : OpeningPart} {bytes : List Byte} (tested : u.rlg.Tested) (low : s.LowTold u) :
    s.EraseRuled ((u.openSession p slot part).accepted .c bytes) := by
  have rlg := opened_rlg (s := u) p slot part bytes
  have kept : u.NoticesKept ((u.openSession p slot part).accepted .c bytes) := by
    have opened : u.onlyChanges [.ssu, .tfu, .rlg] (u.openSession p slot part) := openSession_only p slot part
    exact .of_only (onlyChanges_then opened (accepted_only .c bytes) (hs := [.ssu, .tfu, .rlg, .replies]))
  refine .of_tested ?_ (low.trans (.of_same kept ?_)) fun _ => .inl ?_
  all_goals rw [rlg]
  · exact tested.until (Rlg.afterJoin_sameTest _)
  · rfl
  · change u.rlg.queue ++ [_] ≠ []
    simp

theorem openSessionOp_ruled (point : Byte) (customer : Word32) (cls : Byte) : s.EraseRuled (openSessionOp point customer cls s) := by
  unfold openSessionOp
  split
  · dsimp only
    split
    · exact (turnDown_calm _ _ _).ruled
    · next slot u _ _ reserved =>
      obtain ⟨tested, low⟩ := reserveWith_tests reserved
      have told : s.LowTold (s.withRlg s.rlg.assignNumber) := withRlg_lowTold rfl
      exact opened_ruled tested (told.trans low)
    · exact (turnDown_calm _ _ _).ruled
    · exact (turnDown_calm _ _ _).ruled
  · exact (turnDown_calm _ _ _).ruled

end Sys2Proof.Machine
end

section
/-! SUPPORT. The programs of the head request between two erase tests, and the end of an erase and of the scan (R155 to R165,
R169 to R177). -/

namespace Sys2Proof.Machine

open Sys2Proof State

variable {s t u m : State} {r x y : Rlg} {p : Point} {o : ProgramOutcome} {q : ProgramRequest} {rest : List ProgramRequest}
  {slot first : Nat} {words : List Word64}

/-! ## The array's part of an attempt -/

theorem Rlg.programMark_array (slot : Nat) (k : Mark) (ms : List MarkResult) : r.ArrayOnly (r.programMark slot k ms).1 := rfl

theorem Rlg.programPart_array {k : Mark} : r.ArrayOnly (r.programPart slot first words k o).1 := by
  have written := (programWords_taken (r := r) (slot := slot) (o := o) first words).array
  unfold programPart
  dsimp only
  split
  · exact written.trans (programMark_array _ _ _)
  · exact written

theorem Rlg.programRecord_array {damaged : Bool} : r.ArrayOnly (r.programRecord damaged slot words o).1 := by
  have written := (programWords_taken (r := r) (slot := slot) (o := o) 0 words).array
  cases damaged with
  | true => exact (programRecord_damaged (r := r) (slot := slot) (o := o) words) ▸ rfl
  | false =>
    simp only [programRecord, Bool.false_eq_true, if_false]
    generalize Rlg.programWords slot o.words 0 words r = v at *
    by_cases good : v.2 = true
    · simp only [good, if_true]
      exact (written.trans (programMark_array _ _ _)).trans (programMark_array _ _ _)
    · simp only [good]
      exact written

theorem Rlg.CountsOnly.worked (h : s.rlg.CountsOnly x) : s.Worked (s.withRlg x) := by
  rw [h]
  exact withRlg_worked rfl rfl rfl rfl ⟨rfl, rfl⟩ rfl

/-- Array programs are no event. -/
theorem Rlg.ArrayOnly.uneventful (h : r.ArrayOnly x) : r.Uneventful x := by
  rw [h]
  exact .of_same rfl rfl id id rfl rfl

/-- A slot that becomes OPENED or CLOSED is no event (R170). -/
theorem Rlg.Uneventful.withSlotState {z : SlotState} (h : r.Uneventful x)
    (kind : ¬(z = .collected ∨ z = .bad ∨ z = .superseded)) : r.Uneventful (x.withSlotState slot z) where
  fill := h.fill
  slots j moved := by
    by_cases same : j = slot
    · rw [same, slotState_withSlotState_same]
      exact kind
    · rw [slotState_withSlotState_other same] at moved ⊢
      exact h.slots j moved
  erase := h.erase
  queue := h.queue
  log := h.log
  low := h.low

theorem State.WorkTested.refl : s.WorkTested s := ⟨.of_rlg .refl rfl, .inr .refl⟩

/-- What leaves the log alone leaves the work as it was. -/
theorem State.WorkTested.then_same (h : s.WorkTested m) (kept : m.NoticesKept u) (same : u.rlg = m.rlg) : s.WorkTested u :=
  ⟨h.worked.trans (.of_rlg kept same), by rw [same]; exact h.tested⟩

theorem Rlg.ArrayOnly.workTested (h : s.rlg.ArrayOnly x) : s.WorkTested (s.withRlg x) := ⟨h.worked, .inr h.uneventful⟩

theorem State.withSlotState_worked (slot : Nat) (z : SlotState) : s.Worked (s.withRlg (s.rlg.withSlotState slot z)) :=
  withRlg_worked rfl rfl rfl rfl ⟨rfl, rfl⟩ rfl

theorem State.EraseRuled.ite {b : Prop} [Decidable b] (h : s.EraseRuled t) (k : s.EraseRuled u) :
    s.EraseRuled (if b then t else u) := by
  split
  · exact h
  · exact k

theorem queued_of_head (head : s.rlg.queue = q :: rest) : s.rlg.queue ≠ [] := by
  rw [head]
  exact List.cons_ne_nil _ _

theorem State.openingCompleted_noticesKept (p : Point) : s.NoticesKept (s.openingCompleted p) := by
  unfold openingCompleted
  split
  · exact (NoticesKept.of_only (enterWaiting_only p)).trans (raise_noticesKept _ _ _)
  · exact (NoticesKept.of_only (startClose_only p _)).trans (raise_noticesKept _ _ _)

theorem State.freed_noticesKept (p : Point) (kind : NoticeKind) (ns : List Nat) :
    s.NoticesKept ((s.freeSession p).raise .c kind ns) :=
  (NoticesKept.of_only (freeSession_only p)).trans (raise_noticesKept _ _ _)

/-! ## OPENING_PROGRAM and CLOSING_PROGRAM -/

theorem State.openingAttemptFailed_ruled (h : s.WorkTested m) (queued : s.rlg.queue ≠ []) (p : Point) (q : ProgramRequest)
    (ms : List MarkResult) : s.EraseRuled (m.openingAttemptFailed p q ms) := by
  obtain ⟨marked, tested⟩ := markBad_worked (h.worked.queue.trans_ne queued) q.slot ms
  have work : s.WorkTested (m.markBad q.slot ms) := ⟨h.worked.trans marked, .inl tested⟩
  unfold openingAttemptFailed
  dsimp only
  split
  · next slot u reserves =>
    split at reserves
    · obtain ⟨took, tested⟩ := reserveAgain_worked (work.worked.queue.trans_ne queued) reserves
      have taken : s.WorkTested u := ⟨work.worked.trans took, .inl tested⟩
      exact (taken.then_same (.of_only (withSession_only p _)) rfl).retried _
    · nomatch reserves
  · exact (work.then_same (freed_noticesKept p _ _) (openingFailed_only p .rlg (by decide))).failed _

/-- An opening attempt, by its verify (R160). -/
theorem State.openingAttempt_eq {part : OpeningPart} {y : Rlg × Bool}
    (program : s.rlg.programPart q.slot 0 (wordsOf 4 (openingBytes part)) .opened o = y) :
    s.openingAttempt p part q o =
      if y.2 then ((s.withRlg ((y.1.withSlotState q.slot .opened).setIndex q.number q.slot)).openingCompleted p).endRequest
      else (s.withRlg y.1).openingAttemptFailed p q o.marks := by
  subst program
  rfl

theorem execOpeningProgram_ruled (h : execOpeningProgram o s = .next t) : s.EraseRuled t := by
  obtain rfl := Host.Outcome.next.inj h
  refine .ite .refl ?_
  split
  · next q rest head =>
    split
    · next p part _ =>
      have array := Rlg.programPart_array (r := s.rlg) (slot := q.slot) (first := 0) (words := wordsOf 4 (openingBytes part))
        (k := .opened) (o := o)
      rw [openingAttempt_eq rfl]
      refine .ite ?_ (openingAttemptFailed_ruled array.workTested (queued_of_head head) p q o.marks)
      generalize s.rlg.programPart q.slot 0 (wordsOf 4 (openingBytes part)) .opened o = y at *
      have quiet := array.uneventful.withSlotState (slot := q.slot) (z := .opened) (by simp)
      have work : s.WorkTested (s.withRlg ((y.1.withSlotState q.slot .opened).setIndex q.number q.slot)) :=
        ⟨(array.worked.trans (withSlotState_worked q.slot .opened)).trans (withRlg_worked rfl rfl rfl rfl ⟨rfl, rfl⟩ rfl),
          .inr ⟨quiet.fill, quiet.slots, quiet.erase, quiet.queue, quiet.log, quiet.low⟩⟩
      exact (work.then_same (openingCompleted_noticesKept p) (openingCompleted_only p .rlg (by decide))).ended
    · exact .refl
  · exact .refl

/-- The work of a closing in place (R161). -/
theorem State.closeInPlace_work (h : s.WorkTested m) (part : ClosingPart) (q : ProgramRequest) (quiet : s.rlg.Uneventful m.rlg) :
    s.WorkTested (m.closeInPlace part q o).1 := by
  have array := Rlg.programPart_array (r := m.rlg) (slot := q.slot) (first := 4)
    (words := wordsOf 11 (closingBytes part q.number none)) (k := .closed) (o := o)
  rw [closeInPlace_eq rfl]
  generalize m.rlg.programPart q.slot 4 (wordsOf 11 (closingBytes part q.number none)) .closed o = y at *
  have programmed : s.Worked (m.withRlg y.1) := h.worked.trans array.worked
  split
  · exact ⟨programmed.trans (withSlotState_worked q.slot .closed),
      .inr ((quiet.trans array.uneventful).withSlotState (by simp))⟩
  · exact ⟨programmed, .inr (quiet.trans array.uneventful)⟩

theorem execClosingProgram_ruled (h : execClosingProgram o s = .next t) : s.EraseRuled t := by
  obtain rfl := Host.Outcome.next.inj h
  refine .ite .refl ?_
  split
  · next q rest head =>
    split
    · next p part _ _ =>
      have work := closeInPlace_work (o := o) (.refl (s := s)) part q .refl
      exact .ite (work.then_same (freed_noticesKept p _ _) (closingCompleted_only p .rlg (by decide))).ended (work.retried _)
    · exact .refl
  · exact .refl

/-! ## Relocations -/

theorem State.recordMoved_worked (n slot new : Nat) : s.Worked (s.withRlg (s.rlg.recordMoved n slot new o)) :=
  withRlg_worked rfl rfl rfl rfl ⟨rfl, rfl⟩ rfl

/-- A relocation attempt found no slot, or ended with an erase test (R162, R170). -/
theorem State.relocate_work (h : s.Worked m) (queued : s.rlg.queue ≠ []) (part : ClosingPart) (q : ProgramRequest) :
    m.relocate part q o = (m, .noSlot) ∨ s.WorkTested (m.relocate part q o).1 := by
  rcases m.reserveAgain_cases with none | ⟨new, u, taken, _⟩
  · left
    rw [relocate, none]
  · right
    obtain ⟨took, _⟩ := reserveAgain_worked (h.queue.trans_ne queued) taken
    rw [relocate_eq (q := q) (part := part) (o := o) taken rfl]
    have counted := Rlg.countWords_countsOnly (r := u.rlg) (16 * q.slot) 4
    have array : (u.rlg.countWords (16 * q.slot) 4).ArrayOnly (u.rlg.relocationPrograms part q.number q.slot new o).1 :=
      Rlg.programRecord_array
    generalize u.rlg.relocationPrograms part q.number q.slot new o = y at *
    have read : u.Worked (u.withRlg (u.rlg.countWords (16 * q.slot) 4)) := counted.worked
    have programs : (u.withRlg (u.rlg.countWords (16 * q.slot) 4)).Worked (u.withRlg y.1) := array.worked
    have work : s.Worked (u.withRlg y.1) := ((h.trans took).trans read).trans programs
    have some_ : (u.withRlg y.1).rlg.queue ≠ [] := work.queue.trans_ne queued
    split
    · have moved : (u.withRlg y.1).Worked (u.withRlg (y.1.recordMoved q.number q.slot new o)) := recordMoved_worked _ _ _
      exact ⟨(work.trans moved).trans (eraseTest_worked (moved.queue.trans_ne some_)), .inl eraseTest_isTested⟩
    · obtain ⟨marked, tested⟩ := markBad_worked some_ new o.marks
      exact ⟨work.trans marked, .inl tested⟩

theorem execRelocation_ruled (h : execRelocation o s = .next t) : s.EraseRuled t := by
  obtain rfl := Host.Outcome.next.inj h
  refine .ite .refl ?_
  split
  · next q rest head =>
    split
    · next p part k _ _ =>
      rcases relocate_work (s := s) (o := o) (.of_rlg .refl rfl) (queued_of_head head) part q with none | work
      · rw [none]
        exact WorkTested.refl.failed _
      · split
        · next m slot moved =>
          rw [moved] at work
          exact ((work.then_same (.of_only (withSession_only p _)) rfl).then_same (freed_noticesKept p _ _)
            (closingCompleted_only p .rlg (by decide))).ended
        · next m failed =>
          rw [failed] at work
          exact .ite (work.retried _) (work.failed _)
        · next m noSlot =>
          rw [noSlot] at work
          exact work.failed _
    · exact .refl
  · exact .refl

/-! ## COLLECT_PROGRAM -/

theorem State.failHead_lowTold (ns : List Nat) : s.LowTold (s.failHead ns) := by
  rw [failHead_eq]
  exact (withoutHead_lowTold.trans (thirdFailure_lowTold ns)).trans whenEmpty_lowTold

theorem execCollectProgram_ruled (h : execCollectProgram o s = .next t) : s.EraseRuled t := by
  obtain rfl := Host.Outcome.next.inj h
  refine .ite .refl ?_
  split
  · next q rest head =>
    split
    · have array := Rlg.programMark_array (r := s.rlg) q.slot .collected o.marks
      dsimp only
      generalize s.rlg.programMark q.slot .collected o.marks = y at *
      have work : s.WorkTested (s.withRlg y.1) := array.workTested
      have set : s.Worked (s.withRlg (y.1.withSlotState q.slot .collected)) :=
        work.worked.trans (withSlotState_worked q.slot .collected)
      have tested : s.WorkTested (s.withRlg (y.1.withSlotState q.slot .collected)).eraseTest :=
        ⟨set.trans (eraseTest_worked (set.queue.trans_ne (queued_of_head head))), .inl eraseTest_isTested⟩
      refine .ite tested.ended (.ite (work.retried _) (.ite ?_ (work.failed [])))
      obtain ⟨taken, _⟩ := failHead_failed (s := s.withRlg y.1) []
      have low := work.worked.low.trans (failHead_lowTold [])
      generalize (s.withRlg y.1).failHead [] = u at *
      have mark : u.LowTold (u.withRlg (u.rlg.withSlotState q.slot .collected)) := withRlg_lowTold rfl
      obtain ⟨_, log, _⟩ := eraseTest_rlg (u.withRlg (u.rlg.withSlotState q.slot .collected))
      exact .of_tested eraseTest_isTested ((low.trans mark).trans eraseTest_lowTold) fun _ => .inr (log.trans taken.state)
    · exact .refl
  · exact .refl

/-! ## ORPHAN_CLOSING -/

/-- The orphan's number leaves the list, and its request ends (R176). -/
theorem State.WorkTested.orphanEnded (h : s.WorkTested m) (n : Nat) : s.EraseRuled (m.orphanClosed n) := by
  have gone : m.Worked (m.withoutOrphan n) := withRlg_worked rfl rfl rfl rfl ⟨rfl, rfl⟩ rfl
  have same : m.rlg.SameTest (m.withoutOrphan n).rlg := ⟨rfl, Iff.rfl, rfl, rfl, fun _ => Iff.rfl, rfl, id⟩
  have work : s.WorkTested (m.withoutOrphan n) :=
    ⟨h.worked.trans gone, h.tested.imp (fun tested => tested.until same)
      fun quiet => ⟨quiet.fill, quiet.slots, quiet.erase, quiet.queue, quiet.log, quiet.low⟩⟩
  exact work.ended

theorem State.orphanRelocation_ruled (h : s.WorkTested m) (queued : s.rlg.queue ≠ []) (n : Nat) (part : ClosingPart)
    (q : ProgramRequest) : s.EraseRuled (m.orphanRelocation n part q o) := by
  rw [orphanRelocation_eq]
  rcases relocate_work (o := o) h.worked queued part q with none | work
  · rw [none]
    exact h.failed _
  · generalize m.relocate part q o = x at work ⊢
    rcases x with ⟨t, _ | _ | _⟩
    · exact work.failed _
    · exact .ite (work.retried _) (work.failed _)
    · exact work.orphanEnded _

theorem execOrphanClosing_ruled (h : execOrphanClosing o s = .next t) : s.EraseRuled t := by
  obtain rfl := Host.Outcome.next.inj h
  refine .ite .refl ?_
  split
  · next q rest head =>
    split
    · next n part _ =>
      have counted := Rlg.countWords_countsOnly (r := s.rlg) (16 * q.slot + 4) 11
      have read : s.WorkTested (s.withRlg (s.rlg.countWords (16 * q.slot + 4) 11)) := ⟨counted.worked, .inr counted.calm⟩
      have work := closeInPlace_work (o := o) read part q counted.calm
      exact .ite (.ite (.ite (work.orphanEnded _) (work.retried _))
        (orphanRelocation_ruled read (queued_of_head head) n part q))
        (orphanRelocation_ruled .refl (queued_of_head head) n part q)
    · exact .refl
  · exact .refl

end Sys2Proof.Machine
end

section
/-! SUPPORT. The end of an erase (R153, R169, R171, R172). -/

namespace Sys2Proof.Machine

open Sys2Proof State

variable {s t u : State} {r x : Rlg} {k : Fin 16} {a slot : Nat} {o : HeaderOutcome} {asked : Word64} {xs : List ArrayResult}

/-! ## The sector erased -/

/-- Of a sparse map the keys that pass a test are kept. -/
theorem sparseGet_filter {β : Type} (d : β) (m : List (Nat × β)) (p : Nat → Bool) (a : Nat) :
    sparseGet d (m.filter (fun e => p e.1)) a = if p a then sparseGet d m a else d := by
  induction m with
  | nil => simp [sparseGet]
  | cons e m ih =>
    obtain ⟨j, v⟩ := e
    by_cases same : j = a
    · subst same
      by_cases kept : p j = true
      · simp [kept, sparseGet]
      · simp only [List.filter_cons, kept] at ih ⊢
        exact ih
    · by_cases kept : p j = true
      · simp only [List.filter_cons, kept, if_true, sparseGet, if_neg same]
        exact ih
      · simp only [List.filter_cons, kept, sparseGet, if_neg same]
        exact ih

theorem inSector_iff : inSector k a = true ↔
    128 * k.val ≤ a / 128 ∧ a / 128 < 128 * (k.val + 1) ∨ headerAddress k ≤ a ∧ a < headerAddress k + 8 := by
  simp only [inSector, Bool.or_eq_true, Bool.and_eq_true, decide_eq_true_eq]
  omega

/-- A byte and the check code of its word lie in a sector together. -/
theorem inSector_codeAddress : inSector k (codeAddress a) = inSector k a := by
  rw [Bool.eq_iff_iff, inSector_iff, inSector_iff]
  unfold codeAddress headerAddress
  split
  · exact Iff.rfl
  · omega

theorem Rlg.rawByte_eraseSector : (r.eraseSector k).rawByte a = if inSector k a then erasedByte else r.rawByte a := by
  refine (sparseGet_filter erasedByte r.cells (fun c => !inSector k c) a).trans ?_
  cases inSector k a <;> rfl

theorem Rlg.readByte_eraseSector : (r.eraseSector k).readByte a = if inSector k a then erasedByte else r.readByte a := by
  have code : (r.eraseSector k).codeAt (codeAddress a) = if inSector k a then .clean else r.codeAt (codeAddress a) := by
    refine (sparseGet_filter .clean r.codes (fun c => !inSector k c) (codeAddress a)).trans ?_
    rw [inSector_codeAddress]
    cases inSector k a <;> rfl
  by_cases within : inSector k a = true
  · rw [if_pos within] at code ⊢
    rw [readByte_clean (.inl code), rawByte_eraseSector, if_pos within]
  · rw [if_neg within] at code ⊢
    exact readByte_congr (rawByte_eraseSector.trans (if_neg within)) code

theorem Rlg.rawWord_eraseSector : (r.eraseSector k).rawWord (32768 + k.val) = BitVec.allOnes 64 := by
  have bytes : (r.eraseSector k).rawBytes (8 * (32768 + k.val)) 8 = List.replicate 8 0xFF := by
    have erased (i : Nat) (low : i < 8) : (r.eraseSector k).rawByte (8 * (32768 + k.val) + i) = 0xFF := by
      rw [rawByte_eraseSector, if_pos (inSector_iff.mpr (.inr (by unfold headerAddress; omega)))]
      rfl
    simp only [rawBytes, List.replicate, Nat.add_assoc]
    rw [← Nat.add_zero (8 * (32768 + k.val)), erased 0 (by omega)]
    simp only [Nat.add_assoc, Nat.zero_add]
    rw [erased 1 (by omega), erased 2 (by omega), erased 3 (by omega), erased 4 (by omega), erased 5 (by omega),
      erased 6 (by omega), erased 7 (by omega)]
  rw [rawWord, bytes]
  rfl

/-! ## The header -/

/-- What a word that held `h` holds after `j` attempts at programming it (R153, R172). -/
def attemptsHeld (asked : Word64) : Nat → List ArrayResult → Word64 → Word64
  | 0, _, h => h
  | j + 1, xs, h => attemptsHeld asked j xs.tail (h &&& (xs.head?.elim asked (·.value)))

theorem heldAfter_eq (j : Nat) : heldAfter xs asked j = attemptsHeld asked j xs (BitVec.allOnes 64) := by
  have all (j : Nat) : ∀ (xs : List ArrayResult) (h : Word64),
      ((List.range j).map (fun i => (xs[i]?).elim asked (·.value))).foldl (· &&& ·) h = attemptsHeld asked j xs h := by
    induction j with
    | zero => exact fun _ _ => rfl
    | succ j ih =>
      intro xs h
      rw [List.range_succ_eq_map, List.map_cons, List.foldl_cons, List.map_map, attemptsHeld, ← ih xs.tail,
        List.head?_eq_getElem?]
      simp only [Function.comp_def, List.getElem?_tail]
  exact all j xs _

/-- The tries at a word, by what each leaves (R153, R172). -/
theorem Rlg.programTries_word (w : Nat) (asked : Word64) (j : Nat) : ∀ (xs : List ArrayResult) (r : Rlg),
    let y := Rlg.programTries (fun v => v.programWord w asked) j xs r
    (y.2 = true ↔ ∃ i, i < j ∧ attemptsHeld asked (i + 1) xs (r.rawWord w) = asked) ∧
    y.1.rawWord w = if y.2 then asked else attemptsHeld asked j xs (r.rawWord w) := by
  induction j with
  | zero => exact fun xs r => ⟨by simp [programTries], rfl⟩
  | succ j ih =>
    intro xs r
    have held : (r.programWord w asked xs.head?).1.rawWord w = r.rawWord w &&& xs.head?.elim asked (·.value) := by
      cases xs.head? <;> exact rawWord_storeWord
    have verified : (r.programWord w asked xs.head?).2 = true ↔ r.rawWord w &&& xs.head?.elim asked (·.value) = asked := by
      cases xs.head? <;> exact beq_iff_eq
    simp only [programTries]
    by_cases good : (r.programWord w asked xs.head?).2 = true
    · rw [if_pos good, if_pos good]
      exact ⟨⟨fun _ => ⟨0, Nat.succ_pos j, verified.mp good⟩, fun _ => good⟩, held.trans (verified.mp good)⟩
    · rw [if_neg good]
      obtain ⟨verdict, word⟩ := ih xs.tail (r.programWord w asked xs.head?).1
      rw [held] at verdict word
      refine ⟨verdict.trans ⟨fun ⟨i, low, eq⟩ => ⟨i + 1, Nat.succ_lt_succ low, eq⟩, fun ⟨i, low, eq⟩ => ?_⟩, word⟩
      cases i with
      | zero => exact absurd (verified.mpr eq) good
      | succ i => exact ⟨i, Nat.lt_of_succ_lt_succ low, eq⟩

/-- The header programmed into the erased sector (R172). -/
theorem Rlg.programHeader_programmed (r : Rlg) (k : Fin 16) (o : HeaderOutcome) :
    let asked := BitVec.ofNat 64 r.nextNumber
    let good := ∃ j : Fin 3, heldAfter o.attempts asked (j.val + 1) = asked
    let y := (r.eraseSector k).programHeader k o
    r.ArrayOnly y.1 ∧ (y.2 = true ↔ good) ∧
    (∀ a, ¬(headerAddress k ≤ a ∧ a < headerAddress k + 8) → y.1.readByte a = (r.eraseSector k).readByte a) ∧
    y.1.rawWord (32768 + k.val) = if y.2 then asked else heldAfter o.attempts asked 3 := by
  intro asked good y
  obtain ⟨verdict, word⟩ := programTries_word (32768 + k.val) asked 3 o.attempts (r.eraseSector k)
  have keeps := (programTries_ind (program := fun v => v.programWord (32768 + k.val) asked) (programKeeps (.header k))
    (fun _ => True) (programKeeps_refl _) (fun _ _ _ => programKeeps_trans) (fun _ z => programKeeps_word z)
    (fun _ _ _ => trivial) 3 o.attempts (r.eraseSector k)).1
  have array := (programTries_ind (program := fun v => v.programWord (32768 + k.val) asked) ArrayOnly (fun _ => True)
    (fun _ => rfl) (fun _ _ _ => ArrayOnly.trans) (fun v z => programWord_array (r := v) asked z) (fun _ _ _ => trivial) 3
    o.attempts (r.eraseSector k)).1
  simp only [rawWord_eraseSector, ← heldAfter_eq] at verdict word
  refine ⟨ArrayOnly.trans (t := r.eraseSector k) rfl array, verdict.trans ?_, fun a away => ((keeps a).1 fun has => away ?_).2, word⟩
  · exact ⟨fun ⟨i, low, eq⟩ => ⟨⟨i, low⟩, eq⟩, fun ⟨j, eq⟩ => ⟨j.val, j.isLt, eq⟩⟩
  · have within : a / 8 = 32768 + k.val := has
    unfold headerAddress
    omega

/-! ## The sector free -/

theorem Rlg.activateSuccessor_ring (r : Rlg) : ∃ sectors last fill,
    r.activateSuccessor = { r with sectors := sectors, lastActive := last, fill := fill } := by
  unfold activateSuccessor
  split
  · exact ⟨_, _, _, rfl⟩
  · exact ⟨r.sectors, r.lastActive, r.fill, rfl⟩

/-- The fields of the log that the end of an erase sets (R169, R172). -/
structure Rlg.SectorFreed (r : Rlg) (k : Fin 16) (x : Rlg) : Prop where
  array : x.cells = r.cells ∧ x.codes = r.codes
  states : ∀ slot, x.slotState slot =
    if 128 * k.val ≤ slot ∧ slot < 128 * (k.val + 1) then .erased else r.slotState slot
  index : ∀ e, e ∈ x.index ↔ e ∈ r.index ∧ ¬(128 * k.val ≤ e.2 ∧ e.2 < 128 * (k.val + 1))
  next : x.nextNumber = r.nextNumber
  retention : x.rRet = r.heldRet.getD r.rRet ∧ x.heldRet = none
  sector : x.sectors[k] = if r.fill = none ∧ k = r.lastActive + 1 then .active else .free
  log : x.logState = r.logState
  queue : x.queue = r.queue
  low : x.spaceLow = r.spaceLow

theorem Rlg.sectorErased_freed (r : Rlg) (k : Fin 16) : r.SectorFreed k (r.sectorErased k) := by
  have states (slot : Nat) : sparseGet .erased
      (r.slotStates.filter (fun e => !(decide (128 * k.val ≤ e.1) && decide (e.1 < 128 * (k.val + 1))))) slot =
      if 128 * k.val ≤ slot ∧ slot < 128 * (k.val + 1) then SlotState.erased else r.slotState slot := by
    refine (sparseGet_filter .erased r.slotStates (fun c => !(decide (128 * k.val ≤ c) && decide (c < 128 * (k.val + 1)))) slot).trans ?_
    by_cases within : 128 * k.val ≤ slot ∧ slot < 128 * (k.val + 1)
    · rw [if_pos within, if_neg (by simp [within])]
    · rw [if_neg within, if_pos (by rw [← Bool.decide_and, decide_eq_false within]; rfl)]
      rfl
  have index (e : Nat × Nat) : e ∈ r.index.filter
      (fun e => !(decide (128 * k.val ≤ e.2) && decide (e.2 < 128 * (k.val + 1)))) ↔
      e ∈ r.index ∧ ¬(128 * k.val ≤ e.2 ∧ e.2 < 128 * (k.val + 1)) := by
    rw [List.mem_filter, ← Bool.decide_and, Bool.not_eq_true', decide_eq_false_iff_not]
  have sector : (r.sectorErased k).sectors[k] = if r.fill = none ∧ k = r.lastActive + 1 then .active else .free := by
    have free (j : Fin 16) : (r.sectors.set k .free)[j] = if j = k then .free else r.sectors[j] := sectors_set _ _ _ _
    unfold sectorErased activateSuccessor
    dsimp only
    split
    · next both =>
      refine (sectors_set (r.sectors.set k .free) (nextSector r.lastActive) k .active).trans ?_
      by_cases successor : k = nextSector r.lastActive
      · rw [if_pos successor, if_pos ⟨both.1, successor⟩]
      · rw [if_neg successor, if_neg fun h => successor h.2, free, if_pos rfl]
    · next not =>
      have apart : ¬(r.fill = none ∧ k = r.lastActive + 1) := fun both =>
        not ⟨both.1, (free (nextSector r.lastActive)).trans (if_pos both.2.symm)⟩
      exact ((free k).trans (if_pos rfl)).trans (if_neg apart).symm
  unfold sectorErased at sector ⊢
  obtain ⟨sectors, last, fill, eq⟩ := activateSuccessor_ring { r with
      slotStates := r.slotStates.filter (fun e => !(decide (128 * k.val ≤ e.1) && decide (e.1 < 128 * (k.val + 1))))
      index := r.index.filter (fun e => !(decide (128 * k.val ≤ e.2) && decide (e.2 < 128 * (k.val + 1))))
      sectors := r.sectors.set k .free
      erase := none
      rRet := r.heldRet.getD r.rRet
      heldRet := none }
  rw [eq] at sector ⊢
  exact ⟨⟨rfl, rfl⟩, states, index, rfl, ⟨rfl, rfl⟩, sector, rfl, rfl, rfl⟩

end Sys2Proof.Machine
end

section
/-! SUPPORT. The commands that end an erase and the scan, and what R159 and R170 ask of every command (R169 to R173). -/

namespace Sys2Proof.Machine

open Sys2Proof State

variable {s t u : State} {r x y : Rlg} {k : Fin 16} {a slot : Nat} {o : HeaderOutcome} {e : Erase} {fs : List ScanResult}

/-! ## The erase test and a third failure leave the rest -/

theorem State.eraseTest_retention :
    s.eraseTest.rlg.rRet = s.rlg.rRet ∧ s.eraseTest.rlg.heldRet = s.rlg.heldRet := by
  rw [eraseTest_tested, Rlg.tested]
  split <;> exact ⟨rfl, rfl⟩

/-- Between the two logs array programs were made and a third failure may have been taken. -/
def Rlg.AttemptsOnly (r x : Rlg) : Prop :=
  x = { r with cells := x.cells, codes := x.codes, logState := x.logState, queue := x.queue }

theorem Rlg.ArrayOnly.attemptsOnly (h : r.ArrayOnly x) : r.AttemptsOnly x := by
  rw [AttemptsOnly, h]

/-- A third failure moves the log state and the queue only (R164, R165). -/
theorem Rlg.ArrayOnly.thirdFailure (h : s.rlg.ArrayOnly x) (ns : List Nat) :
    s.rlg.AttemptsOnly ((s.withRlg x).thirdFailure ns).rlg := by
  by_cases fault : x.logState = .fault
  · rw [thirdFailure_fault ns fault, raiseBoth_rlg]
    exact h.attemptsOnly
  · rw [thirdFailure_enters ns fault, enterFault_rlg, raiseBoth_rlg, withRlg_rlg, AttemptsOnly, h]

/-- The sector freed after attempts at its header (R169, R172). -/
theorem Rlg.AttemptsOnly.freed (h : r.AttemptsOnly x) (freed : x.SectorFreed k y) :
    (∀ slot, y.slotState slot =
      if 128 * k.val ≤ slot ∧ slot < 128 * (k.val + 1) then .erased else r.slotState slot) ∧
    (∀ e, e ∈ y.index ↔ e ∈ r.index ∧ ¬(128 * k.val ≤ e.2 ∧ e.2 < 128 * (k.val + 1))) ∧
    y.nextNumber = r.nextNumber ∧ (y.rRet = r.heldRet.getD r.rRet ∧ y.heldRet = none) ∧
    y.sectors[k] = (if r.fill = none ∧ k = r.lastActive + 1 then .active else .free) := by
  obtain ⟨_, states, index, next, retention, sector, _⟩ := freed
  rw [h] at states index next retention sector
  exact ⟨states, index, next, retention, sector⟩

/-! ## ERASE_COMPLETE -/

/-- The state once the header of the erased sector has been tried (R172, R164). -/
def State.headerTried (k : Fin 16) (o : HeaderOutcome) (s : State) : State :=
  let y := (s.rlg.eraseSector k).programHeader k o
  if y.2 then s.withRlg y.1 else (s.withRlg y.1).thirdFailure []

/-- The end of an erase (R171, R172). -/
def State.eraseEnd (k : Fin 16) (o : HeaderOutcome) (s : State) : State :=
  ((s.headerTried k o).withRlg ((s.headerTried k o).rlg.sectorErased k)).eraseTest

theorem execEraseComplete_eq (erase : s.rlg.erase = some e) :
    execEraseComplete o s = .next (if s.rlg.erasing && decide (e.time ≤ e.progress) then s.eraseEnd e.sector o else s) := by
  rw [execEraseComplete, erase]
  rfl

theorem execEraseComplete_idle (idle : s.rlg.erasing = false) : execEraseComplete o s = .next s := by
  unfold execEraseComplete
  split
  · rw [idle]
    rfl
  · rfl

/-- The verdict on the header (R172): the log stands, or a third failure is taken. -/
theorem State.headerTried_verdict (k : Fin 16) (o : HeaderOutcome) (s : State) :
    s.LowTold (s.headerTried k o) ∧
    (((s.rlg.eraseSector k).programHeader k o).2 = true →
      s.onlyChanges [.rlg] (s.headerTried k o) ∧ (s.headerTried k o).rlg.logState = s.rlg.logState ∧
      (s.headerTried k o).rlg.queue = s.rlg.queue) ∧
    (((s.rlg.eraseSector k).programHeader k o).2 ≠ true → s.FaultTaken [] none (s.headerTried k o) ∧
      (s.headerTried k o).rlg.queue = s.queueAfterFault s.rlg.queue) := by
  obtain ⟨array, _⟩ := s.rlg.programHeader_programmed k o
  unfold headerTried
  generalize (s.rlg.eraseSector k).programHeader k o = y at *
  have programmed : s.LowTold (s.withRlg y.1) := array.worked.low
  by_cases good : y.2 = true
  · simp only [if_pos good]
    exact ⟨programmed, fun _ => ⟨withRlg_only _, array.logState, array.queue⟩, fun bad => absurd good bad⟩
  · simp only [if_neg good]
    obtain ⟨taken, queue⟩ := thirdFailure_taken (s := s.withRlg y.1) []
    refine ⟨programmed.trans (thirdFailure_lowTold []), fun isGood => absurd isGood good, fun _ => ⟨?_, ?_⟩⟩
    · exact taken.since (onlyChanges_mono (withRlg_only _)) array.logState rfl fun _ _ => rfl
    · rw [queue, withRlg_rlg, array.queue, queueAfterFault, withRlg_rlg, array.logState, queueAfterFault]

theorem State.headerTried_array (k : Fin 16) (o : HeaderOutcome) (s : State) :
    s.rlg.AttemptsOnly (s.headerTried k o).rlg ∧
    (s.headerTried k o).rlg.cells = ((s.rlg.eraseSector k).programHeader k o).1.cells ∧
    (s.headerTried k o).rlg.codes = ((s.rlg.eraseSector k).programHeader k o).1.codes := by
  obtain ⟨array, _⟩ := s.rlg.programHeader_programmed k o
  unfold headerTried
  generalize (s.rlg.eraseSector k).programHeader k o = y at *
  dsimp only
  split
  · exact ⟨array.attemptsOnly, rfl, rfl⟩
  · exact ⟨array.thirdFailure [], (thirdFailure_rlg (s.withRlg y.1) []).array⟩

/-- Log and queue after the end of an erase, and the notices kept (R169 to R172). -/
theorem State.eraseEnd_end (k : Fin 16) (o : HeaderOutcome) (s : State) :
    (s.headerTried k o).LowTold (s.eraseEnd k o) ∧
    (s.headerTried k o).onlyChanges [.rlg, .noticesS, .noticesC] (s.eraseEnd k o) ∧
    (s.eraseEnd k o).rlg.logState = (s.headerTried k o).rlg.logState ∧
    (s.eraseEnd k o).rlg.queue = (s.headerTried k o).rlg.queue := by
  unfold eraseEnd
  generalize s.headerTried k o = u
  have freed := u.rlg.sectorErased_freed k
  obtain ⟨_, log, queue⟩ := eraseTest_rlg (u.withRlg (u.rlg.sectorErased k))
  exact ⟨(withRlg_lowTold freed.low).trans eraseTest_lowTold, onlyChanges_then (withRlg_only _) eraseTest_only,
    log.trans freed.log, queue.trans freed.queue⟩

/-- Slots, numbers and ring after the end of an erase (R169, R172). -/
theorem State.eraseEnd_freed (k : Fin 16) (o : HeaderOutcome) (s : State) :
    (∀ slot, (s.eraseEnd k o).rlg.slotState slot =
      if 128 * k.val ≤ slot ∧ slot < 128 * (k.val + 1) then .erased else s.rlg.slotState slot) ∧
    (∀ e, e ∈ (s.eraseEnd k o).rlg.index ↔ e ∈ s.rlg.index ∧ ¬(128 * k.val ≤ e.2 ∧ e.2 < 128 * (k.val + 1))) ∧
    (s.eraseEnd k o).rlg.nextNumber = s.rlg.nextNumber ∧
    ((s.eraseEnd k o).rlg.rRet = s.rlg.heldRet.getD s.rlg.rRet ∧ (s.eraseEnd k o).rlg.heldRet = none) ∧
    (s.eraseEnd k o).rlg.sectors[k] = (if s.rlg.fill = none ∧ k = s.rlg.lastActive + 1 then .active else .free) := by
  obtain ⟨attempts, _⟩ := s.headerTried_array k o
  unfold eraseEnd
  generalize s.headerTried k o = u at *
  obtain ⟨states, index, next, retention, sector⟩ := attempts.freed (u.rlg.sectorErased_freed k)
  obtain ⟨same, _⟩ := eraseTest_rlg (u.withRlg (u.rlg.sectorErased k))
  obtain ⟨kept, held⟩ := eraseTest_retention (s := u.withRlg (u.rlg.sectorErased k))
  refine ⟨fun slot => (same.tidied.slotState slot).trans (states slot), fun e => ?_, same.next.trans next,
    ⟨kept.trans retention.1, held.trans retention.2⟩, ?_⟩
  · rw [same.index]
    exact index e
  · rcases same.sectors k with stays | ⟨full, _⟩
    · exact stays.trans sector
    · rw [withRlg_rlg, sector] at full
      split at full <;> cases full

/-- The array after the end of an erase (R153, R172). -/
theorem State.eraseEnd_array (k : Fin 16) (o : HeaderOutcome) (s : State) :
    (∀ a, (s.eraseEnd k o).rlg.readByte a = ((s.rlg.eraseSector k).programHeader k o).1.readByte a) ∧
    ∀ w, (s.eraseEnd k o).rlg.rawWord w = ((s.rlg.eraseSector k).programHeader k o).1.rawWord w := by
  obtain ⟨_, cells, codes⟩ := s.headerTried_array k o
  have kept : (s.eraseEnd k o).rlg.cells = ((s.rlg.eraseSector k).programHeader k o).1.cells ∧
      (s.eraseEnd k o).rlg.codes = ((s.rlg.eraseSector k).programHeader k o).1.codes := by
    rw [← cells, ← codes]
    unfold eraseEnd
    generalize s.headerTried k o = u
    obtain ⟨same, _⟩ := eraseTest_rlg (u.withRlg (u.rlg.sectorErased k))
    have freed := u.rlg.sectorErased_freed k
    exact ⟨same.array.1.trans freed.array.1, same.array.2.trans freed.array.2⟩
  have bytes (a : Nat) : (s.eraseEnd k o).rlg.rawByte a = ((s.rlg.eraseSector k).programHeader k o).1.rawByte a := by
    rw [Rlg.rawByte, kept.1, Rlg.rawByte]
  exact ⟨fun a => Rlg.readByte_congr (bytes a) (by rw [Rlg.codeAt, kept.2, Rlg.codeAt]), fun w => Rlg.rawWord_congr fun a _ => bytes a⟩

theorem State.eraseEnd_ruled (k : Fin 16) (o : HeaderOutcome) (s : State) : s.EraseRuled (s.eraseEnd k o) := by
  obtain ⟨told, good, bad⟩ := s.headerTried_verdict k o
  obtain ⟨low, _, log, queue⟩ := s.eraseEnd_end k o
  refine .of_tested (by unfold eraseEnd; exact eraseTest_isTested) (told.trans low) fun queued => ?_
  by_cases verdict : ((s.rlg.eraseSector k).programHeader k o).2 = true
  · exact .inl (queue.trans_ne ((good verdict).2.2.trans_ne queued))
  · exact .inr (log.trans (bad verdict).1.state)

theorem execEraseComplete_ruled (h : execEraseComplete o s = .next t) : s.EraseRuled t := by
  cases erase : s.rlg.erase with
  | none =>
    have idle : s.rlg.erasing = false := by rw [Rlg.erasing, erase]
    obtain rfl := Host.Outcome.next.inj ((execEraseComplete_idle idle).symm.trans h)
    exact .refl
  | some e =>
    obtain rfl := Host.Outcome.next.inj ((execEraseComplete_eq erase).symm.trans h)
    exact .ite (eraseEnd_ruled _ _ _) .refl

/-! ## STARTUP_SCAN -/

theorem Rlg.scanned_low : (r.scanned fs).spaceLow = r.spaceLow := by
  have array : r.ArrayOnly (r.scanWrites fs).1 := scanWrites_array
  unfold scanned
  dsimp only
  rw [array]

theorem State.scanEnd_lowTold (fails : Bool) (same : x.spaceLow = s.rlg.spaceLow) : s.LowTold (s.scanEnd x fails) := by
  have ready : s.LowTold (s.readyWith x) := withRlg_lowTold same
  cases fails
  · exact ready.trans eraseTest_lowTold
  · exact (ready.trans (thirdFailure_lowTold [])).trans eraseTest_lowTold

theorem State.scan_tested (fs : List ScanResult) (s : State) : (s.scan fs).rlg.Tested ∧ s.LowTold (s.scan fs) := by
  have low := scanEnd_lowTold (s := s) (s.rlg.scanFails fs) (Rlg.scanned_low (fs := fs))
  rw [scan_eq]
  have tested : (s.scanEnd (s.rlg.scanned fs) (s.rlg.scanFails fs)).rlg.Tested := eraseTest_isTested
  generalize s.scanEnd (s.rlg.scanned fs) (s.rlg.scanFails fs) = u at *
  obtain ⟨same, _, kept⟩ := orphansTold_raised (s := u)
  exact ⟨by rwa [same], low.trans (.of_rlg kept same)⟩

theorem execStartupScan_ruled (h : execStartupScan fs s = .next t) :
    s.EraseRuled t ∧ (s.rlg.testEvent t.rlg → t.rlg.Tested) := by
  obtain rfl := Host.Outcome.next.inj h
  split
  · next starting =>
    obtain ⟨tested, low⟩ := s.scan_tested fs
    refine ⟨.of_tested tested low fun queued => ?_, fun _ => tested⟩
    cases fails : s.rlg.scanFails fs with
    | false => exact .inl ((scan_ready fails).2.2.trans_ne queued)
    | true => exact .inr (scan_fails starting fails).state
  · exact ⟨.refl, fun event => absurd event Rlg.Uneventful.refl.noEvent⟩

end Sys2Proof.Machine
end

section
/-! SUPPORT. What R159, R170 and R171 ask of every command but DEVICE_RESET. -/

namespace Sys2Proof.Machine

open Sys2Proof State

variable {s t : State} {c : Instr}

theorem State.EraseRuled.onSite {f : State → State} (port : Port) (h : s.EraseRuled (f s)) :
    s.EraseRuled (s.onSite port f) := by
  cases port
  · exact h
  · exact (Calm.of_only (wrongPort_only .c)).ruled

theorem State.EraseRuled.onCharge {f : State → State} (port : Port) (h : s.EraseRuled (f s)) :
    s.EraseRuled (s.onCharge port f) := by
  cases port
  · exact (Calm.of_only (wrongPort_only .s)).ruled
  · exact h

theorem State.EraseRuled.of_next {u : State} (h : (.next u : Host.Outcome State Fault Refusal) = .next t) (k : s.EraseRuled u) :
    s.EraseRuled t := by
  obtain rfl := Host.Outcome.next.inj h
  exact k

theorem rlg_not_mem_noticeFields (p : Port) : .rlg ∉ noticeFields p := by
  cases p <;> decide

theorem rlg_not_mem_mailFields (p : Port) : .rlg ∉ [noticeField p, .mail, .replies] := by
  cases p <;> decide

theorem exec_ruled (h : exec c s = .next t) (noReset : ∀ left, c ≠ .deviceReset left) : s.EraseRuled t := by
  have quiet (away : .rlg ∉ commandFields c) : s.EraseRuled t := (Calm.of_only (exec_only h) away).ruled
  cases c with
  | deviceReset left => exact absurd rfl (noReset left)
  | periodClose _ => exact (execPeriodClose_calm h).ruled
  | finalWaitExpiry _ => exact (execFinalWaitExpiry_calm h).ruled
  | sessionReport _ => exact (execSessionReport_calm h).ruled
  | programStart => exact (execProgramStart_calm h).ruled
  | eraseSuspend => exact (execEraseSuspend_calm h).ruled
  | openingProgram _ => exact execOpeningProgram_ruled h
  | closingProgram _ => exact execClosingProgram_ruled h
  | relocation _ => exact execRelocation_ruled h
  | collectProgram _ => exact execCollectProgram_ruled h
  | orphanClosing _ => exact execOrphanClosing_ruled h
  | eraseComplete _ => exact execEraseComplete_ruled h
  | startupScan _ => exact (execStartupScan_ruled h).1
  | readReceipt _ _ => exact (execReadReceipt_calm h).ruled
  | setRetention p _ => exact (EraseRuled.of_next h (.onSite p (setRetentionOp_ruled _)) :)
  | openSession p _ _ _ => exact (EraseRuled.of_next h (.onCharge p (openSessionOp_ruled _ _ _)) :)
  | readNextReceipt p => exact (EraseRuled.of_next h (onCharge_calm p readNextReceiptOp_calm).ruled :)
  | collectReceipt p _ => exact (EraseRuled.of_next h (onCharge_calm p (collectReceiptOp_calm _)).ruled :)
  | readNextOrphan p => exact (EraseRuled.of_next h (onCharge_calm p readNextOrphanOp_calm).ruled :)
  | closeOrphan p _ _ => exact (EraseRuled.of_next h (onCharge_calm p (closeOrphanOp_calm _ _)).ruled :)
  | takeNotice p | endNotice p | setNoticeMask p _ _ => exact quiet (rlg_not_mem_noticeFields p)
  | sendMail p _ => exact quiet (rlg_not_mem_mailFields (otherPort p))
  | portReset p => exact quiet (rlg_not_mem_mailFields p)
  | _ => exact quiet (by simp [commandFields, exchangeFields])

end Sys2Proof.Machine
end

section
/-! SUPPORT. The statement about programs and erases. -/

open Sys2Proof Sys2Proof.Machine Sys2Proof.Machine.State

/-- PROGRAM_START begins the head request's attempt with no erase running (R159). -/
theorem programStart_begins (s : State) : ∃ t, exec .programStart s = .next t ∧ s.onlyChanges [.rlg] t ∧
    t.rlg = { s.rlg with programming := s.rlg.programming || (!s.rlg.queue.isEmpty && !s.rlg.erasing) } := by
  refine ⟨_, rfl, execProgramStart_only rfl, ?_⟩
  by_cases waits : (s.rlg.queue.isEmpty || s.rlg.erasing) = true
  · rw [if_pos waits, ← Bool.not_or, waits, Bool.not_true, Bool.or_false]
  · rw [if_neg waits, ← Bool.not_or, Bool.eq_false_iff.mpr waits, Bool.not_false, Bool.or_true]
    rfl

/-- While an erase runs, or with no request, the programs do nothing (R159). -/
theorem program_waits (o : ProgramOutcome) (c : Instr) (s : State)
    (program : c ∈ [.openingProgram o, .closingProgram o, .relocation o, .collectProgram o, .orphanClosing o])
    (waits : s.rlg.erasing = true ∨ s.rlg.queue = []) : exec c s = .next s := by
  have rests {u : State} (empty : s.rlg.queue = [] → u = s) :
      (.next (if s.rlg.erasing then s else u) : Host.Outcome State Fault Refusal) = .next s := by
    split
    · rfl
    · next idle => rw [empty (waits.resolve_left idle)]
  simp only [List.mem_cons, List.not_mem_nil, or_false] at program
  rcases program with rfl | rfl | rfl | rfl | rfl <;> exact rests fun empty => by rw [empty]

/-- ERASE_SUSPEND (R171). -/
theorem eraseSuspend_suspends (s : State) : ∃ t, exec .eraseSuspend s = .next t ∧ s.onlyChanges [.rlg] t ∧
    (s.rlg.erasing = false ∨ s.rlg.queue = [] → t = s) ∧
    ∀ e, s.rlg.erase = some e → s.rlg.erasing = true → s.rlg.queue ≠ [] →
      t.rlg =
        if 20 ≤ e.sinceResume ∧ e.completesFirst = false then
          { s.rlg with sectors := s.rlg.sectors.set e.sector .eraseSuspended }
        else s.rlg := by
  refine ⟨_, rfl, execEraseSuspend_only rfl, fun rests => ?_, fun e erase runs queued => ?_⟩
  · split
    · refine if_neg fun must => ?_
      simp only [Rlg.mustSuspend, Bool.and_eq_true] at must
      obtain ⟨⟨⟨runs, queued⟩, _⟩, _⟩ := must
      rcases rests with idle | empty
      · rw [idle] at runs
        cases runs
      · rw [empty] at queued
        cases queued
    · rfl
  · have must : s.rlg.mustSuspend e = true ↔ 20 ≤ e.sinceResume ∧ e.completesFirst = false := by
      simp [Rlg.mustSuspend, runs, queued]
    rw [erase]
    by_cases suspends : s.rlg.mustSuspend e = true
    · simp only [suspends, if_true, if_pos (must.mp suspends)]
      rfl
    · simp only [suspends, if_neg (mt must.mpr suspends)]
      rfl

/-- What the end of an erase leaves (R153, R169, R172). -/
theorem eraseComplete_ends (o : HeaderOutcome) (s : State) (k : Fin 16) :
    let inside : Nat → Prop := fun slot => 128 * k.val ≤ slot ∧ slot < 128 * (k.val + 1)
    let asked := BitVec.ofNat 64 s.rlg.nextNumber
    let good := ∃ j : Fin 3, heldAfter o.attempts asked (j.val + 1) = asked
    let t := s.eraseEnd k o
    (∀ a, (inside (a / 128) → t.rlg.readByte a = 0xFF) ∧
      (¬inside (a / 128) → ¬(headerAddress k ≤ a ∧ a < headerAddress k + 8) → t.rlg.readByte a = s.rlg.readByte a)) ∧
    t.rlg.rawBytes (headerAddress k) 8 = leBytes 8 (if good then asked else heldAfter o.attempts asked 3).toNat ∧
    (good → s.onlyChanges [.rlg, .noticesS, .noticesC] t ∧ t.rlg.logState = s.rlg.logState ∧ t.rlg.queue = s.rlg.queue) ∧
    (¬good → s.FaultTaken [] none t ∧ t.rlg.queue = s.queueAfterFault s.rlg.queue) := by
  intro inside asked good t
  obtain ⟨_, verdict, elsewhere, word⟩ := s.rlg.programHeader_programmed k o
  obtain ⟨bytes, words⟩ := s.eraseEnd_array k o
  obtain ⟨_, whenGood, whenBad⟩ := s.headerTried_verdict k o
  obtain ⟨low, frame, log, queue⟩ := s.eraseEnd_end k o
  refine ⟨fun a => ⟨fun within => ?_, fun outside away => ?_⟩, ?_, fun isGood => ?_, fun isBad => ?_⟩
  · have away : ¬(headerAddress k ≤ a ∧ a < headerAddress k + 8) := by
      obtain ⟨_, below⟩ := within
      unfold headerAddress
      omega
    rw [bytes, elsewhere a away, Rlg.readByte_eraseSector, if_pos (inSector_iff.mpr (.inl within))]
    rfl
  · rw [bytes, elsewhere a away, Rlg.readByte_eraseSector, if_neg fun inside => (inSector_iff.mp inside).elim outside away]
  · have place : headerAddress k = 8 * (32768 + k.val) := by
      unfold headerAddress
      omega
    rw [place, Rlg.rawBytes_rawWord, words, word]
    by_cases isGood : good
    · rw [if_pos (verdict.mpr isGood), if_pos isGood]
    · rw [if_neg (mt verdict.mp isGood), if_neg isGood]
  · obtain ⟨only, sameLog, sameQueue⟩ := whenGood (verdict.mpr isGood)
    exact ⟨onlyChanges_then only frame, log.trans sameLog, queue.trans sameQueue⟩
  · obtain ⟨taken, left⟩ := whenBad (mt verdict.mp isBad)
    exact ⟨taken.until frame log queue low.kept, queue.trans left⟩

/-- Settles O39: every command leaves the log ruled by the erase test; the end of an erase, by the header's tries. -/
theorem programsAndErasesShareTheArray : Obligations.ProgramsAndErasesShareTheArray := by
  refine ⟨programStart_begins, program_waits, eraseSuspend_suspends, fun c s t noReset h => ?_, fun o s => ⟨execEraseComplete_idle,
    fun e erase runs => ?_⟩⟩
  · obtain ⟨tested, low, resumed⟩ := exec_ruled h noReset
    refine ⟨fun same event => ?_, low, resumed⟩
    rcases same with log | ⟨fs, rfl⟩
    · exact tested log event
    · exact (execStartupScan_ruled h).2 event
  · intro inside asked good
    have ends : exec (.eraseComplete o) s = .next (if e.time ≤ e.progress then s.eraseEnd e.sector o else s) := by
      refine (execEraseComplete_eq erase).trans (congrArg Host.Outcome.next ?_)
      simp only [runs, Bool.true_and, decide_eq_true_eq]
    refine ⟨fun early => ends.trans (by rw [if_neg (Nat.not_le.mpr early)]), fun due => ⟨s.eraseEnd e.sector o,
      ends.trans (by rw [if_pos due]), ?_⟩⟩
    obtain ⟨bytes, header, whenGood, whenBad⟩ := eraseComplete_ends o s e.sector
    obtain ⟨states, index, next, retention, sector⟩ := s.eraseEnd_freed e.sector o
    exact ⟨bytes, header, fun slot => ⟨fun within => (states slot).trans (if_pos within),
      fun outside => (states slot).trans (if_neg outside)⟩, index, next, retention.1, retention.2, sector, whenGood, whenBad⟩

end

section
/-! SUPPORT. The top of a set of kinds, R192's condition, and what keeps a port's notices in order (R190 to R195, R198). -/

namespace Sys2Proof.Machine

open Sys2Proof State

variable {n : Notices} {mask : Word16} {r : Nat}

/-! ## The greatest rank of a set -/

/-- The greatest rank up to `k` is in the set, unless it is 0, and no kind up to `k` ranks above it. -/
theorem topRankUpTo_spec (mask : Word16) (k : Nat) :
    topRankUpTo mask k ≤ k ∧ (topRankUpTo mask k ≠ 0 → mask.getLsbD (topRankUpTo mask k) = true) ∧
      ∀ j, j ≤ k → mask.getLsbD j = true → j ≤ topRankUpTo mask k := by
  induction k with
  | zero => exact ⟨Nat.le_refl 0, fun some_ => absurd rfl some_, fun j low _ => low⟩
  | succ k ih =>
    obtain ⟨low, member, top⟩ := ih
    unfold topRankUpTo
    split
    · next set => exact ⟨Nat.le_refl _, fun _ => set, fun j le _ => le⟩
    · next clear =>
      refine ⟨Nat.le_succ_of_le low, member, fun j le set => top j ?_ set⟩
      have other : j ≠ k + 1 := fun same => clear (same ▸ set)
      omega

theorem topRank_lt (mask : Word16) : topRank mask < 16 := Nat.lt_succ_of_le (topRankUpTo_spec mask 15).1

/-- The greatest rank of a set that is not empty is in it. -/
theorem getLsbD_topRank (h : topRank mask ≠ 0) : mask.getLsbD (topRank mask) = true := (topRankUpTo_spec mask 15).2.1 h

theorem le_topRank {k : Fin 16} (h : mask.getLsbD k.val = true) : k.val ≤ topRank mask :=
  (topRankUpTo_spec mask 15).2.2 k (by omega) h

/-- A kind of a set with no kind above it is its greatest rank. -/
theorem topRank_eq {k : Fin 16} (h : mask.getLsbD k.val = true) (top : ∀ j : Fin 16, mask.getLsbD j.val = true → j ≤ k) :
    topRank mask = k.val := by
  refine Nat.le_antisymm ?_ (le_topRank h)
  by_cases zero : topRank mask = 0
  · omega
  · exact top ⟨topRank mask, topRank_lt mask⟩ (getLsbD_topRank zero)

theorem topRank_eq_zero : topRank mask = 0 ↔ ∀ k : Fin 16, 0 < k.val → mask.getLsbD k.val = false := by
  refine ⟨fun zero k pos => Bool.eq_false_iff.mpr fun set => ?_, fun none => ?_⟩
  · have := le_topRank set
    omega
  · by_contra some_
    have set := getLsbD_topRank some_
    rw [none ⟨topRank mask, topRank_lt mask⟩ (Nat.pos_of_ne_zero some_)] at set
    cases set

/-- Some kind of the set ranks above `a` when the greatest rank does. -/
theorem lt_topRank {a : Nat} : a < topRank mask ↔ ∃ k : Fin 16, mask.getLsbD k.val = true ∧ a < k.val := by
  refine ⟨fun above => ?_, fun ⟨k, set, above⟩ => Nat.lt_of_lt_of_le above (le_topRank set)⟩
  exact ⟨⟨topRank mask, topRank_lt mask⟩, getLsbD_topRank (by omega), above⟩

/-- A rank is above the greatest of a set when it is above every kind of the set. -/
theorem topRank_lt_iff {a : Nat} (pos : 0 < a) :
    topRank mask < a ↔ ∀ j : Fin 16, 0 < j.val → mask.getLsbD j.val = true → j.val < a := by
  refine ⟨fun below j _ set => Nat.lt_of_le_of_lt (le_topRank set) below, fun all => ?_⟩
  by_cases zero : topRank mask = 0
  · omega
  · exact all ⟨topRank mask, topRank_lt mask⟩ (Nat.pos_of_ne_zero zero) (getLsbD_topRank zero)

/-! ## R192's condition -/

/-- The condition the model computes is R192's. -/
theorem Notices.alerting_iff : n.alerting = true ↔ n.pulls := by
  rw [alerting, decide_eq_true_eq, next, lt_topRank]
  refine exists_congr fun k => ?_
  rw [BitVec.getLsbD_and, Bool.and_eq_true, Nat.max_lt, and_assoc]
  refine and_congr_right fun _ => and_congr_right fun _ => and_congr_right fun above => ?_
  exact topRank_lt_iff (Nat.lt_of_le_of_lt (Nat.zero_le _) above)

/-- A line that has followed its condition stands where R192 says. -/
theorem Notices.settle_pulls : n.settle.alert = true ↔ n.settle.pulls := alerting_iff (n := n)

/-- Notices whose sets and threshold are in range are in order once the line has followed its condition. -/
theorem Notices.settle_inv (threshold : n.threshold ≤ 15)
    (kinds : n.enables.getLsbD 0 = false ∧ n.pending.getLsbD 0 = false ∧ n.inService.getLsbD 0 = false) :
    NoticesInv n.settle where
  line := decide_eq_true_iff
  threshold := threshold
  kinds := kinds

/-! ## What keeps notices in order -/

theorem getLsbD_zero_rankBit (pos : r ≠ 0) : (rankBit r).getLsbD 0 = false := by
  rw [rankBit, BitVec.getLsbD_shiftLeft]
  simp [Nat.pos_of_ne_zero pos]

/-- A raise keeps the notices in order; no kind has rank 0. -/
theorem Notices.raise_inv (h : NoticesInv n) {k : Fin 16} (pos : k ≠ 0) (ns : List Nat) : NoticesInv (n.raise k ns) := by
  obtain ⟨enables, pending, inService⟩ := h.kinds
  refine settle_inv h.threshold ⟨enables, ?_, inService⟩
  have away : k.val ≠ 0 := fun zero => pos (Fin.ext zero)
  rw [BitVec.getLsbD_or, pending, getLsbD_zero_rankBit away, Bool.or_false]

theorem Notices.takeRank_inv (h : NoticesInv n) (pos : r ≠ 0) : NoticesInv (n.takeRank r) := by
  obtain ⟨enables, pending, inService⟩ := h.kinds
  refine settle_inv h.threshold ⟨enables, ?_, ?_⟩
  · rw [BitVec.getLsbD_and, pending, Bool.false_and]
  · rw [BitVec.getLsbD_or, inService, getLsbD_zero_rankBit pos, Bool.or_false]

theorem Notices.endTop_inv (h : NoticesInv n) : NoticesInv n.endTop := by
  obtain ⟨enables, pending, inService⟩ := h.kinds
  refine settle_inv h.threshold ⟨enables, pending, ?_⟩
  rw [BitVec.getLsbD_and, inService, Bool.false_and]

theorem Notices.mask_inv (h : NoticesInv n) (enables : Word16) {threshold : Nat} (low : threshold ≤ 15) :
    NoticesInv (n.mask enables threshold) := by
  obtain ⟨_, pending, inService⟩ := h.kinds
  refine settle_inv low ⟨?_, pending, inService⟩
  rw [BitVec.getLsbD_and]
  exact Bool.and_false _

end Sys2Proof.Machine
end

section
/-! SUPPORT. The receipt log's lists keep their canonical form through every operation of the log (R153, R154). -/

namespace Sys2Proof.Machine

open Sys2Proof State

variable {s t u : State} {r x : Rlg} {slot : Nat} {q : ProgramRequest}

/-- The log's bytes, check codes and slot states are in canonical form. -/
def Rlg.Canonical (r : Rlg) : Prop := r.arrayWf ∧ sparseWf SlotState.erased r.slotStates = true

theorem arrayInv_iff : ArrayInv s ↔ s.rlg.Canonical :=
  ⟨fun ⟨cells, codes, slots⟩ => ⟨⟨cells, codes⟩, slots⟩, fun ⟨⟨cells, codes⟩, slots⟩ => ⟨cells, codes, slots⟩⟩

/-- The canonical form is a matter of the three lists alone. -/
theorem Rlg.Canonical.congr (h : r.Canonical) (array : x.cells = r.cells ∧ x.codes = r.codes)
    (slots : x.slotStates = r.slotStates) : x.Canonical := by
  unfold Canonical arrayWf at *
  rwa [array.1, array.2, slots]

theorem Rlg.Tidied.canonical (h : r.Tidied x) (form : r.Canonical) : x.Canonical := form.congr h.array h.slots

/-- Programs that keep the array's form keep the log's. -/
theorem Rlg.ArrayOnly.canonical (h : r.ArrayOnly x) (wf : r.arrayWf → x.arrayWf) (form : r.Canonical) : x.Canonical :=
  ⟨wf form.1, h.slotStates.symm ▸ form.2⟩

theorem Rlg.Canonical.withSlotState (h : r.Canonical) (slot : Nat) (z : SlotState) : (r.withSlotState slot z).Canonical :=
  ⟨h.1, sparseWf_sparseSet h.2⟩

theorem Rlg.Canonical.programMark (h : r.Canonical) (slot : Nat) (m : Mark) (ms : List MarkResult) :
    (r.programMark slot m ms).1.Canonical :=
  (programMark_array slot m ms).canonical programMark_wf h

theorem Rlg.Canonical.programWords (h : r.Canonical) (slot first : Nat) (words : List Word64) (o : ProgramOutcome) :
    (Rlg.programWords slot o.words first words r).1.Canonical :=
  (programWords_taken (o := o) first words).array.canonical programWords_wf h

theorem Rlg.Canonical.programPart (h : r.Canonical) (slot first : Nat) (words : List Word64) (m : Mark)
    (o : ProgramOutcome) : (r.programPart slot first words m o).1.Canonical := by
  have written := h.programWords slot first words o
  unfold Rlg.programPart
  dsimp only
  split
  · exact written.programMark _ _ _
  · exact written

theorem Rlg.Canonical.programRecord (h : r.Canonical) (damaged : Bool) (slot : Nat) (words : List Word64)
    (o : ProgramOutcome) : (r.programRecord damaged slot words o).1.Canonical := by
  cases damaged with
  | true => exact (congrArg (fun y : Rlg × Bool => y.1.Canonical) (programRecord_damaged words)).mpr h
  | false =>
    have written := h.programWords slot 0 words o
    simp only [Rlg.programRecord, Bool.false_eq_true, if_false]
    split
    · exact (written.programMark _ _ _).programMark _ _ _
    · exact written

/-- The programs of a relocation attempt (R162). -/
theorem Rlg.Canonical.relocationPrograms (h : r.Canonical) (part : ClosingPart) (n slot new : Nat) (o : ProgramOutcome) :
    (r.relocationPrograms part n slot new o).1.Canonical :=
  ((countWords_countsOnly (16 * slot) 4).tidied.canonical h).programRecord _ _ _ _

theorem Rlg.Canonical.setIndex (h : r.Canonical) (n slot : Nat) : (r.setIndex n slot).Canonical := h.congr ⟨rfl, rfl⟩ rfl

theorem Rlg.Canonical.recordMoved (h : r.Canonical) (n slot new : Nat) (o : ProgramOutcome) :
    (r.recordMoved n slot new o).Canonical :=
  (((h.withSlotState new .closed).withSlotState slot .superseded).setIndex n new).programMark _ _ _

/-- A slot taken by a reservation (R155). -/
theorem Rlg.Reserved.canonical (h : r.Reserved slot x) (form : r.Canonical) : x.Canonical :=
  (form.withSlotState slot .reserved).congr h.array h.slots

theorem Rlg.Canonical.programHeader (h : r.Canonical) (k : Fin 16) (o : HeaderOutcome) :
    ((r.eraseSector k).programHeader k o).1.Canonical := by
  obtain ⟨array, _⟩ := r.programHeader_programmed k o
  exact array.canonical (fun _ => programHeader_wf (eraseSector_wf h.1)) h

/-- The end of an erase leaves slot states out and keeps the array (R172). -/
theorem Rlg.Canonical.sectorErased (h : r.Canonical) (k : Fin 16) : (r.sectorErased k).Canonical := by
  unfold Rlg.sectorErased
  obtain ⟨_, _, _, ring⟩ := activateSuccessor_ring { r with
      slotStates := r.slotStates.filter (fun e => !(decide (128 * k.val ≤ e.1) && decide (e.1 < 128 * (k.val + 1))))
      index := r.index.filter (fun e => !(decide (128 * k.val ≤ e.2) && decide (e.2 < 128 * (k.val + 1))))
      sectors := r.sectors.set k .free
      erase := none
      rRet := r.heldRet.getD r.rRet
      heldRet := none }
  rw [ring]
  exact ⟨h.1, sparseWf_filter _ h.2⟩

/-- A table of rising keys with its defaults left out. -/
theorem sparseWf_range {β : Type} [DecidableEq β] (d : β) (f : Nat → β) (n : Nat) :
    sparseWf d (((List.range n).map fun i => (i, f i)).filter fun e => e.2 != d) = true := by
  rw [sparseWf_iff]
  refine ⟨List.Pairwise.sublist (List.Sublist.map _ List.filter_sublist) ?_, fun e mem => ?_⟩
  · rw [List.map_map, show Prod.fst ∘ (fun i => (i, f i)) = id from rfl, List.map_id]
    exact List.pairwise_lt_range
  · simpa using (List.mem_filter.mp mem).2

/-- What the scan leaves: the array after its own programs, and the slot states by rising slot index (R174, R175). -/
theorem Rlg.Canonical.scanned (h : r.Canonical) (fs : List ScanResult) : (r.scanned fs).Canonical := by
  unfold Canonical arrayWf
  rw [scanned_cells, scanned_codes, scanned_slotStates]
  exact ⟨scanPrograms_wf h.1, sparseWf_range _ _ _⟩

theorem Rlg.foldl_countWord_tidied (ws : List Nat) : r.Tidied (ws.foldl Rlg.countWord r) := by
  induction ws generalizing r with
  | nil => exact CountsOnly.refl.tidied
  | cons w ws ih => exact (countWords_countsOnly w 1).tidied.trans ih

theorem Rlg.Canonical.passMillisecond (h : r.Canonical) (now : Nat) : (r.passMillisecond now).Canonical := by
  unfold Rlg.passMillisecond
  split
  · exact ((foldl_countWord_tidied _).canonical h).congr ⟨rfl, rfl⟩ rfl
  · split
    · exact h.congr ⟨rfl, rfl⟩ rfl
    · exact h

/-! ## Device reset -/

theorem Rlg.storeBytes_array (a : Nat) (bs : List Byte) : r.ArrayOnly (r.storeBytes a bs) := by
  induction bs generalizing r a with
  | nil => rfl
  | cons b bs ih => exact ArrayOnly.trans (t := r.storeByte a b) rfl (ih _)

theorem Rlg.storeWord_array (w : Nat) (y : ArrayResult) : r.ArrayOnly (r.storeWord w y) :=
  (storeBytes_array _ _).trans rfl

theorem Rlg.storeAt_array (y : ArrayResult) (place : ArrayPlace) : r.ArrayOnly (r.storeAt y place) := by
  cases place with
  | word w => exact storeWord_array w y
  | markByte slot i => rfl

theorem Rlg.applyResidue_array (before : Rlg) (y : Residue) : r.ArrayOnly (r.applyResidue before y) := by
  unfold applyResidue
  dsimp only
  split
  · split
    · exact (storeWord_array _ _).trans (storeAt_array _ _)
    · exact storeAt_array _ _
  · split
    · exact storeAt_array _ _
    · rfl

/-- The residues are laid down one after the other: the rest of the log stays at its reset value (R199), and the array in
canonical form. -/
theorem Rlg.foldl_applyResidue (before : Rlg) (ys : List Residue) :
    r.ArrayOnly (ys.foldl (fun v y => v.applyResidue before y) r) ∧
      (r.arrayWf → (ys.foldl (fun v y => v.applyResidue before y) r).arrayWf) := by
  induction ys generalizing r with
  | nil => exact ⟨rfl, id⟩
  | cons y ys ih =>
    obtain ⟨array, wf⟩ := ih (r := r.applyResidue before y)
    exact ⟨(applyResidue_array before y).trans array, fun form => wf (applyResidue_wf form)⟩

theorem Rlg.afterReset_array (left : List Residue) : (Rlg.reset r.cells r.codes).ArrayOnly (r.afterReset left) :=
  (foldl_applyResidue _ _).1

theorem Rlg.Canonical.afterReset (h : r.Canonical) (left : List Residue) : (r.afterReset left).Canonical :=
  (afterReset_array left).canonical (foldl_applyResidue _ _).2 ⟨h.1, rfl⟩

end Sys2Proof.Machine
end

section
/-! SUPPORT. Alert lines and array form through the shared operations (R153, R190 to R192). -/

namespace Sys2Proof.Machine

open Sys2Proof State

variable {s t u : State} {x : Rlg} {fs : List Field} {p : Point} {n : Fin 26} {q : ProgramRequest}

/-! ## How it composes -/

/-- From `s` to `t` the notices of both ports stay in order, and the receipt log in canonical form. -/
structure State.FormKept (s t : State) : Prop where
  alerts : AlertInv s → AlertInv t
  array : ArrayInv s → ArrayInv t

/-- Neither the receipt log nor a port's notices are among the fields. -/
def clearOfForm (fs : List Field) : Bool := !fs.contains .rlg && !fs.contains .noticesS && !fs.contains .noticesC

namespace State.FormKept

theorem refl : s.FormKept s := ⟨id, id⟩

theorem trans (h : s.FormKept t) (k : t.FormKept u) : s.FormKept u :=
  ⟨fun alerts => k.alerts (h.alerts alerts), fun array => k.array (h.array array)⟩

/-- What leaves the log and both notice states alone. -/
theorem of_only (h : s.onlyChanges fs t)
    (clear : clearOfForm fs = true) : s.FormKept t := by
  simp only [clearOfForm, Bool.and_eq_true, Bool.not_eq_true', List.contains_eq_mem, decide_eq_false_iff_not] at clear
  obtain ⟨⟨rlg, site⟩, charge⟩ := clear
  have sameS : t.noticesS = s.noticesS := h .noticesS site
  have sameC : t.noticesC = s.noticesC := h .noticesC charge
  have same : t.rlg = s.rlg := h .rlg rlg
  refine ⟨fun alerts => ?_, fun array => ?_⟩
  · rwa [AlertInv, sameS, sameC]
  · rwa [arrayInv_iff, same, ← arrayInv_iff]

theorem then_only (h : s.FormKept t) (k : t.onlyChanges fs u)
    (clear : clearOfForm fs = true) : s.FormKept u := h.trans (of_only k clear)

theorem ite {b : Prop} [Decidable b] (h : s.FormKept t) (k : s.FormKept u) : s.FormKept (if b then t else u) := by
  split
  · exact h
  · exact k

theorem foldl {α : Type} {g : State → α → State} (h : ∀ (v : State) a, v.FormKept (g v a)) (as : List α) :
    s.FormKept (as.foldl g s) := by
  induction as generalizing s with
  | nil => exact refl
  | cons a as ih => exact (h s a).trans ih

/-- A log in canonical form in the place of one. -/
theorem withRlg (form : s.rlg.Canonical → x.Canonical) : s.FormKept (s.withRlg x) :=
  ⟨id, fun array => arrayInv_iff.mpr (form (arrayInv_iff.mp array))⟩

theorem withRlg_tidied (h : s.rlg.Tidied x) : s.FormKept (s.withRlg x) := withRlg h.canonical

/-- A port's notices in order in the place of such. -/
theorem withNotices (port : Port) {m : Notices} (form : NoticesInv (s.notices port) → NoticesInv m) :
    s.FormKept (s.withNotices port m) := by
  cases port with
  | s => exact ⟨fun ⟨site, charge⟩ => ⟨form site, charge⟩, fun ⟨cells, codes, slots⟩ => ⟨cells, codes, slots⟩⟩
  | c => exact ⟨fun ⟨site, charge⟩ => ⟨site, form charge⟩, fun ⟨cells, codes, slots⟩ => ⟨cells, codes, slots⟩⟩

end State.FormKept

/-! ## Notices -/

theorem NoticeKind.rank_ne_zero (k : NoticeKind) : k.rank ≠ 0 := by
  cases k <;> decide

theorem State.raise_formKept (port : Port) (k : NoticeKind) (ns : List Nat) : s.FormKept (s.raise port k ns) :=
  .withNotices port fun form => Notices.raise_inv form k.rank_ne_zero ns

theorem State.raiseBoth_formKept (k : NoticeKind) (ns : List Nat) : s.FormKept (s.raiseBoth k ns) :=
  (raise_formKept .s k ns).trans (raise_formKept .c k ns)

/-- Something that leaves log and notices alone, then a raise. -/
theorem State.raised_formKept (h : s.onlyChanges fs t) (clear : clearOfForm fs = true)
    (port : Port) (k : NoticeKind) (ns : List Nat) : s.FormKept (t.raise port k ns) :=
  (FormKept.of_only h clear).trans (raise_formKept port k ns)

/-! ## The receipt log -/

theorem State.eraseTest_formKept : s.FormKept s.eraseTest where
  alerts alerts := by
    unfold eraseTest
    dsimp only
    split
    · exact (raiseBoth_formKept _ _).alerts alerts
    · exact alerts
  array array := arrayInv_iff.mpr ((eraseTest_rlg s).1.tidied.canonical (arrayInv_iff.mp array))

/-- A log in canonical form, then the erase test. -/
theorem State.tested_formKept (form : s.rlg.Canonical → x.Canonical) : s.FormKept (s.withRlg x).eraseTest :=
  (FormKept.withRlg form).trans eraseTest_formKept

theorem State.whenEmpty_formKept : s.FormKept s.whenEmpty := by
  unfold whenEmpty
  split
  · exact tested_formKept Rlg.resumeErase_tidied.1.canonical
  · exact .refl

theorem State.withoutHead_formKept : s.FormKept s.withoutHead := .withRlg_tidied withoutHead_tidied

theorem State.endRequest_formKept : s.FormKept s.endRequest := withoutHead_formKept.trans whenEmpty_formKept

theorem State.retryHead_formKept (q : ProgramRequest) : s.FormKept (s.retryHead q) := .withRlg_tidied (retryHead_tidied q)

theorem State.enterFault_formKept (v : State) : v.FormKept v.enterFault where
  alerts alerts := by
    have site : v.enterFault.noticesS = v.noticesS := enterFault_only .noticesS (by decide)
    have charge : v.enterFault.noticesC = v.noticesC := enterFault_only .noticesC (by decide)
    rwa [AlertInv, site, charge]
  array array := by
    obtain ⟨cells, codes, slots⟩ := array
    refine arrayInv_iff.mpr ?_
    rw [enterFault_rlg]
    exact ⟨⟨cells, codes⟩, slots⟩

theorem State.thirdFailure_formKept (ns : List Nat) : s.FormKept (s.thirdFailure ns) := by
  have told : s.FormKept (s.raiseBoth .storeFault ns) := raiseBoth_formKept _ _
  unfold thirdFailure
  dsimp only
  split
  · exact told
  · exact told.trans (enterFault_formKept _)

theorem State.failHead_formKept (ns : List Nat) : s.FormKept (s.failHead ns) :=
  (withoutHead_formKept.trans (thirdFailure_formKept ns)).trans whenEmpty_formKept

theorem State.markBad_formKept (slot : Nat) (ms : List MarkResult) : s.FormKept (s.markBad slot ms) :=
  tested_formKept fun form => (form.programMark slot .bad ms).withSlotState slot .bad

/-- A reservation with its erase test (R158, R170). -/
theorem State.reserveWith_formKept {slot : Nat} (h : s.reserveWith s.rlg.reserve = some (slot, u)) : s.FormKept u := by
  cases fill : s.rlg.fill with
  | none =>
    rw [Rlg.reserve, fill] at h
    cases h
  | some f =>
    obtain ⟨x, taken, reserved⟩ := Rlg.reserve_reserved fill
    rw [taken] at h
    cases h
    exact tested_formKept reserved.canonical

theorem State.reserveAgain_formKept {slot : Nat} (h : s.reserveWith s.rlg.reserveAgain = some (slot, u)) :
    s.FormKept u := by
  unfold Rlg.reserveAgain at h
  split at h
  · cases h
  · exact reserveWith_formKept h

/-- A relocation attempt, however it ends (R162). -/
theorem State.relocate_formKept (part : ClosingPart) (q : ProgramRequest) (o : ProgramOutcome) :
    s.FormKept (s.relocate part q o).1 := by
  rcases s.reserveAgain_cases with none | ⟨new, u, taken, _⟩
  · rw [relocate, none]
    exact .refl
  · rw [relocate_eq taken rfl]
    have programmed (form : u.rlg.Canonical) := form.relocationPrograms part q.number q.slot new o
    refine (reserveAgain_formKept taken).trans ?_
    split
    · exact tested_formKept fun form => (programmed form).recordMoved _ _ _ _
    · exact (FormKept.withRlg programmed).trans (markBad_formKept _ _)

theorem State.enqueue_formKept (q : ProgramRequest) : s.FormKept (s.enqueue q) :=
  .withRlg fun form => form.congr ⟨rfl, rfl⟩ rfl

theorem State.countWords_formKept (w k : Nat) : s.FormKept (s.withRlg (s.rlg.countWords w k)) :=
  .withRlg_tidied (Rlg.countWords_countsOnly w k).tidied

/-! ## The limit supervisor -/

theorem State.escalate_formKept (e : Escalation) : s.FormKept (s.escalate e) :=
  (FormKept.of_only (withLsu_only _) rfl).trans (raiseBoth_formKept _ _)

theorem State.lapse_formKept : s.FormKept s.lapse :=
  (raised_formKept (withLsu_only _) rfl _ _ _).then_only republishAndAsk_only rfl

theorem State.leaseTick_formKept : s.FormKept s.leaseTick := by
  unfold leaseTick
  split
  · exact .ite lapse_formKept (.of_only (withLsu_only _) rfl)
  · exact .refl
  · exact .refl

theorem State.lineEdge_formKept : s.FormKept s.lineEdge :=
  (raised_formKept (withLsu_only _) rfl _ _ _).then_only sendRecompute_only rfl

theorem State.enterTripped_formKept : s.FormKept s.enterTripped := by
  have moved : s.FormKept s.moveToTripped :=
    ((escalate_formKept _).trans (raiseBoth_formKept _ _)).then_only (withLsu_only _) rfl
  rw [enterTripped_eq]
  exact (moved.then_only allZeroRequest_only rfl).then_only (withSsu_only _) rfl

/-- The four moves of the escalation machine. -/
theorem State.JudgedInto.formKept (h : s.JudgedInto t) : s.FormKept t := by
  cases h with
  | stays l _ => exact .of_only (withLsu_only l) rfl
  | moves e l _ _ _ _ => exact (escalate_formKept e).then_only (withLsu_only l) rfl
  | sheds _ => exact (escalate_formKept _).then_only allZeroRequest_only rfl
  | trips _ => exact enterTripped_formKept

theorem State.configure_formKept (imp : Nat) : s.FormKept (s.configure imp) := by
  unfold configure
  split
  · exact .ite (escalate_formKept _) .refl
  · exact .ite (.of_only (withLsu_only _) rfl) (escalate_formKept _)

theorem State.acceptLimits_formKept (c : ClampedLimits) : s.FormKept (s.acceptLimits c) :=
  (((FormKept.of_only (withLsu_only _) rfl).trans (configure_formKept _)).then_only (withLsu_only _) rfl).then_only
    sendRecompute_only rfl

/-! ## Periods, balance, link -/

theorem State.endFinalWait_formKept (p : Point) : s.FormKept (s.endFinalWait p) :=
  (FormKept.of_only (withSession_only p _) rfl).trans (enqueue_formKept _)

theorem State.finalWaitTick_formKept (p : Point) : s.FormKept (s.finalWaitTick p) := by
  unfold finalWaitTick
  dsimp only
  split
  · have counted (x : Session) : s.FormKept (s.withSession p x) := .of_only (withSession_only p x) rfl
    exact .ite (counted _) ((counted _).trans (endFinalWait_formKept p))
  · exact .refl

theorem State.closePeriod_formKept (r : Reading) : s.FormKept (s.closePeriod r) := by
  have judged : s.FormKept (s.judgedAt r) :=
    (FormKept.of_only (withCmu_only _) rfl).trans (applyJudgement_judged _).formKept
  exact (((judged.then_only (send_only _) rfl).then_only (withLsu_only _) rfl).trans
    (.foldl (fun _ => finalWaitTick_formKept) _)).then_only (withFlc_only _) rfl

theorem State.countMissing_formKept (r : Reading) : s.FormKept (s.countMissing r) := by
  unfold countMissing
  split
  · exact raised_formKept (withBau_only _) rfl _ _ _
  · exact .of_only (withBau_only _) rfl
  · exact .of_only (withBau_only _) rfl

theorem State.takeReport_formKept (n : Fin 26) (echo : Byte) (report : Report) : s.FormKept (s.takeReport n echo report) :=
  (FormKept.ite (raised_formKept (withNode_only n _) rfl _ _ _) (.of_only (withNode_only n _) rfl)).then_only
    (reportRequests_only n echo report) rfl

theorem State.declareLost_formKept (n : Fin 26) : s.FormKept (s.declareLost n) := by
  have told : s.FormKept ((s.withNode n { s.node n with state := .lost }).raiseBoth .nodeLost [n.val]) :=
    (FormKept.of_only (withNode_only n _) rfl).trans (raiseBoth_formKept _ _)
  unfold declareLost
  dsimp only
  split
  · exact (told.then_only (leaveOnline_only _) rfl).then_only (withSession_only _ _) rfl
  · exact told

theorem State.takeMiss_formKept (n : Fin 26) (error : Bool) : s.FormKept (s.takeMiss n error) :=
  .ite ((FormKept.of_only (withNode_only n _) rfl).trans (declareLost_formKept n)) (.of_only (withNode_only n _) rfl)

theorem State.endExchange_formKept (y : Exchange) (e : ExchangeEnd) : s.FormKept (s.endExchange y e) := by
  refine FormKept.then_only (.ite .refl ?_) closeExchange_only rfl
  cases e with
  | noReply => exact takeMiss_formKept _ _
  | error => exact takeMiss_formKept _ _
  | valid echo report => exact takeReport_formKept _ _ _

theorem State.cutExchange_formKept (e : ExchangeEnd) : s.FormKept (s.cutExchange e) := by
  unfold cutExchange
  split
  · exact endExchange_formKept _ e
  · exact .refl

/-! ## Sessions -/

theorem State.openingCompleted_formKept (p : Point) : s.FormKept (s.openingCompleted p) := by
  unfold openingCompleted
  split
  · exact raised_formKept (enterWaiting_only p) rfl _ _ _
  · exact raised_formKept (startClose_only p _) rfl _ _ _

theorem State.openingFailed_formKept (p : Point) : s.FormKept (s.openingFailed p) :=
  raised_formKept (freeSession_only p) rfl _ _ _

theorem State.closingCompleted_formKept (p : Point) : s.FormKept (s.closingCompleted p) :=
  raised_formKept (freeSession_only p) rfl _ _ _

theorem State.enterDone_formKept (p : Point) : s.FormKept (s.enterDone p) :=
  ((FormKept.of_only (withdraw_only p) rfl).then_only (withSession_only p _) rfl).trans (raise_formKept _ _ _)

theorem State.requestTest_formKept (p : Point) (n : Nat) : s.FormKept (s.requestTest p n) := by
  have counted : s.FormKept (s.countRequest p n) :=
    .ite (.of_only (withSession_only p _) rfl) (.ite (enterDone_formKept p) (.of_only (withSession_only p _) rfl))
  unfold requestTest
  split
  · exact counted
  · exact counted
  · exact .ite (.of_only (enterWaiting_only p) rfl) .refl
  · exact .refl
  · exact .refl
  · exact .refl
  · exact .refl

theorem State.sessionReport_formKept (p : Point) (echo : Byte) (register : Word32) (request : Nat) (plugged : Bool) :
    s.FormKept (s.sessionReport p echo register request plugged) := by
  have final (v : State) : v.FormKept (v.finalTest p echo) := .ite (endFinalWait_formKept p) .refl
  have accounted : s.FormKept (s.accountReport p register) := .of_only (accountReport_only p register) rfl
  exact ((accounted.trans (final _)).then_only (plugTest_only p plugged) rfl).trans (requestTest_formKept p request)

theorem State.openSession_formKept (p : Point) (slot : Nat) (part : OpeningPart) :
    s.FormKept (s.openSession p slot part) :=
  ((FormKept.of_only (withSession_only p _) rfl).then_only (withTfu_only _) rfl).trans (enqueue_formKept _)

end Sys2Proof.Machine
end

section
/-! SUPPORT. What keeps the notices of both ports in order and the receipt log in canonical form: every command (R153, R190
to R192). -/

namespace Sys2Proof.Machine

open Sys2Proof State

variable {s t u m : State} {c : Instr} {o : ProgramOutcome} {q : ProgramRequest} {p : Port}

/-! ## Commands and their replies -/

theorem State.FormKept.of_next (h : (.next u : Host.Outcome State Fault Refusal) = .next t) (k : s.FormKept u) :
    s.FormKept t := by
  obtain rfl := Host.Outcome.next.inj h
  exact k

theorem State.FormKept.ok (h : s.FormKept t) (p : Port) (clamped : Bool) (bytes : List Byte) :
    s.FormKept (t.ok p clamped bytes) := h.then_only (ok_only p clamped bytes) rfl

theorem State.FormKept.accepted (h : s.FormKept t) (p : Port) (bytes : List Byte) : s.FormKept (t.accepted p bytes) :=
  h.then_only (accepted_only p bytes) rfl

theorem State.turnDown_formKept (p : Port) (a : Status) (b : Reason) : s.FormKept (s.turnDown p a b) :=
  .of_only (turnDown_only p a b) rfl

theorem State.FormKept.onSite {f : State → State} (p : Port) (h : s.FormKept (f s)) : s.FormKept (s.onSite p f) := by
  cases p
  · exact h
  · exact .of_only (wrongPort_only .c) rfl

theorem State.FormKept.onCharge {f : State → State} (p : Port) (h : s.FormKept (f s)) : s.FormKept (s.onCharge p f) := by
  cases p
  · exact .of_only (wrongPort_only .s) rfl
  · exact h

/-! ## Device reset and the scan -/

theorem State.deviceReset_formKept (left : List Residue) : s.FormKept (s.deviceReset left) where
  alerts _ := ⟨Notices.reset_inv, Notices.reset_inv⟩
  array form := arrayInv_iff.mpr ((arrayInv_iff.mp form).afterReset left)

theorem State.scan_formKept (fs : List ScanResult) (s : State) : s.FormKept (s.scan fs) := by
  have readied (x : Rlg) (form : s.rlg.Canonical → x.Canonical) : s.FormKept (s.readyWith x) :=
    .withRlg fun before => (form before).congr ⟨rfl, rfl⟩ rfl
  have ready := readied (s.rlg.scanned fs) fun form => form.scanned fs
  have ended : s.FormKept (s.scanEnd (s.rlg.scanned fs) (s.rlg.scanFails fs)) := by
    cases s.rlg.scanFails fs
    · rw [scanEnd_good]
      exact ready.trans eraseTest_formKept
    · rw [scanEnd_fails]
      exact (ready.trans (thirdFailure_formKept [])).trans eraseTest_formKept
  rw [scan_eq]
  exact ended.trans (.ite .refl (raise_formKept .c _ _))

/-! ## The programs of the receipt log -/

theorem State.openingAttemptFailed_formKept (x : Point) (q : ProgramRequest) (ms : List MarkResult) :
    s.FormKept (s.openingAttemptFailed x q ms) := by
  have marked := markBad_formKept (s := s) q.slot ms
  unfold openingAttemptFailed
  dsimp only
  split
  · next slot u reserves =>
    split at reserves
    · have taken := marked.trans (reserveAgain_formKept reserves)
      exact (taken.then_only (withSession_only x _) rfl).trans (retryHead_formKept _)
    · nomatch reserves
  · exact (marked.trans (openingFailed_formKept x)).trans (failHead_formKept _)

theorem State.openingAttempt_formKept (x : Point) (part : OpeningPart) (q : ProgramRequest) (o : ProgramOutcome) :
    s.FormKept (s.openingAttempt x part q o) := by
  have programmed (form : s.rlg.Canonical) := form.programPart q.slot 0 (wordsOf 4 (openingBytes part)) .opened o
  rw [openingAttempt_eq rfl]
  refine .ite ?_ ((FormKept.withRlg programmed).trans (openingAttemptFailed_formKept x q o.marks))
  have opened := FormKept.withRlg fun form => ((programmed form).withSlotState q.slot .opened).setIndex q.number q.slot
  exact (opened.trans (openingCompleted_formKept x)).trans endRequest_formKept

theorem State.closeInPlace_formKept (part : ClosingPart) (q : ProgramRequest) (o : ProgramOutcome) :
    s.FormKept (s.closeInPlace part q o).1 := by
  have programmed (form : s.rlg.Canonical) :=
    form.programPart q.slot 4 (wordsOf 11 (closingBytes part q.number none)) .closed o
  rw [closeInPlace_eq rfl]
  split
  · exact .withRlg fun form => (programmed form).withSlotState q.slot .closed
  · exact .withRlg programmed

theorem State.orphanClosed_formKept (n : Nat) : s.FormKept (s.orphanClosed n) :=
  (FormKept.withRlg (x := { s.rlg with orphans := s.rlg.orphans.filter (fun k => k != n) })
    fun form => form.congr ⟨rfl, rfl⟩ rfl).trans endRequest_formKept

theorem State.orphanRelocation_formKept (n : Nat) (part : ClosingPart) (q : ProgramRequest) (o : ProgramOutcome) :
    s.FormKept (s.orphanRelocation n part q o) := by
  have relocated := relocate_formKept (s := s) part q o
  rw [orphanRelocation_eq]
  generalize s.relocate part q o = x at relocated ⊢
  rcases x with ⟨t, _ | _ | _⟩
  · exact relocated.trans (failHead_formKept _)
  · exact .ite (relocated.trans (retryHead_formKept _)) (relocated.trans (failHead_formKept _))
  · exact relocated.trans (orphanClosed_formKept _)

theorem execOpeningProgram_formKept (h : execOpeningProgram o s = .next t) : s.FormKept t := by
  obtain rfl := Host.Outcome.next.inj h
  refine .ite .refl ?_
  split
  · split
    · exact openingAttempt_formKept _ _ _ o
    · exact .refl
  · exact .refl

theorem execClosingProgram_formKept (h : execClosingProgram o s = .next t) : s.FormKept t := by
  obtain rfl := Host.Outcome.next.inj h
  refine .ite .refl ?_
  split
  · next q _ _ =>
    split
    · next x part _ _ =>
      have closed := closeInPlace_formKept (s := s) part q o
      exact .ite ((closed.trans (closingCompleted_formKept x)).trans endRequest_formKept)
        (closed.trans (retryHead_formKept _))
    · exact .refl
  · exact .refl

theorem execRelocation_formKept (h : execRelocation o s = .next t) : s.FormKept t := by
  obtain rfl := Host.Outcome.next.inj h
  refine .ite .refl ?_
  split
  · next q _ _ =>
    split
    · next x part _ _ _ =>
      have relocated := relocate_formKept (s := s) part q o
      split
      · next moved =>
        rw [moved] at relocated
        exact ((relocated.then_only (withSession_only x _) rfl).trans (closingCompleted_formKept x)).trans
          endRequest_formKept
      · next failed =>
        rw [failed] at relocated
        exact .ite (relocated.trans (retryHead_formKept _)) (relocated.trans (failHead_formKept _))
      · next none =>
        rw [none] at relocated
        exact relocated.trans (failHead_formKept _)
    · exact .refl
  · exact .refl

theorem execCollectProgram_formKept (h : execCollectProgram o s = .next t) : s.FormKept t := by
  obtain rfl := Host.Outcome.next.inj h
  refine .ite .refl ?_
  split
  · next q _ _ =>
    split
    · have programmed (form : s.rlg.Canonical) := form.programMark q.slot .collected o.marks
      have written : s.FormKept (s.withRlg (s.rlg.programMark q.slot .collected o.marks).1) := .withRlg programmed
      have failed := written.trans (failHead_formKept [])
      have collected := tested_formKept fun form => (programmed form).withSlotState q.slot .collected
      exact .ite (collected.trans endRequest_formKept)
        (.ite (written.trans (retryHead_formKept _))
          (.ite (failed.trans (tested_formKept fun form => form.withSlotState q.slot .collected)) failed))
    · exact .refl
  · exact .refl

theorem execOrphanClosing_formKept (h : execOrphanClosing o s = .next t) : s.FormKept t := by
  obtain rfl := Host.Outcome.next.inj h
  refine .ite .refl ?_
  split
  · next q _ _ =>
    split
    · next n part _ =>
      have read := countWords_formKept (s := s) (16 * q.slot + 4) 11
      have closed := read.trans (closeInPlace_formKept part q o)
      exact .ite (.ite (.ite (closed.trans (orphanClosed_formKept _)) (closed.trans (retryHead_formKept _)))
        (read.trans (orphanRelocation_formKept n part q o))) (orphanRelocation_formKept n part q o)
    · exact .refl
  · exact .refl

theorem State.eraseEnd_formKept (k : Fin 16) (x : HeaderOutcome) : s.FormKept (s.eraseEnd k x) := by
  have programmed : s.FormKept (s.withRlg ((s.rlg.eraseSector k).programHeader k x).1) :=
    .withRlg fun form => form.programHeader k x
  have tried : s.FormKept (s.headerTried k x) := .ite programmed (programmed.trans (thirdFailure_formKept []))
  exact tried.trans (tested_formKept fun form => form.sectorErased k)

theorem execEraseComplete_formKept {x : HeaderOutcome} (h : execEraseComplete x s = .next t) : s.FormKept t := by
  cases erase : s.rlg.erase with
  | none => exact .of_next ((execEraseComplete_idle (by rw [Rlg.erasing, erase])).symm.trans h) .refl
  | some e => exact .of_next ((execEraseComplete_eq erase).symm.trans h) (.ite (eraseEnd_formKept _ _) .refl)

theorem execEraseSuspend_formKept (h : execEraseSuspend s = .next t) : s.FormKept t := by
  obtain rfl := Host.Outcome.next.inj h
  split
  · exact .ite (.withRlg fun form => form.congr ⟨rfl, rfl⟩ rfl) .refl
  · exact .refl

/-! ## The commands of the receipt log -/

theorem State.giveReceipt_formKept (p : Port) (n slot : Nat) : s.FormKept (s.giveReceipt p n slot) :=
  (countWords_formKept _ _).ok _ _ _

theorem execReadReceipt_formKept {n : Word32} (h : execReadReceipt p n s = .next t) : s.FormKept t := by
  obtain rfl := Host.Outcome.next.inj h
  refine .ite (turnDown_formKept _ _ _) ?_
  split
  · exact turnDown_formKept _ _ _
  · exact .ite (turnDown_formKept _ _ _) (giveReceipt_formKept _ _ _)

theorem readNextReceiptOp_formKept : s.FormKept (readNextReceiptOp s) := by
  refine .ite (turnDown_formKept _ _ _) ?_
  split
  · exact turnDown_formKept _ _ _
  · exact giveReceipt_formKept _ _ _

theorem collectReceiptOp_formKept (n : Nat) : s.FormKept (collectReceiptOp n s) := by
  refine .ite (turnDown_formKept _ _ _) (.ite (turnDown_formKept _ _ _) ?_)
  split
  · exact turnDown_formKept _ _ _
  · exact .ite (turnDown_formKept _ _ _) (.ite (turnDown_formKept _ _ _) (.ite (turnDown_formKept _ _ _)
      ((enqueue_formKept _).ok _ _ _)))

theorem readNextOrphanOp_formKept : s.FormKept (readNextOrphanOp s) := by
  refine .ite (turnDown_formKept _ _ _) ?_
  split
  · exact turnDown_formKept _ _ _
  · exact (countWords_formKept _ _).ok _ _ _

theorem closeOrphanOp_formKept (n : Nat) (register : Word32) : s.FormKept (closeOrphanOp n register s) :=
  .ite (turnDown_formKept _ _ _) (.ite (turnDown_formKept _ _ _) (.ite (turnDown_formKept _ _ _)
    (.ite (turnDown_formKept _ _ _) (.ite (turnDown_formKept _ _ _)
      (((countWords_formKept _ _).trans (enqueue_formKept _)).ok _ _ _)))))

theorem setRetentionOp_formKept (n : Nat) : s.FormKept (setRetentionOp n s) := by
  have same (x : Rlg) (array : x.cells = s.rlg.cells ∧ x.codes = s.rlg.codes) (slots : x.slotStates = s.rlg.slotStates) :
      s.FormKept (s.withRlg x) := .withRlg fun form => form.congr array slots
  refine FormKept.ok (s := s) ?_ .s _ []
  split
  · exact same _ ⟨rfl, rfl⟩ rfl
  · have set := same { s.rlg with rRet := min n 1024 } ⟨rfl, rfl⟩ rfl
    exact .ite set (set.trans eraseTest_formKept)

theorem openSessionOp_formKept (point : Byte) (customer : Word32) (cls : Byte) :
    s.FormKept (openSessionOp point customer cls s) := by
  unfold openSessionOp
  split
  · dsimp only
    split
    · exact turnDown_formKept _ _ _
    · next reserved =>
      have numbered : s.FormKept (s.withRlg s.rlg.assignNumber) := .withRlg fun form => form.congr ⟨rfl, rfl⟩ rfl
      exact ((numbered.trans (reserveWith_formKept reserved)).trans (openSession_formKept _ _ _)).accepted _ _
    · exact turnDown_formKept _ _ _
    · exact turnDown_formKept _ _ _
  · exact turnDown_formKept _ _ _

/-! ## Notices and mail -/

theorem execTakeNotice_formKept (h : execTakeNotice p s = .next t) : s.FormKept t := by
  obtain rfl := Host.Outcome.next.inj h
  split
  · exact FormKept.refl.ok _ _ _
  · next some_ => exact (FormKept.withNotices p fun form => Notices.takeRank_inv form some_).ok _ _ _

theorem execEndNotice_formKept (h : execEndNotice p s = .next t) : s.FormKept t := by
  obtain rfl := Host.Outcome.next.inj h
  exact .ite (turnDown_formKept _ _ _) ((FormKept.withNotices p fun form => Notices.endTop_inv form).ok _ _ _)

theorem execSetNoticeMask_formKept {enables : Word16} {threshold : Byte}
    (h : execSetNoticeMask p enables threshold s = .next t) : s.FormKept t := by
  obtain rfl := Host.Outcome.next.inj h
  exact (FormKept.withNotices p fun form => Notices.mask_inv form _ (Nat.min_le_right _ _)).ok _ _ _

theorem execSendMail_formKept {message : BitVec 256} (h : execSendMail p message s = .next t) : s.FormKept t := by
  obtain rfl := Host.Outcome.next.inj h
  exact .ite (turnDown_formKept _ _ _) ((raised_formKept (withMail_only _) rfl _ _ _).ok _ _ _)

theorem execPortReset_formKept (h : execPortReset p s = .next t) : s.FormKept t := by
  obtain rfl := Host.Outcome.next.inj h
  exact ((FormKept.withNotices p fun _ => Notices.reset_inv).then_only (withMail_only _) rfl).ok _ _ _

/-! ## The other commands -/

theorem execSessionReport_formKept {x : Point} (h : execSessionReport x s = .next t) : s.FormKept t := by
  obtain rfl := Host.Outcome.next.inj h
  split
  · have taken (z : Request) : s.FormKept (s.takeRequest z) := .of_only (takeRequest_only z) rfl
    dsimp only
    split
    · exact .ite (taken _) ((taken _).trans (sessionReport_formKept _ _ _ _ _))
    · exact taken _
    · exact taken _
  · exact .refl

theorem execReplyReceived_formKept {bs : List Byte} (h : execReplyReceived bs s = .next t) : s.FormKept t := by
  obtain rfl := Host.Outcome.next.inj h
  split
  · split
    · exact endExchange_formKept _ _
    · exact .refl
  · exact .refl

theorem execNewReading_formKept (h : execNewReading s = .next t) : s.FormKept t := by
  obtain rfl := Host.Outcome.next.inj h
  split
  · have taken (z : Request) : s.FormKept (s.takeRequest z) := .of_only (takeRequest_only z) rfl
    exact ((taken _).trans (countMissing_formKept _)).then_only (computeRecord_only _ _) rfl
  · exact .refl

theorem releaseTripOp_formKept (p : Port) : s.FormKept (releaseTripOp p s) := by
  have latched : s.FormKept (s.withLsu (s.lsu.setLatch p)) := .of_only (withLsu_only _) rfl
  have completed (v : State) : v.FormKept v.completeRelease := (escalate_formKept _).then_only (withLsu_only _) rfl
  exact .ite (.ite (((latched.trans (completed _)).then_only sendRecompute_only rfl).ok _ _ _) (latched.accepted _ _))
    (turnDown_formKept _ _ _)

theorem setLimitsOp_formKept (x : LimitsOperand) : s.FormKept (setLimitsOp x s) := by
  by_cases refused : (clampLimits x).lImp = 0 ∧ s.lsu.esc = .tripped
  · rw [setLimitsOp_refused refused]
    exact turnDown_formKept _ _ _
  · rw [setLimitsOp_accepted refused]
    exact (acceptLimits_formKept _).ok _ _ _

/-! ## Every command and every step -/

theorem exec_formKept (h : exec c s = .next t) : s.FormKept t := by
  have quiet (clear : clearOfForm (commandFields c) = true) : s.FormKept t := .of_only (exec_only h) clear
  cases c with
  | deviceReset left => exact execDeviceReset_next h ▸ deviceReset_formKept left
  | periodClose x =>
    have metered (m : Cmu) : s.FormKept (s.withCmu m) := .of_only (withCmu_only m) rfl
    exact .of_next ((execPeriodClose_eq x s).symm.trans h) ((metered _).trans (closePeriod_formKept _))
  | finalWaitExpiry x =>
    exact .of_next h (.ite ((FormKept.of_only (withSession_only x _) rfl).trans (endFinalWait_formKept x)) .refl)
  | limitLineEdge => exact .of_next h (.ite .refl lineEdge_formKept)
  | secondTick =>
    have ticked : s.FormKept s.tickClocks := (FormKept.of_only (withTfu_only _) rfl).then_only (withSsu_only _) rfl
    exact .of_next ((execSecondTick_eq s).symm.trans h) (ticked.trans leaseTick_formKept)
  | leaseLapse =>
    refine .of_next h ?_
    split
    · exact lapse_formKept
    · exact .refl
    · exact .refl
  | newReading => exact execNewReading_formKept h
  | replyReceived _ => exact execReplyReceived_formKept h
  | replyTimeout => exact .of_next h (cutExchange_formKept _)
  | replySilence => exact .of_next h (cutExchange_formKept _)
  | lengthFieldAbove16 => exact .of_next h (cutExchange_formKept _)
  | linkCharacterError e => cases e <;> exact .of_next h (cutExchange_formKept _)
  | sessionReport _ => exact execSessionReport_formKept h
  | programStart => exact .of_next h (.ite .refl (.withRlg fun form => form.congr ⟨rfl, rfl⟩ rfl))
  | openingProgram _ => exact execOpeningProgram_formKept h
  | closingProgram _ => exact execClosingProgram_formKept h
  | relocation _ => exact execRelocation_formKept h
  | collectProgram _ => exact execCollectProgram_formKept h
  | orphanClosing _ => exact execOrphanClosing_formKept h
  | eraseSuspend => exact execEraseSuspend_formKept h
  | eraseComplete _ => exact execEraseComplete_formKept h
  | startupScan fs => exact .of_next h (.ite (scan_formKept fs s) .refl)
  | readReceipt _ _ => exact execReadReceipt_formKept h
  | takeNotice _ => exact execTakeNotice_formKept h
  | endNotice _ => exact execEndNotice_formKept h
  | setNoticeMask _ _ _ => exact execSetNoticeMask_formKept h
  | sendMail _ _ => exact execSendMail_formKept h
  | portReset _ => exact execPortReset_formKept h
  | releaseTrip p => exact .of_next h (releaseTripOp_formKept p)
  | setLimits p x => exact (FormKept.of_next h (.onSite p (setLimitsOp_formKept x)) :)
  | setRetention p _ => exact (FormKept.of_next h (.onSite p (setRetentionOp_formKept _)) :)
  | openSession p _ _ _ => exact (FormKept.of_next h (.onCharge p (openSessionOp_formKept _ _ _)) :)
  | readNextReceipt p => exact (FormKept.of_next h (.onCharge p readNextReceiptOp_formKept) :)
  | collectReceipt p _ => exact (FormKept.of_next h (.onCharge p (collectReceiptOp_formKept _)) :)
  | readNextOrphan p => exact (FormKept.of_next h (.onCharge p readNextOrphanOp_formKept) :)
  | closeOrphan p _ _ => exact (FormKept.of_next h (.onCharge p (closeOrphanOp_formKept _ _)) :)
  | _ => exact quiet rfl

theorem passMillisecond_formKept : s.FormKept s.passMillisecond where
  alerts := id
  array form := arrayInv_iff.mpr ((arrayInv_iff.mp form).passMillisecond s.now)

theorem step_formKept (h : step s = .next t) : s.FormKept t := by
  unfold step at h
  split at h
  · next rest _ =>
    have waiting : s.FormKept (s.withPending rest) := ⟨id, fun ⟨cells, codes, slots⟩ => ⟨cells, codes, slots⟩⟩
    exact waiting.trans (exec_formKept h)
  · exact .of_next h passMillisecond_formKept

end Sys2Proof.Machine
end

section
/-! SUPPORT. The statement about alert lines and the array form. -/

open Sys2Proof Sys2Proof.Machine Sys2Proof.Machine.State

/-- Settles O57: every operation settles the lines of the notices it changes, and every write of the array's lists leaves
defaults out. -/
theorem alertLinesAndTheArrayFormAreKept : Obligations.AlertLinesAndTheArrayFormAreKept :=
  ⟨fun _ _ alerts e => (step_formKept e).alerts alerts, fun _ _ array e => (step_formKept e).array array⟩

end

section
/-! SUPPORT. The settings of port S, and what the erase test does to the notices (R169, R170, R189). -/

namespace Sys2Proof.Machine

open Sys2Proof State

variable {s t : State} {r : Rlg} {k : Fin 16}

/-! ## The policy -/

/-- The clamps of SET POLICY as R189, R96, R19 and R41 give them. -/
theorem clampPolicy_eq (x : PolicyOperand) : clampPolicy x =
    ⟨max 1 x.tFair.toNat, max 1 x.tRun.toNat, min 10000 x.tDwell.toNat, max 5 x.tClear.toNat,
      max 1 (min 30 x.tGrace.toNat), min 4000000 x.bSafe.toNat⟩ := by
  have clear := x.tClear.isLt
  have clamped : max 5 (min 255 x.tClear.toNat) = max 5 x.tClear.toNat := by omega
  rw [clampPolicy, clampTo, clamped]
  simp only [clampTo, limitMax, Nat.max_comm, Nat.min_comm]

theorem policyClamped_eq (x : PolicyOperand) : policyClamped x =
    decide (¬(x.tFair.toNat = max 1 x.tFair.toNat ∧ x.tRun.toNat = max 1 x.tRun.toNat ∧
      x.tDwell.toNat = min 10000 x.tDwell.toNat ∧ x.tClear.toNat = max 5 x.tClear.toNat ∧
      x.tGrace.toNat = max 1 (min 30 x.tGrace.toNat) ∧ x.bSafe.toNat = min 4000000 x.bSafe.toNat)) := by
  rw [policyClamped, clampPolicy_eq, Bool.eq_iff_iff, bne_iff_ne, decide_eq_true_eq, Ne, ClampedPolicy.mk.injEq]
  simp only [eq_comm]

theorem modeOperand_none {b : Byte} (h : b ≠ 0 ∧ b ≠ 1) : modeOperand b = none := by
  rw [modeOperand, if_neg h.1, if_neg h.2]

theorem modeOperand_some {b : Byte} (h : b = 0 ∨ b = 1) :
    modeOperand b = some (if b = 1 then .priority else .shared) := by
  rcases h with rfl | rfl <;> rfl

theorem setPolicyOp_refused {x : PolicyOperand} (h : modeOperand x.mode = none) :
    setPolicyOp x s = s.turnDown .s .refused .badValue := by
  rw [setPolicyOp, h]

theorem setPolicyOp_accepted {x : PolicyOperand} {mode : Mode} (h : modeOperand x.mode = some mode) :
    setPolicyOp x s = (s.withPolicy mode (clampPolicy x)).ok .s (policyClamped x) [] := by
  rw [setPolicyOp, h]

/-! ## The erase test -/

/-- An erase that is due starts when the queue is empty (R170, R171). -/
theorem Rlg.tested_due (due : r.isDue k) (empty : r.queue = []) :
    r.tested = { r with
      sectors := r.sectors.set k .erasing
      erase := some ⟨k, 0, 0, (Config.eraseTime k).val, false⟩
      spaceLow := r.spaceIsLow } := by
  have found := eraseDue_iff.mpr due
  unfold tested
  split
  · next j _ first _ =>
    obtain rfl := Option.some.inj (found.symm.trans first)
    rfl
  · next other => exact absurd empty (other k found)

theorem Rlg.tested_rests (undue : ∀ k, ¬r.isDue k) : r.tested = { r with spaceLow := r.spaceIsLow } := by
  simp only [tested, eraseDue_none.mpr undue]

theorem Rlg.tested_low : r.tested.spaceLow = r.spaceIsLow := rfl

/-- The test raises SPACE_LOW on both ports when the mark goes from clear to set, and leaves the notices alone otherwise
(R170). -/
theorem State.eraseTest_tells :
    (s.rlg.spaceIsLow = true ∧ s.rlg.spaceLow = false →
      s.eraseTest.noticesS = s.noticesS.raise 3 [] ∧ s.eraseTest.noticesC = s.noticesC.raise 3 []) ∧
    (¬(s.rlg.spaceIsLow = true ∧ s.rlg.spaceLow = false) →
      s.eraseTest.noticesS = s.noticesS ∧ s.eraseTest.noticesC = s.noticesC) := by
  have goes : (s.rlg.spaceIsLow && !s.rlg.spaceLow) = true ↔ s.rlg.spaceIsLow = true ∧ s.rlg.spaceLow = false := by
    rw [Bool.and_eq_true, Bool.not_eq_true']
  rw [← goes]
  simp only [eraseTest]
  split
  · next told => exact ⟨fun _ => ⟨rfl, rfl⟩, absurd told⟩
  · next stays => exact ⟨fun told => absurd told stays, fun _ => ⟨rfl, rfl⟩⟩

/-! ## The retention -/

theorem setRetentionOp_held (n : Nat) (h : s.rlg.erase.isSome = true) :
    setRetentionOp n s = (s.withRlg { s.rlg with heldRet := some (min n 1024) }).ok .s (decide (1024 < n)) [] := by
  simp only [setRetentionOp, h, if_true]

theorem setRetentionOp_starting (n : Nat) (idle : s.rlg.erase = none) (starting : s.rlg.logState = .starting) :
    setRetentionOp n s = (s.withRlg { s.rlg with rRet := min n 1024 }).ok .s (decide (1024 < n)) [] := by
  simp [setRetentionOp, idle, starting]

theorem setRetentionOp_tested (n : Nat) (idle : s.rlg.erase = none) (runs : s.rlg.logState ≠ .starting) :
    setRetentionOp n s = (s.withRlg { s.rlg with rRet := min n 1024 }).eraseTest.ok .s (decide (1024 < n)) [] := by
  simp [setRetentionOp, idle, runs]

theorem setRetentionOp_answered (n : Nat) : s.answered .s (okReply (decide (1024 < n)) []) (setRetentionOp n s) := by
  refine ok_answered .s _ [] ?_
  split
  · rfl
  · split
    · rfl
    · exact eraseTest_only .replies (by decide)

end Sys2Proof.Machine
end

section
/-! SUPPORT. The statement about the settings of port S. -/

open Sys2Proof Sys2Proof.Machine Sys2Proof.Machine.State

theorem setPolicy_replaces (x : PolicyOperand) (s : State) :
    ∃ t, exec (.setPolicy .s x) s = .next t ∧
      (x.mode ≠ 0 ∧ x.mode ≠ 1 → s.turnedAway .s .refused .badValue t) ∧
      (x.mode = 0 ∨ x.mode = 1 →
        s.answered .s (okReply (policyClamped x) []) t ∧
        s.onlyChanges [.alu, .lsu, .bau, .replies] t ∧
        t.alu = { s.alu with
          mode := if x.mode = 1 then .priority else .shared, tFair := (clampPolicy x).tFair,
          tRun := (clampPolicy x).tRun, tDwell := (clampPolicy x).tDwell } ∧
        t.lsu = { s.lsu with tClear := (clampPolicy x).tClear, tGrace := (clampPolicy x).tGrace } ∧
        t.bau = { s.bau with bSafe := (clampPolicy x).bSafe }) := by
  have only := setPolicyOp_only (s := s) x
  refine ⟨setPolicyOp x s, rfl, fun neither => ?_, fun either => ?_⟩
  · rw [setPolicyOp_refused (modeOperand_none neither)]
    exact turnDown_turnedAway .s .refused .badValue
  · rw [setPolicyOp_accepted (modeOperand_some either)] at only ⊢
    exact ⟨ok_answered .s _ [] rfl, only, rfl, rfl, rfl⟩

/-- The retention set outside an erase and outside the scan, with the erase test that follows (R169, R170). -/
theorem setRetention_tests {n : Nat} {s : State} (idle : s.rlg.erase = none) (runs : s.rlg.logState ≠ .starting) :
    let r := { s.rlg with rRet := min n 1024 }
    let t := setRetentionOp n s
    let low := s.rlg.erasedCount < 256 ∧ ∀ k, ¬r.isDue k
    (t.rlg.spaceLow = true ↔ low) ∧
    (low ∧ s.rlg.spaceLow = false → t.noticesS = s.noticesS.raise 3 [] ∧ t.noticesC = s.noticesC.raise 3 []) ∧
    (¬(low ∧ s.rlg.spaceLow = false) → t.noticesS = s.noticesS ∧ t.noticesC = s.noticesC) ∧
    (∀ k, r.isDue k → s.rlg.queue = [] →
      t.rlg = { r with
        sectors := r.sectors.set k .erasing
        erase := some ⟨k, 0, 0, (Config.eraseTime k).val, false⟩
        spaceLow := t.rlg.spaceLow }) ∧
    ((∀ k, ¬r.isDue k) ∨ s.rlg.queue ≠ [] → t.rlg = { r with spaceLow := t.rlg.spaceLow }) := by
  intro r t low
  have set : t = (s.withRlg r).eraseTest.ok .s (decide (1024 < n)) [] := setRetentionOp_tested n idle runs
  have log : t.rlg = r.tested := by
    rw [set]
    exact eraseTest_tested
  have mark : r.spaceIsLow = true ↔ low :=
    Rlg.spaceIsLow_iff.trans ⟨fun ⟨few, _, rests⟩ => ⟨few, rests⟩, fun ⟨few, rests⟩ => ⟨few, .inl idle, rests⟩⟩
  obtain ⟨told, silent⟩ := eraseTest_tells (s := s.withRlg r)
  refine ⟨?_, fun raises => ?_, fun stays => ?_, fun k due empty => ?_, fun rests => ?_⟩
  · rw [log, Rlg.tested_low]
    exact mark
  · rw [set]
    exact told ⟨mark.mpr raises.1, raises.2⟩
  · rw [set]
    exact silent fun goes => stays ⟨mark.mp goes.1, goes.2⟩
  · rw [log, Rlg.tested_low]
    exact Rlg.tested_due due empty
  · rw [log, Rlg.tested_low]
    rcases rests with undue | queued
    · exact Rlg.tested_rests undue
    · exact Rlg.tested_queued queued

/-- Settles O38, by the clamps of SET POLICY and by the erase test that follows SET RETENTION. -/
theorem settingCommandsReplaceTheirSettings : Obligations.SettingCommandsReplaceTheirSettings := by
  refine ⟨fun x s => ?_, fun calendar s => ?_, fun retention s => ?_⟩
  · have replaced := setPolicy_replaces x s
    rw [policyClamped_eq, clampPolicy_eq] at replaced
    exact replaced
  · exact ⟨_, rfl, ok_answered .s false [] rfl, ok_after .s false [] (withTfu_only _) (by decide) (by decide), rfl⟩
  · refine ⟨setRetentionOp retention.toNat s, rfl, setRetentionOp_answered _, setRetentionOp_only _, fun erases => ?_,
      fun idle starting => ?_, fun idle runs => ?_⟩
    · rw [setRetentionOp_held _ erases]
      exact ⟨rfl, rfl, rfl⟩
    · rw [setRetentionOp_starting _ idle starting]
      exact ⟨rfl, rfl, rfl⟩
    · have due (k : Fin 16) : ({ s.rlg with rRet := min retention.toNat 1024 } : Rlg).isDue k ↔
          s.rlg.logState = .ready ∧ s.rlg.erasedCount < 256 ∧ s.rlg.oldestFull = some k ∧
            ∀ i, i < 128 → ({ s.rlg with rRet := min retention.toNat 1024 } : Rlg).slotIsDone (128 * k.val + i) :=
        and_congr_right fun _ => ⟨fun ⟨_, rest⟩ => rest, fun rest => ⟨idle, rest⟩⟩
      have tests := setRetention_tests (n := retention.toNat) idle runs
      simp only [due] at tests
      exact tests

end

section
/-! SUPPORT. Kinds through service: take, end, mask (R193 to R195). -/

namespace Sys2Proof.Machine

open Sys2Proof State

variable {s t : State} {n : Notices} {mask : Word16} {p : Port} {k : Fin 16}

theorem getLsbD_rankBit_eq (k j : Fin 16) : (rankBit k.val).getLsbD j.val = decide (j = k) := by
  rw [Bool.eq_iff_iff, getLsbD_rankBit, decide_eq_true_eq]

theorem getLsbD_without (x : Word16) (k j : Fin 16) :
    (x &&& ~~~ rankBit k.val).getLsbD j.val = (x.getLsbD j.val && decide (j ≠ k)) := by
  rw [BitVec.getLsbD_and, BitVec.getLsbD_not, getLsbD_rankBit_eq, decide_eq_true j.isLt, Bool.true_and, decide_not]

theorem getLsbD_with (x : Word16) (k j : Fin 16) :
    (x ||| rankBit k.val).getLsbD j.val = (x.getLsbD j.val || decide (j = k)) := by
  rw [BitVec.getLsbD_or, getLsbD_rankBit_eq]

/-- The greatest kind of a set (kinds begin at rank 1) is its greatest rank. -/
theorem topRank_kind (kind : 0 < k.val ∧ mask.getLsbD k.val = true)
    (top : ∀ j : Fin 16, 0 < j.val ∧ mask.getLsbD j.val = true → j ≤ k) : topRank mask = k.val := by
  refine topRank_eq kind.2 fun j set => ?_
  by_cases zero : j.val = 0
  · rw [Fin.le_def, zero]
    exact Nat.zero_le _
  · exact top j ⟨Nat.pos_of_ne_zero zero, set⟩

theorem topRank_empty (none : ∀ k : Fin 16, ¬(0 < k.val ∧ mask.getLsbD k.val = true)) : topRank mask = 0 :=
  topRank_eq_zero.mpr fun k pos => Bool.eq_false_iff.mpr fun set => none k ⟨pos, set⟩

theorem Notices.next_kind_iff : 0 < k.val ∧ (n.pending &&& n.enables).getLsbD k.val = true ↔
    0 < k.val ∧ n.pending.getLsbD k.val = true ∧ n.enables.getLsbD k.val = true := by
  rw [BitVec.getLsbD_and, Bool.and_eq_true]

/-! ## A kind taken -/

theorem Notices.takeRank_sets (n : Notices) (k j : Fin 16) :
    (n.takeRank k.val).pending.getLsbD j.val = (n.pending.getLsbD j.val && decide (j ≠ k)) ∧
    (n.takeRank k.val).inService.getLsbD j.val = (n.inService.getLsbD j.val || decide (j = k)) :=
  ⟨getLsbD_without _ k j, getLsbD_with _ k j⟩

theorem Notices.takeRank_details (n : Notices) (k j : Fin 16) :
    (n.takeRank k.val).details[j] = if j = k then 0 else n.details[j] := by
  have taken : (n.takeRank k.val).details = n.details.set k.val 0 := dif_pos k.isLt
  rw [taken]
  change (n.details.set k.val 0)[j.val] = if j = k then 0 else n.details[j.val]
  rw [Vector.getElem_set]
  simp only [Fin.ext_iff, eq_comm]

theorem Notices.detail_kind (n : Notices) (k : Fin 16) : n.detail k.val = n.details[k] := dif_pos k.isLt

/-! ## The three commands -/

theorem execTakeNotice_none (none : (s.notices p).next = 0) :
    execTakeNotice p s = .next (s.ok p false [0, 0, 0, 0, 0]) := by
  rw [execTakeNotice, none]
  rfl

theorem execTakeNotice_takes (pos : 0 < k.val) (first : (s.notices p).next = k.val) :
    execTakeNotice p s = .next ((s.withNotices p ((s.notices p).takeRank k.val)).ok p false
      (BitVec.ofNat 8 k.val :: leBytes 4 (s.notices p).details[k].toNat)) := by
  simp only [execTakeNotice, first, Notices.detail_kind]
  rw [if_neg (Nat.ne_of_gt pos)]
  rfl

theorem execEndNotice_none (none : topRank (s.notices p).inService = 0) :
    execEndNotice p s = .next (s.turnDown p .refused .empty) := by
  rw [execEndNotice, none]
  rfl

theorem execEndNotice_ends (pos : 0 < k.val) (top : topRank (s.notices p).inService = k.val) :
    execEndNotice p s = .next ((s.withNotices p (s.notices p).endTop).ok p false [BitVec.ofNat 8 k.val]) := by
  simp only [execEndNotice, top]
  rw [if_neg (Nat.ne_of_gt pos)]
  rfl

theorem State.withNotices_then_ok_notices (p : Port) (m : Notices) (b : Bool) (r : List Byte) :
    ((s.withNotices p m).ok p b r).notices p = m := by
  cases p <;> rfl

theorem State.withNotices_replies (p : Port) (m : Notices) : (s.withNotices p m).replies = s.replies := by
  cases p <;> rfl

theorem Notices.endTop_inService (top : topRank n.inService = k.val) (j : Fin 16) :
    n.endTop.inService.getLsbD j.val = (n.inService.getLsbD j.val && decide (j ≠ k)) := by
  rw [← getLsbD_without, ← top]
  rfl

theorem getLsbD_fffe (j : Fin 16) : (0xFFFE : Word16).getLsbD j.val = decide (j ≠ 0) := by
  revert j
  decide

end Sys2Proof.Machine
end

section
/-! SUPPORT. The statement about the notice commands. -/

open Sys2Proof Sys2Proof.Machine Sys2Proof.Machine.State

theorem takeNotice_serves (p : Port) (s : State) : ∃ t, exec (.takeNotice p) s = .next t ∧
    let n := s.notices p
    let takeable : Fin 16 → Prop := fun k => 0 < k.val ∧ n.pending.getLsbD k = true ∧ n.enables.getLsbD k = true
    ((∀ k, ¬takeable k) → s.answered p (okReply false [0, 0, 0, 0, 0]) t ∧ s.onlyChanges [.replies] t) ∧
    ∀ k, takeable k → (∀ j, takeable j → j ≤ k) →
      t = (s.withNotices p (n.takeRank k.val)).ok p false (BitVec.ofNat 8 k.val :: leBytes 4 n.details[k].toNat) := by
  obtain ⟨t, e⟩ : ∃ t, execTakeNotice p s = .next t := ⟨_, rfl⟩
  refine ⟨t, e, fun untakeable => ?_, fun k takes top => ?_⟩
  · have first := topRank_empty fun k kind => untakeable k (Notices.next_kind_iff.mp kind)
    obtain rfl := Host.Outcome.next.inj ((execTakeNotice_none first).symm.trans e)
    exact ⟨ok_answered p false _ rfl, ok_only p _ _⟩
  · have first := topRank_kind (Notices.next_kind_iff.mpr takes) fun j kind => top j (Notices.next_kind_iff.mp kind)
    exact (Host.Outcome.next.inj ((execTakeNotice_takes takes.1 first).symm.trans e)).symm

theorem endNotice_ends (p : Port) (s : State) : ∃ t, exec (.endNotice p) s = .next t ∧
    let n := s.notices p
    let serves : Fin 16 → Prop := fun k => 0 < k.val ∧ n.inService.getLsbD k = true
    ((∀ k, ¬serves k) → s.turnedAway p .refused .empty t) ∧
    ∀ k, serves k → (∀ j, serves j → j ≤ k) → topRank n.inService = k.val ∧
      t = (s.withNotices p n.endTop).ok p false [BitVec.ofNat 8 k.val] := by
  obtain ⟨t, e⟩ : ∃ t, execEndNotice p s = .next t := ⟨_, rfl⟩
  refine ⟨t, e, fun unserved => ?_, fun k serves top => ?_⟩
  · obtain rfl := Host.Outcome.next.inj ((execEndNotice_none (topRank_empty unserved)).symm.trans e)
    exact turnDown_turnedAway p .refused .empty
  · have first := topRank_kind serves top
    exact ⟨first, (Host.Outcome.next.inj ((execEndNotice_ends serves.1 first).symm.trans e)).symm⟩

/-- Settles O50: the rank the model moves is the greatest kind, and the line settles after each change. -/
theorem noticeCommandsMoveKindsThroughService : Obligations.NoticeCommandsMoveKindsThroughService := by
  intro p s n takeable serves
  refine ⟨?_, ?_, fun enables threshold => ⟨_, rfl, ?_⟩⟩
  · obtain ⟨t, e, none, takes⟩ := takeNotice_serves p s
    refine ⟨t, e, none, fun k takeable top => ?_⟩
    rw [takes k takeable top, withNotices_then_ok_notices]
    exact ⟨ok_answered p false _ (withNotices_replies p _), notices_then_ok p _ _ _, rfl, rfl,
      fun j => (Notices.takeRank_sets n k j).1, fun j => (Notices.takeRank_sets n k j).2, Notices.takeRank_details n k,
      Notices.settle_pulls⟩
  · obtain ⟨t, e, none, ends⟩ := endNotice_ends p s
    refine ⟨t, e, none, fun k served top => ?_⟩
    obtain ⟨first, rfl⟩ := ends k served top
    rw [withNotices_then_ok_notices]
    exact ⟨ok_answered p false _ (withNotices_replies p _), notices_then_ok p _ _ _, rfl, rfl, rfl, rfl,
      Notices.endTop_inService first, Notices.settle_pulls⟩
  · rw [withNotices_then_ok_notices]
    refine ⟨ok_answered p _ [] (withNotices_replies p _), notices_then_ok p _ _ _, fun j => ?_, rfl, rfl, rfl, rfl,
      Notices.settle_pulls⟩
    rw [← getLsbD_fffe, ← BitVec.getLsbD_and]
    rfl

end

section
/-! SUPPORT. SEND MAIL, READ MAIL and PORT RESET (R196 to R198). -/

namespace Sys2Proof.Machine

open Sys2Proof State

variable {s : State} {p : Port}

theorem execSendMail_full {message : BitVec 256} (full : (s.mail.outgoing p).isSome = true) :
    execSendMail p message s = .next (s.turnDown p .refused .full) := by
  rw [execSendMail, if_pos full]

theorem execSendMail_sends {message : BitVec 256} (empty : s.mail.outgoing p = none) :
    execSendMail p message s = .next
      (((s.withMail (s.mail.withOutgoing p (some message))).raise (otherPort p) .mail []).ok p false []) := by
  rw [execSendMail, empty]
  rfl

theorem execReadMail_empty (empty : s.mail.incoming p = none) :
    execReadMail p s = .next (s.turnDown p .refused .empty) := by
  rw [execReadMail, empty]

theorem execReadMail_reads {m : BitVec 256} (box : s.mail.incoming p = some m) :
    execReadMail p s =
      .next ((s.withMail (s.mail.withIncoming p none)).ok p false (leBytes 32 m.toNat)) := by
  rw [execReadMail, box]

theorem State.raise_replies (p : Port) (k : NoticeKind) (ns : List Nat) : (s.raise p k ns).replies = s.replies := by
  cases p <;> rfl

/-- What SEND MAIL leaves: the box, and the kind MAIL raised on the other port (R196). -/
theorem State.mailSent (p : Port) (m : Mail) (s : State) :
    let t := ((s.withMail m).raise (otherPort p) .mail []).ok p false []
    t.mail = m ∧ t.notices (otherPort p) = (s.notices (otherPort p)).raise 1 [] := by
  cases p <;> exact ⟨rfl, rfl⟩

end Sys2Proof.Machine
end

section
/-! SUPPORT. The statement about mail and port reset. -/

open Sys2Proof Sys2Proof.Machine Sys2Proof.Machine.State

theorem sendMail_sends (p : Port) (message : BitVec 256) (s : State) :
    ∃ t, exec (.sendMail p message) s = .next t ∧
      ((s.mail.outgoing p).isSome = true → s.turnedAway p .refused .full t) ∧
      (s.mail.outgoing p = none →
        s.answered p (okReply false []) t ∧ s.onlyChanges [.mail, noticeField (otherPort p), .replies] t ∧
        t.mail = s.mail.withOutgoing p (some message) ∧
        t.notices (otherPort p) = (s.notices (otherPort p)).raise 1 [] ∧
        (t.notices (otherPort p)).pending.getLsbD 1 = true) := by
  obtain ⟨t, e⟩ : ∃ t, execSendMail p message s = .next t := ⟨_, rfl⟩
  refine ⟨t, e, fun full => ?_, fun empty => ?_⟩
  · obtain rfl := Host.Outcome.next.inj ((execSendMail_full full).symm.trans e)
    exact turnDown_turnedAway p .refused .full
  · have only := execSendMail_only e
    obtain rfl := Host.Outcome.next.inj ((execSendMail_sends empty).symm.trans e)
    obtain ⟨box, told⟩ := mailSent p (s.mail.withOutgoing p (some message)) s
    refine ⟨ok_answered p false [] (raise_replies _ _ _), onlyChanges_mono only ?_, box, told, ?_⟩
    · cases p <;> decide
    · rw [told]
      exact (Notices.raise_tells _ 1 []).1

theorem readMail_reads (p : Port) (s : State) :
    ∃ t, exec (.readMail p) s = .next t ∧
      (s.mail.incoming p = none → s.turnedAway p .refused .empty t) ∧
      ∀ m, s.mail.incoming p = some m →
        s.answered p (okReply false (leBytes 32 m.toNat)) t ∧ s.onlyChanges [.mail, .replies] t ∧
        t.mail = s.mail.withIncoming p none := by
  obtain ⟨t, e⟩ : ∃ t, execReadMail p s = .next t := ⟨_, rfl⟩
  refine ⟨t, e, fun empty => ?_, fun m box => ?_⟩
  · obtain rfl := Host.Outcome.next.inj ((execReadMail_empty empty).symm.trans e)
    exact turnDown_turnedAway p .refused .empty
  · have only := execReadMail_only e
    obtain rfl := Host.Outcome.next.inj ((execReadMail_reads box).symm.trans e)
    exact ⟨ok_answered p false _ rfl, only, ok_only p _ _ .mail (by decide)⟩

theorem portReset_resets (p : Port) (s : State) :
    ∃ t, exec (.portReset p) s = .next t ∧ s.answered p (okReply false []) t ∧
      s.onlyChanges [noticeField p, .mail, .replies] t ∧ t.mail = s.mail.withIncoming p none ∧
      t.notices p = Notices.reset := by
  refine ⟨_, rfl, ok_answered p false [] (withNotices_replies p _), execPortReset_only (p := p) rfl,
    ok_only p _ _ .mail (by decide), ?_⟩
  cases p <;> rfl

/-- Settles O51, by the box each port writes and the box it reads. -/
theorem mailAndPortResetActOnTheirBoxes : Obligations.MailAndPortResetActOnTheirBoxes := by
  intro p s
  cases p with
  | s => exact ⟨fun message => sendMail_sends .s message s, readMail_reads .s s, portReset_resets .s s⟩
  | c => exact ⟨fun message => sendMail_sends .c message s, readMail_reads .c s, portReset_resets .c s⟩

end

section
/-! SUPPORT. The statement about the reset values. -/

open Sys2Proof Sys2Proof.Machine Sys2Proof.Machine.State

/-- Settles O1: the residues touch the array only, so every other value of the log is that of the reset. -/
theorem deviceResetGivesResetValues : Obligations.DeviceResetGivesResetValues := by
  refine fun left s => ⟨fun places => ?_, fun ⟨x, mem, away⟩ => if_neg fun exist => ?_⟩
  · have exist : left.all (fun x => placeExists x.place) = true :=
      List.all_eq_true.mpr fun x mem => placeExists_iff.mpr (places x mem)
    have log : s.rlg.afterReset left = Rlg.reset (s.rlg.afterReset left).cells (s.rlg.afterReset left).codes :=
      s.rlg.afterReset_array left
    exact ⟨s.deviceReset left, if_pos exist,
      rfl, rfl, rfl, rfl, rfl, rfl, rfl, rfl, rfl, rfl, rfl, rfl, rfl, rfl, log, rfl⟩
  · exact away (placeExists_iff.mp (List.all_eq_true.mp exist x mem))

end

section
/-! SUPPORT. What an idle millisecond does: timers, the scan's reads, the erase (R1, R8, R109, R144, R166, R171, R173). -/

namespace Sys2Proof.Machine

open Sys2Proof State

variable {s t : State} {r : Rlg} {w : Nat}

/-! ## The words the scan passes -/

/-- A word that does not read CLEAN has a check code listed in the array. -/
theorem Rlg.code_listed (flawed : r.code w ≠ .clean) : ∃ e ∈ r.codes, e.1 / 8 = w := by
  by_contra unlisted
  have clean (i : Nat) (low : i < 8) : integrityOf (r.codeAt (8 * w + i)) = .clean := by
    have absent : ∀ e ∈ r.codes, e.1 ≠ 8 * w + i := fun e mem same => unlisted ⟨e, mem, by omega⟩
    rw [codeAt, sparseGet_not_mem absent]
    rfl
  refine flawed ?_
  unfold code
  split
  · have bytes : (List.range 8).map (fun i => integrityOf (r.codeAt (8 * w + i))) = List.replicate 8 .clean :=
      List.map_eq_replicate_iff.mpr fun i mem => clean i (List.mem_range.mp mem)
    rw [bytes]
    rfl
  · exact clean 0 (by omega)

theorem Rlg.mem_flawedWords : w ∈ r.flawedWords ↔
    (∃ e ∈ r.codes, e.1 / 8 = w) ∧ (32768 ≤ w ∨ r.interrupted (slotSector (w / 16)) = false) := by
  simp [flawedWords]

/-- A word whose place in the order of the scan's reads comes before the last is a word of the array. -/
theorem lt_arrayWords_of_scanPlace (h : scanPlace w < 32784) : w < 32784 := by
  unfold scanPlace at h
  split at h <;> omega

/-- Words read one after the other move the two counts only, by those that do not read CLEAN (R166). -/
theorem Rlg.foldl_countWord_eq (r : Rlg) (ws : List Nat) :
    ws.foldl Rlg.countWord r =
      r.withCounts (ws.filter (fun w => r.code w = .corrected)).length
        (ws.filter (fun w => r.code w = .damaged)).length := by
  induction ws generalizing r with
  | nil => rfl
  | cons w ws ih =>
    have counted (x : Integrity) : ((w :: ws).filter (fun v => r.code v = x)).length =
        (if r.code w = x then 1 else 0) + (ws.filter (fun v => r.code v = x)).length := by
      by_cases shows : r.code w = x
      · simp [shows, Nat.add_comm]
      · simp [shows]
    rw [List.foldl_cons, ih, countWord_eq, withCounts_add, counted, counted]
    rfl

/-- Of the words a stretch of the scan passes, those that read CORRECTED or DAMAGED are the flawed ones. -/
theorem Rlg.flawed_passed (r : Rlg) {place : Nat} (inside : place ≤ 32784) {x : Integrity} (flawed : x ≠ .clean) :
    ((r.flawedWords.filter (fun w => decide (r.scanPosition ≤ scanPlace w) && decide (scanPlace w < place))).filter
      (fun w => r.code w = x)).length = r.passedWords (max r.scanPosition place) x := by
  refine List.Perm.length_eq ((List.perm_ext_iff_of_nodup ?_ ?_).mpr fun w => ?_)
  · exact (((List.nodup_dedup _).filter _).filter _).filter _
  · exact List.nodup_range.filter _
  · simp only [List.mem_filter, mem_flawedWords, List.mem_range, Bool.and_eq_true, Bool.or_eq_true, decide_eq_true_eq,
      Bool.not_eq_true']
    constructor
    · rintro ⟨⟨⟨_, read⟩, from_, below⟩, shows⟩
      exact ⟨lt_arrayWords_of_scanPlace (Nat.lt_of_lt_of_le below inside), ⟨⟨shows, from_⟩, by omega⟩, read⟩
    · rintro ⟨_, ⟨⟨shows, from_⟩, below⟩, read⟩
      exact ⟨⟨⟨code_listed (by rwa [shows]), read⟩, from_, by omega⟩, shows⟩

theorem Rlg.scanTo_eq (r : Rlg) {place : Nat} (inside : place ≤ 32784) :
    r.scanTo place = { r.withCounts (r.passedWords (max r.scanPosition place) .corrected)
      (r.passedWords (max r.scanPosition place) .damaged) with scanPosition := max r.scanPosition place } := by
  rw [scanTo, foldl_countWord_eq, flawed_passed r inside (x := .corrected) nofun,
    flawed_passed r inside (x := .damaged) nofun]

/-! ## The idle millisecond -/

theorem Rlg.passMillisecond_passed (r : Rlg) (now : Nat) : r.MillisecondPassed now (r.passMillisecond now) where
  scans starting := by
    have inside : min arrayWords (r.scanPosition + Config.scanRate now) ≤ 32784 := Nat.min_le_left arrayWords _
    rw [passMillisecond, if_pos starting, scanTo_eq r inside]
    intro place single double
    change ({ r.withCounts single double with scanPosition := place } : Rlg) = _
    generalize single = a, double = b
    rfl
  erases runs e erase progresses standing := by
    have erasing : r.erasing = true := by simp [Rlg.erasing, erase, progresses, standing]
    rw [passMillisecond, if_neg runs, if_pos erasing, erase]
    rfl
  rests runs idle := by
    have still : ¬r.erasing = true := by
      unfold Rlg.erasing
      split
      · next e erase =>
        simp only [Bool.and_eq_true, beq_iff_eq, bne_iff_ne]
        exact fun ⟨progresses, standing⟩ => (idle e erase).elim (fun k => k progresses) standing
      · nofun
    rw [passMillisecond, if_neg runs, if_neg still]

theorem Flc.passMillisecond_eq (x : Flc) : x.passMillisecond = { x with
    replyTimer := if x.exchange = none then x.replyTimer else min x.inForce.tReply (x.replyTimer + 1) } := by
  unfold passMillisecond
  split
  · next awaited =>
    rw [if_neg (by rw [awaited]; nofun)]
    rfl
  · next idle => rw [if_pos idle]

theorem State.passMillisecond_only : s.onlyChanges [.cmu, .lsu, .flc, .ssu, .tfu, .rlg] s.passMillisecond := by
  intro f away
  cases f with
  | cmu | lsu | flc | ssu | tfu | rlg => exact absurd (by decide) away
  | _ => rfl

/-! ## What waits -/

theorem pending_not_mem_commandFields (c : Instr) : .pending ∉ commandFields c := by
  have notice (p : Port) : .pending ≠ noticeField p := by cases p <;> nofun
  cases c <;>
    simp [commandFields, resetFields, closeFields, exchangeFields, reportFields, programFields, faultFields,
      noticeFields, notice]

theorem step_nil (h : s.pending = []) : step s = .next s.passMillisecond := by
  rw [step, h]

theorem step_cons {c : Instr} {rest : List Instr} (h : s.pending = c :: rest) : step s = exec c (s.withPending rest) := by
  rw [step, h]

end Sys2Proof.Machine
end

section
/-! SUPPORT. The statement about a step. -/

open Sys2Proof Sys2Proof.Machine Sys2Proof.Machine.State

/-- Settles O54, unit by unit of an idle millisecond; what waits is no command's to change. -/
theorem aStepRunsTheFrontCommand : Obligations.AStepRunsTheFrontCommand :=
  ⟨fun _ _ _ => step_cons, fun c _ _ e => exec_only e .pending (pending_not_mem_commandFields c),
    fun s idle => ⟨_, step_nil idle, passMillisecond_only, rfl, rfl, rfl, s.lsu.passMillisecond_eq,
      s.flc.passMillisecond_eq, s.rlg.passMillisecond_passed _⟩,
    fun _ _ _ => ⟨rfl, rfl⟩⟩

end

section
/-! SUPPORT. Frames of commands: their fields read back, whole and cut frames, commands of the other port (R179 to R183). -/

namespace Sys2Proof.Machine

open Sys2Proof State

variable {s : State} {p : Port} {c : Instr} {bytes : List Byte}

/-! ## Fields read back -/

/-- A field behind the first one. -/
theorem fieldAt_skip {k n i j : Nat} {rest : List Byte} (behind : k ≤ i) :
    fieldAt (leBytes k n ++ rest) i j = fieldAt rest (i - k) j := by
  rw [fieldAt, List.drop_append, List.drop_of_length_le (by rw [length_leBytes]; exact behind), List.nil_append,
    length_leBytes, fieldAt]

/-- The first field. -/
theorem fieldAt_first {k n : Nat} {rest : List Byte} : fieldAt (leBytes k n ++ rest) 0 k = n % 256 ^ k := by
  rw [fieldAt, List.drop_zero, List.take_left' (length_leBytes k n), leNat_leBytes]

/-- The last field. -/
theorem fieldAt_last {k n : Nat} : fieldAt (leBytes k n) 0 k = n % 256 ^ k := by
  rw [fieldAt, List.drop_zero, List.take_of_length_le (Nat.le_of_eq (length_leBytes k n)), leNat_leBytes]

/-- A value is read back from a field that has a byte for each 8 of its bits. -/
theorem ofNat_field {w k : Nat} (v : BitVec w) (fits : 2 ^ w ≤ 256 ^ k) : BitVec.ofNat w (v.toNat % 256 ^ k) = v := by
  rw [bytes_hold v fits, BitVec.ofNat_toNat, BitVec.setWidth_eq]

theorem byte_field (v : Byte) : BitVec.ofNat 8 (v.toNat % 256 ^ 1) = v := ofNat_field v (by decide)

theorem word_field (v : Word16) : BitVec.ofNat 16 (v.toNat % 256 ^ 2) = v := ofNat_field v (by decide)

theorem long_field (v : Word32) : BitVec.ofNat 32 (v.toNat % 256 ^ 4) = v := ofNat_field v (by decide)

theorem message_field (v : BitVec 256) : BitVec.ofNat 256 (v.toNat % 256 ^ 32) = v := ofNat_field v (by decide)

/-- The fields of an operand phase read back, one after the other. -/
theorem decodeTariff_encodeTariff (t : TariffOperand) : decodeTariff (encodeTariff t) = t := by
  have bands : #v[t.bands[0], t.bands[1], t.bands[2], t.bands[3]] = t.bands := by
    ext i low
    interval_cases i <;> rfl
  have places : #v[t.places[0], t.places[1], t.places[2], t.places[3], t.places[4], t.places[5], t.places[6],
      t.places[7]] = t.places := by
    ext i low
    interval_cases i <;> rfl
  simp only [decodeTariff, decodeBand, decodePlace, encodeTariff, encodeBand, encodePlace, List.append_assoc, byteAt,
    wordAt, fieldAt_skip, fieldAt_first, fieldAt_last, byte_field, word_field, bands, places, Nat.reduceLeDiff, Nat.reduceSub,
    Nat.reduceMul, Nat.reduceAdd, Nat.le_refl]

/-! ## Whole frames -/

/-- The bytes are a code of the table and its whole operand phase, and spell the command (R179, R183). -/
structure Spells (p : Port) (c : Instr) (code : Byte) (operands : List Byte) (row : CommandRow) : Prop where
  known : commandRow code.toNat = some row
  whole : operands.length = row.operands
  decoded : decodeOperands p code.toNat operands = some c

theorem encodeFrame_spells (h : encodeFrame c = some (p, bytes)) : commandPort c = some p ∧
    ((∃ code, c = .unknownCommand p code ∧ bytes = [code]) ∨
      ∃ code operands row, bytes = code :: operands ∧ Spells p c code operands row) := by
  cases c with
  | unknownCommand _ code =>
    cases h
    exact ⟨rfl, .inl ⟨code, rfl, rfl⟩⟩
  | status | readBalance | readTime | takeNotice | endNotice | readMail | releaseTrip | portReset | renewLimit
  | readNextReceipt | readNextOrphan =>
    cases h
    exact ⟨rfl, .inr ⟨_, _, _, rfl, rfl, rfl, rfl⟩⟩
  | loadTariff _ t =>
    cases h
    have spelled : some (Instr.loadTariff p (decodeTariff (encodeTariff t))) = some (Instr.loadTariff p t) := by
      rw [decodeTariff_encodeTariff]
    refine ⟨rfl, .inr ⟨_, _, _, rfl, rfl, ?_, spelled⟩⟩
    simp [encodeTariff, encodeBand, encodePlace, length_leBytes]
  | readSession | readNode | readReceipt | setNoticeMask | sendMail | setSite | setLimits | setBattery | setCanopy
  | configurePoint | removePoint | holdPoint | setPolicy | setTime | setRetention | openSession | closeSession
  | pauseSession | setClass | collectReceipt | closeOrphan =>
    cases h
    refine ⟨rfl, .inr ⟨_, _, _, rfl, rfl, rfl, ?_⟩⟩
    simp only [decodeOperands, BitVec.reduceToNat, List.append_assoc, byteAt, wordAt, longAt,
      fieldAt_skip, fieldAt_first, fieldAt_last, byte_field, word_field, long_field, message_field, Nat.reduceLeDiff,
      Nat.reduceSub, Nat.le_refl]
  | _ => nomatch h

/-- A whole frame is decoded whatever follows it (R179, R180). -/
theorem Spells.decodes {code : Byte} {operands : List Byte} {row : CommandRow} (h : Spells p c code operands row)
    (rest : List Byte) (bits : Fin 8) : decodeFrame p (code :: operands ++ rest) bits = some c := by
  have phase : ¬(operands ++ rest).length < row.operands := by
    rw [List.length_append, h.whole]
    omega
  rw [List.cons_append, decodeFrame, h.known]
  dsimp only
  rw [if_neg phase, List.take_left' h.whole, h.decoded]

/-- A frame cut inside the operand phase is a short frame (R180). -/
theorem Spells.short {code : Byte} {operands : List Byte} {row : CommandRow} (h : Spells p c code operands row)
    {k : Nat} (cut : k < operands.length) (bits : Fin 8) :
    decodeFrame p (code :: operands.take k) bits = some (.shortFrame p) := by
  have phase : (operands.take k).length < row.operands := by
    rw [List.length_take, ← h.whole]
    omega
  rw [decodeFrame, h.known]
  exact if_pos phase

/-- A byte that names no command has no operand phase (R182). -/
theorem decodeFrame_unknown {code : Byte} (unknown : commandRow code.toNat = none) (rest : List Byte) (bits : Fin 8) :
    decodeFrame p (code :: rest) bits = some (.unknownCommand p code) := by
  rw [decodeFrame, unknown]

/-- A select that ends inside the command byte is a short frame (R180). -/
theorem decodeFrame_nil {bits : Fin 8} (clocked : 0 < bits) : decodeFrame p [] bits = some (.shortFrame p) :=
  if_neg (Fin.ne_of_gt clocked)

end Sys2Proof.Machine
end

section
/-! SUPPORT. The statement about frames. -/

open Sys2Proof Sys2Proof.Machine Sys2Proof.Machine.State

/-- Settles O53: a frame is a code and its whole operand phase, or a byte that names no command. -/
theorem framesDecodeToTheirCommands : Obligations.FramesDecodeToTheirCommands := by
  refine ⟨fun c p bytes rest bits wellFormed frame => ?_, fun p => rfl⟩
  obtain ⟨port, ⟨code, rfl, rfl⟩ | ⟨code, operands, row, rfl, spells⟩⟩ := encodeFrame_spells frame
  · have unknown : commandRow code.toNat = none := Option.isNone_iff_eq_none.mp wellFormed
    refine ⟨port, decodeFrame_unknown unknown rest bits, fun k cut clocked => ?_⟩
    obtain rfl : k = 0 := Nat.lt_one_iff.mp cut
    exact decodeFrame_nil (clocked.resolve_left (Nat.lt_irrefl 0))
  · refine ⟨port, spells.decodes rest bits, fun k cut clocked => ?_⟩
    cases k with
    | zero => exact decodeFrame_nil (clocked.resolve_left (Nat.lt_irrefl 0))
    | succ k => exact spells.short (Nat.lt_of_succ_lt_succ cut) bits

end

section
/-! SUPPORT. Bytes that name no command, and commands of the other port (R182). -/

namespace Sys2Proof.Machine

open Sys2Proof State

variable {s : State} {p : Port} {c : Instr} {code : Byte} {operands : List Byte} {row : CommandRow}

/-! ## Commands of the other port -/

theorem State.wrongPort_answered (p : Port) : s.answeredWrongPort p (s.wrongPort p) :=
  ⟨by cases p <;> exact ⟨rfl, rfl⟩, wrongPort_only p⟩

theorem State.unknown_answered (p : Port) : s.answered p ⟨0x06, 0, []⟩ (s.unknown p) := by
  cases p <;> exact ⟨rfl, rfl⟩

/-- A command of port S is foreign to port C only. -/
theorem siteOnly_foreign {n k : Nat} (site : some ⟨.siteOnly, n, k⟩ = some row) (foreign : row.issuers.allows p = false)
    (f : State → State) : s.onSite p f = s.wrongPort p := by
  cases site
  cases p with
  | s => cases foreign
  | c => rfl

/-- A command of port C is foreign to port S only. -/
theorem chargeOnly_foreign {n k : Nat} (charge : some ⟨.chargeOnly, n, k⟩ = some row)
    (foreign : row.issuers.allows p = false) (f : State → State) : s.onCharge p f = s.wrongPort p := by
  cases charge
  cases p with
  | s => rfl
  | c => cases foreign

theorem both_not_foreign {n k : Nat} (both : some ⟨.both, n, k⟩ = some row) : row.issuers.allows p ≠ false := by
  cases both
  nofun

/-- A command of the other port is answered WRONG_PORT (R182). -/
theorem exec_foreign (frame : encodeFrame c = some (p, code :: operands)) (known : commandRow code.toNat = some row)
    (foreign : row.issuers.allows p = false) (wellFormed : WellFormed c = true) : exec c s = .next (s.wrongPort p) := by
  cases c with
  | unknownCommand _ b =>
    cases frame
    rw [Option.isNone_iff_eq_none.mp wellFormed] at known
    cases known
  | status | readBalance | readTime | takeNotice | endNotice | readMail | releaseTrip | portReset | readSession | readNode
  | readReceipt | setNoticeMask | sendMail =>
    cases frame
    exact absurd foreign (both_not_foreign known)
  | setSite | setLimits | renewLimit | setBattery | setCanopy | configurePoint | removePoint | holdPoint | setPolicy
  | setTime | setRetention =>
    cases frame
    exact congrArg Host.Outcome.next (siteOnly_foreign known foreign _)
  | loadTariff | openSession | closeSession | pauseSession | setClass | readNextReceipt | collectReceipt | readNextOrphan
  | closeOrphan =>
    cases frame
    exact congrArg Host.Outcome.next (chargeOnly_foreign known foreign _)
  | _ => nomatch frame

/-- The code and the operands of a command's frame, where the code is one of the table. -/
theorem encodeFrame_whole (frame : encodeFrame c = some (p, code :: operands)) (wellFormed : WellFormed c = true)
    (known : commandRow code.toNat = some row) : Spells p c code operands row := by
  obtain ⟨_, ⟨b, rfl, same⟩ | ⟨b, bs, r, same, spells⟩⟩ := encodeFrame_spells frame
  · cases same
    rw [Option.isNone_iff_eq_none.mp wellFormed] at known
    cases known
  · cases same
    obtain rfl := Option.some.inj (spells.known.symm.trans known)
    exact spells

theorem execUnknownCommand_unknown (unknown : commandRow code.toNat = none) :
    execUnknownCommand p code s = .next (s.unknown p) := by
  rw [execUnknownCommand, unknown]

end Sys2Proof.Machine
end

section
/-! SUPPORT. The statement about unknown and foreign commands. -/

open Sys2Proof Sys2Proof.Machine Sys2Proof.Machine.State

/-- Settles O49: the frame of a foreign command decodes to it, and it is answered before its operation. -/
theorem unknownAndForeignCommandsChangeNothing : Obligations.UnknownAndForeignCommandsChangeNothing := by
  refine ⟨fun p code rest bits s unknown => ⟨decodeFrame_unknown unknown rest bits, s.unknown p,
    execUnknownCommand_unknown unknown, unknown_answered p, unknown_only p⟩, ?_⟩
  intro c p code operands rest bits row s wellFormed frame known foreign
  have spells := encodeFrame_whole frame wellFormed known
  have denied : ∃ t, exec c s = .next t ∧ s.answeredWrongPort p t :=
    ⟨s.wrongPort p, exec_foreign frame known foreign wellFormed, wrongPort_answered p⟩
  refine ⟨spells.whole, fun d decoded => ?_, denied⟩
  obtain rfl := Option.some.inj ((spells.decodes rest bits).symm.trans decoded)
  exact denied

end

section
/-! SUPPORT. Every port command is answered on its own port, and a command that is turned away changes nothing (R179 to
R182). -/

namespace Sys2Proof.Machine

open Sys2Proof State

variable {s t u : State} {p : Port} {c : Instr}

/-! ## Answers -/

theorem Status.code_range (a : Status) :
    1 ≤ (BitVec.ofNat 8 a.code).toNat ∧ (BitVec.ofNat 8 a.code).toNat ≤ 6 := by
  cases a <;> decide

/-- The port was given a reply of R181; one that turns the command away comes with no result and no other change. -/
def State.Replied (p : Port) (s t : State) : Prop :=
  ∃ r, s.answered p r t ∧ (1 ≤ r.status.toNat ∧ r.status.toNat ≤ 6) ∧
    (3 ≤ r.status.toNat → r.result = [] ∧ s.onlyChanges [.replies] t)

namespace State.Replied

theorem ok (same : t.replies = s.replies) (clamped : Bool) (bytes : List Byte) : s.Replied p (t.ok p clamped bytes) :=
  ⟨_, ok_answered p clamped bytes same, Status.ok.code_range,
    fun denied => absurd denied (by decide : ¬3 ≤ (0x01 : Byte).toNat)⟩

theorem accepted (same : t.replies = s.replies) (bytes : List Byte) : s.Replied p (t.accepted p bytes) :=
  ⟨_, accepted_answered p bytes same, Status.accepted.code_range,
    fun denied => absurd denied (by decide : ¬3 ≤ (0x02 : Byte).toNat)⟩

theorem turnDown (status : Status) (reason : Reason) : s.Replied p (s.turnDown p status reason) := by
  obtain ⟨answered, only⟩ := turnDown_turnedAway (s := s) p status reason
  exact ⟨_, answered, status.code_range, fun _ => ⟨rfl, only⟩⟩

theorem wrongPort : s.Replied p (s.wrongPort p) := by
  obtain ⟨answered, only⟩ := wrongPort_answered (s := s) p
  exact ⟨_, answered, by decide, fun _ => ⟨rfl, only⟩⟩

theorem unknown : s.Replied p (s.unknown p) :=
  ⟨_, unknown_answered p, by decide, fun _ => ⟨rfl, unknown_only p⟩⟩

theorem ite {b : Prop} [Decidable b] (h : s.Replied p t) (k : s.Replied p u) : s.Replied p (if b then t else u) := by
  split
  · exact h
  · exact k

theorem onSite {f : State → State} (h : s.Replied .s (f s)) : s.Replied p (s.onSite p f) := by
  cases p
  · exact h
  · exact wrongPort

theorem onCharge {f : State → State} (h : s.Replied .c (f s)) : s.Replied p (s.onCharge p f) := by
  cases p
  · exact wrongPort
  · exact h

end State.Replied

/-! ## Commands of both ports -/

theorem execReadSession_replied (point : Byte) : ∃ t, execReadSession p point s = .next t ∧ s.Replied p t := by
  refine ⟨_, rfl, ?_⟩
  split
  · exact .turnDown _ _
  · exact .ok (by rfl) _ _

theorem execReadNode_replied (node : Byte) : ∃ t, execReadNode p node s = .next t ∧ s.Replied p t := by
  refine ⟨_, rfl, ?_⟩
  split
  · exact .turnDown _ _
  · exact .ok (by rfl) _ _

theorem giveReceipt_replied (number slot : Nat) : s.Replied p (s.giveReceipt p number slot) := .ok (by rfl) _ _

theorem execReadReceipt_replied (number : Word32) : ∃ t, execReadReceipt p number s = .next t ∧ s.Replied p t := by
  refine ⟨_, rfl, .ite (.turnDown _ _) ?_⟩
  split
  · exact .turnDown _ _
  · exact .ite (.turnDown _ _) (giveReceipt_replied _ _)

theorem execTakeNotice_replied : ∃ t, execTakeNotice p s = .next t ∧ s.Replied p t :=
  ⟨_, rfl, .ite (.ok (by rfl) _ _) (.ok (withNotices_replies p _) _ _)⟩

theorem execEndNotice_replied : ∃ t, execEndNotice p s = .next t ∧ s.Replied p t :=
  ⟨_, rfl, .ite (.turnDown _ _) (.ok (withNotices_replies p _) _ _)⟩

theorem execSendMail_replied (message : BitVec 256) : ∃ t, execSendMail p message s = .next t ∧ s.Replied p t :=
  ⟨_, rfl, .ite (.turnDown _ _) (.ok (by exact raise_replies _ _ _) _ _)⟩

theorem execReadMail_replied : ∃ t, execReadMail p s = .next t ∧ s.Replied p t := by
  refine ⟨_, rfl, ?_⟩
  split
  · exact .turnDown _ _
  · exact .ok (by rfl) _ _

theorem releaseTripOp_replied (p : Port) : s.Replied p (releaseTripOp p s) := by
  have released (v : State) : v.completeRelease.sendRecompute.replies = v.replies :=
    (sendRecompute_only .replies (by decide)).trans (completeRelease_only .replies (by decide))
  exact .ite (.ite (.ok (by exact released _) _ _) (.accepted (by rfl) _)) (.turnDown _ _)

theorem execUnknownCommand_replied {code : Byte} (unknown : commandRow code.toNat = none) :
    ∃ t, execUnknownCommand p code s = .next t ∧ s.Replied p t :=
  ⟨_, execUnknownCommand_unknown unknown, .unknown⟩

/-! ## Commands of port S -/

theorem setSiteOp_replied (tBal vNom : Word16) (rate tReply : Byte) :
    s.Replied .s (setSiteOp tBal vNom rate tReply s) := by
  unfold setSiteOp
  split
  · exact .turnDown _ _
  · exact .ok (by rfl) _ _

theorem setLimitsOp_replied (x : LimitsOperand) : s.Replied .s (setLimitsOp x s) :=
  .ite (.turnDown _ _) (.ok (acceptLimits_only (clampLimits x) .replies (by decide)) _ _)

theorem renewLimitOp_replied : s.Replied .s (renewLimitOp s) := by
  refine .ite (.turnDown _ _) ?_
  split
  · exact .ok (by rfl) _ _
  · exact .ok (by exact republishAndAsk_only .replies (by decide)) _ _
  · exact .ok (by rfl) _ _

theorem setBatteryOp_replied (discharge charge : Word32) (socLo socHi : Word16) :
    s.Replied .s (setBatteryOp discharge charge socLo socHi s) :=
  .ite (.turnDown _ _) (.ok (by exact enrol_only _ .replies (by decide)) _ _)

theorem setCanopyOp_replied (rating failsafe : Word32) : s.Replied .s (setCanopyOp rating failsafe s) :=
  .ok (by exact enrol_only canopyNode .replies (by decide)) _ _

theorem configurePointOp_replied (point kind : Byte) (maximum minimum failsafe : Word32) :
    s.Replied .s (configurePointOp point kind maximum minimum failsafe s) := by
  unfold configurePointOp
  split
  · exact .ite (.turnDown _ _) (.ok (configurePoint_only _ _ _ .replies (by decide)) _ _)
  · exact .turnDown _ _

theorem removePointOp_replied (node : Byte) : s.Replied .s (removePointOp node s) := by
  unfold removePointOp
  split
  · exact .turnDown _ _
  · exact .ite (.turnDown _ _) (.ite (.ok (by rfl) _ _) (.ok (removeNode_only _ .replies (by decide)) _ _))

theorem State.flagCommand_replied (p : Port) (point setting : Byte) (write : Session → Bool → Session) :
    s.Replied p (s.flagCommand p point setting write) := by
  unfold flagCommand
  split
  · exact .ite (.ok (by exact applyStop_only _ .replies (by decide)) _ _) (.turnDown _ _)
  · exact .turnDown _ _

theorem setPolicyOp_replied (x : PolicyOperand) : s.Replied .s (setPolicyOp x s) := by
  unfold setPolicyOp
  split
  · exact .turnDown _ _
  · exact .ok (by rfl) _ _

theorem setRetentionOp_replied (n : Nat) : s.Replied .s (setRetentionOp n s) := by
  refine .ok ?_ _ _
  split
  · rfl
  · split
    · rfl
    · exact eraseTest_only .replies (by decide)

/-! ## Commands of port C -/

theorem loadTariffOp_replied (x : TariffOperand) : s.Replied .c (loadTariffOp x s) :=
  .ite (.turnDown _ _) (.ite (.turnDown _ _) (.ite (.turnDown _ _) (.ite (.turnDown _ _) (.ok (by rfl) _ _))))

theorem openSessionOp_replied (point : Byte) (customer : Word32) (cls : Byte) :
    s.Replied .c (openSessionOp point customer cls s) := by
  unfold openSessionOp
  split
  · dsimp only
    split
    · exact .turnDown _ _
    · next reserved =>
      have same := reserveWith_only reserved .replies (by decide)
      exact .accepted (by exact (openSession_only _ _ _ .replies (by decide)).trans same) _
    · exact .turnDown _ _
    · exact .turnDown _ _
  · exact .turnDown _ _

theorem closeSessionOp_replied (point : Byte) : s.Replied .c (closeSessionOp point s) := by
  unfold closeSessionOp
  split
  · exact .turnDown _ _
  · exact .ite (.accepted (startClose_only _ _ .replies (by decide)) _) (.turnDown _ _)

theorem setClassOp_replied (point cls : Byte) : s.Replied .c (setClassOp point cls s) := by
  unfold setClassOp
  split
  · exact .ite (.turnDown _ _) (.ok (by rfl) _ _)
  · exact .turnDown _ _

theorem readNextReceiptOp_replied : s.Replied .c (readNextReceiptOp s) := by
  refine .ite (.turnDown _ _) ?_
  split
  · exact .turnDown _ _
  · exact giveReceipt_replied _ _

theorem collectReceiptOp_replied (number : Nat) : s.Replied .c (collectReceiptOp number s) := by
  refine .ite (.turnDown _ _) (.ite (.turnDown _ _) ?_)
  split
  · exact .turnDown _ _
  · exact .ite (.turnDown _ _) (.ite (.turnDown _ _) (.ite (.turnDown _ _) (.ok (by rfl) _ _)))

theorem readNextOrphanOp_replied : s.Replied .c (readNextOrphanOp s) := by
  refine .ite (.turnDown _ _) ?_
  split
  · exact .turnDown _ _
  · exact .ok (by rfl) _ _

theorem closeOrphanOp_replied (number : Nat) (register : Word32) : s.Replied .c (closeOrphanOp number register s) :=
  .ite (.turnDown _ _) (.ite (.turnDown _ _) (.ite (.turnDown _ _) (.ite (.turnDown _ _) (.ite (.turnDown _ _)
    (.ok (by rfl) _ _)))))

/-! ## Every port command -/

/-- Every port command is answered on its own port (R179, R181). -/
theorem exec_replied (port : commandPort c = some p) (wellFormed : WellFormed c = true) :
    ∃ t, exec c s = .next t ∧ s.Replied p t := by
  cases c with
  | unknownCommand q code =>
    cases port
    exact execUnknownCommand_replied (Option.isNone_iff_eq_none.mp wellFormed)
  | status | readBalance | readTime =>
    cases port
    exact ⟨_, rfl, .ok (by rfl) _ _⟩
  | readSession q point => cases port; exact execReadSession_replied point
  | readNode q node => cases port; exact execReadNode_replied node
  | readReceipt q number => cases port; exact execReadReceipt_replied number
  | takeNotice q => cases port; exact execTakeNotice_replied
  | endNotice q => cases port; exact execEndNotice_replied
  | setNoticeMask q enables threshold => cases port; exact ⟨_, rfl, .ok (withNotices_replies p _) _ _⟩
  | sendMail q message => cases port; exact execSendMail_replied message
  | readMail q => cases port; exact execReadMail_replied
  | releaseTrip q => cases port; exact ⟨_, rfl, releaseTripOp_replied p⟩
  | portReset q => cases port; exact ⟨_, rfl, .ok (by exact withNotices_replies p _) _ _⟩
  | setSite q => cases port; exact ⟨_, rfl, .onSite (setSiteOp_replied _ _ _ _)⟩
  | setLimits q => cases port; exact ⟨_, rfl, .onSite (setLimitsOp_replied _)⟩
  | renewLimit q => cases port; exact ⟨_, rfl, .onSite renewLimitOp_replied⟩
  | setBattery q => cases port; exact ⟨_, rfl, .onSite (setBatteryOp_replied _ _ _ _)⟩
  | setCanopy q => cases port; exact ⟨_, rfl, .onSite (setCanopyOp_replied _ _)⟩
  | configurePoint q => cases port; exact ⟨_, rfl, .onSite (configurePointOp_replied _ _ _ _ _)⟩
  | removePoint q => cases port; exact ⟨_, rfl, .onSite (removePointOp_replied _)⟩
  | holdPoint q => cases port; exact ⟨_, rfl, .onSite (flagCommand_replied .s _ _ _)⟩
  | setPolicy q => cases port; exact ⟨_, rfl, .onSite (setPolicyOp_replied _)⟩
  | setTime q => cases port; exact ⟨_, rfl, .onSite (.ok (by rfl) _ _)⟩
  | setRetention q => cases port; exact ⟨_, rfl, .onSite (setRetentionOp_replied _)⟩
  | loadTariff q => cases port; exact ⟨_, rfl, .onCharge (loadTariffOp_replied _)⟩
  | openSession q => cases port; exact ⟨_, rfl, .onCharge (openSessionOp_replied _ _ _)⟩
  | closeSession q => cases port; exact ⟨_, rfl, .onCharge (closeSessionOp_replied _)⟩
  | pauseSession q => cases port; exact ⟨_, rfl, .onCharge (flagCommand_replied .c _ _ _)⟩
  | setClass q => cases port; exact ⟨_, rfl, .onCharge (setClassOp_replied _ _)⟩
  | readNextReceipt q => cases port; exact ⟨_, rfl, .onCharge readNextReceiptOp_replied⟩
  | collectReceipt q => cases port; exact ⟨_, rfl, .onCharge (collectReceiptOp_replied _)⟩
  | readNextOrphan q => cases port; exact ⟨_, rfl, .onCharge readNextOrphanOp_replied⟩
  | closeOrphan q => cases port; exact ⟨_, rfl, .onCharge (closeOrphanOp_replied _ _)⟩
  | _ => nomatch port

/-! ## What SDO carries -/

/-- SDO carries the reply behind the turnaround phase (section 10.1, R179). -/
theorem sdoByte_reply (operands i : Nat) (r : Reply) : sdoByte operands (some r) i =
    if i < operands + 3 then 0
    else if i = operands + 3 then r.status
    else if i = operands + 4 then r.qualifier
    else r.result.getD (i - (operands + 5)) 0 := by
  unfold sdoByte
  split
  · rfl
  · next behind =>
    obtain ⟨j, rfl⟩ := Nat.exists_eq_add_of_le (Nat.le_of_not_lt behind)
    rw [Nat.add_sub_cancel_left]
    match j with
    | 0 => simp
    | 1 => simp
    | j + 2 =>
      rw [if_neg (by omega), if_neg (by omega), show operands + 3 + (j + 2) - (operands + 5) = j by omega]
      simp

/-- With no reply SDO stays 0x00 (R180; log entry 31). -/
theorem sdoByte_none (operands i : Nat) : sdoByte operands none i = 0 := ite_self _

theorem State.clearReply_replyOf (p : Port) : (s.clearReply p).replyOf p = none ∧
    (s.clearReply p).replyOf (otherPort p) = s.replyOf (otherPort p) ∧ (s.clearReply p).frameErrors = s.frameErrors := by
  cases p <;> exact ⟨rfl, rfl, rfl⟩

end Sys2Proof.Machine
end

section
/-! SUPPORT. The statement about commands turned away. -/

open Sys2Proof Sys2Proof.Machine Sys2Proof.Machine.State

/-- Settles O52, command by command: each ends in one reply on its own port, and those that turn it away end in nothing
else. -/
theorem commandsTurnedAwayChangeNothing : Obligations.CommandsTurnedAwayChangeNothing := by
  refine ⟨fun c p s port wellFormed => ?_, fun p s => ?_⟩
  · obtain ⟨t, e, r, answered, status, denied⟩ := exec_replied (s := s) port wellFormed
    refine ⟨t, r, e, answered, status, denied, fun operands i => ?_⟩
    rw [answered.1]
    exact sdoByte_reply operands i r
  · obtain ⟨none, other, errors⟩ := clearReply_replyOf (s := s.withFrameErrors (s.frameErrors.count p)) p
    refine ⟨_, rfl, execShortFrame_only rfl, none, other, fun operands i => ?_, ?_⟩
    · rw [none]
      exact sdoByte_none operands i
    · rw [errors]
      cases p <;> rfl

end
